-- ==== Sys2Proof/Word.lean ====
section
/-! DEFINITION. The words of the part: bytes, 40-bit link addresses, stream numbers. -/

namespace Sys2Proof

/-- A byte of either transaction link, of a record in DRAM, or of the management frame. -/
abbrev Byte := BitVec 8

/-- An address on both transaction ports is 40 bits wide (00_scope.md, 4.2). -/
abbrev Addr := BitVec 40

/-- There are 16 streams, numbered 0 to 15 (00_scope.md, 3). -/
abbrev StreamId := Fin 16

end Sys2Proof
end

