-- ==== Sys2Proof/Config.lean ====
section
/-! DEFINITION. The fixed quantities of the KT3208 (00_scope.md, 4.5), and the one value that the manual leaves open. What the
board or the memory brings comes in with the commands. -/

namespace Sys2Proof.Config

/-- Banks of map memory, numbered 0 to 159 (R19, R20). -/
def banks : Nat := 160

/-- Cells of one bank (02_the_tile_map.md, 2.1). -/
def cellsPerBank : Nat := 1024

/-- Assembly entries (R39). -/
def entries : Nat := 64

/-- Requests the hold queue can hold (R137). -/
def holdQueue : Nat := 16

/-- Internal transfers issued and unanswered at any moment (R146). -/
def internalIssued : Nat := 8

/-- Lines of a stream's line-window store (R98). -/
def storeLines : Nat := 1088

/-- Tiles per frame, at most (00_scope.md, 4.5; R161). -/
def maxTiles : Nat := 6528

/-- The largest frame number (R114, R115). -/
def lastFrame : Nat := 4294967295

/-- The value at which the 16-bit counts stop (R127, R175). -/
def countStop : Nat := 65535

/-- One past the last 40-bit address. -/
def addressEnd : Nat := 2 ^ 40

/-- Alignment of aperture bases, view strides, storage bases and raster offsets (R161). -/
def page : Nat := 4096

/-- How many rounds of events an unfinished step runs before it leaves the rest to the next step (log entry 9). -/
def cascadeRounds : Nat := 64

/-- The tag, 0 to 63, that the port puts on the transfer with a number (R131): a FREE VALUE. The manual gives the downstream
link tags and does not say which tag a transfer carries (DESIGN CHOICE, log entry 26). -/
opaque freeTag : Nat → Fin 64

end Sys2Proof.Config
end

