-- ==== Sys2Proof/Syntax.lean ====
section
/-! DEFINITION. The commands of the part: one constructor of `Instr` for each row of spec/opcode_table.json, with the
operands that the rule of the row gives it. -/

namespace Sys2Proof

/-- What the MODE strap selects (R167). -/
inductive Mode where
  | managed
  | transparent
  deriving DecidableEq, Repr

/-- The kind of a request or transfer on either transaction link (R131). -/
inductive ReqKind where
  | read
  | write
  deriving DecidableEq, Repr

/-- A request on a transaction link (R131). A WRITE carries `32 * beats` data bytes and as many byte enables, lane `n`
belonging to address `addr + n` (PRESUMED, log entry 10); a READ carries none. -/
structure Request where
  kind    : ReqKind
  addr    : Addr
  /-- the length in beats of 32 bytes; a length outside 1 to 8 fails the shape checks (R133) -/
  beats   : Nat
  tag     : Fin 64
  data    : List Byte
  enables : List Bool
  deriving DecidableEq, Repr

/-- The two statuses of the DRAM controller's answers (R149). -/
inductive DramStatus where
  | okay
  | dataError
  deriving DecidableEq, Repr

/-- A response on the downstream channel (R131, R149): its tag, its status and, for a READ, its data. Any number of issued
transfers may carry one tag, and answers come in any order: `xfer` says which of them it answers (log entries 12, 26). -/
structure DramAnswer where
  tag    : Fin 64
  xfer   : Nat
  status : DramStatus
  data   : List Byte
  deriving DecidableEq, Repr

/-- The commit kinds (00_scope.md, 3; R60). -/
inductive CommitKind where
  | changed
  | aliased
  | retained
  | partialTile
  | exempt
  | collided
  deriving DecidableEq, Repr

/-- The state of a map entry (R24): BLANK, OWNED, or ALIAS with its owner slot. -/
inductive TileState where
  | blank
  | owned
  | aliasOf (owner : Nat)
  deriving DecidableEq, Repr

/-- A map entry (R24). The last commit frame number is present exactly when the last commit kind is. -/
structure MapEntry where
  state : TileState
  last  : Option (CommitKind × Nat)
  deriving DecidableEq, Repr

/-- A position record (R26): a signature or none, and an owner slot that means nothing without one. -/
structure PosRecord where
  sig   : Option (BitVec 32)
  owner : Nat
  deriving DecidableEq, Repr

/-- What a cell of map memory holds (02_the_tile_map.md, 2.1): the cleared contents of R21, which read as either, a map
entry, or a position record. -/
inductive CellVal where
  | cleared
  | entry (e : MapEntry)
  | record (r : PosRecord)
  deriving DecidableEq, Repr

/-- What a cell's check bits say when the cell is read (R28). -/
inductive Ecc where
  | good
  | single
  | double
  deriving DecidableEq, Repr

/-- An upset of one cell of map memory: what the code will find there from now on and, where three or more bits are wrong
and are found as something else, the contents it will take for the cell's (R28; log entry 4). -/
structure Upset where
  bank  : Fin 160
  cell  : Fin 1024
  found : Ecc
  taken : Option CellVal
  deriving DecidableEq, Repr

/-- The commands: one constructor for each row of spec/opcode_table.json, in the table's order. A command of the
management link carries the stream byte and the 64-bit argument of its frame (R152), which the command may ignore (R153);
the end of a frame carries the bits on MSDI since the last event of the frame. -/
inductive Instr where
  | pinReset (strap : Mode)
  | partReady
  | upstreamRequest (r : Request)
  | responseDelivery
  | holdRelease
  | arbiterGrant
  | passThroughAnswer (a : DramAnswer)
  | homeReadAnswer (a : DramAnswer)
  | verifyReadAnswer (a : DramAnswer)
  | mergeReadAnswer (a : DramAnswer)
  | commitWriteAnswer (a : DramAnswer)
  | commitCompletion (st : StreamId) (pos : Nat)
  | copyReadAnswer (a : DramAnswer)
  | migrationCompletion (st : StreamId) (pos : Nat)
  | ageTick (upsets : List Upset)
  | ageExpiry (st : StreamId) (pos : Nat)
  | identify (sb : Byte) (arg : BitVec 64)
  | readStatus (sb : Byte) (arg : BitVec 64)
  | readStream (sb : Byte) (arg : BitVec 64)
  | readCause (sb : Byte) (arg : BitVec 64)
  | setCauseLevel (sb : Byte) (arg : BitVec 64)
  | setAge (sb : Byte) (arg : BitVec 64)
  | streamSetup (sb : Byte) (arg : BitVec 64)
  | streamAdvance (sb : Byte) (arg : BitVec 64)
  | streamTeardown (sb : Byte) (arg : BitVec 64)
  | windowSet (sb : Byte) (arg : BitVec 64)
  | resetPart (sb : Byte) (arg : BitVec 64)
  | unknownCommand (code : Byte) (sb : Byte) (arg : BitVec 64)
  | managementFrameEnd (msdi : List Bool)
  | descriptorFetchAnswer (a : DramAnswer)
  | windowDescriptorReadAnswer (a : DramAnswer)
  | lineTableReadAnswer (a : DramAnswer)
  | closeFirstPhaseEnd (st : StreamId)
  | statusMapWriteAnswer (a : DramAnswer)
  | frameRecordWriteAnswer (a : DramAnswer)
  | frameOpen (st : StreamId)
  | discardedAnswer (a : DramAnswer)
  | drainEnd (st : StreamId)
  | copyWriteAnswer (a : DramAnswer)
  | managementFrameStart
  deriving DecidableEq, Repr

end Sys2Proof
end

