-- ==== Sys2Proof/Decode.lean ====
section
/-! DEFINITION. Decoding: by the table's bits (no row of spec/opcode_table.json gives bits, so no word spells a command), and
of the management link's command codes and frames (R152, R153). -/

namespace Sys2Proof

/-- The command that a word spells by the bits of spec/opcode_table.json: none, since none of its 40 rows has bits. The
bytes of a management frame belong to the frame, not to the table: `commandOf` and `Frame` decode them. -/
def decodeTableWord (_nbits _w : Nat) : Option Instr := none

/-- The commands of the command table (R153). -/
inductive Command where
  | identify
  | readStatus
  | readStream
  | readCause
  | setCauseLevel
  | setAge
  | streamSetup
  | streamAdvance
  | streamTeardown
  | windowSet
  | resetPart
  deriving DecidableEq, Repr

/-- The command table: each code with its command (R153). -/
def commandTable : List (Byte × Command) :=
  [(0x01, .identify), (0x02, .readStatus), (0x03, .readStream), (0x04, .readCause), (0x05, .setCauseLevel), (0x06, .setAge),
    (0x10, .streamSetup), (0x11, .streamAdvance), (0x12, .streamTeardown), (0x13, .windowSet), (0x7E, .resetPart)]

/-- The command with a code, or none for a code that is not in the command table (R153). -/
def commandOf (code : Byte) : Option Command := commandTable.lookup code

/-! ### The bits of a management frame (R152) -/

/-- The `w` low bits of a value, most significant first, as they are shifted. -/
def bitsOf : Nat → Nat → List Bool
  | 0, _ => []
  | w + 1, v => v.testBit w :: bitsOf w v

/-- The value of bits shifted most significant first. -/
def bitsNat : List Bool → Nat
  | [] => 0
  | b :: t => b.toNat * 2 ^ t.length + bitsNat t

/-- The bits of bytes 0 to 9 of a frame: command code, stream number, argument, each most significant first (R152). -/
def frameBits (code sb : Byte) (arg : BitVec 64) : List Bool :=
  bitsOf 8 code.toNat ++ bitsOf 8 sb.toNat ++ bitsOf 64 arg.toNat

/-- Byte 0 of the shifted bits: the command code (R152). -/
def frameCode (bits : List Bool) : Byte := BitVec.ofNat 8 (bitsNat (bits.take 8))

/-- Byte 1 of the shifted bits: the stream number (R152). -/
def frameStream (bits : List Bool) : Byte := BitVec.ofNat 8 (bitsNat ((bits.drop 8).take 8))

/-- Bytes 2 to 9 of the shifted bits: the argument (R152). -/
def frameArg (bits : List Bool) : BitVec 64 := BitVec.ofNat 64 (bitsNat (bits.drop 16))

end Sys2Proof
end

