-- ==== Sys2Proof/Machine/State.lean ====
section
/-! DEFINITION. The state of the part, as plain data, and its value after pin reset. INVENTORY.md, '## State', gives for each
field the rule that names it. -/

namespace Sys2Proof.Machine

/-- Why the part could stop with a fault: never. A fault of a STREAM (R178) is a next state of the part, and no rule stops
the part itself, so this type has no constructor. Safe. -/
inductive Fault where
  deriving DecidableEq, Repr

/-- Why a command could be refused. -/
inductive Refusal where
  /-- Raised only by `exec` for a command that has no meaning yet; none is left. Safe. -/
  | notModelled (mnemonic : String)
  deriving DecidableEq, Repr

/-- The outcome of a command. -/
abbrev Result (σ : Type) := Host.Outcome σ Fault Refusal

/-- The part state (R168). -/
inductive PartState where
  | starting
  | ready
  deriving DecidableEq, Repr

/-- The states of a stream (R155). -/
inductive StreamState where
  | free
  | loading
  | opened
  | closing
  | faulted
  | draining
  deriving DecidableEq, Repr

/-- The close phases that last (R114); the fifth and sixth take no time of their own (R125). -/
inductive ClosePhase where
  | first
  | second
  | third
  | fourth
  deriving DecidableEq, Repr

/-- The last setup refusal reason (R156). -/
inductive SetupReason where
  | noReason
  | geometry
  | rangeOverlap
  | noRoom
  | fetchError
  deriving DecidableEq, Repr

/-- A plane of the stream descriptor (R5, R185). -/
structure Plane where
  raster   : Nat
  pitch    : Nat
  width    : Nat
  height   : Nat
  vfactor  : Nat
  colBytes : Nat
  fill     : Byte
  deriving DecidableEq, Repr

/-- The fields of a stream descriptor (01_apertures_views_and_slots.md, 1.2; R185). `planes` holds plane 0 and, with a
plane count of 2, plane 1. -/
structure Geom where
  aperture    : Nat
  viewStride  : Nat
  storage     : Nat
  statusBase  : Nat
  ringBase    : Nat
  ringEntries : Nat
  slots       : Nat
  planeCount  : Nat
  vacant      : Byte
  verify      : Bool
  threshold   : Nat
  initialWin  : Nat
  planes      : List Plane
  deriving DecidableEq, Repr

/-- An area setting of a window (R101). -/
inductive Area where
  | inside
  | outside
  deriving DecidableEq, Repr

/-- A logic setting of a process (R102). -/
inductive Logic where
  | anyOf
  | allOf
  deriving DecidableEq, Repr

/-- How one process uses one window: the enable flag and the area setting (R98). -/
structure WinUse where
  on   : Bool
  area : Area
  deriving DecidableEq, Repr

/-- The settings of one process (R98). -/
structure ProcSet where
  w0    : WinUse
  w1    : WinUse
  lw    : WinUse
  logic : Logic
  deriving DecidableEq, Repr

/-- A rectangle W0 or W1 in picture coordinates (R98, R99). -/
structure Rect where
  startCol  : Nat
  endCol    : Nat
  startLine : Nat
  endLine   : Nat
  deriving DecidableEq, Repr

/-- A window set but for its line entries, which stand in the store (R98). -/
structure WindowSet where
  w0     : Rect
  w1     : Rect
  n      : Nat
  mask   : ProcSet
  exempt : ProcSet
  change : ProcSet
  deriving DecidableEq, Repr

/-- A column span of the line-window store (R98). -/
structure Span where
  startCol : Nat
  endCol   : Nat
  deriving DecidableEq, Repr

/-- A window load whose descriptor has passed its checks and whose line table is being read (R109, R110). -/
structure WinLoad where
  set    : WindowSet
  table  : Nat
  got    : List (Nat × List Byte)
  failed : Bool
  deriving DecidableEq, Repr

/-- The frame record (R121). -/
structure FrameRecord where
  stream    : StreamId
  frame     : Nat
  slot      : Nat
  tiles     : Nat
  /-- the eight kind counts, in the order of the kind codes (R187) -/
  kinds     : List Nat
  changedIn : Nat
  evicted   : Nat
  aged      : Nat
  closed    : Nat
  migrated  : Nat
  slide     : Bool
  switched  : Bool
  rejected  : Bool
  deriving DecidableEq, Repr

/-- A stream record, with the stream's window state (R98, R114). A stream is reserved (R162) while `geom` is present. -/
structure Stream where
  state       : StreamState
  geom        : Option Geom
  banks       : List Nat
  frame       : Nat
  slot        : Nat
  phase       : Option ClosePhase
  evicted     : Nat
  aged        : Nat
  closed      : Nat
  migrated    : Nat
  switched    : Bool
  rejected    : Bool
  record      : Option FrameRecord
  reason      : SetupReason
  active      : WindowSet
  store       : List (Option Span)
  pendingWin  : Option Nat
  loadingWin  : Option Nat
  load        : Option WinLoad
  fetch       : List (Nat × List Byte)
  fetchFailed : Bool
  deriving DecidableEq, Repr

/-- The commit reasons (R61). -/
inductive Reason where
  | complete
  | evicted
  | aged
  | close
  deriving DecidableEq, Repr

/-- The state of an assembly entry in use (R39). -/
inductive EntryState where
  | collecting (age : Nat)
  | committing (reason : Reason)
  deriving DecidableEq, Repr

/-- An assembly entry in use (R39). The commit phase is the phase of its commit (R60). -/
structure Entry where
  num    : Nat
  stream : StreamId
  slot   : Nat
  plane  : Nat
  pos    : Nat
  data   : List Byte
  cov    : List Bool
  state  : EntryState
  deriving DecidableEq, Repr

/-- The paths of a commit (R61). -/
inductive CommitPath where
  | completePath
  | partialPath
  deriving DecidableEq, Repr

/-- The phases of a commit (R60). -/
inductive CommitPhase where
  | verify
  | merge
  | migrate
  | write
  deriving DecidableEq, Repr

/-- A commit in progress (R60). `got` holds the bytes that VERIFY or MERGE has read so far, by their offset in the tile, and
`readFailed` whether a verify read was answered DATA-ERROR (R66). `aliasers` pairs each aliaser with its view index (R36). -/
structure Commit where
  stream     : StreamId
  slot       : Nat
  pos        : Nat
  entry      : Nat
  reason     : Reason
  path       : CommitPath
  sig        : Option (BitVec 32)
  matched    : Option Nat
  prev       : TileState
  aliasers   : List (Nat × Nat)
  kind       : Option CommitKind
  phase      : Option CommitPhase
  got        : List (Nat × List Byte)
  readFailed : Bool
  deriving DecidableEq, Repr

/-- The steps of a migration (R84). -/
inductive CopyStep where
  | copyRead
  | copyWrite
  deriving DecidableEq, Repr

/-- A migration in flight (R84). -/
structure Migration where
  stream   : StreamId
  slot     : Nat
  pos      : Nat
  aliasers : List (Nat × Nat)
  newOwner : Nat
  step     : CopyStep
  got      : List (Nat × List Byte)
  deriving DecidableEq, Repr

/-- The owner of a transfer: the block, the operation and, for a tile transfer, the tile (R144). -/
inductive Owner where
  | passThrough (req : Nat)
  | homeRead (req : Nat) (piece : Nat)
  | verifyRead (st : StreamId) (pos : Nat)
  | mergeRead (st : StreamId) (pos : Nat)
  | commitWrite (st : StreamId) (pos : Nat)
  | copyRead (st : StreamId) (pos : Nat)
  | copyWrite (st : StreamId) (pos : Nat)
  | statusMap (st : StreamId)
  | frameRecord (st : StreamId)
  | descFetch (st : StreamId)
  | winDesc (st : StreamId)
  | lineTable (st : StreamId)
  deriving DecidableEq, Repr

/-- What a block gives for a transfer: what it carries on the downstream request channel, but for its tag (R131, R143). -/
structure Wire where
  kind    : ReqKind
  addr    : Addr
  beats   : Nat
  data    : List Byte
  enables : List Bool
  deriving DecidableEq, Repr

/-- A transfer held by the downstream port from its handing over to its answer (R143): the step in which it was handed over,
which with the block of its owner makes its group (R144), the tag it carries on the request channel (R131), issued or not,
abandoned by its owner or not (R146, R149). -/
structure Xfer where
  id        : Nat
  step      : Nat
  owner     : Owner
  tag       : Fin 64
  wire      : Wire
  issued    : Bool
  abandoned : Bool
  deriving DecidableEq, Repr

/-- The two classes of the downstream port (R144). -/
inductive PortClass where
  | passThrough
  | internal
  deriving DecidableEq, Repr

/-- The upstream response statuses (R135). -/
inductive RespStatus where
  | okay
  | declined
  | dataError
  | aborted
  deriving DecidableEq, Repr

/-- An answer that is ready (R134): its status and, for a READ, its data. -/
structure Answer where
  status : RespStatus
  data   : List Byte
  deriving DecidableEq, Repr

/-- A request taken and not yet delivered: a member of its tag's list in the tag order (R134). -/
structure Taken where
  id     : Nat
  tag    : Fin 64
  kind   : ReqKind
  beats  : Nat
  answer : Option Answer
  deriving DecidableEq, Repr

/-- A response on the upstream response channel (R131). -/
structure Response where
  tag    : Fin 64
  status : RespStatus
  data   : List Byte
  deriving DecidableEq, Repr

/-- The hold reasons with their objects (R137). -/
inductive HoldReason where
  | closing (st : StreamId)
  | tileBusy (st : StreamId) (slot : Nat) (pos : Nat)
  | migrating (st : StreamId) (pos : Nat)
  | noEntry (needed : Nat)
  | tagOrder
  | overlap
  deriving DecidableEq, Repr

/-- A held request (R137): the stream and the tiles of its last decode, if it has one, and whether its reason has cleared and
it waits for its retry in the pass (R140). -/
structure Held where
  id       : Nat
  req      : Request
  reason   : HoldReason
  stream   : Option StreamId
  tiles    : List (Nat × Nat)
  released : Bool
  deriving DecidableEq, Repr

/-- A piece of a resolved read (R29): the bytes it has, `none` where its home read brings them, and whether the home read is
still unanswered. -/
structure ReadPiece where
  known   : List (Option Byte)
  waiting : Bool
  deriving DecidableEq, Repr

/-- A resolved aperture read that is not yet answered (R32): the vacant byte it was resolved under, its pieces in address
order, and whether a home read was answered DATA-ERROR. -/
structure ResolvedRead where
  id     : Nat
  vacant : Byte
  pieces : List ReadPiece
  failed : Bool
  deriving DecidableEq, Repr

/-- A cause record (R170). Bit `n` of the stream set stands for stream `n` (R188). -/
structure CauseRec where
  pending : Bool
  streams : BitVec 16
  level   : Fin 4
  deriving DecidableEq, Repr

/-- A management frame in progress (R152): the byte and bit position, the bits of bytes 0 to 9 sampled on MSDI so far, and
the result code and data once the command has been taken. -/
structure Frame where
  byte     : Nat
  bit      : Nat
  shifted  : List Bool
  response : Option (List Byte)
  deriving DecidableEq, Repr

/-- A cell of map memory: its contents and what its check bits say (R28). -/
structure Cell where
  val : CellVal
  ecc : Ecc
  deriving DecidableEq, Repr

/-- The state of the part, and the queue of commands waiting. -/
structure State where
  pending       : List Instr
  mode          : Mode
  partState     : PartState
  clearing      : Bool
  refCount      : Nat
  tagOrder      : List Taken
  deliverable   : List Nat
  holdQ         : List Held
  reads         : List ResolvedRead
  entries       : List Entry
  lastWrite     : List Nat
  divider       : Nat
  ageLimit      : Nat
  commits       : List Commit
  migrations    : List Migration
  passClass     : List Xfer
  internal      : List Xfer
  lastGranted   : PortClass
  nextReq       : Nat
  nextXfer      : Nat
  stepNum       : Nat
  mapMem        : List (Nat × Cell)
  freeBanks     : List Nat
  corrected     : Nat
  causes        : Vector CauseRec 12
  frame         : Option Frame
  msdo          : List Byte
  upstreamOut   : Option Response
  downstreamOut : Option Xfer
  streams       : Vector Stream 16
  deriving DecidableEq, Repr

/-- A window that a process does not use: not enabled, area INSIDE. -/
def WinUse.off : WinUse := ⟨false, .inside⟩

/-- A process that is switched off: no window enabled, logic OR (R106). -/
def ProcSet.off : ProcSet := ⟨.off, .off, .off, .anyOf⟩

/-- The empty rectangle of the null set: start column 1, end column 0, start line 1, end line 0 (R106). -/
def Rect.empty : Rect := ⟨1, 0, 1, 0⟩

/-- The null set (R106). -/
def WindowSet.null : WindowSet := ⟨.empty, .empty, 0, .off, .off, .off⟩

/-- A stream record after pin reset (R98, R114, R156, R168): FREE, not reserved, refusal reason NONE, the null set. -/
def Stream.reset : Stream where
  state := .free
  geom := none
  banks := []
  frame := 0
  slot := 0
  phase := none
  evicted := 0
  aged := 0
  closed := 0
  migrated := 0
  switched := false
  rejected := false
  record := none
  reason := .noReason
  active := .null
  store := []
  pendingWin := none
  loadingWin := none
  load := none
  fetch := []
  fetchFailed := false

/-- A cause record after either reset (R174). -/
def CauseRec.reset : CauseRec := ⟨false, 0, 0⟩

/-- The part right after pin reset (R168) with the MODE strap at MANAGED (DESIGN CHOICE, log entry 5), nothing pending. -/
def State.reset : State where
  pending := []
  mode := .managed
  partState := .starting
  clearing := true
  refCount := 0
  tagOrder := []
  deliverable := []
  holdQ := []
  reads := []
  entries := []
  lastWrite := []
  divider := 16
  ageLimit := 200
  commits := []
  migrations := []
  passClass := []
  internal := []
  lastGranted := .internal
  nextReq := 0
  nextXfer := 0
  stepNum := 0
  mapMem := []
  freeBanks := List.range 160
  corrected := 0
  causes := Vector.replicate 12 .reset
  frame := none
  msdo := []
  upstreamOut := none
  downstreamOut := none
  streams := Vector.replicate 16 .reset

end Sys2Proof.Machine
end

