-- ==== Sys2Proof/Machine/Operands.lean ====
section
/-! DEFINITION. Operand forms: byte orders of the records (chapter 11), the geometry of a stream (chapter 1), the cutting of
a request into pieces (R9), and the cutting of a run at block boundaries (R110, R120). -/

namespace Sys2Proof.Machine

/-- The value of bytes taken least significant first, as in DRAM records (R184). -/
def leNat : List Byte → Nat
  | [] => 0
  | b :: t => b.toNat + 256 * leNat t

/-- `size` bytes of `v`, least significant first (R184). -/
def leBytes : Nat → Nat → List Byte
  | 0, _ => []
  | size + 1, v => BitVec.ofNat 8 v :: leBytes size (v / 256)

/-- `size` bytes of `v`, most significant first, as in the management frame (R188). -/
def beBytes (size v : Nat) : List Byte := (leBytes size v).reverse

/-- The little-endian field of `size` bytes at `off` of a record (R184). -/
def recField (bytes : List Byte) (off size : Nat) : Nat := leNat ((bytes.drop off).take size)

/-- The bytes of a list from `off`, `len` of them. -/
def slice {α : Type} (xs : List α) (off len : Nat) : List α := (xs.drop off).take len

/-- `old` with the elements from `off` replaced by `new`. -/
def splice {α : Type} (old new : List α) (off : Nat) : List α :=
  old.take off ++ new ++ old.drop (off + new.length)

/-- The parts of the run from `lo` up to but not including `hi`, cut at every multiple of `w`, in ascending order. -/
def cutAt (w lo hi : Nat) : List (Nat × Nat) :=
  if hi ≤ lo then [] else
    (List.range ((hi - 1) / w + 1 - lo / w)).map fun k =>
      (max lo ((lo / w + k) * w), min hi ((lo / w + k + 1) * w))

/-- Bytes that came in parts, keyed by where each part starts, joined in the order of `starts`. -/
def gather (got : List (Nat × List Byte)) (starts : List Nat) : List Byte :=
  starts.flatMap fun o => (got.lookup o).getD []

/-! ### Planes and the stream's geometry (chapter 1) -/

/-- A plane of size zero, read where a descriptor has no such plane. -/
def Plane.zero : Plane := ⟨0, 0, 0, 0, 1, 1, 0⟩

/-- The plane's raster end (R5). -/
def Plane.rasterEnd (p : Plane) : Nat := p.raster + p.pitch * p.height

/-- Tile columns of a plane (R9). -/
def Plane.columns (p : Plane) : Nat := p.width / 64

/-- Tile rows of a plane: `ceil (height / 16)`. -/
def Plane.rows (p : Plane) : Nat := (p.height + 15) / 16

/-- Tiles of a plane. -/
def Plane.tiles (p : Plane) : Nat := p.columns * p.rows

namespace Geom

/-- Plane `n`. -/
def plane (g : Geom) (n : Nat) : Plane := g.planes.getD n .zero

/-- P(n): the first tile position of plane `n` (R9). -/
def planeBase (g : Geom) (n : Nat) : Nat := if n = 0 then 0 else (g.plane 0).tiles

/-- T, the tiles per frame. -/
def tiles (g : Geom) : Nat := (g.planes.map Plane.tiles).sum

/-- The slot stride: `T × 1,024` rounded up to 4 KiB (R13). -/
def slotStride (g : Geom) : Nat := (g.tiles * 1024 + 4095) / 4096 * 4096

/-- The status-map stride: `T` rounded up to a multiple of 64 (R13). -/
def statusStride (g : Geom) : Nat := (g.tiles + 63) / 64 * 64

/-- The banks a stream needs (R20). -/
def banksNeeded (g : Geom) : Nat := (g.tiles * (g.slots + 1) + 1023) / 1024

/-- The home of (slot, position) (R17). -/
def home (g : Geom) (slot pos : Nat) : Nat := g.storage + slot * g.slotStride + pos * 1024

/-- The plane that holds a tile position (R25). -/
def planeOf (g : Geom) (pos : Nat) : Nat := if pos < (g.plane 0).tiles then 0 else 1

/-- The fill byte of the plane of a tile position. -/
def fillOf (g : Geom) (pos : Nat) : Byte := (g.plane (g.planeOf pos)).fill

/-- The tile row of a position within its plane. -/
def tileRow (g : Geom) (pos : Nat) : Nat :=
  (pos - g.planeBase (g.planeOf pos)) / (g.plane (g.planeOf pos)).columns

/-- The tile column of a position within its plane. -/
def tileCol (g : Geom) (pos : Nat) : Nat :=
  (pos - g.planeBase (g.planeOf pos)) % (g.plane (g.planeOf pos)).columns

/-- Picture column and line of a position's anchor (R18). -/
def anchor (g : Geom) (pos : Nat) : Nat × Nat :=
  let p := g.plane (g.planeOf pos)
  (g.tileCol pos * 64 / p.colBytes, g.tileRow pos * 16 * p.vfactor)

/-- L, the in-plane lines of a tile (R48). -/
def inPlaneLines (g : Geom) (pos : Nat) : Nat :=
  min 16 ((g.plane (g.planeOf pos)).height - g.tileRow pos * 16)

/-- The view index of a slot while `cur` is current: `(cur − slot) mod S` (R36). -/
def viewOf (g : Geom) (cur slot : Nat) : Nat := (cur + g.slots - slot) % g.slots

/-- The slot that a view decodes to (R6). -/
def slotOf (g : Geom) (cur view : Nat) : Nat := (cur + g.slots - view) % g.slots

/-- The end, exclusive, of the aperture (R4). -/
def apertureEnd (g : Geom) : Nat := g.aperture + g.slots * g.viewStride

/-- The aperture as a run from its first byte to one past its last (R4). -/
def apertureRun (g : Geom) : Nat × Nat := (g.aperture, g.apertureEnd)

/-- The guard ranges (R13), each as a run from its first byte to one past its last. -/
def guardRuns (g : Geom) : List (Nat × Nat) :=
  [(g.storage, g.storage + g.slots * g.slotStride),
   (g.statusBase, g.statusBase + g.slots * g.statusStride),
   (g.ringBase, g.ringBase + g.ringEntries * 64)]

end Geom

/-- Two runs share a byte. -/
def runsMeet (a b : Nat × Nat) : Bool := decide (a.1 < b.2) && decide (b.1 < a.2)

end Sys2Proof.Machine

namespace Sys2Proof

/-! ### Requests (R131, R133, R139) -/

/-- The address as a number. -/
def Request.base (r : Request) : Nat := r.addr.toNat

/-- The address extent, as a run (R1). -/
def Request.extent (r : Request) : Nat × Nat := (r.base, r.base + 32 * r.beats)

/-- The 256-byte address block (R137). -/
def Request.block (r : Request) : Nat := r.base / 256

/-- The shape checks (R133). -/
def Request.shapeOk (r : Request) : Bool :=
  decide (1 ≤ r.beats) && decide (r.beats ≤ 8) && r.base % 32 == 0 && decide (r.base % 256 + 32 * r.beats ≤ 256)

/-- The data of an answer whose every byte is `b`: as many beats as the request has for a READ, none for a WRITE (R131). -/
def responseBytes (kind : ReqKind) (beats : Nat) (b : Byte) : List Byte :=
  match kind with
  | .read => List.replicate (32 * beats) b
  | .write => []

end Sys2Proof

namespace Sys2Proof.Machine

/-! ### Pieces (R9, R10) -/

/-- Where the first byte of an in-plane piece lies: plane, position, plane line, line byte, tile line, segment byte (R9). -/
structure PieceTile where
  plane : Nat
  pos   : Nat
  line  : Nat
  col   : Nat
  i     : Nat
  j     : Nat
  deriving DecidableEq, Repr

/-- A piece of a request: its offset and length within the request, and its place, or none if it is vacant (R9, R10). -/
structure Piece where
  off  : Nat
  len  : Nat
  tile : Option PieceTile
  deriving DecidableEq, Repr

/-- The place of view offset `o` in plane `n`, if its raster extent holds the offset in-plane (R9, R10). -/
def Geom.locateIn (g : Geom) (n o : Nat) : Option PieceTile :=
  let p := g.plane n
  if p.raster ≤ o ∧ o < p.rasterEnd then
    let d := o - p.raster
    let l := d / p.pitch
    let b := d % p.pitch
    if b < p.width then
      some ⟨n, g.planeBase n + l / 16 * p.columns + b / 64, l, b, l % 16, b % 64⟩
    else none
  else none

/-- The place of view offset `o`, or none if the byte there is vacant (R9, R10). -/
def Geom.locate (g : Geom) (o : Nat) : Option PieceTile :=
  match g.locateIn 0 o with
  | some t => some t
  | none => if g.planeCount = 2 then g.locateIn 1 o else none

/-- The pieces of `len` bytes at view offset `o` (R9). -/
def Geom.pieces (g : Geom) (o len : Nat) : List Piece :=
  (cutAt 64 o (o + len)).map fun r => ⟨r.1 - o, r.2 - r.1, g.locate r.1⟩

/-- Whether a piece of a request has an enabled byte. -/
def Piece.live (r : Request) (p : Piece) : Bool := (slice r.enables p.off p.len).any id

/-- The (slot, position) pairs of the in-plane pieces: the aperture part of a request's footprint (R137). -/
def pieceTiles (slot : Nat) (ps : List Piece) : List (Nat × Nat) :=
  ps.filterMap fun p => p.tile.map fun t => (slot, t.pos)

/-! ### Transfers (R76) -/

/-- A READ transfer of `beats` beats. -/
def readWire (addr beats : Nat) : Wire := ⟨.read, BitVec.ofNat 40 addr, beats, [], []⟩

/-- A WRITE transfer with every byte enabled. -/
def writeWire (addr : Nat) (data : List Byte) : Wire :=
  ⟨.write, BitVec.ofNat 40 addr, data.length / 32, data, List.replicate data.length true⟩

/-- The offsets of a tile's four 256-byte blocks (R76). -/
def tileBlocks : List Nat := [0, 256, 512, 768]

/-- A whole-tile read (R76). -/
def wholeRead (home : Nat) : List Wire := tileBlocks.map fun o => readWire (home + o) 8

/-- A whole-tile write (R76). -/
def wholeWrite (home : Nat) (data : List Byte) : List Wire :=
  tileBlocks.map fun o => writeWire (home + o) (slice data o 256)

/-- A byte-enabled write: one transfer for each block with a covered offset, enabled exactly on those (R75). The lanes whose
enable is clear carry the tile's own bytes, as the covered ones do (DESIGN CHOICE, log entry 30). -/
def coveredWrite (home : Nat) (data : List Byte) (cov : List Bool) : List Wire :=
  (tileBlocks.filter fun o => (slice cov o 256).any id).map fun o =>
    ⟨.write, BitVec.ofNat 40 (home + o), 8, slice data o 256, slice cov o 256⟩

/-- Whether the data of an answer fit its transfer: for a READ answered OKAY, as many bytes as the transfer has (R131). -/
def Wire.fits (w : Wire) (a : DramAnswer) : Bool :=
  match w.kind, a.status with
  | .read, .okay => a.data.length == 32 * w.beats
  | _, _ => true

end Sys2Proof.Machine
end

