-- ==== Sys2Proof/Machine/Flags.lean ====
section
/-! DEFINITION. The event unit (chapter 10): the cause records, the interrupt line and the selection of READ-CAUSE; and the
codes of states and results that the management link reports (R188). -/

namespace Sys2Proof.Machine

/-- The twelve causes, in the order of their numbers (R170, R188). -/
inductive Cause where
  | mapFault
  | transferFault
  | setupRefused
  | setupDone
  | teardownDone
  | frameDone
  | slideChange
  | guardWrite
  | referenceWrite
  | vacantWrite
  | collision
  | mapCorrected
  deriving DecidableEq, Repr

/-- The place of a cause's record: its number less one. -/
def Cause.idx : Cause → Fin 12
  | .mapFault => 0
  | .transferFault => 1
  | .setupRefused => 2
  | .setupDone => 3
  | .teardownDone => 4
  | .frameDone => 5
  | .slideChange => 6
  | .guardWrite => 7
  | .referenceWrite => 8
  | .vacantWrite => 9
  | .collision => 10
  | .mapCorrected => 11

/-- The record of the cause with number `i + 1`. -/
def State.cause (s : State) (i : Fin 12) : CauseRec := s.causes[i.val]

/-- The state with that record replaced. -/
def State.setCause (s : State) (i : Fin 12) (r : CauseRec) : State :=
  { s with causes := s.causes.set i.val r }

/-- A cause record raised for a stream: pending, the stream in its set (R170, R171). -/
def CauseRec.raised (r : CauseRec) (st : StreamId) : CauseRec :=
  { r with pending := true, streams := r.streams ||| (1#16 <<< st.val) }

/-- A cause is raised for a stream (R170). -/
def State.raise (s : State) (c : Cause) (st : StreamId) : State :=
  s.setCause c.idx ((s.cause c.idx).raised st)

/-- Several causes are raised, each for its stream. -/
def State.raiseAll (s : State) (cs : List (Cause × StreamId)) : State :=
  cs.foldl (fun s c => s.raise c.1 c.2) s

/-- A cause drives the interrupt line: pending at level 1 or more (R172). -/
def CauseRec.drives (r : CauseRec) : Bool := r.pending && decide (0 < r.level.val)

/-- IRQN asserted (driven low): some cause drives the line (R172). -/
def State.irqAsserted (s : State) : Bool := s.causes.toList.any CauseRec.drives

/-- The better of two places for READ-CAUSE: a pending cause replaces the one found so far if its level is higher (R173). -/
def State.betterCause (s : State) (best : Option (Fin 12)) (i : Fin 12) : Option (Fin 12) :=
  if (s.cause i).pending then
    match best with
    | none => some i
    | some b => if (s.cause b).level < (s.cause i).level then some i else some b
  else best

/-- The cause that READ-CAUSE selects: highest level, then lowest number, level 0 included (R173). -/
def State.selectCause (s : State) : Option (Fin 12) := (List.finRange 12).foldl s.betterCause none

/-- The selected record after READ-CAUSE: flag cleared, set emptied, level kept (R173). -/
def CauseRec.cleared (r : CauseRec) : CauseRec := { r with pending := false, streams := 0 }

/-! ### Codes of the management link (R188) -/

/-- The results of a command (R153). -/
inductive CmdResult where
  | done
  | accepted
  | busy
  | refused
  | unknown
  deriving DecidableEq, Repr

/-- The code of a result (R188). -/
def CmdResult.code : CmdResult → Byte
  | .done => 0x01
  | .accepted => 0x02
  | .busy => 0x03
  | .refused => 0x04
  | .unknown => 0x05

/-- The code of a mode (R188). -/
def modeCode : Mode → Byte
  | .managed => 0x00
  | .transparent => 0x01

/-- The code of a part state (R188). -/
def PartState.code : PartState → Byte
  | .starting => 0x00
  | .ready => 0x01

/-- The code of a stream state (R188). -/
def StreamState.code : StreamState → Byte
  | .free => 0x00
  | .loading => 0x01
  | .opened => 0x02
  | .closing => 0x03
  | .faulted => 0x04
  | .draining => 0x05

/-- The code of a setup refusal reason (R188). -/
def SetupReason.code : SetupReason → Byte
  | .noReason => 0x00
  | .geometry => 0x01
  | .rangeOverlap => 0x02
  | .noRoom => 0x03
  | .fetchError => 0x04

/-! ### Status kinds (R118, R187) -/

/-- The status-map kinds (R118). -/
inductive StatusKind where
  | blank
  | carried
  | committed (k : CommitKind)
  deriving DecidableEq, Repr

/-- The kind code of a status byte (R187). -/
def StatusKind.code : StatusKind → Nat
  | .blank => 0
  | .carried => 1
  | .committed .changed => 2
  | .committed .aliased => 3
  | .committed .retained => 4
  | .committed .partialTile => 5
  | .committed .exempt => 6
  | .committed .collided => 7

/-- The status kind of an entry at the close of frame `f` (R118). An entry that fits no row of R118's table comes only of a
cell with three or more wrong bits (R28); its kind is the model's choice (DESIGN CHOICE, log entry 28): CARRIED for a last
frame number above `f`, BLANK for no last commit in any state. -/
def statusKindOf (e : MapEntry) (f : Nat) : StatusKind :=
  match e.last with
  | none => .blank
  | some (k, n) => if n = f then .committed k else .carried

/-- The kinds that count toward the changed-in-window count (R119). -/
def StatusKind.countsAsChange : StatusKind → Bool
  | .committed .changed => true
  | .committed .collided => true
  | .committed .partialTile => true
  | _ => false

/-- A status byte: kind code in bits 0 to 2, in-window mark in bit 7 (R187). -/
def statusByte (k : StatusKind) (inWindow : Bool) : Byte :=
  BitVec.ofNat 8 (k.code + if inWindow then 128 else 0)

/-- The flags byte of the frame record (R187). -/
def FrameRecord.flags (r : FrameRecord) : Nat :=
  (if r.slide then 1 else 0) + (if r.switched then 2 else 0) + (if r.rejected then 4 else 0)

/-- The 64 bytes of a frame record (R187). -/
def FrameRecord.bytes (r : FrameRecord) : List Byte :=
  leBytes 1 r.stream.val ++ leBytes 1 r.slot ++ leBytes 2 r.tiles ++ leBytes 4 r.frame
    ++ r.kinds.flatMap (leBytes 2) ++ leBytes 2 r.changedIn
    ++ leBytes 2 r.evicted ++ leBytes 2 r.aged ++ leBytes 2 r.closed ++ leBytes 2 r.migrated
    ++ leBytes 1 r.flags ++ List.replicate 29 0

end Sys2Proof.Machine
end

