-- ==== Sys2Proof/Machine/Windows.lean ====
section
/-! DEFINITION. The window unit (chapter 6): containment, active areas, and the layout of the window descriptor and the line
table (R186). -/

namespace Sys2Proof.Machine

/-- A rectangle contains a picture position (R99). -/
def Rect.holds (r : Rect) (x y : Nat) : Bool :=
  decide (r.startCol ≤ x) && decide (x ≤ r.endCol) && decide (r.startLine ≤ y) && decide (y ≤ r.endLine)

/-- The line window contains a picture position (R100). Lines past the store's list are empty. -/
def lineHolds (n : Nat) (store : List (Option Span)) (x y : Nat) : Bool :=
  decide (y < n) &&
    match store.getD y none with
    | none => false
    | some sp => decide (sp.startCol ≤ x) && decide (x ≤ sp.endCol)

/-- The chosen area of a window, given whether the window contains the position (R101). -/
def WinUse.chosen (u : WinUse) (contains : Bool) : Bool :=
  match u.area with
  | .inside => contains
  | .outside => !contains

/-- The active area of a process at a position, given which windows contain it (R102). -/
def ProcSet.active (p : ProcSet) (in0 in1 inLine : Bool) : Bool :=
  match p.logic with
  | .anyOf => (p.w0.on && p.w0.chosen in0) || (p.w1.on && p.w1.chosen in1) || (p.lw.on && p.lw.chosen inLine)
  | .allOf => (!p.w0.on || p.w0.chosen in0) && (!p.w1.on || p.w1.chosen in1) && (!p.lw.on || p.lw.chosen inLine)

/-- The active area of a process of a stream's active window set at a picture position (R102). -/
def Stream.processActive (x : Stream) (p : ProcSet) (col line : Nat) : Bool :=
  p.active (x.active.w0.holds col line) (x.active.w1.holds col line) (lineHolds x.active.n x.store col line)

/-- The MASK test of a picture position (R103). -/
def Stream.maskActive (x : Stream) (col line : Nat) : Bool := x.processActive x.active.mask col line

/-- The EXEMPT test of a picture position (R104). -/
def Stream.exemptActive (x : Stream) (col line : Nat) : Bool := x.processActive x.active.exempt col line

/-- The CHANGE test of a picture position (R105). -/
def Stream.changeActive (x : Stream) (col line : Nat) : Bool := x.processActive x.active.change col line

/-! ### Layout of the window descriptor and the line table (R186) -/

/-- A window's enable and area bits of a settings byte, from bit `b` (R186). -/
def winUseAt (v : Byte) (b : Nat) : WinUse := ⟨v.getLsbD b, if v.getLsbD (b + 1) then .outside else .inside⟩

/-- A settings byte (R186). -/
def procSetOf (v : Byte) : ProcSet :=
  ⟨winUseAt v 0, winUseAt v 2, winUseAt v 4, if v.getLsbD 7 then .allOf else .anyOf⟩

/-- A rectangle at `off` of the window descriptor (R186). -/
def rectAt (bytes : List Byte) (off : Nat) : Rect :=
  ⟨recField bytes off 2, recField bytes (off + 2) 2, recField bytes (off + 4) 2, recField bytes (off + 6) 2⟩

/-- The set that a window descriptor describes (R186). -/
def windowSetOf (bytes : List Byte) : WindowSet where
  w0 := rectAt bytes 0
  w1 := rectAt bytes 8
  n := recField bytes 24 2
  mask := procSetOf (bytes.getD 28 0)
  exempt := procSetOf (bytes.getD 29 0)
  change := procSetOf (bytes.getD 30 0)

/-- The line-table address: bits 0 to 39 of the field at offset 16 (R184, R186). -/
def lineTableAddr (bytes : List Byte) : Nat := recField bytes 16 8 % Config.addressEnd

/-- The checks of the window descriptor (R109). -/
def windowDescOk (bytes : List Byte) : Bool :=
  let table := lineTableAddr bytes
  let n := recField bytes 24 2
  table % 4 == 0 && decide (n ≤ Config.storeLines) && (n == 0 || decide (table + 4 * n ≤ Config.addressEnd))

/-- The store line of a line-table entry: empty if the start column is greater than the end column (R110). -/
def spanOf (startCol endCol : Nat) : Option Span :=
  if endCol < startCol then none else some ⟨startCol, endCol⟩

/-- The 32-byte-aligned extent of a line table of `n` entries at `table`, cut at every 256-byte boundary (R110). -/
def lineTableParts (table n : Nat) : List (Nat × Nat) :=
  cutAt 256 (table / 32 * 32) ((table + 4 * n + 31) / 32 * 32)

/-- The line-table reads, in ascending address order (R110). -/
def lineTableReads (table n : Nat) : List Wire :=
  (lineTableParts table n).map fun r => readWire r.1 ((r.2 - r.1) / 32)

/-- The store that a line table gives: its run's bytes, entry by entry (R110). -/
def lineStoreOf (load : WinLoad) : List (Option Span) :=
  let bytes := (gather load.got ((lineTableParts load.table load.set.n).map Prod.fst)).drop
    (load.table - load.table / 32 * 32)
  (List.range load.set.n).map fun y => spanOf (recField bytes (4 * y) 2) (recField bytes (4 * y + 2) 2)

end Sys2Proof.Machine
end

