-- ==== Sys2Proof/Machine/MapUnit.lean ====
section
/-! DEFINITION. The map unit (chapter 2): map memory in its canonical form, its banks, and the lookups with their check bits. -/

namespace Sys2Proof.Machine

/-- The contents of map memory: cells by bank × 1,024 + cell number. -/
abbrev MapMemory := List (Nat × Cell)

/-- A cleared cell with check bits that agree (R19, R21): what every cell not listed reads as. -/
def Cell.clean : Cell := ⟨.cleared, .good⟩

/-- The cell at a key. -/
def MapMemory.read : MapMemory → Nat → Cell
  | [], _ => .clean
  | (a, c) :: m, k => if a = k then c else MapMemory.read m k

/-- The memory with one cell replaced, kept in canonical form: keys rising, no clean cell listed. -/
def MapMemory.write : MapMemory → Nat → Cell → MapMemory
  | [], k, c => if c = .clean then [] else [(k, c)]
  | (a, d) :: m, k, c =>
    if k < a then (if c = .clean then (a, d) :: m else (k, c) :: (a, d) :: m)
    else if k = a then (if c = .clean then m else (k, c) :: m)
    else (a, d) :: MapMemory.write m k c

/-- The memory with every cell of some banks cleared (R21). -/
def MapMemory.clearBanks (m : MapMemory) (banks : List Nat) : MapMemory :=
  m.filter fun x => !banks.contains (x.1 / Config.cellsPerBank)

/-- The canonical form: keys strictly rising, no clean cell listed. -/
def MapMemory.wf (m : MapMemory) : Bool :=
  decide (m.Pairwise fun x y => x.1 < y.1) && m.all fun x => decide (x.2 ≠ .clean)

/-- A cell's contents read as a map entry; the cleared contents are the BLANK entry (R21). -/
def cellEntry : CellVal → MapEntry
  | .entry e => e
  | .cleared => ⟨.blank, none⟩
  | .record _ => ⟨.blank, none⟩

/-- A cell's contents read as a position record; the cleared contents hold no signature (R21). -/
def cellRecord : CellVal → PosRecord
  | .record r => r
  | .cleared => ⟨none, 0⟩
  | .entry _ => ⟨none, 0⟩

/-! ### Streams -/

/-- The record of a stream. -/
def State.stream (s : State) (st : StreamId) : Stream := s.streams[st.val]

/-- The state with a stream's record replaced. -/
def State.setStream (s : State) (st : StreamId) (x : Stream) : State :=
  { s with streams := s.streams.set st.val x }

/-- A descriptor of size zero, read where a stream has none. -/
def Geom.zero : Geom := ⟨0, 0, 0, 0, 0, 0, 0, 0, 0, false, 0, 0, []⟩

/-- The descriptor a stream was set up from. -/
def Stream.geometry (x : Stream) : Geom := x.geom.getD .zero

/-- The descriptor of stream `st`. -/
def State.geometry (s : State) (st : StreamId) : Geom := (s.stream st).geometry

/-- A live stream's claims are held: OPEN, CLOSING, FAULTED or DRAINING (R2). -/
def Stream.live (x : Stream) : Bool :=
  match x.state with
  | .opened | .closing | .faulted | .draining => true
  | .free | .loading => false

/-- A stream that faults can reach: OPEN or CLOSING (R178, R180). -/
def Stream.running (x : Stream) : Bool :=
  match x.state with
  | .opened | .closing => true
  | .free | .loading | .faulted | .draining => false

/-! ### Cells of a stream (R23) -/

/-- The key of the stream's cell number `c`. -/
def State.cellKey (s : State) (st : StreamId) (c : Nat) : Nat :=
  (s.stream st).banks.getD (c / Config.cellsPerBank) 0 * Config.cellsPerBank + c % Config.cellsPerBank

/-- The cell number of the entry of (slot, position). -/
def Geom.entryCell (g : Geom) (slot pos : Nat) : Nat := slot * g.tiles + pos

/-- The cell number of the record of a position. -/
def Geom.recordCell (g : Geom) (pos : Nat) : Nat := g.slots * g.tiles + pos

/-- The map unit writes a cell, with check bits that agree with it (10_events_faults_and_integrity.md, 10.3). -/
def State.writeCell (s : State) (st : StreamId) (c : Nat) (v : CellVal) : State :=
  { s with mapMem := MapMemory.write s.mapMem (s.cellKey st c) ⟨v, .good⟩ }

/-- The contents of a cell as the map unit last wrote or found them, without a lookup. -/
def State.peekCell (s : State) (st : StreamId) (c : Nat) : CellVal :=
  (MapMemory.read s.mapMem (s.cellKey st c)).val

/-- The corrected-error count rises, unless it stands at its stop (R175). -/
def State.countCorrected (s : State) : State := { s with corrected := min (s.corrected + 1) Config.countStop }

/-- A single-bit error is corrected: the cell written back, the count raised unless it stands at its stop, MAP-CORRECTED
raised for the stream (R175). -/
def State.correctCell (s : State) (st : StreamId) (c : Nat) (v : CellVal) : State :=
  (s.writeCell st c v).countCorrected.raise .mapCorrected st

/-- A lookup of one cell (R28): its contents, or none for a double-bit error, and the state after any correction. -/
def State.lookupCell (s : State) (st : StreamId) (c : Nat) : Option CellVal × State :=
  let cell := MapMemory.read s.mapMem (s.cellKey st c)
  match cell.ecc with
  | .good => (some cell.val, s)
  | .single => (some cell.val, s.correctCell st c cell.val)
  | .double => (none, s)

/-- Lookups of several cells in order, every one of them taken (R36, R62, R118): their contents, or none if one has a double-bit
error, and the state after every correction (R28, R175, R176; log entry 19). -/
def State.lookupCells (s : State) (st : StreamId) : List Nat → Option (List CellVal) × State
  | [] => (some [], s)
  | c :: cs =>
    let one := s.lookupCell st c
    let rest := one.2.lookupCells st cs
    (one.1.bind fun v => rest.1.map fun vs => v :: vs, rest.2)

/-! ### Banks (R20 to R22) -/

/-- The `n` lowest-numbered free banks (R20). -/
def State.lowestFree (s : State) (n : Nat) : List Nat := s.freeBanks.take n

/-- The `n` lowest-numbered free banks leave the pool and are cleared (R20, R21). -/
def State.takeBanks (s : State) (n : Nat) : State :=
  { s with freeBanks := s.freeBanks.drop n, mapMem := MapMemory.clearBanks s.mapMem (s.lowestFree n) }

/-- The banks allotted to a stream and cleared, in one step (R20, R21). -/
def State.allot (s : State) (st : StreamId) (n : Nat) : State :=
  (s.takeBanks n).setStream st { s.stream st with banks := s.lowestFree n }

/-- Banks join the pool, which is kept in ascending order (R20, R22). -/
def State.putBanks (s : State) (bs : List Nat) : State :=
  { s with freeBanks := (List.range Config.banks).filter fun b => s.freeBanks.contains b || bs.contains b }

/-- A stream's banks returned to the pool, uncleared (R22). -/
def State.returnBanks (s : State) (st : StreamId) : State :=
  (s.putBanks (s.stream st).banks).setStream st { s.stream st with banks := [] }

/-- Upsets of cells of map memory: each leaves what the code will find there (R28; log entry 4). -/
def upsetCell (m : MapMemory) (u : Upset) : MapMemory :=
  let k := u.bank.val * Config.cellsPerBank + u.cell.val
  MapMemory.write m k ⟨u.taken.getD (MapMemory.read m k).val, u.found⟩

end Sys2Proof.Machine
end

