-- ==== Sys2Proof/Machine/Ops.lean ====
section
/-! DEFINITION. The operations that every family shares: answers and the tag order (R134), the hold queue (R137 to R141),
freeing of entries (R54), transfers of the downstream port (R143 to R149), and the fault of a stream (R178). -/

namespace Sys2Proof.Machine

/-! ### The tag order (R134) -/

/-- The answer of request `id` becomes ready. -/
def State.answer (s : State) (id : Nat) (a : Answer) : State :=
  { s with tagOrder := s.tagOrder.map fun t => if t.id = id then { t with answer := some a } else t }

/-- The front of a tag's list in the tag order. -/
def tagFront (ts : List Taken) (tag : Fin 64) : Option Taken := ts.find? fun t => t.tag = tag

/-- An answer is deliverable: ready, and its request at the front of its tag's list (R134). -/
def isDeliverable (ts : List Taken) (t : Taken) : Bool :=
  t.answer.isSome && (tagFront ts t.tag).any fun f => f.id = t.id

/-- The requests whose answers have become deliverable in this step, in the order in which they were taken (R134). -/
def State.newlyDeliverable (s : State) : List Nat :=
  (s.tagOrder.filter fun t => isDeliverable s.tagOrder t && !s.deliverable.contains t.id).map Taken.id

/-- The end of a step: answers that have become deliverable in it join the order of delivery (R134). -/
def State.noteDeliverable (s : State) : State :=
  { s with deliverable := s.deliverable ++ s.newlyDeliverable }

/-! ### The hold queue (R137 to R141) -/

/-- Held with CLOSING, the reason not cleared: such requests are left out of the OVERLAP test (R139). -/
def Held.closingHeld (h : Held) : Bool :=
  match h.reason with
  | .closing _ => !h.released
  | _ => false

/-- A request with this block and aperture footprint overlaps the held request (R139). -/
def Held.overlaps (h : Held) (block : Nat) (stream : Option StreamId) (tiles : List (Nat × Nat)) : Bool :=
  !h.closingHeld &&
    (h.req.block == block || (stream.isSome && h.stream == stream && tiles.any fun t => h.tiles.contains t))

/-- The TAG-ORDER or OVERLAP reason of a held request, tested against the requests ahead of it, is clear (R138). -/
def Held.orderClear (ahead : List Held) (h : Held) : Bool :=
  match h.reason with
  | .tagOrder => !ahead.any fun a => a.req.tag == h.req.tag
  | .overlap => !ahead.any fun a => a.overlaps h.req.block h.stream h.tiles
  | _ => false

/-- The queue after the requests that `leaves` picks have left: the requests behind one that left, held with TAG-ORDER or
OVERLAP, are tested again and released where the reason is clear (R138, R140). -/
def sweepQueue (leaves : Held → Bool) : List Held → Bool → List Held → List Held
  | _, _, [] => []
  | ahead, gone, h :: t =>
    if leaves h then sweepQueue leaves ahead true t
    else
      let h' := if gone && h.orderClear ahead then { h with released := true } else h
      h' :: sweepQueue leaves (ahead ++ [h']) gone t

/-- Requests leave the hold queue. -/
def State.dropHeld (s : State) (leaves : Held → Bool) : State :=
  { s with holdQ := sweepQueue leaves [] false s.holdQ }

/-- Request `id` leaves the hold queue, if it is there (R137). -/
def State.leave (s : State) (id : Nat) : State := s.dropHeld fun h => h.id == id

/-- The requests ahead of `id` in the queue: for a request not in the queue, all of it (R139, R140). -/
def State.aheadOf (s : State) (id : Nat) : List Held := s.holdQ.takeWhile fun h => h.id != id

/-- A request is held: in its place if it is in the queue, else at the back (R137, R140). -/
def State.hold (s : State) (h : Held) : State :=
  if s.holdQ.any fun x => x.id == h.id then
    { s with holdQ := s.holdQ.map fun x => if x.id = h.id then h else x }
  else { s with holdQ := s.holdQ ++ [h] }

/-- The held requests whose reason `clears` picks are released (R138). -/
def releaseWhere (clears : HoldReason → Bool) (q : List Held) : List Held :=
  q.map fun h => if clears h.reason then { h with released := true } else h

/-- The held requests whose reason `clears` picks are released (R138). -/
def State.release (s : State) (clears : HoldReason → Bool) : State := { s with holdQ := releaseWhere clears s.holdQ }

/-- The NO-ENTRY reasons that a number of free entries meets (R43). -/
def entriesMeet (free : Nat) : HoldReason → Bool
  | .noEntry needed => decide (needed ≤ free)
  | _ => false

/-- The answers of the held requests of a stream are ready (R141). -/
def State.readyHeld (s : State) (st : StreamId) (ans : Request → Answer) : State :=
  let answered (t : Taken) : Taken :=
    match s.holdQ.find? fun h => h.id == t.id && h.stream == some st with
    | some h => { t with answer := some (ans h.req) }
    | none => t
  { s with tagOrder := s.tagOrder.map answered }

/-- Every held request of a stream is answered and leaves the queue (R141). -/
def State.answerHeld (s : State) (st : StreamId) (ans : Request → Answer) : State :=
  (s.readyHeld st ans).dropHeld fun h => h.stream == some st

/-! ### Assembly entries (R39 to R41, R54) -/

/-- The number of free entries. -/
def State.freeEntries (s : State) : Nat := Config.entries - s.entries.length

/-- The entry of a stream at a position, if there is one (R40). -/
def State.entryAt (s : State) (st : StreamId) (pos : Nat) : Option Entry :=
  s.entries.find? fun e => e.stream == st && e.pos == pos

/-- The entry with a number. -/
def State.entryNum (s : State) (num : Nat) : Option Entry := s.entries.find? fun e => e.num == num

/-- Whether an entry is COLLECTING. -/
def Entry.collecting (e : Entry) : Bool :=
  match e.state with
  | .collecting _ => true
  | .committing _ => false

/-- Entries leave the buffer and the last-write order (R41, R54). -/
def State.dropEntries (s : State) (gone : Entry → Bool) : State :=
  { s with
    entries := s.entries.filter fun e => !gone e
    lastWrite := s.lastWrite.filter fun n => (s.entries.filter fun e => !gone e).any fun e => e.num == n }

/-- Entries become free, and the NO-ENTRY holds that the rising free count meets are released (R54, R56). -/
def State.freeEntriesWhere (s : State) (gone : Entry → Bool) : State :=
  (s.dropEntries gone).release (entriesMeet (s.dropEntries gone).freeEntries)

/-- An entry becomes COMMITTING with its reason and leaves the last-write order (R41, R49). -/
def State.commitEntry (s : State) (num : Nat) (reason : Reason) : State :=
  { s with
    entries := s.entries.map fun e => if e.num = num then { e with state := .committing reason } else e
    lastWrite := s.lastWrite.filter fun n => n != num }

/-! ### Transfers (R143 to R149) -/

/-- The stream for which an internal transfer was made (R144); none for the pass-through class. -/
def Owner.stream : Owner → Option StreamId
  | .passThrough _ => none
  | .homeRead _ _ => none
  | .verifyRead st _ => some st
  | .mergeRead st _ => some st
  | .commitWrite st _ => some st
  | .copyRead st _ => some st
  | .copyWrite st _ => some st
  | .statusMap st => some st
  | .frameRecord st => some st
  | .descFetch st => some st
  | .winDesc st => some st
  | .lineTable st => some st

/-- The tile whose commit or migration an internal transfer belongs to (R77). -/
def Owner.tile : Owner → Option (StreamId × Nat)
  | .verifyRead st pos => some (st, pos)
  | .mergeRead st pos => some (st, pos)
  | .commitWrite st pos => some (st, pos)
  | .copyRead st pos => some (st, pos)
  | .copyWrite st pos => some (st, pos)
  | _ => none

/-- The blocks that hand transfers over (R144). -/
inductive Block where
  | upstreamPort
  | readResolver
  | commitEngine
  | migrationEngine
  | streamTable
  | windowUnit
  deriving DecidableEq, Repr

/-- The block that hands a transfer over (R144). -/
def Owner.block : Owner → Block
  | .passThrough _ => .upstreamPort
  | .homeRead _ _ => .readResolver
  | .verifyRead _ _ => .commitEngine
  | .mergeRead _ _ => .commitEngine
  | .commitWrite _ _ => .commitEngine
  | .copyRead _ _ => .migrationEngine
  | .copyWrite _ _ => .migrationEngine
  | .statusMap _ => .streamTable
  | .frameRecord _ => .streamTable
  | .descFetch _ => .streamTable
  | .winDesc _ => .windowUnit
  | .lineTable _ => .windowUnit

/-- Two transfers are of one group: handed over in one step by one block (R144). -/
def Xfer.sameGroup (x y : Xfer) : Bool := x.step == y.step && x.owner.block == y.owner.block

/-- The transfer comes from an earlier group than another: handed over before it, and not of its group (R144, R147; log
entry 12). -/
def Xfer.earlierGroup (y x : Xfer) : Bool := decide (y.id < x.id) && !y.sameGroup x

/-- Transfers handed over in a step, numbered from `n` on, each with the tag of its number (R131; log entry 26). -/
def numbered (owner : Owner) (step : Nat) : Nat → List Wire → List Xfer
  | _, [] => []
  | n, w :: ws => ⟨n, step, owner, Config.freeTag n, w, false, false⟩ :: numbered owner step (n + 1) ws

/-- The step ends: what is handed over from here on is of other groups (R144). -/
def State.endStep (s : State) : State := { s with stepNum := s.stepNum + 1 }

/-- A block hands transfers to the internal class (R144, R146). -/
def State.handInternal (s : State) (owner : Owner) (ws : List Wire) : State :=
  { s with
    internal := s.internal ++ numbered owner s.stepNum s.nextXfer ws
    nextXfer := s.nextXfer + ws.length }

/-- A transfer is handed to the pass-through class (R145). -/
def State.handPass (s : State) (owner : Owner) (w : Wire) : State :=
  { s with
    passClass := s.passClass ++ numbered owner s.stepNum s.nextXfer [w]
    nextXfer := s.nextXfer + 1 }

/-- Some internal transfer with such an owner is outstanding. -/
def State.outstanding (s : State) (mine : Owner → Bool) : Bool := s.internal.any fun x => mine x.owner

/-- Some transfer of the tile's commit or migration is outstanding (R77). -/
def State.tileBusy (s : State) (st : StreamId) (pos : Nat) : Bool :=
  s.outstanding fun o => o.tile == some (st, pos)

/-- Some part-initiated transfer of the stream is outstanding (R149, R166). -/
def State.streamBusy (s : State) (st : StreamId) : Bool :=
  s.outstanding fun o => o.stream == some st

/-- A stream's transfers are abandoned: the unissued withdrawn, the issued left to finish with their answers to be discarded
(R146). -/
def abandonXfers (st : StreamId) (xs : List Xfer) : List Xfer :=
  (xs.filter fun x => x.issued || x.owner.stream != some st).map fun x =>
    if x.owner.stream = some st then { x with abandoned := true } else x

/-! ### Abandoning the work of a stream (R56, R81, R94, R112, R128) -/

/-- A stream's entries that free at once when its work is abandoned: COLLECTING, or COMMITTING with no transfer outstanding
(R56). -/
def State.freesAtOnce (s : State) (st : StreamId) (e : Entry) : Bool :=
  e.stream == st && (e.collecting || !s.tileBusy st e.pos)

/-- A stream's commits and migrations are dropped, its transfers abandoned (R81, R94, R146). -/
def State.dropWork (s : State) (st : StreamId) : State :=
  { s with
    internal := abandonXfers st s.internal
    commits := s.commits.filter fun c => c.stream != st
    migrations := s.migrations.filter fun m => m.stream != st }

/-- A stream record with its close and its window load abandoned (R112, R128). -/
def Stream.idle (x : Stream) : Stream := { x with phase := none, record := none, loadingWin := none, load := none }

/-- The operations of a stream are abandoned: its commits and migrations, its window load and close, its unissued transfers,
and its entries but for those that wait on issued transfers. The pending window address, the active set and the store are
kept (R56, R81, R94, R112, R128, R146). -/
def State.abandonWork (s : State) (st : StreamId) : State :=
  let s1 := (s.dropWork st).setStream st (s.stream st).idle
  s1.freeEntriesWhere fun e => s1.freesAtOnce st e

/-- The answer that a fault gives a held request (R141). -/
def faultAnswer (vacant : Byte) (r : Request) : Answer :=
  match r.kind with
  | .read => ⟨.dataError, responseBytes .read r.beats vacant⟩
  | .write => ⟨.declined, []⟩

/-- The answer ABORTED: a READ's data are 00h (R135, R141). -/
def abortAnswer (kind : ReqKind) (beats : Nat) : Answer := ⟨.aborted, responseBytes kind beats 0⟩

/-- MAP-FAULT or TRANSFER-FAULT for a stream: if it is OPEN or CLOSING it becomes FAULTED, all in this step (R178). A report
that finds the stream in any other state has no effect (R180). -/
def State.faultStream (s : State) (c : Cause) (st : StreamId) : State :=
  if (s.stream st).running then
    let s1 := s.raise c st
    let s2 := s1.setStream st { s1.stream st with state := .faulted }
    (s2.abandonWork st).answerHeld st (faultAnswer (s.geometry st).vacant)
  else s

end Sys2Proof.Machine
end

