-- ==== Sys2Proof/Machine/Commit.lean ====
section
/-! DEFINITION. The commit engine (chapter 4) and the migration engine (chapter 5): the start of a commit, its decision, its
phases, and the map changes at completion. -/

namespace Sys2Proof.Machine

/-! ### The signature (R64) -/

/-- One shift of the signature register: left by one place, with the generator where the bit shifted out is 1. -/
def sigShift (r : BitVec 32) : BitVec 32 := if r.msb then (r <<< 1) ^^^ 0x04C11DB7#32 else r <<< 1

/-- One byte taken into the register's top eight bits, and eight shifts. -/
def sigByte (r : BitVec 32) (b : Byte) : BitVec 32 :=
  sigShift (sigShift (sigShift (sigShift (sigShift (sigShift (sigShift (sigShift
    (r ^^^ (b.setWidth 32 <<< 24)))))))))

/-- The signature of a tile's bytes in tile order (R64). -/
def signature (bytes : List Byte) : BitVec 32 := bytes.foldl sigByte 0xFFFFFFFF#32

/-! ### Commits in progress -/

/-- The commit of a tile, if one is in progress (R60). -/
def State.commitAt (s : State) (st : StreamId) (pos : Nat) : Option Commit :=
  s.commits.find? fun c => c.stream == st && c.pos == pos

/-- The commit of a tile is changed. -/
def State.updateCommit (s : State) (st : StreamId) (pos : Nat) (f : Commit → Commit) : State :=
  { s with commits := s.commits.map fun c => if c.stream = st ∧ c.pos = pos then f c else c }

/-- The commit engine takes a commit (R60). -/
def State.addCommit (s : State) (c : Commit) : State := { s with commits := s.commits ++ [c] }

/-- The commit of a tile is removed from the engine (R60). -/
def State.removeCommit (s : State) (st : StreamId) (pos : Nat) : State :=
  { s with commits := s.commits.filter fun c => !(c.stream == st && c.pos == pos) }

/-- The migration of a position, if one is in flight (R84). -/
def State.migrationAt (s : State) (st : StreamId) (pos : Nat) : Option Migration :=
  s.migrations.find? fun m => m.stream == st && m.pos == pos

/-- The migration of a position is changed. -/
def State.updateMigration (s : State) (st : StreamId) (pos : Nat) (f : Migration → Migration) : State :=
  { s with migrations := s.migrations.map fun m => if m.stream = st ∧ m.pos = pos then f m else m }

/-- The migration engine takes a migration (R85). -/
def State.addMigration (s : State) (m : Migration) : State := { s with migrations := s.migrations ++ [m] }

/-- The migration of a position is removed from the engine (R89). -/
def State.removeMigration (s : State) (st : StreamId) (pos : Nat) : State :=
  { s with migrations := s.migrations.filter fun m => !(m.stream == st && m.pos == pos) }

/-- The slot is OWNED at the position and other slots name it: a change of its content must migrate first (R77). -/
def Commit.mustMigrate (c : Commit) : Bool := c.prev == .owned && !c.aliasers.isEmpty

/-- The aliaser with the smallest view index (R86). -/
def youngest : List (Nat × Nat) → Nat
  | [] => 0
  | a :: t => (t.foldl (fun best b => if b.2 < best.2 then b else best) a).1

/-- A commit enters MIGRATE and a migration is created with its new owner; its four copy reads are handed on (R77, R85 to
R87). -/
def State.startMigration (s : State) (c : Commit) : State :=
  let m : Migration := {
    stream := c.stream, slot := c.slot, pos := c.pos, aliasers := c.aliasers
    newOwner := youngest c.aliasers, step := .copyRead, got := [] }
  ((s.updateCommit c.stream c.pos fun c => { c with phase := some .migrate }).addMigration m).handInternal
    (.copyRead c.stream c.pos) (wholeRead ((s.geometry c.stream).home c.slot c.pos))

/-- The transfers of a commit's WRITE phase, for the tile's new bytes: the covered bytes over an OWNED home, else the whole
tile (R70, R72, R73, R75, R76). -/
def Commit.writeWires (c : Commit) (g : Geom) (tile : List Byte) (cov : List Bool) : List Wire :=
  if c.kind = some .partialTile ∧ c.prev = .owned then coveredWrite (g.home c.slot c.pos) tile cov
  else wholeWrite (g.home c.slot c.pos) tile

/-- A commit enters WRITE and hands its write transfers on (R76). -/
def State.enterWrite (s : State) (c : Commit) (tile : List Byte) (cov : List Bool) : State :=
  (s.updateCommit c.stream c.pos fun c => { c with phase := some .write, got := [] }).handInternal
    (.commitWrite c.stream c.pos) (c.writeWires (s.geometry c.stream) tile cov)

/-- A commit's kind is decided, and it goes on as its kind gives: RETAINED and an ALIASED with nothing to move need no
transfer (R68, R69); the writing kinds enter MIGRATE or WRITE (R70 to R72); PARTIAL goes by the previous state (R73). -/
def State.takeKind (s : State) (c0 : Commit) (e : Entry) (k : CommitKind) : State :=
  let c := { c0 with kind := some k, phase := none, got := [] }
  let s1 := s.updateCommit c.stream c.pos fun _ => c
  match k with
  | .retained => s1
  | .aliased => if c.mustMigrate then s1.startMigration c else s1
  | .changed | .collided | .exempt =>
    if c.mustMigrate then s1.startMigration c else s1.enterWrite c e.data e.cov
  | .partialTile =>
    match c.prev with
    | .aliasOf o =>
      (s1.updateCommit c.stream c.pos fun c => { c with phase := some .merge }).handInternal
        (.mergeRead c.stream c.pos) (wholeRead ((s.geometry c.stream).home o c.pos))
    | .blank | .owned =>
      if c.mustMigrate then s1.startMigration c else s1.enterWrite c e.data e.cov

/-- A commit whose tile matched enters VERIFY and reads the matched home (R65, R66). -/
def State.enterVerify (s : State) (c : Commit) (o : Nat) : State :=
  (s.updateCommit c.stream c.pos fun c => { c with phase := some .verify }).handInternal
    (.verifyRead c.stream c.pos) (wholeRead ((s.geometry c.stream).home o c.pos))

/-- The kind of a tile whose match stands (R65). -/
def Commit.matchKind (c : Commit) (o : Nat) : CommitKind := if o = c.slot then .retained else .aliased

/-- The decision at the start of a commit, from its lookups (R61 to R66): PARTIAL off the complete path; EXEMPT where the
anchor lies in the EXEMPT area; else by the signature and the position record. -/
def State.decideCommit (s : State) (c : Commit) (e : Entry) (r : PosRecord) : State :=
  let x := s.stream c.stream
  let anchor := x.geometry.anchor c.pos
  match c.path with
  | .partialPath => s.takeKind c e .partialTile
  | .completePath =>
    if x.exemptActive anchor.1 anchor.2 then s.takeKind c e .exempt
    else
      let g := signature e.data
      if r.sig = some g then
        let c1 := { c with sig := some g, matched := some r.owner }
        let s1 := s.updateCommit c.stream c.pos fun _ => c1
        if x.geometry.verify then s1.enterVerify c1 r.owner
        else s1.takeKind c1 e (c1.matchKind r.owner)
      else s.takeKind { c with sig := some g } e .changed

/-- The slots of a stream other than `slot`, in order. -/
def otherSlots (g : Geom) (slot : Nat) : List Nat := (List.range g.slots).filter fun q => q != slot

/-- The cells that a commit of (slot, position) looks up: its entry, the record, the other slots' entries (R36, R62). -/
def commitCells (g : Geom) (slot pos : Nat) : List Nat :=
  g.entryCell slot pos :: g.recordCell pos :: (otherSlots g slot).map fun q => g.entryCell q pos

/-- The aliasers of `slot` among other slots' entries, each with its view index (R36). -/
def aliasersOf (g : Geom) (cur slot : Nat) (vals : List CellVal) : List (Nat × Nat) :=
  ((otherSlots g slot).zip vals).filterMap fun qv =>
    if (cellEntry qv.2).state = .aliasOf slot then some (qv.1, g.viewOf cur qv.1) else none

/-- The path that a commit reason chooses (R61). -/
def Reason.path : Reason → CommitPath
  | .complete => .completePath
  | .evicted | .aged | .close => .partialPath

/-- A commit starts (R49, R61, R62): the COLLECTING entry becomes COMMITTING and leaves the last-write order, the commit
engine takes it, makes its lookups and decides. A double-bit error faults the stream, which frees the entry (R56, R176). An
entry that is no longer COLLECTING keeps its reason (R52). -/
def State.startCommit (s : State) (reason : Reason) (num : Nat) : State :=
  match s.entryNum num with
  | none => s
  | some e =>
    if e.collecting then
      let g := s.geometry e.stream
      match (s.commitEntry num reason).lookupCells e.stream (commitCells g e.slot e.pos) with
      | (none, s2) => s2.faultStream .mapFault e.stream
      | (some vals, s2) =>
        let c : Commit := {
          stream := e.stream, slot := e.slot, pos := e.pos, entry := num, reason := reason, path := reason.path
          sig := none, matched := none, prev := (cellEntry (vals.getD 0 .cleared)).state
          aliasers := aliasersOf g (s.stream e.stream).slot e.slot (vals.drop 2)
          kind := none, phase := none, got := [], readFailed := false }
        (s2.addCommit c).decideCommit c e (cellRecord (vals.getD 1 .cleared))
    else s

/-- Several commits start, in order (R49). -/
def State.startCommits (s : State) (reason : Reason) (nums : List Nat) : State :=
  nums.foldl (fun s n => s.startCommit reason n) s

/-- Entries whose count has reached a nonzero age limit start AGED commits, in the last-write order (R50, R51). -/
def State.expired (s : State) : List Nat :=
  s.lastWrite.filter fun n =>
    match s.entryNum n with
    | some e =>
      match e.state with
      | .collecting age => decide (1 ≤ s.ageLimit) && decide (s.ageLimit ≤ age)
      | .committing _ => false
    | none => false

/-! ### Completion (R78, R89) -/

/-- A count stops at 65,535 (R127). -/
def bump (n : Nat) : Nat := min (n + 1) Config.countStop

/-- The count of partial commits of a reason rises by one (R127). -/
def Stream.countPartial (x : Stream) (r : Reason) : Stream :=
  match r with
  | .complete => x
  | .evicted => { x with evicted := bump x.evicted }
  | .aged => { x with aged := bump x.aged }
  | .close => { x with closed := bump x.closed }

/-- The state of the entry of (s, p) after a commit of a kind (R78). -/
def Commit.newState (c : Commit) (k : CommitKind) : TileState :=
  match k with
  | .aliased => .aliasOf (c.matched.getD 0)
  | .changed | .collided | .exempt | .partialTile | .retained => .owned

/-- The position record after a commit of a kind, or none where it is left unchanged (R78). -/
def Commit.newRecord (c : Commit) (k : CommitKind) : Option PosRecord :=
  match k with
  | .changed | .collided => some ⟨c.sig, c.slot⟩
  | .exempt | .partialTile => some ⟨none, c.slot⟩
  | .aliased | .retained => none

/-- The map change of a commit, applied as one (R27, R78). -/
def State.applyCommit (s : State) (c : Commit) (k : CommitKind) : State :=
  let g := s.geometry c.stream
  let s1 := s.writeCell c.stream (g.entryCell c.slot c.pos)
    (.entry ⟨c.newState k, some (k, (s.stream c.stream).frame)⟩)
  match c.newRecord k with
  | some r => s1.writeCell c.stream (g.recordCell c.pos) (.record r)
  | none => s1

/-- The TILE-BUSY holds on a tile (R54). -/
def busyOn (st : StreamId) (slot pos : Nat) (r : HoldReason) : Bool := r == .tileBusy st slot pos

/-- The assembly buffer frees the entry of a completed commit, and the hold queue releases the requests held on the tile
(R54). -/
def State.freeCommitted (s : State) (c : Commit) : State :=
  (s.freeEntriesWhere fun e => e.num == c.entry).release (busyOn c.stream c.slot c.pos)

/-- A PARTIAL commit is counted with its stream under its reason (R78). -/
def State.countKind (s : State) (c : Commit) (k : CommitKind) : State :=
  if k = .partialTile then s.setStream c.stream ((s.stream c.stream).countPartial c.reason) else s

/-- A commit completes: map change, count, freeing, in this order (R78). -/
def State.completeCommit (s : State) (c : Commit) (k : CommitKind) : State :=
  (((s.applyCommit c k).countKind c k).removeCommit c.stream c.pos).freeCommitted c

/-- A commit's needs are all met: its kind decided, no phase of reading in progress, and no transfer or migration of its own
outstanding (R77, R78). -/
def State.commitDue (s : State) (c : Commit) : Bool :=
  c.kind.isSome && c.phase != some .verify && c.phase != some .merge
    && !s.tileBusy c.stream c.pos && (s.migrationAt c.stream c.pos).isNone

/-- The commit of a tile completes if its needs are all met. -/
def State.completeIfDue (s : State) (st : StreamId) (pos : Nat) : State :=
  match s.commitAt st pos with
  | none => s
  | some c =>
    match c.kind with
    | none => s
    | some k => if s.commitDue c then s.completeCommit c k else s

/-- The entry of an aliaser after a migration: OWNED for the new owner, else an alias of it; kind and frame number kept
(R89). -/
def repointed (e : MapEntry) (q newOwner : Nat) : MapEntry :=
  { e with state := if q = newOwner then .owned else .aliasOf newOwner }

/-- The map change of a migration, applied as one (R27, R89). -/
def State.applyMigration (s : State) (m : Migration) : State :=
  m.aliasers.foldl (fun s a =>
    let c := (s.geometry m.stream).entryCell a.1 m.pos
    s.writeCell m.stream c (.entry (repointed (cellEntry (s.peekCell m.stream c)) a.1 m.newOwner))) s

/-- The MIGRATING holds on a position (R89, R90). -/
def migratingOn (st : StreamId) (pos : Nat) (r : HoldReason) : Bool := r == .migrating st pos

/-- A completed migration is counted with its stream (R92). -/
def State.countMigration (s : State) (st : StreamId) : State :=
  s.setStream st { s.stream st with migrated := bump (s.stream st).migrated }

/-- A migration completes: map change, count, removal, release, in this order (R89). -/
def State.completeMigration (s : State) (m : Migration) : State :=
  (((s.applyMigration m).countMigration m.stream).removeMigration m.stream m.pos).release (migratingOn m.stream m.pos)

/-- A migration's copy write has been answered: it is in COPY-WRITE with no copy transfer outstanding (R89). -/
def State.migrationDue (s : State) (m : Migration) : Bool :=
  m.step == .copyWrite && !s.outstanding fun o => o == .copyWrite m.stream m.pos

/-- The migration of a position completes if its copy write has been answered. -/
def State.migrateIfDue (s : State) (st : StreamId) (pos : Nat) : State :=
  match s.migrationAt st pos with
  | none => s
  | some m => if s.migrationDue m then s.completeMigration m else s

end Sys2Proof.Machine
end

