-- ==== Sys2Proof/Machine/Assembly.lean ====
section
/-! DEFINITION. The assembly buffer (chapter 3): placement with masking, completion, eviction, ageing. -/

namespace Sys2Proof.Machine

/-- A segment's bytes after a piece is stored, from lane `k` on: an enabled byte is stored, as fill where MASK is active
(R46, R47); a disabled byte leaves what is there. -/
def storeSegment (masked : Nat → Bool) (fill : Byte) : Nat → List Byte → List Byte → List Bool → List Byte
  | k, o :: os, d :: ds, e :: es =>
    (if e then (if masked k then fill else d) else o) :: storeSegment masked fill (k + 1) os ds es
  | _, os, _, _ => os

/-- A segment's coverage after a piece is stored: the enabled bytes are covered (R46, R47). -/
def coverSegment : List Bool → List Bool → List Bool
  | c :: cs, e :: es => (c || e) :: coverSegment cs es
  | cs, _ => cs

/-- The number of a new entry: the lowest free one (R45; DESIGN CHOICE, log entry 8). -/
def State.newNumber (s : State) : Nat :=
  ((List.range Config.entries).find? fun n => !s.entries.any fun e => e.num == n).getD 0

/-- A new entry for a piece of a stream's view-0 write (R45). -/
def newEntry (num : Nat) (st : StreamId) (x : Stream) (t : PieceTile) : Entry where
  num := num
  stream := st
  slot := x.slot
  plane := t.plane
  pos := t.pos
  data := List.replicate 1024 (x.geometry.plane t.plane).fill
  cov := List.replicate 1024 false
  state := .collecting 0

/-- An entry with a piece stored: bytes, coverage, age count 0 (R47). -/
def Entry.stored (e : Entry) (x : Stream) (r : Request) (p : Piece) (t : PieceTile) : Entry :=
  let plane := x.geometry.plane t.plane
  let masked (k : Nat) : Bool := x.maskActive ((t.col + k) / plane.colBytes) (t.line * plane.vfactor)
  let off := t.i * 64 + t.j
  { e with
    data := splice e.data
      (storeSegment masked plane.fill 0 (slice e.data off p.len) (slice r.data p.off p.len)
        (slice r.enables p.off p.len)) off
    cov := splice e.cov (coverSegment (slice e.cov off p.len) (slice r.enables p.off p.len)) off
    state := .collecting 0 }

/-- An entry takes the place of the one at its position, if there is one, and the back of the last-write order (R41). -/
def State.putEntry (s : State) (e : Entry) : State :=
  { s with
    entries := (s.entries.filter fun d => !(d.stream == e.stream && d.pos == e.pos)) ++ [e]
    lastWrite := (s.lastWrite.filter fun n => n != e.num) ++ [e.num] }

/-- A live piece of a placed write is stored, in a new entry if its position has none; the entry moves to the back of the
last-write order (R41, R45, R47). -/
def State.storePiece (s : State) (st : StreamId) (r : Request) (p : Piece) (t : PieceTile) : State :=
  let x := s.stream st
  s.putEntry (((s.entryAt st t.pos).getD (newEntry s.newNumber st x t)).stored x r p t)

/-- The pieces of a placed write are stored, in address order. -/
def State.storePieces (s : State) (st : StreamId) (r : Request) (ps : List (Piece × PieceTile)) : State :=
  ps.foldl (fun s pt => s.storePiece st r pt.1 pt.2) s

/-- Every in-plane byte of an entry's tile is covered (R48). -/
def Entry.complete (g : Geom) (e : Entry) : Bool := (e.cov.take (64 * g.inPlaneLines e.pos)).all id

/-- The entries that a placement has completed, in the address order of its pieces (R49). -/
def State.completed (s : State) (st : StreamId) (ps : List (Piece × PieceTile)) : List Nat :=
  ps.filterMap fun pt =>
    match s.entryAt st pt.2.pos with
    | some e => if e.collecting && e.complete (s.geometry st) then some e.num else none
    | none => none

/-- The entries that an eviction for a write takes: from the front of the last-write order, passing over the write's own,
as many as its shortfall (R44). -/
def State.victims (s : State) (st : StreamId) (positions : List Nat) (shortfall : Nat) : List Nat :=
  (s.lastWrite.filter fun n =>
    match s.entryNum n with
    | some e => !(e.stream == st && positions.contains e.pos)
    | none => false).take shortfall

/-! ### Ageing (R50, R51) -/

/-- A COLLECTING entry's age count rises by one, stopping at 255 (R50). -/
def Entry.aged (e : Entry) : Entry :=
  match e.state with
  | .collecting age => { e with state := .collecting (min (age + 1) 255) }
  | .committing _ => e

/-- Entries whose count is at or above a nonzero limit start AGED commits, front of the last-write order first (R50, R51). -/
def State.expireAll (s : State) : State := s.startCommits .aged s.expired

/-- The tick period starts again (R50, R51). -/
def State.restartPeriod (s : State) : State := { s with refCount := 0 }

/-- The age count of every COLLECTING entry rises (R50). -/
def State.ageEntries (s : State) : State := { s with entries := s.entries.map Entry.aged }

/-- An age tick: the counts rise, the tick period starts again, entries that reach the limit start their commits (R50). -/
def State.ageTick (s : State) : State := s.restartPeriod.ageEntries.expireAll

/-- New ageing settings (R51). -/
def State.setAgeing (s : State) (d l : Nat) : State := { s with divider := d, ageLimit := l }

/-- SET-AGE's dividers by their codes (R158). -/
def dividerOf : Nat → Option Nat
  | 0 => some 1
  | 1 => some 4
  | 2 => some 16
  | 3 => some 64
  | _ => none

end Sys2Proof.Machine
end

