-- ==== Sys2Proof/Machine/Upstream.lean ====
section
/-! DEFINITION. The upstream port (chapter 8), the decode of a request (chapter 1), and the read resolver (chapter 2): the
course of a request from its taking, or from its retry, to its serving block. -/

namespace Sys2Proof.Machine

/-- What the decode of a request gives (R1, R15). -/
inductive Decoded where
  /-- a pass-through (R16) -/
  | passThrough
  /-- an answer at decode, with the causes it raises (R11 to R15) -/
  | answered (a : Answer) (causes : List (Cause × StreamId))
  /-- a view-0 write with its in-plane pieces, and whether vacant enabled bytes were dropped (R11) -/
  | placing (st : StreamId) (slot : Nat) (pieces : List Piece) (vacant : Bool)
  /-- an aperture read with its pieces (R9) -/
  | reading (st : StreamId) (slot : Nat) (pieces : List Piece)
  deriving DecidableEq, Repr

/-- The stream whose claimed aperture holds the request's address (R1, R2). -/
def State.apertureHit (s : State) (r : Request) : Option StreamId :=
  (List.finRange 16).find? fun st =>
    (s.stream st).live && decide ((s.geometry st).aperture ≤ r.base) && decide (r.base < (s.geometry st).apertureEnd)

/-- The streams whose claimed guard ranges the request's extent touches (R1, R13). -/
def State.guardHits (s : State) (r : Request) : List StreamId :=
  (List.finRange 16).filter fun st =>
    (s.stream st).live && (s.geometry st).guardRuns.any fun run => runsMeet run r.extent

/-- The decode of an aperture hit of an OPEN or CLOSING stream (R9 to R12, R15). -/
def decodeRunning (x : Stream) (st : StreamId) (r : Request) : Decoded :=
  let g := x.geometry
  let view := (r.base - g.aperture) / g.viewStride
  let pieces := g.pieces ((r.base - g.aperture) % g.viewStride) (32 * r.beats)
  let inPlane := pieces.filter fun p => p.tile.isSome
  match r.kind with
  | .read => .reading st (g.slotOf x.slot view) pieces
  | .write =>
    if view ≠ 0 then .answered ⟨.declined, []⟩ [(.referenceWrite, st)]
    else if !r.enables.any id then .answered ⟨.okay, []⟩ []
    else if !inPlane.any (Piece.live r) then .answered ⟨.declined, []⟩ [(.vacantWrite, st)]
    else .placing st x.slot inPlane (pieces.any fun p => p.tile.isNone && p.live r)

/-- The decode of an aperture hit, by the stream's state (R15). -/
def decodeHit (x : Stream) (st : StreamId) (r : Request) : Decoded :=
  match x.state with
  | .opened | .closing => decodeRunning x st r
  | .faulted => .answered (faultAnswer x.geometry.vacant r) []
  | .draining => .answered ⟨.declined, responseBytes r.kind r.beats x.geometry.vacant⟩ []
  | .free | .loading => .passThrough

/-- The classification and decode of a request that has passed the shape checks (R1). -/
def State.decodeRequest (s : State) (r : Request) : Decoded :=
  match s.mode with
  | .transparent => .passThrough
  | .managed =>
    match s.apertureHit r with
    | some st => decodeHit (s.stream st) st r
    | none =>
      match r.kind, s.guardHits r with
      | .write, st :: sts =>
        .answered ⟨.declined, []⟩ ((st :: sts).map fun st => (.guardWrite, st))
      | _, _ => .passThrough

/-! ### The read resolver (R29 to R32, R55) -/

/-- What resolving one piece gives: a double-bit error, a hold it needs, or its bytes (none where a home read at the address
brings them). -/
inductive PieceOutcome where
  | mapError
  | needsHold (reason : HoldReason)
  | resolved (known : List (Option Byte)) (home : Option Nat)
  deriving DecidableEq, Repr

/-- The bytes of a piece of `len` bytes that a map entry gives, laid under the bytes that an assembly entry covers (R30,
R55): fill for BLANK, else a home read of the piece's place. -/
def overlayOn (g : Geom) (slot : Nat) (t : PieceTile) (state : TileState) (covered : List (Option Byte)) : PieceOutcome :=
  let place (owner : Nat) : Nat := g.home owner t.pos + t.i * 64 + t.j
  match state with
  | .blank => .resolved (covered.map fun b => some (b.getD (g.fillOf t.pos))) none
  | .owned => .resolved covered (some (place slot))
  | .aliasOf o => .resolved covered (some (place o))

/-- The covered bytes of an assembly entry at a piece's place, none where uncovered (R55). -/
def Entry.coveredAt (e : Entry) (t : PieceTile) (len : Nat) : List (Option Byte) :=
  List.zipWith (fun b c => if c then some b else none) (slice e.data (t.i * 64 + t.j) len)
    (slice e.cov (t.i * 64 + t.j) len)

/-- A piece resolved through its map entry, under the bytes that an assembly entry covers: a hold where a migration is moving
what the entry names, else fill or a home read (R29, R30, R55). -/
def State.resolveEntry (s : State) (st : StreamId) (slot : Nat) (t : PieceTile) (v : CellVal)
    (covered : List (Option Byte)) : PieceOutcome :=
  let state := (cellEntry v).state
  match s.migrationAt st t.pos with
  | some m => if state = .aliasOf m.slot then .needsHold (.migrating st t.pos) else overlayOn (s.geometry st) slot t state covered
  | none => overlayOn (s.geometry st) slot t state covered

/-- The lookup of a piece's map entry, and the piece resolved through it. -/
def State.resolveMap (s : State) (st : StreamId) (slot : Nat) (t : PieceTile) (covered : List (Option Byte)) :
    PieceOutcome × State :=
  match s.lookupCell st ((s.geometry st).entryCell slot t.pos) with
  | (none, s1) => (.mapError, s1)
  | (some v, s1) => (s1.resolveEntry st slot t v covered, s1)

/-- The resolution of one in-plane piece at a slot: the first case that applies of R29. A piece whose every byte is covered
takes no lookup (log entry 7). -/
def State.resolveTile (s : State) (st : StreamId) (slot : Nat) (t : PieceTile) (len : Nat) : PieceOutcome × State :=
  match (s.entryAt st t.pos).filter fun e => e.slot == slot with
  | some e =>
    if e.collecting then
      let covered := e.coveredAt t len
      if covered.all Option.isSome then (.resolved covered none, s) else s.resolveMap st slot t covered
    else (.needsHold (.tileBusy st slot t.pos), s)
  | none => s.resolveMap st slot t (List.replicate len none)

/-- The resolution of one piece: vacant (R10) or in-plane. -/
def State.resolvePiece (s : State) (st : StreamId) (slot : Nat) (p : Piece) : PieceOutcome × State :=
  match p.tile with
  | none => (.resolved (List.replicate p.len (some (s.geometry st).vacant)) none, s)
  | some t => s.resolveTile st slot t p.len

/-- The resolution of every piece of a read, all together, in address order (R29; log entry 7). -/
def State.resolvePieces (s : State) (st : StreamId) (slot : Nat) : List Piece → List PieceOutcome × State
  | [] => ([], s)
  | p :: ps =>
    let one := s.resolvePiece st slot p
    let rest := one.2.resolvePieces st slot ps
    (one.1 :: rest.1, rest.2)

/-- The first hold that a piece of a read needs, in address order (R29). -/
def firstHold (os : List PieceOutcome) : Option HoldReason :=
  os.findSome? fun o =>
    match o with
    | .needsHold r => some r
    | _ => none

/-- A resolved piece (R30). -/
def readPieceOf : PieceOutcome → ReadPiece
  | .resolved known home => ⟨known, home.isSome⟩
  | _ => ⟨[], false⟩

/-- The home reads of a resolved read are handed to the pass-through class, piece by piece from number `k` (R30, R31). -/
def State.handHomeReads (s : State) (id : Nat) : Nat → List PieceOutcome → State
  | _, [] => s
  | k, o :: os =>
    match o with
    | .resolved known (some home) =>
      (s.handPass (.homeRead id k) (readWire home (known.length / 32))).handHomeReads id (k + 1) os
    | _ => s.handHomeReads id (k + 1) os

/-- The bytes of a read whose pieces are all in. -/
def ResolvedRead.bytes (q : ResolvedRead) : List Byte :=
  q.pieces.flatMap fun p => p.known.map fun b => b.getD q.vacant

/-- A resolved read waits for its home reads (R32). -/
def State.addRead (s : State) (q : ResolvedRead) : State := { s with reads := s.reads ++ [q] }

/-- A resolved read has been answered. -/
def State.dropRead (s : State) (id : Nat) : State := { s with reads := s.reads.filter fun q => q.id != id }

/-- A resolved read whose home reads are all answered is answered upstream (R32). -/
def State.finishRead (s : State) (id : Nat) : State :=
  match s.reads.find? fun q => q.id == id with
  | none => s
  | some q =>
    if q.pieces.any ReadPiece.waiting then s
    else
      (s.dropRead id).answer id ⟨if q.failed then .dataError else .okay, q.bytes⟩

/-- A read is resolved: it leaves the hold queue, its home reads are handed on, and it is answered at once if it has none
(R29 to R32). -/
def State.issueRead (s : State) (id : Nat) (vacant : Byte) (os : List PieceOutcome) : State :=
  (((s.addRead ⟨id, vacant, os.map readPieceOf, false⟩).leave id).handHomeReads id 0 os).finishRead id

/-! ### The course of a request (R136, R140) -/

/-- A read is resolved whole, held whole, or answered DATA-ERROR for a double-bit error found (R29, R176). -/
def State.serveRead (s : State) (id : Nat) (r : Request) (st : StreamId) (slot : Nat) (ps : List Piece) : State :=
  let vacant := (s.geometry st).vacant
  let res := s.resolvePieces st slot ps
  if res.1.contains .mapError then
    ((res.2.faultStream .mapFault st).answer id (faultAnswer vacant r)).leave id
  else
    match firstHold res.1 with
    | some reason => res.2.hold ⟨id, r, reason, some st, pieceTiles slot ps, false⟩
    | none => res.2.issueRead id vacant res.1

/-- The live pieces of a write with their places (R42). -/
def livePieces (r : Request) (ps : List Piece) : List (Piece × PieceTile) :=
  ps.filterMap fun p =>
    match p.tile with
    | some t => if p.live r then some (p, t) else none
    | none => none

/-- The first live piece whose entry is COMMITTING (R42, R43). -/
def State.blockedAt (s : State) (st : StreamId) (ps : List (Piece × PieceTile)) : Option Nat :=
  ps.findSome? fun pt =>
    match s.entryAt st pt.2.pos with
    | some e => if e.collecting then none else some pt.2.pos
    | none => none

/-- The number of new entries that a write needs (R42). -/
def State.newNeeded (s : State) (st : StreamId) (ps : List (Piece × PieceTile)) : Nat :=
  (ps.filter fun pt => (s.entryAt st pt.2.pos).isNone).length

/-- A write is placed: it leaves the hold queue, its bytes are stored, it is answered OKAY with VACANT-WRITE where R11 raises
it, and the entries it completes start their commits (R43, R47, R49). -/
def State.place (s : State) (id : Nat) (r : Request) (st : StreamId) (ps : List (Piece × PieceTile))
    (vacant : Bool) : State :=
  let s1 := ((s.leave id).storePieces st r ps).answer id ⟨.okay, []⟩
  let s2 := if vacant then s1.raise .vacantWrite st else s1
  s2.startCommits .complete (s2.completed st ps)

/-- A view-0 write is placed whole or held whole, by the first case that applies; a NO-ENTRY hold evicts by its shortfall
(R43, R44). -/
def State.serveWrite (s : State) (id : Nat) (r : Request) (st : StreamId) (slot : Nat) (ps : List Piece)
    (vacant : Bool) : State :=
  let live := livePieces r ps
  let held (reason : HoldReason) : State := s.hold ⟨id, r, reason, some st, pieceTiles slot ps, false⟩
  if (s.stream st).state = .closing then held (.closing st)
  else
    match s.blockedAt st live with
    | some pos => held (.tileBusy st slot pos)
    | none =>
      let needed := s.newNeeded st live
      if s.freeEntries < needed then
        let s1 := held (.noEntry needed)
        s1.startCommits .evicted
          (s1.victims st (live.map fun pt => pt.2.pos) (needed - s.freeEntries))
      else s.place id r st live vacant

/-- A pass-through request is handed to the pass-through class, unchanged (R16). -/
def State.servePass (s : State) (id : Nat) (r : Request) : State :=
  (s.leave id).handPass (.passThrough id) ⟨r.kind, r.addr, r.beats, r.data, r.enables⟩

/-- Steps 4 and 5 of the course: OVERLAP, then the serving block (R136). -/
def State.orderedServe (s : State) (id : Nat) (r : Request) (stream : Option StreamId) (tiles : List (Nat × Nat))
    (serve : State) : State :=
  if (s.aheadOf id).any fun h => h.overlaps r.block stream tiles then
    s.hold ⟨id, r, .overlap, stream, tiles, false⟩
  else serve

/-- The stream and tiles of a request's last decode, if it is in the queue (R137). -/
def State.lastFootprint (s : State) (id : Nat) : Option StreamId × List (Nat × Nat) :=
  match s.holdQ.find? fun h => h.id == id with
  | some h => (h.stream, h.tiles)
  | none => (none, [])

/-- The course of a request that has passed the shape checks, at its taking or at a retry (R136, R140). -/
def State.course (s : State) (id : Nat) (r : Request) : State :=
  if (s.aheadOf id).any fun h => h.req.tag == r.tag then
    s.hold ⟨id, r, .tagOrder, (s.lastFootprint id).1, (s.lastFootprint id).2, false⟩
  else
    match s.decodeRequest r with
    | .answered a causes => ((s.raiseAll causes).answer id a).leave id
    | .passThrough => s.orderedServe id r none [] (s.servePass id r)
    | .placing st slot ps vacant =>
      s.orderedServe id r (some st) (pieceTiles slot ps) (s.serveWrite id r st slot ps vacant)
    | .reading st slot ps =>
      s.orderedServe id r (some st) (pieceTiles slot ps) (s.serveRead id r st slot ps)

/-- A request joins the tag order (R132, R134). -/
def State.joinTagOrder (s : State) (r : Request) : State :=
  { s with nextReq := s.nextReq + 1, tagOrder := s.tagOrder ++ [⟨s.nextReq, r.tag, r.kind, r.beats, none⟩] }

/-- A request is taken while the hold queue holds fewer than 16: it joins the tag order, is shape-checked, and runs its
course (R132, R133, R136). While the queue is full the request channel is not accepted and nothing happens. -/
def State.takeRequest (s : State) (r : Request) : State :=
  if s.holdQ.length < Config.holdQueue then
    if r.shapeOk then (s.joinTagOrder r).course s.nextReq r
    else (s.joinTagOrder r).answer s.nextReq ⟨.declined, responseBytes r.kind r.beats 0⟩
  else s

end Sys2Proof.Machine
end

