-- ==== Sys2Proof/Machine/FrameCycle.lean ====
section
/-! DEFINITION. The frame cycle (chapter 7): the close phases, the status map and the frame record, the window load at a
frame open, and the opening of the next frame. -/

namespace Sys2Proof.Machine

/-- Some entry of a stream is in use. -/
def State.hasEntries (s : State) (st : StreamId) : Bool := s.entries.any fun e => e.stream == st

/-- Status kind and in-window mark of each position, from the entries of the closing slot (R118, R119). -/
def statusOf (x : Stream) (vals : List CellVal) : List (StatusKind × Bool) :=
  (vals.zip (List.range vals.length)).map fun vp =>
    let anchor := x.geometry.anchor vp.2
    (statusKindOf (cellEntry vp.1) x.frame, x.changeActive anchor.1 anchor.2)

/-- How many positions have the kind with code `c` (R121). -/
def kindCount (status : List (StatusKind × Bool)) (c : Nat) : Nat :=
  (status.filter fun k => k.1.code == c).length

/-- The changed-in-window count (R119). -/
def changedCount (status : List (StatusKind × Bool)) : Nat :=
  (status.filter fun k => k.2 && k.1.countsAsChange).length

/-- The slide change flag (R122). -/
def slideFlag (threshold changed : Nat) : Bool := decide (1 ≤ threshold) && decide (threshold ≤ changed)

/-- The frame record of a closing stream (R121). -/
def recordOf (x : Stream) (st : StreamId) (status : List (StatusKind × Bool)) : FrameRecord where
  stream := st
  frame := x.frame
  slot := x.slot
  tiles := x.geometry.tiles
  kinds := (List.range 8).map (kindCount status)
  changedIn := changedCount status
  evicted := x.evicted
  aged := x.aged
  closed := x.closed
  migrated := x.migrated
  slide := slideFlag x.geometry.threshold (changedCount status)
  switched := x.switched
  rejected := x.rejected

/-- The bytes of a slot's status map: the status bytes, then 00h up to the stride (R120). -/
def statusMapBytes (g : Geom) (status : List (StatusKind × Bool)) : List Byte :=
  status.map (fun k => statusByte k.1 k.2) ++ List.replicate (g.statusStride - g.tiles) 0

/-- The status-map writes of a slot: the run cut at every 256-byte boundary (R120). -/
def statusMapWrites (g : Geom) (slot : Nat) (bytes : List Byte) : List Wire :=
  let base := g.statusBase + slot * g.statusStride
  (cutAt 256 base (base + g.statusStride)).map fun r => writeWire r.1 (slice bytes (r.1 - base) (r.2 - r.1))

/-- The cells of a slot's entries, in position order (R37). -/
def slotCells (g : Geom) (slot : Nat) : List Nat := (List.range g.tiles).map fun p => g.entryCell slot p

/-- The first phase has ended: the closing stream has no entry (R116). -/
def State.closeDue (s : State) (st : StreamId) : Bool :=
  (s.stream st).state == .closing && (s.stream st).phase == some .first && !s.hasEntries st

/-- The second phase begins: the entries are read, the status map and the frame record formed, and the status-map writes
handed on; a double-bit error faults the stream (R118 to R121). -/
def State.beginSecondPhase (s : State) (st : StreamId) : State :=
  let x := s.stream st
  let g := x.geometry
  match s.lookupCells st (slotCells g x.slot) with
  | (none, s1) => s1.faultStream .mapFault st
  | (some vals, s1) =>
    let status := statusOf x vals
    (s1.setStream st { s1.stream st with phase := some .second, record := some (recordOf x st status) }).handInternal
      (.statusMap st) (statusMapWrites g x.slot (statusMapBytes g status))

/-- The second phase begins if the first has ended. -/
def State.closeIfDue (s : State) (st : StreamId) : State := if s.closeDue st then s.beginSecondPhase st else s

/-- The frame-record write (R123). -/
def recordWrite (g : Geom) (r : FrameRecord) : Wire :=
  writeWire (g.ringBase + r.frame % g.ringEntries * 64) r.bytes

/-- The third phase begins: the frame-record write is handed on (R123). -/
def State.beginThirdPhase (s : State) (st : StreamId) : State :=
  let x := s.stream st
  match x.record with
  | none => s
  | some r =>
    (s.setStream st { x with phase := some .third }).handInternal (.frameRecord st) [recordWrite x.geometry r]

/-- The window unit begins to load the set at an address: its descriptor read is handed on (R109). -/
def State.beginLoad (s : State) (st : StreamId) (addr : Nat) : State :=
  (s.setStream st { s.stream st with loadingWin := some addr }).handInternal (.winDesc st) [readWire addr 2]

/-- The fourth phase begins: the window flags are cleared and a pending set starts to load (R108, R124). -/
def State.beginFourthPhase (s : State) (st : StreamId) : State :=
  let x := { s.stream st with phase := some .fourth, switched := false, rejected := false }
  match x.pendingWin with
  | none => s.setStream st x
  | some addr => (s.setStream st { x with pendingWin := none }).beginLoad st addr

/-- The fourth phase has ended: no set is loading (R108, R124). -/
def State.openDue (s : State) (st : StreamId) : Bool :=
  (s.stream st).state == .closing && (s.stream st).phase == some .fourth && (s.stream st).loadingWin.isNone

/-- The CLOSING holds of a stream (R125). -/
def closingOf (st : StreamId) (r : HoldReason) : Bool := r == .closing st

/-- A stream record as the next frame opens: steps 1 to 3 of R125. -/
def Stream.advanced (x : Stream) : Stream :=
  { x with
    slot := (x.slot + 1) % x.geometry.slots
    frame := x.frame + 1
    evicted := 0, aged := 0, closed := 0, migrated := 0
    phase := none, record := none
    state := .opened }

/-- The closed frame's record has its slide change flag set (R125). -/
def Stream.slideFlagged (x : Stream) : Bool := x.record.any FrameRecord.slide

/-- The next frame opens: frame advance, counters, state, release of the CLOSING holds, causes, in this order (R125). -/
def State.openFrame (s : State) (st : StreamId) : State :=
  let x := s.stream st
  let s1 := ((s.setStream st x.advanced).release (closingOf st)).raise .frameDone st
  if x.slideFlagged then s1.raise .slideChange st else s1

/-- The next frame opens if the fourth phase has ended. -/
def State.openIfDue (s : State) (st : StreamId) : State := if s.openDue st then s.openFrame st else s

end Sys2Proof.Machine
end

