-- ==== Sys2Proof/Machine/Setup.lean ====
section
/-! DEFINITION. Stream setup, validation, teardown and drain (chapter 9), and the outcome of a window load (chapter 6). -/

namespace Sys2Proof.Machine

/-! ### The stream descriptor (R185) -/

/-- The plane at `off` of the descriptor. -/
def planeOfBytes (bytes : List Byte) (off : Nat) : Plane where
  raster := recField bytes off 4
  pitch := recField bytes (off + 4) 2
  width := recField bytes (off + 6) 2
  height := recField bytes (off + 8) 2
  vfactor := recField bytes (off + 10) 1
  colBytes := recField bytes (off + 11) 1
  fill := bytes.getD (off + 12) 0

/-- The fields of a descriptor's 128 bytes. Plane 1 is taken only with a plane count of 2. -/
def geomOfBytes (bytes : List Byte) : Geom where
  aperture := recField bytes 0 8
  viewStride := recField bytes 8 8
  storage := recField bytes 16 8
  statusBase := recField bytes 24 8
  ringBase := recField bytes 32 8
  ringEntries := recField bytes 40 2
  slots := recField bytes 42 1
  planeCount := recField bytes 43 1
  vacant := bytes.getD 44 0
  verify := (bytes.getD 45 0).getLsbD 0
  threshold := recField bytes 46 2
  initialWin := recField bytes 48 8
  planes :=
    if recField bytes 43 1 = 2 then [planeOfBytes bytes 64, planeOfBytes bytes 96] else [planeOfBytes bytes 64]

/-! ### Validation (R161, R162) -/

/-- The checks of one plane (R161). -/
def Plane.ok (p : Plane) : Bool :=
  decide (64 ≤ p.width) && decide (p.width ≤ 4096) && p.width % 64 == 0
    && p.pitch % 256 == 0 && decide (p.width ≤ p.pitch) && decide (p.pitch ≤ 8192)
    && decide (16 ≤ p.height) && decide (p.height ≤ 1088)
    && (p.vfactor == 1 || p.vfactor == 2) && decide (p.height * p.vfactor ≤ 1088)
    && (p.colBytes == 1 || p.colBytes == 2 || p.colBytes == 4)
    && p.raster % Config.page == 0

/-- The raster extents of two planes do not overlap (R5). -/
def Geom.planesApart (g : Geom) : Bool :=
  g.planeCount != 2 ||
    !runsMeet ((g.plane 0).raster, (g.plane 0).rasterEnd) ((g.plane 1).raster, (g.plane 1).rasterEnd)

/-- The initial window-descriptor address is 0 or a 64-aligned 40-bit address (R161). -/
def Geom.initialWinOk (g : Geom) : Bool :=
  g.initialWin % 64 == 0 && decide (g.initialWin < Config.addressEnd)

/-- The descriptor passes the checks of GEOMETRY (R161). -/
def Geom.ok (g : Geom) : Bool :=
  decide (2 ≤ g.slots) && decide (g.slots ≤ 16) && (g.planeCount == 1 || g.planeCount == 2)
    && g.planes.all Plane.ok && g.planesApart && decide (g.tiles ≤ Config.maxTiles)
    && g.aperture % Config.page == 0 && g.viewStride % Config.page == 0 && g.storage % Config.page == 0
    && g.planes.all (fun p => decide (p.rasterEnd ≤ g.viewStride))
    && g.statusBase % 64 == 0 && g.ringBase % 64 == 0
    && decide (4 ≤ g.ringEntries) && decide (g.ringEntries ≤ 256)
    && decide (g.threshold ≤ g.tiles) && g.initialWinOk
    && (g.apertureRun :: g.guardRuns).all (fun r => decide (r.2 ≤ Config.addressEnd))

/-- The aperture and the guard ranges of a descriptor. -/
def Geom.runs (g : Geom) : List (Nat × Nat) := g.apertureRun :: g.guardRuns

/-- Some two of a descriptor's own aperture and guard ranges overlap (R162). -/
def Geom.selfOverlap (g : Geom) : Bool :=
  !decide (g.runs.Pairwise fun a b => !runsMeet a b)

/-- A range of one descriptor overlaps a range of the other (R162). -/
def Geom.meets (g h : Geom) : Bool := g.runs.any fun a => h.runs.any fun b => runsMeet a b

/-- The descriptor overlaps itself or a reserved stream (R162). -/
def State.rangeOverlap (s : State) (st : StreamId) (g : Geom) : Bool :=
  g.selfOverlap || (List.finRange 16).any fun t =>
    t != st && match (s.stream t).geom with
      | some h => g.meets h
      | none => false

/-- The first refusal reason that applies, in the order GEOMETRY, RANGE-OVERLAP, NO-ROOM (R162). -/
def State.validate (s : State) (st : StreamId) (g : Geom) : Option SetupReason :=
  if !g.ok then some .geometry
  else if s.rangeOverlap st g then some .rangeOverlap
  else if s.freeBanks.length < g.banksNeeded then some .noRoom
  else none

/-! ### The ends of a setup (R163) -/

/-- A refused setup: banks returned, window state reset, FREE, the reason recorded, SETUP-REFUSED raised (R163). -/
def State.refuseSetup (s : State) (st : StreamId) (why : SetupReason) : State :=
  ((s.returnBanks st).setStream st { Stream.reset with reason := why }).raise .setupRefused st

/-- A setup that succeeds: the stream is OPEN with frame 0 in slot 0, reason NONE, SETUP-DONE raised (R163). -/
def State.openStream (s : State) (st : StreamId) : State :=
  (s.setStream st { s.stream st with
    state := .opened, frame := 0, slot := 0, phase := none
    evicted := 0, aged := 0, closed := 0, migrated := 0, reason := .noReason }).raise .setupDone st

/-- A validation that passes: the stream is reserved, its banks allotted, its window set the null set; it opens at once with
initial address 0, else its initial set is loaded (R106, R163). -/
def State.passValidation (s : State) (st : StreamId) (g : Geom) : State :=
  let s1 := s.allot st g.banksNeeded
  let s2 := s1.setStream st { s1.stream st with
    geom := some g, active := .null, store := [], switched := false, rejected := false
    fetch := [], fetchFailed := false }
  if g.initialWin = 0 then s2.openStream st else s2.beginLoad st g.initialWin

/-- The 128 bytes of a descriptor from its two reads, each with its address, in whichever order they came (R160, R185). -/
def descriptorBytes : List (Nat × List Byte) → List Byte
  | [p, q] => if p.1 < q.1 then p.2 ++ q.2 else q.2 ++ p.2
  | _ => []

/-- Both descriptor reads of a LOADING stream are answered: refused with FETCH-ERROR, or validated (R160 to R163). -/
def State.fetchEnd (s : State) (st : StreamId) : State :=
  let x := s.stream st
  if x.state ≠ .loading then s
  else if x.fetchFailed then s.refuseSetup st .fetchError
  else
    let g := geomOfBytes (descriptorBytes x.fetch)
    match s.validate st g with
    | some why => s.refuseSetup st why
    | none => s.passValidation st g

/-! ### The end of a window load (R106, R109 to R112) -/

/-- A load has been settled: at setup the stream opens; at a frame open the fourth phase has ended (R106, R111). -/
def State.loadSettled (s : State) (st : StreamId) : State :=
  if (s.stream st).state = .loading then s.openStream st else s

/-- The set is switched in with its store (R110, R111). -/
def State.switchIn (s : State) (st : StreamId) (set : WindowSet) (store : List (Option Span)) : State :=
  (s.setStream st { s.stream st with
    active := set, store := store, loadingWin := none, load := none, switched := true }).loadSettled st

/-- The descriptor is rejected: active set and store kept (R109). -/
def State.rejectSet (s : State) (st : StreamId) : State :=
  (s.setStream st { s.stream st with loadingWin := none, load := none, rejected := true }).loadSettled st

/-- The window descriptor has been read: rejected, switched in at once for N = 0, or its line table is read (R109, R110). -/
def State.windowDescRead (s : State) (st : StreamId) (bytes : List Byte) : State :=
  let set := windowSetOf bytes
  let table := lineTableAddr bytes
  if !windowDescOk bytes then s.rejectSet st
  else if set.n = 0 then s.switchIn st set []
  else
    (s.setStream st { s.stream st with load := some ⟨set, table, [], false⟩ }).handInternal
      (.lineTable st) (lineTableReads table set.n)

/-- Every line-table read is answered: the store is written and the set switched in, or a setup whose load failed is refused
(R106, R110). -/
def State.lineTableRead (s : State) (st : StreamId) (load : WinLoad) : State :=
  if load.failed then s.refuseSetup st .fetchError
  else s.switchIn st load.set (lineStoreOf load)

/-- A window load read is answered DATA-ERROR: TRANSFER-FAULT at a frame open (R112). -/
def State.loadFault (s : State) (st : StreamId) : State := s.faultStream .transferFault st

/-! ### Teardown and drain (R165, R166) -/

/-- An OPEN, CLOSING or FAULTED stream enters DRAINING (R165). -/
def State.enterDraining (s : State) (st : StreamId) : State :=
  let s1 := s.setStream st { s.stream st with state := .draining }
  (s1.abandonWork st).answerHeld st fun r => abortAnswer r.kind r.beats

/-- The drain has ended: no part-initiated transfer of the DRAINING stream is outstanding (R166). -/
def State.drainDue (s : State) (st : StreamId) : Bool :=
  (s.stream st).state == .draining && !s.streamBusy st

/-- The end of a drain: banks and ranges released, FREE, TEARDOWN-DONE raised (R166). -/
def State.endDrain (s : State) (st : StreamId) : State :=
  ((s.returnBanks st).setStream st { Stream.reset with reason := (s.stream st).reason }).raise .teardownDone st

/-- The drain ends if its last transfer has been answered. -/
def State.drainIfDue (s : State) (st : StreamId) : State := if s.drainDue st then s.endDrain st else s

end Sys2Proof.Machine
end

