-- ==== Sys2Proof/Machine/Cascade.lean ====
section
/-! DEFINITION. What the rules put in the same step as the event that makes it due: completions, the freeing of abandoned
entries, the retries of released requests, the ends of close phases, drains and start-up (log entries 1 and 9). -/

namespace Sys2Proof.Machine

/-- An entry of a stream that has abandoned its work waits for issued transfers; when none is left it is freed (R56, R57). -/
def State.entryDead (s : State) (e : Entry) : Bool :=
  !e.collecting && !(s.stream e.stream).running && !s.tileBusy e.stream e.pos

/-- Every abandoned entry whose last issued transfer has been answered is freed (R56, R57). -/
def State.freeDead (s : State) : State :=
  if s.entries.any s.entryDead then s.freeEntriesWhere s.entryDead else s

/-- Migrations whose copy write has been answered complete (R89). -/
def State.migrationsDue (s : State) : State :=
  s.migrations.foldl (fun s m => s.migrateIfDue m.stream m.pos) s

/-- Commits whose needs are all met complete, a migration's change before its commit's (R77, R78). -/
def State.commitsDue (s : State) : State :=
  s.commits.foldl (fun s c => s.completeIfDue c.stream c.pos) s

/-- Every completion that is due. -/
def State.settleCommits (s : State) : State := s.migrationsDue.commitsDue.freeDead

/-- A request is taken up for its retry: it no longer counts as released. -/
def State.takeUp (s : State) (id : Nat) : State :=
  { s with holdQ := s.holdQ.map fun h => if h.id = id then { h with released := false } else h }

/-- A held request whose reason has cleared is retried in its place, whole, with the completions that its retry makes due
(R140). -/
def State.retryOne (s : State) (id : Nat) : State :=
  match s.holdQ.find? fun h => h.id == id with
  | none => s
  | some h =>
    if h.released then
      ((s.takeUp id).course id h.req).settleCommits
    else s

/-- One pass: the released requests are retried in queue order, front first (R140). -/
def State.retryPass (s : State) : State := (s.holdQ.map Held.id).foldl State.retryOne s

/-- The part becomes READY: clearing has ended and no internal transfer is outstanding (R169). -/
def State.readyDue (s : State) : Bool :=
  s.partState == .starting && !s.clearing && s.internal.isEmpty

/-- The part becomes READY if that is due. -/
def State.readyIfDue (s : State) : State := if s.readyDue then { s with partState := .ready } else s

/-- The sixteen streams in order, each taken by `f`. -/
def State.eachStream (s : State) (f : State → StreamId → State) : State := (List.finRange 16).foldl f s

/-- One round: completions; the retries; then the ends of first phases, of fourth phases, of drains, and of start-up. -/
def State.settleRound (s : State) : State :=
  ((((s.settleCommits.retryPass).eachStream State.closeIfDue).eachStream State.openIfDue).eachStream
    State.drainIfDue).readyIfDue

/-- Nothing is due. -/
def State.quiet (s : State) : Bool :=
  !s.migrations.any s.migrationDue && !s.commits.any s.commitDue && !s.entries.any s.entryDead
    && !s.holdQ.any Held.released && !(List.finRange 16).any s.closeDue && !(List.finRange 16).any s.openDue
    && !(List.finRange 16).any s.drainDue && !s.readyDue

/-- Rounds until nothing is due, at most so many. -/
def State.settle : Nat → State → State
  | 0, s => s
  | n + 1, s => if s.quiet then s else State.settle n s.settleRound

/-- The end of a command's step: what is due in it takes place, its ready answers become deliverable, and the step ends. -/
def State.finish (s : State) : State := (State.settle Config.cascadeRounds s).noteDeliverable.endStep

end Sys2Proof.Machine
end

