-- ==== Sys2Proof/Machine/Downstream.lean ====
section
/-! DEFINITION. The downstream port (chapter 8): per-home ordering, the arbiter, and the answers of the DRAM controller handed
to the owners of their transfers (R149). -/

namespace Sys2Proof.Machine

/-! ### Per-home ordering and the arbiter (R145 to R148) -/

/-- The transfers that address tile homes (R147). -/
def Owner.homeKind : Owner → Bool
  | .homeRead _ _ | .verifyRead _ _ | .mergeRead _ _ | .commitWrite _ _ | .copyRead _ _ | .copyWrite _ _ => true
  | .passThrough _ | .statusMap _ | .frameRecord _ | .descFetch _ | .winDesc _ | .lineTable _ => false

/-- An address lies in a tile home of a live stream (R17, R147). -/
def State.inLiveHome (s : State) (a : Nat) : Bool :=
  (List.finRange 16).any fun st =>
    let g := s.geometry st
    (s.stream st).live && decide (g.storage ≤ a) && decide (a < g.storage + g.slots * g.slotStride)
      && decide ((a - g.storage) % g.slotStride < g.tiles * 1024)

/-- A home transfer (R147): its stream is tested for being live at every grant, so a home read that outlives its stream's drain,
or RESET-PART, is none from then on (DESIGN CHOICE, log entry 29). -/
def State.homeXfer (s : State) (x : Xfer) : Bool := x.owner.homeKind && s.inLiveHome x.wire.addr.toNat

/-- The 1,024-byte aligned range of a transfer's address: its home (R147). -/
def Xfer.home (x : Xfer) : Nat := x.wire.addr.toNat / 1024

/-- A transfer waits under per-home ordering: a home transfer to the same home, from an earlier group, is outstanding in
either class (R147). -/
def State.homeWait (s : State) (x : Xfer) : Bool :=
  s.homeXfer x && (s.passClass ++ s.internal).any fun y =>
    s.homeXfer y && y.home == x.home && y.earlierGroup x

/-- The front transfer of the pass-through class that is not yet issued, if its per-home wait is clear (R145, R148). -/
def State.passCandidate (s : State) : Option Xfer :=
  match s.passClass.find? fun x => !x.issued with
  | some x => if s.homeWait x then none else some x
  | none => none

/-- How many internal transfers are issued and unanswered (R146). -/
def issuedCount (xs : List Xfer) : Nat := (xs.filter Xfer.issued).length

/-- The oldest internal transfer that may be issued (R146). -/
def State.internalCandidate (s : State) : Option Xfer :=
  if issuedCount s.internal < Config.internalIssued then
    s.internal.find? fun x => !x.issued && !s.homeWait x
  else none

/-- The transfer with an identity is issued. -/
def markIssued (id : Nat) : List Xfer → List Xfer
  | [] => []
  | x :: xs => if x.id = id ∧ x.issued = false then { x with issued := true } :: xs else x :: markIssued id xs

/-- A pass-through transfer is granted. -/
def State.grantPass (s : State) (x : Xfer) : State :=
  { s with
    passClass := markIssued x.id s.passClass
    lastGranted := .passThrough
    downstreamOut := some { x with issued := true } }

/-- An internal transfer is granted. -/
def State.grantInternal (s : State) (x : Xfer) : State :=
  { s with
    internal := markIssued x.id s.internal
    lastGranted := .internal
    downstreamOut := some { x with issued := true } }

/-- The arbiter grants one transfer: with both classes waiting, of the class that was not granted last (R148). -/
def State.arbitrate (s : State) : State :=
  match s.passCandidate, s.internalCandidate with
  | none, none => s
  | some x, none => s.grantPass x
  | none, some y => s.grantInternal y
  | some x, some y =>
    match s.lastGranted with
    | .internal => s.grantPass x
    | .passThrough => s.grantInternal y

/-! ### Answers (R149) -/

/-- The transfer with an identity leaves the internal transfer list. -/
def State.dropInternal (s : State) (id : Nat) : State :=
  { s with internal := s.internal.filter fun x => x.id != id }

/-- The transfer with an identity leaves the pass-through class. -/
def State.dropPass (s : State) (id : Nat) : State :=
  { s with passClass := s.passClass.filter fun x => x.id != id }

/-- The issued transfer of a class that an answer is for: the one that the answer names among those that carry its tag (R131,
R149; log entry 12). -/
def issuedXfer (xs : List Xfer) (a : DramAnswer) : Option Xfer :=
  xs.find? fun x => x.id == a.xfer && x.tag == a.tag && x.issued

/-- An answer to an internal transfer (R149): the transfer stops being outstanding; an abandoned one's answer is discarded,
another's is handed to its owner. An answer that is for no such issued transfer, or does not fit it, is no event of the link
and changes nothing (log entry 2). -/
def State.internalAnswer (s : State) (mine : Owner → Bool) (a : DramAnswer)
    (deliver : State → Owner → Wire → State) : State :=
  match issuedXfer s.internal a with
  | none => s
  | some x =>
    if x.abandoned then s.dropInternal x.id
    else if mine x.owner && x.wire.fits a then deliver (s.dropInternal x.id) x.owner x.wire
    else s

/-- The bytes that a read of a tile brought, with their offset in the tile. -/
def tilePart (w : Wire) (a : DramAnswer) : Nat × List Byte := (w.addr.toNat % 1024, a.data)

/-- A verify read is answered; at the last, the match stands or the kind is COLLIDED and COLLISION is raised (R66). -/
def State.verifyAnswered (s : State) (st : StreamId) (pos : Nat) (w : Wire) (a : DramAnswer) : State :=
  let s1 := s.updateCommit st pos fun c =>
    match a.status with
    | .okay => { c with got := c.got ++ [tilePart w a] }
    | .dataError => { c with readFailed := true }
  if s1.outstanding fun o => o == .verifyRead st pos then s1
  else
    match s1.commitAt st pos with
    | none => s1
    | some c =>
      match s1.entryNum c.entry with
      | none => s1
      | some e =>
        if !c.readFailed && gather c.got tileBlocks == e.data then
          s1.takeKind c e (c.matchKind (c.matched.getD 0))
        else (s1.raise .collision st).takeKind c e .collided

/-- The merged tile: covered offsets from the entry, the others as read (R74). -/
def mergedTile (e : Entry) (read : List Byte) : List Byte :=
  List.zipWith (fun (c : Bool) (p : Byte × Byte) => if c then p.1 else p.2) e.cov (e.data.zip read)

/-- A merge read is answered; at the last, the merged tile is written; DATA-ERROR faults the stream (R74). -/
def State.mergeAnswered (s : State) (st : StreamId) (pos : Nat) (w : Wire) (a : DramAnswer) : State :=
  match a.status with
  | .dataError => s.faultStream .transferFault st
  | .okay =>
    let s1 := s.updateCommit st pos fun c => { c with got := c.got ++ [tilePart w a] }
    if s1.outstanding fun o => o == .mergeRead st pos then s1
    else
      match s1.commitAt st pos with
      | none => s1
      | some c =>
        match s1.entryNum c.entry with
        | none => s1
        | some e => s1.enterWrite c (mergedTile e (gather c.got tileBlocks)) e.cov

/-- A commit write or copy write is answered: OKAY leaves the completion to the last, DATA-ERROR faults the stream (R80,
R93). -/
def State.writeAnswered (s : State) (st : StreamId) (a : DramAnswer) : State :=
  match a.status with
  | .dataError => s.faultStream .transferFault st
  | .okay => s

/-- A commit that writes its home enters WRITE at the copy-read-answered report; an ALIASED one stays in MIGRATE (R77, R87). -/
def State.copyReadReport (s : State) (st : StreamId) (pos : Nat) : State :=
  match s.commitAt st pos with
  | none => s
  | some c =>
    if c.kind = some .aliased then s
    else
      match s.entryNum c.entry with
      | none => s
      | some e => s.enterWrite c e.data e.cov

/-- A copy read is answered; at the last, the copy write to the new owner's home is handed on and the report made; DATA-ERROR
faults the stream (R87, R93). -/
def State.copyReadAnswered (s : State) (st : StreamId) (pos : Nat) (w : Wire) (a : DramAnswer) : State :=
  match a.status with
  | .dataError => s.faultStream .transferFault st
  | .okay =>
    let s1 := s.updateMigration st pos fun m => { m with got := m.got ++ [tilePart w a] }
    if s1.outstanding fun o => o == .copyRead st pos then s1
    else
      match s1.migrationAt st pos with
      | none => s1
      | some m =>
        ((s1.updateMigration st pos fun m => { m with step := .copyWrite, got := [] }).handInternal
          (.copyWrite st pos)
          (wholeWrite ((s.geometry st).home m.newOwner pos) (gather m.got tileBlocks))).copyReadReport st pos

/-- A status-map write is answered; at the last the third phase begins; DATA-ERROR faults the stream (R120). -/
def State.statusMapAnswered (s : State) (st : StreamId) (a : DramAnswer) : State :=
  match a.status with
  | .dataError => s.faultStream .transferFault st
  | .okay => if s.outstanding fun o => o == .statusMap st then s else s.beginThirdPhase st

/-- The frame-record write is answered: the fourth phase begins, or DATA-ERROR faults the stream (R123, R124). -/
def State.frameRecordAnswered (s : State) (st : StreamId) (a : DramAnswer) : State :=
  match a.status with
  | .dataError => s.faultStream .transferFault st
  | .okay => s.beginFourthPhase st

/-- A descriptor read is answered; when both are, the setup is refused or the descriptor validated (R160). -/
def State.fetchAnswered (s : State) (st : StreamId) (w : Wire) (a : DramAnswer) : State :=
  let x := s.stream st
  let x' : Stream :=
    match a.status with
    | .okay => { x with fetch := x.fetch ++ [(w.addr.toNat, a.data)] }
    | .dataError => { x with fetchFailed := true }
  let s1 := s.setStream st x'
  if s1.outstanding fun o => o == .descFetch st then s1 else s1.fetchEnd st

/-- A window-descriptor read is answered: checked (R109), or at DATA-ERROR a setup is refused (R106) and an open stream
faulted (R112). -/
def State.windowDescAnswered (s : State) (st : StreamId) (a : DramAnswer) : State :=
  match a.status with
  | .okay => s.windowDescRead st a.data
  | .dataError => if (s.stream st).state = .loading then s.refuseSetup st .fetchError else s.loadFault st

/-- A line-table read is answered; at the last the load ends; DATA-ERROR faults an open stream in its step, and marks the
load of a setup, which is refused at the last answer (R106, R110, R112). -/
def State.lineTableAnswered (s : State) (st : StreamId) (w : Wire) (a : DramAnswer) : State :=
  let x := s.stream st
  match x.load with
  | none => s
  | some load =>
    let failed : Bool := load.failed || a.status == .dataError
    if failed && x.state != .loading then s.loadFault st
    else
      let load' := { load with
        failed := failed
        got := if a.status = .okay then load.got ++ [(w.addr.toNat, a.data)] else load.got }
      let s1 := s.setStream st { x with load := some load' }
      if s1.outstanding fun o => o == .lineTable st then s1 else s1.lineTableRead st load'

end Sys2Proof.Machine
end

