-- ==== Sys2Proof/Machine/Resets.lean ====
section
/-! DEFINITION. Pin reset, RESET-PART's clearing of the part, and the end of start-up (R167 to R169). -/

namespace Sys2Proof.Machine

/-- Pin reset: every block takes its reset value, the strap is sampled (R167, R168). The commands still waiting come after
the reset. -/
def State.pinReset (s : State) (strap : Mode) : State := { State.reset with pending := s.pending, mode := strap }

/-- Every issued internal transfer stays until it is answered, its answer to be discarded; the others are withdrawn (R150). -/
def resetInternal (xs : List Xfer) : List Xfer := (xs.filter Xfer.issued).map fun x => { x with abandoned := true }

/-- The pass-through class stays; the home reads' data will be discarded, their reads answered ABORTED (R35, R150). -/
def resetPassClass (xs : List Xfer) : List Xfer :=
  xs.map fun x =>
    match x.owner with
    | .homeRead _ _ => { x with abandoned := true }
    | _ => x

/-- The tag order at RESET-PART: held requests and resolved reads not yet answered are answered ABORTED (R141). -/
def State.resetTagOrder (s : State) : List Taken :=
  s.tagOrder.map fun t =>
    if s.holdQ.any (fun h => h.id == t.id) || s.reads.any (fun q => q.id == t.id) then
      { t with answer := some (abortAnswer t.kind t.beats) }
    else t

/-- RESET-PART: every block takes its pin-reset value and the part is STARTING, but for the mode, the management link, and
what lets work already taken finish: the tag order with its answers, the pass-through class, the issued internal transfers
(R169). The counters that name requests and transfers run on (log entry 12), and the records of the output channels stay. -/
def State.partReset (s : State) : State :=
  { State.reset with
    pending := s.pending
    mode := s.mode
    frame := s.frame
    msdo := s.msdo
    upstreamOut := s.upstreamOut
    downstreamOut := s.downstreamOut
    tagOrder := s.resetTagOrder
    deliverable := s.deliverable
    passClass := resetPassClass s.passClass
    internal := resetInternal s.internal
    nextReq := s.nextReq
    nextXfer := s.nextXfer
    stepNum := s.stepNum }

/-- Map memory clearing ends: every cell is cleared (R19). -/
def State.clearingEnds (s : State) : State :=
  if s.clearing then { s with clearing := false, mapMem := [] } else s

/-- PIN_RESET (R168). -/
def execPinReset (strap : Mode) (s : State) : Result State := .next (s.pinReset strap)

/-- PART_READY (R169): while the part is STARTING, clearing ends, and the part becomes READY if every internal transfer
outstanding at RESET-PART has been answered. -/
def execPartReady (s : State) : Result State :=
  .next (if s.partState = .starting then s.clearingEnds.readyIfDue else s)

end Sys2Proof.Machine
end

