-- ==== Sys2Proof/Machine/Ports.lean ====
section
/-! DEFINITION. The commands of the two transaction ports (chapter 8): requests, responses, grants and answers. -/

namespace Sys2Proof.Machine

/-! ### Upstream -/

/-- The next request of a tag whose answer becomes deliverable when an earlier one is delivered (R134). -/
def nextOfTag (ts : List Taken) (tag : Fin 64) : List Nat :=
  match tagFront ts tag with
  | some t => if t.answer.isSome then [t.id] else []
  | none => []

/-- The first deliverable answer leaves on the response channel and its request leaves the tag order; the next answer of its
tag, if ready, follows it directly in the order of delivery (R134). -/
def State.deliver (s : State) : State :=
  match s.deliverable with
  | [] => s
  | id :: rest =>
    match s.tagOrder.find? fun t => t.id == id with
    | none => { s with deliverable := rest }
    | some t =>
      match t.answer with
      | none => { s with deliverable := rest }
      | some a =>
        let ts := s.tagOrder.filter fun u => u.id != id
        { s with
          tagOrder := ts
          deliverable := nextOfTag ts t.tag ++ rest
          upstreamOut := some ⟨t.tag, a.status, a.data⟩ }

/-- UPSTREAM_REQUEST (R136). -/
def execUpstreamRequest (r : Request) (s : State) : Result State := .next (s.takeRequest r).finish

/-- RESPONSE_DELIVERY (R134). -/
def execResponseDelivery (s : State) : Result State := .next s.deliver

/-- HOLD_RELEASE (R140): the requests whose reason has cleared are retried in queue order. -/
def execHoldRelease (s : State) : Result State := .next s.retryPass.finish

/-! ### Downstream -/

/-- ARBITER_GRANT (R148). -/
def execArbiterGrant (s : State) : Result State := .next s.arbitrate

/-- The upstream status of a DRAM answer (R16). -/
def DramStatus.up : DramStatus → RespStatus
  | .okay => .okay
  | .dataError => .dataError

/-- The answer to a pass-through request, returned upstream with its status and data (R16). -/
def passAnswerOf (w : Wire) (a : DramAnswer) : Answer :=
  ⟨DramStatus.up a.status, match w.kind with
    | .read => a.data
    | .write => []⟩

/-- The data of a pass-through answer have as many beats as the request, whatever the status (R131). -/
def passFits (w : Wire) (a : DramAnswer) : Bool :=
  match w.kind with
  | .read => a.data.length == 32 * w.beats
  | .write => true

/-- A pass-through request is answered (R16). -/
def State.passThroughAnswered (s : State) (a : DramAnswer) : State :=
  match issuedXfer s.passClass a with
  | none => s
  | some x =>
    match x.owner with
    | .passThrough req =>
      if passFits x.wire a then (s.dropPass x.id).answer req (passAnswerOf x.wire a) else s
    | _ => s

/-- A piece with its home read answered: OKAY brings the bytes it lacks, DATA-ERROR leaves the vacant byte in all of it (R32,
R55). -/
def ReadPiece.answered (p : ReadPiece) (vacant : Byte) (a : DramAnswer) : ReadPiece :=
  match a.status with
  | .okay => ⟨List.zipWith (fun (k : Option Byte) d => some (k.getD d)) p.known a.data, false⟩
  | .dataError => ⟨p.known.map fun _ => some vacant, false⟩

/-- A resolved read with piece `k` answered (R32). -/
def ResolvedRead.answered (q : ResolvedRead) (k : Nat) (a : DramAnswer) : ResolvedRead :=
  { q with
    pieces := q.pieces.mapIdx fun i p => if i = k then p.answered q.vacant a else p
    failed := q.failed || a.status == .dataError }

/-- Piece `k` of the resolved read `req` is answered. -/
def State.answerPiece (s : State) (req k : Nat) (a : DramAnswer) : State :=
  { s with reads := s.reads.map fun q => if q.id = req then q.answered k a else q }

/-- A home read is answered; the read is answered upstream when its last is (R32). The data of an abandoned one are
discarded (R35). -/
def State.homeReadAnswered (s : State) (a : DramAnswer) : State :=
  match issuedXfer s.passClass a with
  | none => s
  | some x =>
    match x.owner with
    | .homeRead req k =>
      if x.abandoned then s.dropPass x.id
      else if x.wire.fits a then
        ((s.dropPass x.id).answerPiece req k a).finishRead req
      else s
    | _ => s

/-- PASS_THROUGH_ANSWER (R16). -/
def execPassThroughAnswer (a : DramAnswer) (s : State) : Result State := .next (s.passThroughAnswered a).finish

/-- HOME_READ_ANSWER (R32). -/
def execHomeReadAnswer (a : DramAnswer) (s : State) : Result State := .next (s.homeReadAnswered a).finish

/-- An internal answer handed to the owner by its kind (R149). -/
def deliverInternal (a : DramAnswer) (s : State) (o : Owner) (w : Wire) : State :=
  match o with
  | .verifyRead st pos => s.verifyAnswered st pos w a
  | .mergeRead st pos => s.mergeAnswered st pos w a
  | .commitWrite st _ => s.writeAnswered st a
  | .copyRead st pos => s.copyReadAnswered st pos w a
  | .copyWrite st _ => s.writeAnswered st a
  | .statusMap st => s.statusMapAnswered st a
  | .frameRecord st => s.frameRecordAnswered st a
  | .descFetch st => s.fetchAnswered st w a
  | .winDesc st => s.windowDescAnswered st a
  | .lineTable st => s.lineTableAnswered st w a
  | .passThrough _ => s
  | .homeRead _ _ => s

/-- Whether an owner's transfer is a verify read. -/
def Owner.isVerify : Owner → Bool
  | .verifyRead _ _ => true
  | _ => false

/-- Whether an owner's transfer is a merge read. -/
def Owner.isMerge : Owner → Bool
  | .mergeRead _ _ => true
  | _ => false

/-- Whether an owner's transfer is a commit write. -/
def Owner.isCommitWrite : Owner → Bool
  | .commitWrite _ _ => true
  | _ => false

/-- Whether an owner's transfer is a copy read. -/
def Owner.isCopyRead : Owner → Bool
  | .copyRead _ _ => true
  | _ => false

/-- Whether an owner's transfer is a copy write. -/
def Owner.isCopyWrite : Owner → Bool
  | .copyWrite _ _ => true
  | _ => false

/-- Whether an owner's transfer is a status-map write. -/
def Owner.isStatusMap : Owner → Bool
  | .statusMap _ => true
  | _ => false

/-- Whether an owner's transfer is a frame-record write. -/
def Owner.isFrameRecord : Owner → Bool
  | .frameRecord _ => true
  | _ => false

/-- Whether an owner's transfer is a descriptor fetch. -/
def Owner.isDescFetch : Owner → Bool
  | .descFetch _ => true
  | _ => false

/-- Whether an owner's transfer is a window-descriptor read. -/
def Owner.isWinDesc : Owner → Bool
  | .winDesc _ => true
  | _ => false

/-- Whether an owner's transfer is a line-table read. -/
def Owner.isLineTable : Owner → Bool
  | .lineTable _ => true
  | _ => false

/-- VERIFY_READ_ANSWER (R66). -/
def execVerifyReadAnswer (a : DramAnswer) (s : State) : Result State :=
  .next (s.internalAnswer Owner.isVerify a (deliverInternal a)).finish

/-- MERGE_READ_ANSWER (R74). -/
def execMergeReadAnswer (a : DramAnswer) (s : State) : Result State :=
  .next (s.internalAnswer Owner.isMerge a (deliverInternal a)).finish

/-- COMMIT_WRITE_ANSWER (R76, R80). -/
def execCommitWriteAnswer (a : DramAnswer) (s : State) : Result State :=
  .next (s.internalAnswer Owner.isCommitWrite a (deliverInternal a)).finish

/-- COPY_READ_ANSWER (R87). -/
def execCopyReadAnswer (a : DramAnswer) (s : State) : Result State :=
  .next (s.internalAnswer Owner.isCopyRead a (deliverInternal a)).finish

/-- COPY_WRITE_ANSWER (R93). -/
def execCopyWriteAnswer (a : DramAnswer) (s : State) : Result State :=
  .next (s.internalAnswer Owner.isCopyWrite a (deliverInternal a)).finish

/-- DESCRIPTOR_FETCH_ANSWER (R160). -/
def execDescriptorFetchAnswer (a : DramAnswer) (s : State) : Result State :=
  .next (s.internalAnswer Owner.isDescFetch a (deliverInternal a)).finish

/-- WINDOW_DESCRIPTOR_READ_ANSWER (R109). -/
def execWindowDescriptorReadAnswer (a : DramAnswer) (s : State) : Result State :=
  .next (s.internalAnswer Owner.isWinDesc a (deliverInternal a)).finish

/-- LINE_TABLE_READ_ANSWER (R110). -/
def execLineTableReadAnswer (a : DramAnswer) (s : State) : Result State :=
  .next (s.internalAnswer Owner.isLineTable a (deliverInternal a)).finish

/-- STATUS_MAP_WRITE_ANSWER (R120). -/
def execStatusMapWriteAnswer (a : DramAnswer) (s : State) : Result State :=
  .next (s.internalAnswer Owner.isStatusMap a (deliverInternal a)).finish

/-- FRAME_RECORD_WRITE_ANSWER (R123). -/
def execFrameRecordWriteAnswer (a : DramAnswer) (s : State) : Result State :=
  .next (s.internalAnswer Owner.isFrameRecord a (deliverInternal a)).finish

/-- The answer of an abandoned home read is discarded (R35, R149). -/
def State.discardPass (s : State) (a : DramAnswer) : State :=
  match issuedXfer s.passClass a with
  | none => s
  | some x => if x.abandoned then s.dropPass x.id else s

/-- DISCARDED_ANSWER (R149): the answer to a transfer whose operation was abandoned is discarded; the entry, the drain or the
start-up that waited on it goes on in the same step. -/
def execDiscardedAnswer (a : DramAnswer) (s : State) : Result State :=
  .next ((s.internalAnswer (fun _ => false) a fun s _ _ => s).discardPass a).finish

end Sys2Proof.Machine
end

