-- ==== Sys2Proof/Machine/TileWork.lean ====
section
/-! DEFINITION. The events of the assembly buffer, the commit engine and the migration engine that are rows of the table:
completions and ageing (chapters 3 to 5). -/

namespace Sys2Proof.Machine

/-- COMMIT_COMPLETION (R78): the commit of the tile completes if its needs are all met. -/
def execCommitCompletion (st : StreamId) (pos : Nat) (s : State) : Result State :=
  .next (s.completeIfDue st pos).finish

/-- MIGRATION_COMPLETION (R89): the migration of the position completes if its copy write has been answered. -/
def execMigrationCompletion (st : StreamId) (pos : Nat) (s : State) : Result State :=
  .next (s.migrateIfDue st pos).finish

/-- Upsets strike map memory (R28; log entry 4). -/
def State.upset (s : State) (us : List Upset) : State := { s with mapMem := us.foldl upsetCell s.mapMem }

/-- AGE_TICK (R50), with the upsets of map memory in the period that ends (log entry 4). -/
def execAgeTick (us : List Upset) (s : State) : Result State := .next (s.upset us).ageTick.finish

/-- One period of the 1 µs reference: after `divider` of them an age tick occurs (R50, R51). This is the step of a part with no
command waiting (log entry 3). -/
def State.referencePeriod (s : State) : State :=
  if s.divider ≤ s.refCount + 1 then s.ageTick.finish else { s with refCount := s.refCount + 1 }

/-- The entry of a tile, if its age count has reached a nonzero age limit. -/
def State.expiredAt (s : State) (st : StreamId) (pos : Nat) : List Nat :=
  s.expired.filter fun n => (s.entryAt st pos).any fun e => e.num == n

/-- AGE_EXPIRY (R50): the entry of the tile starts its commit with reason AGED if its count has reached a nonzero limit. -/
def execAgeExpiry (st : StreamId) (pos : Nat) (s : State) : Result State :=
  .next (s.startCommits .aged (s.expiredAt st pos)).finish

end Sys2Proof.Machine
end

