-- ==== Sys2Proof/Machine/StreamEvents.lean ====
section
/-! DEFINITION. The events of the stream table that are rows of the table: the end of the first close phase, the opening of
the next frame, the end of a drain (chapters 7 and 9). -/

namespace Sys2Proof.Machine

/-- CLOSE_FIRST_PHASE_END (R116): the second phase begins if the closing stream has no entry left. -/
def execCloseFirstPhaseEnd (st : StreamId) (s : State) : Result State := .next (s.closeIfDue st).finish

/-- FRAME_OPEN (R125): the next frame opens if the fourth phase has ended. -/
def execFrameOpen (st : StreamId) (s : State) : Result State := .next (s.openIfDue st).finish

/-- DRAIN_END (R166): the drain ends if every part-initiated transfer of the stream has been answered. -/
def execDrainEnd (st : StreamId) (s : State) : Result State := .next (s.drainIfDue st).finish

end Sys2Proof.Machine
end

