-- ==== Sys2Proof/WellFormed.lean ====
section
/-! DEFINITION. The checks on a command's operands: what the links can carry at all. -/

namespace Sys2Proof

/-- R131: a WRITE carries one data beat of 32 bytes, with 32 byte enables, for each beat of its length; a READ none. -/
def Request.wellFormed (r : Request) : Bool :=
  match r.kind with
  | .write => r.data.length == 32 * r.beats && r.enables.length == 32 * r.beats
  | .read => r.data.isEmpty && r.enables.isEmpty

/-- R144: a transfer is at most 8 beats, so an answer's data are whole beats, at most 256 bytes. -/
def DramAnswer.wellFormed (a : DramAnswer) : Bool :=
  a.data.length % 32 == 0 && decide (a.data.length ≤ 256)

/-- The upsets of one tick name each cell at most once. -/
def upsetsWellFormed (us : List Upset) : Bool :=
  decide ((us.map (fun u => (u.bank, u.cell))).Nodup)

/-- A tile position is below the largest T (00_scope.md, 4.5). -/
def posWellFormed (pos : Nat) : Bool := decide (pos < Config.maxTiles)

/-- The check on a command's operands. -/
def Instr.wellFormed : Instr → Bool
  | .pinReset _ => true
  | .partReady => true
  | .upstreamRequest r => r.wellFormed
  | .responseDelivery => true
  | .holdRelease => true
  | .arbiterGrant => true
  | .passThroughAnswer a => a.wellFormed
  | .homeReadAnswer a => a.wellFormed
  | .verifyReadAnswer a => a.wellFormed
  | .mergeReadAnswer a => a.wellFormed
  | .commitWriteAnswer a => a.wellFormed
  | .commitCompletion _ pos => posWellFormed pos
  | .copyReadAnswer a => a.wellFormed
  | .migrationCompletion _ pos => posWellFormed pos
  | .ageTick us => upsetsWellFormed us
  | .ageExpiry _ pos => posWellFormed pos
  | .identify _ _ => true
  | .readStatus _ _ => true
  | .readStream _ _ => true
  | .readCause _ _ => true
  | .setCauseLevel _ _ => true
  | .setAge _ _ => true
  | .streamSetup _ _ => true
  | .streamAdvance _ _ => true
  | .streamTeardown _ _ => true
  | .windowSet _ _ => true
  | .resetPart _ _ => true
  | .unknownCommand code _ _ => (commandOf code).isNone
  | .managementFrameEnd _ => true
  | .descriptorFetchAnswer a => a.wellFormed
  | .windowDescriptorReadAnswer a => a.wellFormed
  | .lineTableReadAnswer a => a.wellFormed
  | .closeFirstPhaseEnd _ => true
  | .statusMapWriteAnswer a => a.wellFormed
  | .frameRecordWriteAnswer a => a.wellFormed
  | .frameOpen _ => true
  | .discardedAnswer a => a.wellFormed
  | .drainEnd _ => true
  | .copyWriteAnswer a => a.wellFormed
  | .managementFrameStart => true

end Sys2Proof
end

