-- ==== Sys2Proof/Machine/Management.lean ====
section
/-! DEFINITION. The management link (chapter 9): the frame, the tests that every command goes through, and the commands. -/

namespace Sys2Proof.Machine

/-! ### The frame (R152) -/

/-- Byte `i` that a frame shifts out: 00h up to byte 11, then the result and the data, then 00h (R152). -/
def frameByte (response : Option (List Byte)) (i : Nat) : Byte :=
  if i < 12 then 0 else (response.getD []).getD (i - 12) 0

/-- A frame that has begun: byte and bit position 0, nothing sampled (R152). -/
def Frame.start : Frame := ⟨0, 0, [], none⟩

/-- One clock of MSCK: the position moves on by one bit, and MSDI is sampled up to byte 9 (R152). -/
def Frame.clock (f : Frame) (msdi : Bool) : Frame :=
  { f with
    byte := if f.bit < 7 then f.byte else f.byte + 1
    bit := if f.bit < 7 then f.bit + 1 else 0
    shifted := if f.byte < 10 then f.shifted ++ [msdi] else f.shifted }

/-- The last bit of byte 9 has been shifted in and no command has been taken: the command is taken now (R152). -/
def Frame.commandDue (f : Frame) : Bool := f.byte == 10 && f.bit == 0 && f.response.isNone

/-- A fall of MCSN begins a frame (R152). While a frame is in progress MCSN is low and cannot fall: that is no event of the
link and changes nothing (DESIGN CHOICE, log entry 2). -/
def State.beginFrame (s : State) : State :=
  match s.frame with
  | none => { s with frame := some .start }
  | some _ => s

/-- A rise of MCSN ends the frame, discarding a partial byte; what its whole bytes shifted out is recorded (R152; log entry
14). -/
def State.endFrame (s : State) : State :=
  match s.frame with
  | none => s
  | some f => { s with frame := none, msdo := (List.range f.byte).map (frameByte f.response) }

/-- What a command does: its result, its data, and the state with its effect. -/
structure Effect where
  result : CmdResult
  data   : List Byte
  after  : State

/-- The response of a command, formed in the step in which it is taken: the result, then the data (R152). A result that comes
with no data, REFUSED, BUSY and UNKNOWN among them, whatever the command, is followed by 00h (DESIGN CHOICE for a refused
READ-STREAM, log entry 27). -/
def Frame.responding (f : Frame) (r : CmdResult) (data : List Byte) : Frame :=
  { f with shifted := [], response := some (r.code :: data) }

/-- The frame in progress, moved on to `f`, takes up the response of its command (R152). -/
def State.respond (s : State) (f : Frame) (r : CmdResult) (data : List Byte) : State :=
  { s with frame := some (f.responding r data) }

/-- The commands answered in every mode and part state, the other part commands, the stream commands (R153). -/
inductive CmdClass where
  | always
  | part
  | stream
  deriving DecidableEq, Repr

/-- Tests 2 to 4 of R153: the part-wide answer that comes before the command's own rule. -/
def State.gate (s : State) (c : CmdClass) (sb : Byte) : Option CmdResult :=
  match c with
  | .always => none
  | .part | .stream =>
    if s.mode = .transparent then some .refused
    else if s.partState = .starting then some .busy
    else if c = .stream ∧ 16 ≤ sb.toNat then some .refused
    else none

/-- A command of the table is answered: the part-wide tests, then its own rule (R153). -/
def State.command (s : State) (f : Frame) (c : CmdClass) (sb : Byte) (own : Effect) : State :=
  match s.gate c sb with
  | some r => s.respond f r []
  | none => own.after.respond f own.result own.data

/-- The stream that a stream byte names. -/
def streamOf (sb : Byte) : StreamId := Fin.ofNat 16 sb.toNat

/-! ### Part commands (R154 to R158) -/

/-- IDENTIFY: vendor code, part code, revision, mode, part state (R154, R188). -/
def State.identifyEffect (s : State) : Effect :=
  ⟨.done, [0x46, 0x32, 0x08, 0x01, modeCode s.mode, s.partState.code], s⟩

/-- The number of COLLECTING entries that a test picks (R59). -/
def State.countCollecting (s : State) (p : Entry → Bool) : Nat :=
  (s.entries.filter fun e => e.collecting && p e).length

/-- The number of COMMITTING entries that a test picks (R59). -/
def State.countCommitting (s : State) (p : Entry → Bool) : Nat :=
  (s.entries.filter fun e => !e.collecting && p e).length

/-- READ-STATUS (R155, R188). -/
def State.readStatusEffect (s : State) : Effect :=
  ⟨.done,
    [s.partState.code, modeCode s.mode] ++ s.streams.toList.map (fun x => x.state.code)
      ++ beBytes 1 (s.countCollecting fun _ => true) ++ beBytes 1 (s.countCommitting fun _ => true)
      ++ beBytes 1 s.holdQ.length ++ beBytes 1 s.freeBanks.length ++ beBytes 2 s.corrected, s⟩

/-- The held count of a stream (R142). -/
def State.heldCount (s : State) (st : StreamId) : Nat := (s.holdQ.filter fun h => h.stream == some st).length

/-- READ-STREAM (R156, R188): frame number and current slot are 0 while the stream is FREE or LOADING. -/
def State.readStreamEffect (s : State) (st : StreamId) : Effect :=
  let x := s.stream st
  ⟨.done,
    [x.state.code] ++ beBytes 4 (if x.live then x.frame else 0) ++ beBytes 1 (if x.live then x.slot else 0)
      ++ beBytes 1 (s.heldCount st) ++ beBytes 1 (s.countCollecting fun e => e.stream == st)
      ++ beBytes 1 (s.countCommitting fun e => e.stream == st) ++ [x.reason.code], s⟩

/-- READ-CAUSE: the selected cause's number and stream set, which are cleared (R157, R173, R188). -/
def State.readCauseEffect (s : State) : Effect :=
  match s.selectCause with
  | none => ⟨.done, [0, 0, 0], s⟩
  | some i =>
    ⟨.done, beBytes 1 (i.val + 1) ++ beBytes 2 (s.cause i).streams.toNat, s.setCause i (s.cause i).cleared⟩

/-- Byte `n` of an argument, byte 0 least significant (R188). -/
def argByte (arg : BitVec 64) (n : Nat) : Nat := arg.toNat / 256 ^ n % 256

/-- SET-CAUSE-LEVEL (R157, R188). -/
def State.setCauseLevelEffect (s : State) (arg : BitVec 64) : Effect :=
  if h : (1 ≤ argByte arg 0 ∧ argByte arg 0 ≤ 12) ∧ argByte arg 1 < 4 then
    let i : Fin 12 := ⟨argByte arg 0 - 1, by omega⟩
    ⟨.done, [], s.setCause i { s.cause i with level := ⟨argByte arg 1, h.2⟩ }⟩
  else ⟨.refused, [], s⟩

/-- SET-AGE: divider and limit replaced, the tick period started again, AGED commits started (R51, R158). -/
def State.setAgeEffect (s : State) (arg : BitVec 64) : Effect :=
  match dividerOf (argByte arg 0) with
  | none => ⟨.refused, [], s⟩
  | some d => ⟨.done, [], (s.setAgeing d (argByte arg 1)).restartPeriod.expireAll⟩

/-! ### Stream commands -/

/-- The address of an argument: bits 0 to 39 (R188). -/
def argAddr (arg : BitVec 64) : Nat := arg.toNat % Config.addressEnd

/-- A FREE stream becomes LOADING and its two descriptor reads are handed on, a group of their own (R144, R159, R160). -/
def State.beginSetup (s : State) (st : StreamId) (addr : Nat) : State :=
  ((s.setStream st { s.stream st with state := .loading, fetch := [], fetchFailed := false }).handInternal
    (.descFetch st) [readWire addr 2, readWire (addr + 64) 2]).endStep

/-- STREAM-SETUP (R159). -/
def State.streamSetupEffect (s : State) (st : StreamId) (addr : Nat) : Effect :=
  match (s.stream st).state with
  | .free =>
    if addr % 64 = 0 ∧ addr + 127 < Config.addressEnd then ⟨.accepted, [], s.beginSetup st addr⟩
    else ⟨.refused, [], s⟩
  | .loading | .draining => ⟨.busy, [], s⟩
  | .opened | .closing | .faulted => ⟨.refused, [], s⟩

/-- The COLLECTING entries of a stream, in the last-write order (R53). -/
def State.collectingOf (s : State) (st : StreamId) : List Nat :=
  s.lastWrite.filter fun n => (s.entryNum n).any fun e => e.stream == st

/-- A close begins: CLOSING, first phase, CLOSE commits for the stream's COLLECTING entries (R53, R116). -/
def State.beginClose (s : State) (st : StreamId) : State :=
  (s.setStream st { s.stream st with state := .closing, phase := some .first }).startCommits .close
    (s.collectingOf st)

/-- STREAM-ADVANCE (R115). -/
def State.streamAdvanceEffect (s : State) (st : StreamId) : Effect :=
  match (s.stream st).state with
  | .opened =>
    if (s.stream st).frame < Config.lastFrame then ⟨.accepted, [], s.beginClose st⟩ else ⟨.refused, [], s⟩
  | .closing | .loading => ⟨.busy, [], s⟩
  | .faulted | .free | .draining => ⟨.refused, [], s⟩

/-- STREAM-TEARDOWN (R165). -/
def State.streamTeardownEffect (s : State) (st : StreamId) : Effect :=
  match (s.stream st).state with
  | .opened | .closing | .faulted => ⟨.accepted, [], s.enterDraining st⟩
  | .loading | .draining => ⟨.busy, [], s⟩
  | .free => ⟨.refused, [], s⟩

/-- The pending address that WINDOW-SET leaves: 0 withdraws (R107). -/
def pendingOf (addr : Nat) : Option Nat := if addr = 0 then none else some addr

/-- WINDOW-SET (R107). -/
def State.windowSetEffect (s : State) (st : StreamId) (addr : Nat) : Effect :=
  if (s.stream st).running ∧ addr % 64 = 0 then
    ⟨.done, [], s.setStream st { s.stream st with pendingWin := pendingOf addr }⟩
  else ⟨.refused, [], s⟩

/-- RESET-PART: answered ACCEPTED (R169). -/
def State.resetPartEffect (s : State) : Effect := ⟨.accepted, [], s.partReset⟩

/-! ### The command table (R153) -/

/-- What each command of the table does, with the stream byte and the argument of its frame (R153). -/
def State.perform (s : State) (f : Frame) (c : Command) (sb : Byte) (arg : BitVec 64) : State :=
  match c with
  | .identify => s.command f .always sb s.identifyEffect
  | .readStatus => s.command f .always sb s.readStatusEffect
  | .readStream => s.command f .stream sb (s.readStreamEffect (streamOf sb))
  | .readCause => s.command f .part sb s.readCauseEffect
  | .setCauseLevel => s.command f .part sb (s.setCauseLevelEffect arg)
  | .setAge => (s.command f .part sb (s.setAgeEffect arg)).finish
  | .streamSetup => s.command f .stream sb (s.streamSetupEffect (streamOf sb) (argAddr arg))
  | .streamAdvance => (s.command f .stream sb (s.streamAdvanceEffect (streamOf sb))).finish
  | .streamTeardown => (s.command f .stream sb (s.streamTeardownEffect (streamOf sb))).finish
  | .windowSet => s.command f .stream sb (s.windowSetEffect (streamOf sb) (argAddr arg))
  | .resetPart => (s.command f .part sb s.resetPartEffect).finish

/-- A command is taken: decoded by its code and handed on; a code outside the table is answered UNKNOWN in every mode and part
state and has no effect (R152, R153). -/
def State.takeCommand (s : State) (f : Frame) (code sb : Byte) (arg : BitVec 64) : State :=
  match commandOf code with
  | some c => s.perform f c sb arg
  | none => s.respond f .unknown []

/-- One clock of MSCK: the frame in progress moves on, and its command is taken at the last bit of byte 9 (R152). With no frame
in progress the link waits for the next fall of MCSN. -/
def State.clockIn (s : State) (msdi : Bool) : State :=
  match s.frame with
  | none => s
  | some f0 =>
    let f := f0.clock msdi
    if f.commandDue then s.takeCommand f (frameCode f.shifted) (frameStream f.shifted) (frameArg f.shifted)
    else { s with frame := some f }

/-- Bits on MSDI, one clock of MSCK for each. -/
def State.shiftIn (s : State) (msdi : List Bool) : State := msdi.foldl State.clockIn s

/-- A frame that has begun and shifted nothing: the next ten bytes are its bytes 0 to 9. -/
def State.listening (s : State) : Bool := s.frame == some Frame.start

/-! ### The commands of spec/opcode_table.json -/

/-- MANAGEMENT_FRAME_START (R152). -/
def execManagementFrameStart (s : State) : Result State := .next s.beginFrame

/-- MANAGEMENT_FRAME_END (R152), after the bits on MSDI since the last event of the frame (log entry 6). -/
def execManagementFrameEnd (msdi : List Bool) (s : State) : Result State := .next (s.shiftIn msdi).endFrame

/-- UNKNOWN_COMMAND (R153): bytes 0 to 9 with a code that is not in the command table. A code of the table is not this event
(log entry 2). -/
def execUnknownCommand (code : Byte) (sb : Byte) (arg : BitVec 64) (s : State) : Result State :=
  .next (if (commandOf code).isNone then s.shiftIn (frameBits code sb arg) else s)

/-- IDENTIFY: bytes 0 to 9 of a frame with code 01h (R154). -/
def execIdentify (sb : Byte) (arg : BitVec 64) (s : State) : Result State := .next (s.shiftIn (frameBits 0x01 sb arg))

/-- READ_STATUS: bytes 0 to 9 of a frame with code 02h (R155). -/
def execReadStatus (sb : Byte) (arg : BitVec 64) (s : State) : Result State := .next (s.shiftIn (frameBits 0x02 sb arg))

/-- READ_STREAM: bytes 0 to 9 of a frame with code 03h (R156). -/
def execReadStream (sb : Byte) (arg : BitVec 64) (s : State) : Result State := .next (s.shiftIn (frameBits 0x03 sb arg))

/-- READ_CAUSE: bytes 0 to 9 of a frame with code 04h (R157, R173). -/
def execReadCause (sb : Byte) (arg : BitVec 64) (s : State) : Result State := .next (s.shiftIn (frameBits 0x04 sb arg))

/-- SET_CAUSE_LEVEL: bytes 0 to 9 of a frame with code 05h (R157). -/
def execSetCauseLevel (sb : Byte) (arg : BitVec 64) (s : State) : Result State := .next (s.shiftIn (frameBits 0x05 sb arg))

/-- SET_AGE: bytes 0 to 9 of a frame with code 06h (R158). -/
def execSetAge (sb : Byte) (arg : BitVec 64) (s : State) : Result State := .next (s.shiftIn (frameBits 0x06 sb arg))

/-- STREAM_SETUP: bytes 0 to 9 of a frame with code 10h (R159). -/
def execStreamSetup (sb : Byte) (arg : BitVec 64) (s : State) : Result State := .next (s.shiftIn (frameBits 0x10 sb arg))

/-- STREAM_ADVANCE: bytes 0 to 9 of a frame with code 11h (R115). -/
def execStreamAdvance (sb : Byte) (arg : BitVec 64) (s : State) : Result State := .next (s.shiftIn (frameBits 0x11 sb arg))

/-- STREAM_TEARDOWN: bytes 0 to 9 of a frame with code 12h (R165). -/
def execStreamTeardown (sb : Byte) (arg : BitVec 64) (s : State) : Result State := .next (s.shiftIn (frameBits 0x12 sb arg))

/-- WINDOW_SET: bytes 0 to 9 of a frame with code 13h (R107). -/
def execWindowSet (sb : Byte) (arg : BitVec 64) (s : State) : Result State := .next (s.shiftIn (frameBits 0x13 sb arg))

/-- RESET_PART: bytes 0 to 9 of a frame with code 7Eh (R169). -/
def execResetPart (sb : Byte) (arg : BitVec 64) (s : State) : Result State := .next (s.shiftIn (frameBits 0x7E sb arg))

end Sys2Proof.Machine
end

