-- ==== Sys2Proof/Machine/Dispatch.lean ====
section
/-! DEFINITION. What each command does: one arm for each constructor of `Instr`. -/

namespace Sys2Proof.Machine

def exec (i : Instr) (s : State) : Host.Outcome State Fault Refusal :=
  match i with
  | .pinReset strap => Sys2Proof.Machine.execPinReset strap s
  | .partReady => Sys2Proof.Machine.execPartReady s
  | .upstreamRequest r => Sys2Proof.Machine.execUpstreamRequest r s
  | .responseDelivery => Sys2Proof.Machine.execResponseDelivery s
  | .holdRelease => Sys2Proof.Machine.execHoldRelease s
  | .arbiterGrant => Sys2Proof.Machine.execArbiterGrant s
  | .passThroughAnswer a => Sys2Proof.Machine.execPassThroughAnswer a s
  | .homeReadAnswer a => Sys2Proof.Machine.execHomeReadAnswer a s
  | .verifyReadAnswer a => Sys2Proof.Machine.execVerifyReadAnswer a s
  | .mergeReadAnswer a => Sys2Proof.Machine.execMergeReadAnswer a s
  | .commitWriteAnswer a => Sys2Proof.Machine.execCommitWriteAnswer a s
  | .commitCompletion st pos => Sys2Proof.Machine.execCommitCompletion st pos s
  | .copyReadAnswer a => Sys2Proof.Machine.execCopyReadAnswer a s
  | .migrationCompletion st pos => Sys2Proof.Machine.execMigrationCompletion st pos s
  | .ageTick upsets => Sys2Proof.Machine.execAgeTick upsets s
  | .ageExpiry st pos => Sys2Proof.Machine.execAgeExpiry st pos s
  | .identify sb arg => Sys2Proof.Machine.execIdentify sb arg s
  | .readStatus sb arg => Sys2Proof.Machine.execReadStatus sb arg s
  | .readStream sb arg => Sys2Proof.Machine.execReadStream sb arg s
  | .readCause sb arg => Sys2Proof.Machine.execReadCause sb arg s
  | .setCauseLevel sb arg => Sys2Proof.Machine.execSetCauseLevel sb arg s
  | .setAge sb arg => Sys2Proof.Machine.execSetAge sb arg s
  | .streamSetup sb arg => Sys2Proof.Machine.execStreamSetup sb arg s
  | .streamAdvance sb arg => Sys2Proof.Machine.execStreamAdvance sb arg s
  | .streamTeardown sb arg => Sys2Proof.Machine.execStreamTeardown sb arg s
  | .windowSet sb arg => Sys2Proof.Machine.execWindowSet sb arg s
  | .resetPart sb arg => Sys2Proof.Machine.execResetPart sb arg s
  | .unknownCommand code sb arg => Sys2Proof.Machine.execUnknownCommand code sb arg s
  | .managementFrameEnd msdi => Sys2Proof.Machine.execManagementFrameEnd msdi s
  | .descriptorFetchAnswer a => Sys2Proof.Machine.execDescriptorFetchAnswer a s
  | .windowDescriptorReadAnswer a => Sys2Proof.Machine.execWindowDescriptorReadAnswer a s
  | .lineTableReadAnswer a => Sys2Proof.Machine.execLineTableReadAnswer a s
  | .closeFirstPhaseEnd st => Sys2Proof.Machine.execCloseFirstPhaseEnd st s
  | .statusMapWriteAnswer a => Sys2Proof.Machine.execStatusMapWriteAnswer a s
  | .frameRecordWriteAnswer a => Sys2Proof.Machine.execFrameRecordWriteAnswer a s
  | .frameOpen st => Sys2Proof.Machine.execFrameOpen st s
  | .discardedAnswer a => Sys2Proof.Machine.execDiscardedAnswer a s
  | .drainEnd st => Sys2Proof.Machine.execDrainEnd st s
  | .copyWriteAnswer a => Sys2Proof.Machine.execCopyWriteAnswer a s
  | .managementFrameStart => Sys2Proof.Machine.execManagementFrameStart s

end Sys2Proof.Machine
end

