-- ==== Sys2Proof/Machine/Step.lean ====
section
/-! DEFINITION. One step of the part: the command at the front of the queue, or one reference period. -/

namespace Sys2Proof.Machine

/-- One step: the command at the front of the queue is taken; with none waiting, one period of the 1 µs reference passes
(log entry 3). -/
def step (s : State) : Host.Outcome State Fault Refusal :=
  match s.pending with
  | [] => .next s.referencePeriod
  | c :: rest => exec c { s with pending := rest }

/-- The command that a word spells, put at the front of the queue (log entry 21). -/
def State.withFetchWord (s : State) (nbits w : Nat) : State :=
  match decodeTableWord nbits w with
  | none => s
  | some c => { s with pending := c :: s.pending }

end Sys2Proof.Machine
end

