-- ==== Sys2Proof/Safety.lean ====
section
/-! DEFINITION. What holds in every state of the part: the bounds and laws of the manual that no step breaks. -/

namespace Sys2Proof.Machine

/-- An age count is 0 to 255 (R39). -/
def Entry.ageOk (e : Entry) : Prop :=
  match e.state with
  | .collecting age => age ≤ 255
  | .committing _ => True

/-- A cause record's stream set is empty while its flag is clear (R170). -/
def CauseRec.ok (r : CauseRec) : Prop := r.pending = false → r.streams = 0

/-- The per-frame counts of a stream stop at 65,535 (R114, R127). -/
def Stream.countsOk (x : Stream) : Prop :=
  x.evicted ≤ Config.countStop ∧ x.aged ≤ Config.countStop ∧ x.closed ≤ Config.countStop ∧ x.migrated ≤ Config.countStop

/-- The laws that every step keeps, from whatever state they hold in. -/
structure State.Safe (s : State) : Prop where
  /-- map memory is in its canonical form -/
  mapCanonical : MapMemory.wf s.mapMem = true
  /-- at most 8 internal transfers are issued and unanswered (R146) -/
  issuedAtMost : issuedCount s.internal ≤ Config.internalIssued
  /-- the hold queue holds at most 16 requests (R137) -/
  heldAtMost : s.holdQ.length ≤ Config.holdQueue
  /-- the assembly buffer holds at most 64 entries (R40) -/
  entriesAtMost : s.entries.length ≤ Config.entries
  /-- age counts stay in their range (R39) -/
  agesOk : ∀ e ∈ s.entries, e.ageOk
  /-- the ageing divider is one of its four values (R50) -/
  dividerOk : s.divider ∈ [1, 4, 16, 64]
  /-- the age limit is 0 to 255 (R50) -/
  ageLimitOk : s.ageLimit ≤ 255
  /-- the corrected-error count stops at 65,535 (R175) -/
  correctedOk : s.corrected ≤ Config.countStop
  /-- a clear cause has an empty stream set (R170) -/
  causesOk : ∀ i, (s.cause i).ok
  /-- the per-frame counts stop at 65,535 (R127) -/
  countsOk : ∀ st, (s.stream st).countsOk

/-- The laws of the assembly buffer (R39 to R41). -/
structure State.BufferLaws (s : State) : Prop where
  /-- never two entries for the same stream and tile position (R40) -/
  onePerTile : s.entries.Pairwise fun a b => ¬(a.stream = b.stream ∧ a.pos = b.pos)
  /-- entries have different numbers (R39) -/
  numbersOnce : (s.entries.map Entry.num).Nodup
  /-- entries are numbered 0 to 63 (R39) -/
  numbersBelow : ∀ e ∈ s.entries, e.num < Config.entries
  /-- the last-write order holds no entry twice (R41) -/
  orderOnce : s.lastWrite.Nodup
  /-- the last-write order holds the COLLECTING entries and no other (R41) -/
  orderHolds : ∀ n, n ∈ s.lastWrite ↔ ∃ e ∈ s.entries, e.num = n ∧ e.collecting = true

/-- A live stream's slot is its frame number modulo S (R6). -/
def Stream.ringOk (x : Stream) : Prop := x.live = true → x.slot = x.frame % x.geometry.slots

/-- The identities of requests and of transfers name each one once, and new ones are fresh (R134, R149; log entry 12). -/
structure IdsApart (requests held reads pass internal : List Nat) (nextReq nextXfer : Nat) : Prop where
  requestsBelow : ∀ n ∈ requests, n < nextReq
  heldBelow : ∀ n ∈ held, n < nextReq
  readsBelow : ∀ n ∈ reads, n < nextReq
  passBelow : ∀ n ∈ pass, n < nextXfer
  internalBelow : ∀ n ∈ internal, n < nextXfer
  requestsOnce : requests.Nodup
  heldOnce : held.Nodup
  passOnce : pass.Nodup
  internalOnce : internal.Nodup
  classesApart : ∀ n ∈ pass, n ∉ internal

/-- The identities that a state holds name each request and each transfer once. -/
def State.IdsOk (s : State) : Prop :=
  IdsApart (s.tagOrder.map Taken.id) (s.holdQ.map Held.id) (s.reads.map ResolvedRead.id) (s.passClass.map Xfer.id)
    (s.internal.map Xfer.id) s.nextReq s.nextXfer

/-- The banks are apart (R20): the pool ascending, and no bank both free and allotted, or allotted twice. -/
structure State.BanksApart (s : State) : Prop where
  /-- the pool is in ascending order, each bank once (R20) -/
  freeAscending : s.freeBanks.Pairwise fun a b => a < b
  /-- banks are numbered 0 to 159 -/
  freeBelow : ∀ b ∈ s.freeBanks, b < Config.banks
  /-- a stream's banks are in ascending order, each once (R20) -/
  allottedAscending : ∀ st, (s.stream st).banks.Pairwise fun a b => a < b
  /-- banks are numbered 0 to 159 -/
  allottedBelow : ∀ st, ∀ b ∈ (s.stream st).banks, b < Config.banks
  /-- an allotted bank is not free -/
  allottedNotFree : ∀ st, ∀ b ∈ (s.stream st).banks, b ∉ s.freeBanks
  /-- a bank is allotted to at most one stream -/
  streamsApart : ∀ st u, st ≠ u → ∀ b ∈ (s.stream st).banks, b ∉ (s.stream u).banks

/-- The state that map memory holds for (slot, position) of a stream (R24). -/
def State.tileState (s : State) (st : StreamId) (slot pos : Nat) : TileState :=
  (cellEntry (s.peekCell st ((s.geometry st).entryCell slot pos))).state

/-- The position record that map memory holds for a position of a stream (R26). -/
def State.posRecord (s : State) (st : StreamId) (pos : Nat) : PosRecord :=
  cellRecord (s.peekCell st ((s.geometry st).recordCell pos))

/-- The laws of the map at a position of a stream (R25, R26). -/
structure State.MapLaws (s : State) (st : StreamId) (pos : Nat) : Prop where
  /-- every ALIAS names a different slot whose entry is OWNED (R25) -/
  aliasNamesOwned : ∀ slot o, slot < (s.geometry st).slots → s.tileState st slot pos = .aliasOf o →
    o < (s.geometry st).slots ∧ o ≠ slot ∧ s.tileState st o pos = .owned
  /-- a record that holds a signature names a slot whose entry is OWNED (R26) -/
  recordNamesOwned : ∀ sig, (s.posRecord st pos).sig = some sig →
    (s.posRecord st pos).owner < (s.geometry st).slots ∧ s.tileState st (s.posRecord st pos).owner pos = .owned

/-- A stream's banks hold all its cells, each cell once (R20, R23). -/
def State.CellsHeld (s : State) (st : StreamId) : Prop :=
  (s.stream st).banks.Nodup ∧ (s.geometry st).banksNeeded ≤ (s.stream st).banks.length

end Sys2Proof.Machine
end

