-- ==== Sys2Proof/Certificates/Slice0/Obligations.lean ====
section
/-! DEFINITION. The statements for the provers. A command whose own effect is `e` and that may make further events due
answers `next e.finish`; `FinishTakesWhatIsDueAndDelivers` and `OneRoundTakesWhatIsDue` say what `finish` does (log
entries 1, 9). -/

open Sys2Proof Sys2Proof.Machine

/-! ### The step, the queue, the resets -/

/-- A step with a command waiting is that command's effect on the state without it. -/
def Obligations.StepRunsTheFrontCommand : Prop :=
  ∀ (c : Instr) (rest : List Instr) (s : State), s.pending = c :: rest → step s = exec c { s with pending := rest }

/-- Every command completes in every state, and only the step takes a command from the queue. -/
def Obligations.EveryCommandCompletesAndKeepsTheQueue : Prop :=
  (∀ (c : Instr) (s : State), ∃ t, exec c s = .next t ∧ t.pending = s.pending) ∧
  ∀ s : State, ∃ t, step s = .next t ∧ t.pending = s.pending.tail

/-- What is due in a state: a migration whose copy write is answered (R89), a commit whose needs are met (R77, R78), an
abandoned entry whose last transfer is answered (R56, R57), a released request (R140), a first phase without entries
(R116), a fourth phase without a load (R108, R124), a drain with nothing outstanding (R166), start-up with clearing ended
and nothing outstanding (R169). Where nothing is due, the end of a command's step makes deliverable the answers that are
ready, of requests at the front of their tag's list, and not deliverable already, in the order in which the requests were
taken (R134), and ends the step; else a round of what is due comes first. That a command's step takes up what it makes
due, at most 64 rounds of it, is the model's (log entries 1 and 9). -/
def Obligations.FinishTakesWhatIsDueAndDelivers : Prop :=
  (∀ s : State, s.quiet = true ↔
    (∀ m ∈ s.migrations, m.step = .copyRead ∨ ∃ x ∈ s.internal, x.owner = .copyWrite m.stream m.pos) ∧
    (∀ c ∈ s.commits, c.kind = none ∨ c.phase = some .verify ∨ c.phase = some .merge ∨
      (∃ x ∈ s.internal, x.owner.tile = some (c.stream, c.pos)) ∨ ∃ m ∈ s.migrations, m.stream = c.stream ∧ m.pos = c.pos) ∧
    (∀ e ∈ s.entries, e.collecting = true ∨ (s.stream e.stream).state = .opened ∨ (s.stream e.stream).state = .closing ∨
      ∃ x ∈ s.internal, x.owner.tile = some (e.stream, e.pos)) ∧
    (∀ h ∈ s.holdQ, h.released = false) ∧
    (∀ st, (s.stream st).state = .closing →
      ((s.stream st).phase = some .first → ∃ e ∈ s.entries, e.stream = st) ∧
      ((s.stream st).phase = some .fourth → (s.stream st).loadingWin ≠ none)) ∧
    (∀ st, (s.stream st).state = .draining → ∃ x ∈ s.internal, x.owner.stream = some st) ∧
    (s.partState = .starting → s.clearing = true ∨ s.internal ≠ [])) ∧
  (∀ (s : State) (n : Nat), s.quiet = true → State.settle n s = s) ∧
  (∀ (s : State) (n : Nat), s.quiet = false → State.settle (n + 1) s = State.settle n s.settleRound) ∧
  ∀ s : State,
    (let t := State.settle 64 s
     s.finish = { t with deliverable := t.deliverable ++ t.newlyDeliverable, stepNum := t.stepNum + 1 }) ∧
    (∀ n, n ∈ s.newlyDeliverable ↔
      ∃ t ∈ s.tagOrder, t.id = n ∧ t.answer.isSome = true ∧ n ∉ s.deliverable ∧
        ∃ f, s.tagOrder.find? (fun u => decide (u.tag = t.tag)) = some f ∧ f.id = t.id) ∧
    s.newlyDeliverable.Sublist (s.tagOrder.map Taken.id)

/-- What one round takes of what is due, where one event is due alone: a migration completes, then the commit that waited
for it (R77, R89); a commit completes (R78); abandoned entries are freed (R56, R57); released requests are retried (R140);
a second phase begins (R116); the next frame opens (R125); a drain ends (R166); the part becomes READY (R169). What a
completion or a freeing releases is retried in the same round, and a close, an opening or a drain that a retry made due
follows (log entries 1 and 9). -/
def Obligations.OneRoundTakesWhatIsDue : Prop :=
  ∀ s : State,
    let noMigration := ∀ m ∈ s.migrations, s.migrationDue m = false
    let noCommit := ∀ c ∈ s.commits, s.commitDue c = false
    let noneDead := ∀ e ∈ s.entries, s.entryDead e = false
    let noneReleased := ∀ h ∈ s.holdQ, h.released = false
    let rest (t : State) : State :=
      (((t.eachStream State.closeIfDue).eachStream State.openIfDue).eachStream State.drainIfDue).readyIfDue
    (∀ m, s.migrationAt m.stream m.pos = some m → s.migrationDue m = true → (∀ n ∈ s.migrations, n ≠ m →
      s.migrationDue n = false) →
      s.settleRound = rest (s.completeMigration m).commitsDue.freeDead.retryPass) ∧
    (∀ c k, noMigration → s.commitAt c.stream c.pos = some c → c.kind = some k → s.commitDue c = true →
      (∀ d ∈ s.commits, d ≠ c → s.commitDue d = false) → noneDead →
      s.settleRound = rest (s.completeCommit c k).retryPass) ∧
    (noMigration → noCommit → (∃ e ∈ s.entries, s.entryDead e = true) →
      s.settleRound = rest (s.freeEntriesWhere s.entryDead).retryPass) ∧
    (noMigration → noCommit → noneDead → s.settleRound = rest s.retryPass) ∧
    (noMigration → noCommit → noneDead → noneReleased → s.partState = .ready → ∀ st : StreamId,
      (∀ u, s.openDue u = false ∧ s.drainDue u = false) → (∀ u, u ≠ st → s.closeDue u = false) → s.closeDue st = true →
      s.settleRound = s.beginSecondPhase st) ∧
    (noMigration → noCommit → noneDead → noneReleased → s.partState = .ready → ∀ st : StreamId,
      (∀ u, s.closeDue u = false ∧ s.drainDue u = false) → (∀ u, u ≠ st → s.openDue u = false) → s.openDue st = true →
      s.settleRound = s.openFrame st) ∧
    (noMigration → noCommit → noneDead → noneReleased → s.partState = .ready → ∀ st : StreamId,
      (∀ u, s.closeDue u = false ∧ s.openDue u = false) → (∀ u, u ≠ st → s.drainDue u = false) → s.drainDue st = true →
      s.settleRound = s.endDrain st) ∧
    (noMigration → noCommit → noneDead → noneReleased → (∀ u, s.closeDue u = false ∧ s.openDue u = false ∧
      s.drainDue u = false) →
      s.partState = .starting → s.clearing = false → s.internal = [] → s.settleRound = { s with partState := .ready })

/-- Pin reset sets every block to its reset value (R168), whatever went before; the commands still waiting wait on. The
end of clearing makes a STARTING part READY if no internal transfer is outstanding (R169); otherwise clearing has ended
and the part waits for the last of them. That PART_READY carries the end of clearing is DEDUCED (log entry 16); that to a
READY part it is no event is the model's choice (DESIGN CHOICE, log entry 2). -/
def Obligations.PinResetAndPartReady : Prop :=
  (∀ (strap : Mode) (s : State), ∃ t, exec (.pinReset strap) s = .next t ∧
     t.pending = s.pending ∧ t.mode = strap ∧ t.partState = .starting ∧ t.clearing = true ∧
     (∀ st, (t.stream st).state = .free ∧ (t.stream st).geom = none ∧ (t.stream st).reason = .noReason ∧
       (t.stream st).active = ⟨⟨1, 0, 1, 0⟩, ⟨1, 0, 1, 0⟩, 0, .off, .off, .off⟩ ∧ (t.stream st).store = [] ∧
       (t.stream st).pendingWin = none ∧ (t.stream st).loadingWin = none) ∧
     t.freeBanks = List.range 160 ∧
     t.entries = [] ∧ t.lastWrite = [] ∧ t.commits = [] ∧ t.migrations = [] ∧ t.divider = 16 ∧ t.ageLimit = 200 ∧
     t.holdQ = [] ∧ t.tagOrder = [] ∧ t.deliverable = [] ∧ t.reads = [] ∧ t.passClass = [] ∧ t.internal = [] ∧
     t.lastGranted = .internal ∧ (∀ i, t.cause i = ⟨false, 0, 0⟩) ∧ t.irqAsserted = false ∧ t.corrected = 0 ∧
     t.frame = none) ∧
  (∀ s : State,
     (s.partState = .starting → s.internal = [] →
       exec .partReady s = .next { s with
         clearing := false, partState := .ready, mapMem := if s.clearing then [] else s.mapMem }) ∧
     (s.partState = .starting → s.internal ≠ [] →
       exec .partReady s = .next { s with clearing := false, mapMem := if s.clearing then [] else s.mapMem }) ∧
     (s.partState = .ready → exec .partReady s = .next s))

/-- RESET-PART clears every block but for the mode, the link, and what lets work already taken finish (R169): held
requests and resolved reads are answered ABORTED, the pass-through class stays, the issued internal transfers stay to be
discarded. The model's choices: the records of the output pins and channels stay (log entry 14), the counters that name
requests, transfers and steps run on (log entry 12), and commits and migrations are gone at once (log entry 13). -/
def Obligations.ResetPartKeepsOnlyWorkAlreadyTaken : Prop :=
  ∀ (sb : Byte) (arg : BitVec 64) (s : State),
    s.listening = true → s.mode = .managed → s.partState = .ready →
    ∃ t, exec (.resetPart sb arg) s = .next t ∧
      t.pending = s.pending ∧ t.mode = .managed ∧ t.partState = .starting ∧ t.clearing = true ∧
      t.frame = some ⟨10, 0, [], some [0x02]⟩ ∧ t.msdo = s.msdo ∧ t.upstreamOut = s.upstreamOut ∧
      t.downstreamOut = s.downstreamOut ∧ (∀ st, t.stream st = .reset) ∧ t.freeBanks = List.range 160 ∧
      t.entries = [] ∧ t.lastWrite = [] ∧ t.commits = [] ∧ t.migrations = [] ∧ t.divider = 16 ∧ t.ageLimit = 200 ∧
      t.refCount = 0 ∧ t.holdQ = [] ∧ t.reads = [] ∧ t.lastGranted = .internal ∧ (∀ i, t.cause i = ⟨false, 0, 0⟩) ∧
      t.corrected = 0 ∧
      t.tagOrder = s.tagOrder.map (fun u =>
        if s.holdQ.any (fun h => h.id == u.id) || s.reads.any (fun q => q.id == u.id) then
          { u with answer := some ⟨.aborted, responseBytes u.kind u.beats 0⟩ }
        else u) ∧
      t.passClass = s.passClass.map (fun x =>
        match x.owner with
        | .homeRead _ _ => { x with abandoned := true }
        | _ => x) ∧
      t.internal = (s.internal.filter Xfer.issued).map (fun x => { x with abandoned := true }) ∧
      t.nextReq = s.nextReq ∧ t.nextXfer = s.nextXfer ∧ t.stepNum = s.stepNum + 1

/-- The reset state, and the state that pin reset makes of any other, meet the invariants. -/
def Obligations.ResetStateMeetsTheInvariants : Prop :=
  State.reset.Safe ∧ State.reset.BufferLaws ∧ (∀ st, (State.reset.stream st).ringOk) ∧ State.reset.IdsOk ∧
    State.reset.BanksApart ∧
  ∀ (strap : Mode) (s t : State), exec (.pinReset strap) s = .next t →
    t.Safe ∧ t.BufferLaws ∧ (∀ st, (t.stream st).ringOk) ∧ t.IdsOk ∧ t.BanksApart

/-! ### Invariants -/

/-- Every step keeps the bounds and the canonical form (R28, R39, R40, R50, R127, R137, R146, R170, R175). -/
def Obligations.EveryStepKeepsTheBounds : Prop :=
  ∀ s t : State, s.Safe → step s = .next t → t.Safe

/-- Every step keeps the laws of the assembly buffer: one entry for each stream and position, and a last-write order that
holds exactly the COLLECTING entries, each once (R40, R41). -/
def Obligations.EveryStepKeepsTheBufferLaws : Prop :=
  ∀ s t : State, s.BufferLaws → step s = .next t → t.BufferLaws

/-- Every step keeps a live stream's current slot equal to its frame number mod S (R6). -/
def Obligations.EveryStepKeepsSlotFrameModS : Prop :=
  ∀ s t : State, (∀ st, (s.stream st).ringOk) → step s = .next t → ∀ st, (t.stream st).ringOk

/-- Every step keeps each outstanding transfer and each taken request the only one with its identity, so that an answer has
one transfer (R149; log entry 12). -/
def Obligations.EveryStepKeepsIdentitiesApart : Prop :=
  ∀ s t : State, s.IdsOk → step s = .next t → t.IdsOk

/-- Every step keeps the banks apart: the pool ascending, with numbers below 160, no bank of it allotted, and no bank
allotted to two streams (R20). -/
def Obligations.EveryStepKeepsTheBanksApart : Prop :=
  ∀ s t : State, s.BanksApart → step s = .next t → t.BanksApart

/-! ### The management link -/

/-- A fall of MCSN begins a frame; a rise ends it, a partial byte discarded, having shifted out 00h in bytes 0 to 11, then
the result and the data, then 00h. A frame that ends before the last bit of byte 9 takes no command and has no effect
(R152). The model's choices: a fall with a frame in progress and a rise with none are no events (DESIGN CHOICE, log entry
2); what a frame shifted out is recorded at its end, and the bits of an end are those since the frame's last event (log
entries 6 and 14). -/
def Obligations.FramesShiftOutTheirResponse : Prop :=
  ∀ (s : State) (bits : List Bool),
    (s.frame = none → exec .managementFrameStart s = .next { s with frame := some ⟨0, 0, [], none⟩ }) ∧
    (s.frame ≠ none → exec .managementFrameStart s = .next s) ∧
    (s.frame = none → exec (.managementFrameEnd bits) s = .next s) ∧
    (∀ f, s.frame = some f → f.response = none → f.bit < 8 → 8 * f.byte + f.bit + bits.length < 80 →
      exec (.managementFrameEnd bits) s = .next { s with
        frame := none, msdo := List.replicate ((8 * f.byte + f.bit + bits.length) / 8) 0 }) ∧
    ∀ f r, s.frame = some f → f.response = some r → f.bit < 8 → 10 ≤ f.byte → ∃ bytes,
      exec (.managementFrameEnd bits) s = .next { s with frame := none, msdo := bytes } ∧
      bytes.length = (8 * f.byte + f.bit + bits.length) / 8 ∧
      ∀ i, i < bytes.length → bytes[i]? = some (if i < 12 then 0 else r.getD (i - 12) 0)

/-- The bits of bytes 0 to 9 are the command code, the stream number and the argument, each most significant bit first,
and they take the command of the table with that code: 01h IDENTIFY, 02h READ-STATUS, 03h READ-STREAM, 04h READ-CAUSE, 05h
SET-CAUSE-LEVEL, 06h SET-AGE, 10h STREAM-SETUP, 11h STREAM-ADVANCE, 12h STREAM-TEARDOWN, 13h WINDOW-SET, 7Eh RESET-PART;
another code is not in the table (R152, R153). That a frame's end may bring the bits of a command and more, and is then
the command's row and the end with the bits that are left, is DEDUCED (log entry 6). That UNKNOWN_COMMAND with a code of
the table is no event and changes nothing is the model's choice (DESIGN CHOICE, log entry 2). -/
def Obligations.FrameBitsTakeTheirCommand : Prop :=
  (∀ (code sb : Byte) (arg : BitVec 64), (frameBits code sb arg).length = 80 ∧
    (∀ i, i < 8 → (frameBits code sb arg)[i]? = some (code.getLsbD (7 - i))) ∧
    (∀ i, i < 8 → (frameBits code sb arg)[8 + i]? = some (sb.getLsbD (7 - i))) ∧
    (∀ i, i < 64 → (frameBits code sb arg)[16 + i]? = some (arg.getLsbD (63 - i)))) ∧
  (∀ (c : Instr) (code sb : Byte) (arg : BitVec 64) (more : List Bool) (s t : State), s.frame = some ⟨0, 0, [], none⟩ →
    (c, code) ∈ [(Instr.identify sb arg, 0x01#8), (.readStatus sb arg, 0x02), (.readStream sb arg, 0x03),
      (.readCause sb arg, 0x04), (.setCauseLevel sb arg, 0x05), (.setAge sb arg, 0x06), (.streamSetup sb arg, 0x10),
      (.streamAdvance sb arg, 0x11), (.streamTeardown sb arg, 0x12), (.windowSet sb arg, 0x13), (.resetPart sb arg, 0x7E)] ∨
      (c = .unknownCommand code sb arg ∧
        code ∉ [0x01#8, 0x02, 0x03, 0x04, 0x05, 0x06, 0x10, 0x11, 0x12, 0x13, 0x7E]) →
    exec c s = .next t →
    exec (.managementFrameEnd (frameBits code sb arg ++ more)) s = exec (.managementFrameEnd more) t) ∧
  (∀ (code sb : Byte) (arg : BitVec 64) (s : State),
    code ∈ [0x01#8, 0x02, 0x03, 0x04, 0x05, 0x06, 0x10, 0x11, 0x12, 0x13, 0x7E] →
    exec (.unknownCommand code sb arg) s = .next s)

/-- IDENTIFY is answered DONE in every mode and part state, with the part's codes, mode and state; nothing else changes
(R154). -/
def Obligations.IdentifyAnswersWithoutChange : Prop :=
  ∀ (sb : Byte) (arg : BitVec 64) (s : State), s.listening = true →
    exec (.identify sb arg) s = .next { s with
      frame := some ⟨10, 0, [], some [0x01, 0x46, 0x32, 0x08, 0x01, if s.mode = .managed then 0x00 else 0x01,
        if s.partState = .starting then 0x00 else 0x01]⟩ }

/-- READ-STATUS is answered DONE in every mode and part state, with 24 bytes of data as they stand; nothing else changes
(R155, R188). READ-STREAM is answered DONE with the stream as it stands: the frame number and slot are 0 while it is FREE
or LOADING; nothing else changes (R156, R188). -/
def Obligations.ReadStatusAndReadStreamReport : Prop :=
  (∀ (sb : Byte) (arg : BitVec 64) (s : State), s.listening = true →
     exec (.readStatus sb arg) s = .next { s with
       frame := some ⟨10, 0, [], some (
         [0x01, if s.partState = .starting then 0x00 else 0x01, if s.mode = .managed then 0x00 else 0x01]
           ++ (List.finRange 16).map (fun st => (s.stream st).state.code)
           ++ [BitVec.ofNat 8 (s.entries.filter Entry.collecting).length,
             BitVec.ofNat 8 (s.entries.filter fun e => !e.collecting).length,
             BitVec.ofNat 8 s.holdQ.length, BitVec.ofNat 8 s.freeBanks.length,
             BitVec.ofNat 8 (s.corrected / 256), BitVec.ofNat 8 s.corrected])⟩ }) ∧
  (∀ (sb : Byte) (arg : BitVec 64) (s : State) (st : StreamId),
     s.listening = true → s.mode = .managed → s.partState = .ready → sb.toNat = st.val →
     exec (.readStream sb arg) s = .next { s with
       frame := some ⟨10, 0, [], some (
         let x := s.stream st
         let f := if x.state = .free ∨ x.state = .loading then 0 else x.frame
         let q := if x.state = .free ∨ x.state = .loading then 0 else x.slot
         [0x01, x.state.code, BitVec.ofNat 8 (f / 16777216), BitVec.ofNat 8 (f / 65536), BitVec.ofNat 8 (f / 256),
           BitVec.ofNat 8 f, BitVec.ofNat 8 q,
           BitVec.ofNat 8 (s.holdQ.filter fun h => h.stream == some st).length,
           BitVec.ofNat 8 (s.entries.filter fun e => e.collecting && e.stream == st).length,
           BitVec.ofNat 8 (s.entries.filter fun e => !e.collecting && e.stream == st).length,
           x.reason.code])⟩ })

/-- READ-CAUSE selects the pending cause of the highest level, of equals the lowest number, level 0 included; it answers
with the cause's number and stream set and clears both flag and set. With nothing pending it answers 0 and changes nothing
(R173). -/
def Obligations.ReadCauseSelectsAndClears : Prop :=
  ∀ (sb : Byte) (arg : BitVec 64) (s : State),
    s.listening = true → s.mode = .managed → s.partState = .ready →
    ((∀ i, (s.cause i).pending = false) →
      exec (.readCause sb arg) s = .next { s with frame := some ⟨10, 0, [], some [0x01, 0, 0, 0]⟩ }) ∧
    ((∃ i, (s.cause i).pending = true) → ∃ i : Fin 12,
      (s.cause i).pending = true ∧
      (∀ j, (s.cause j).pending = true → (s.cause j).level < (s.cause i).level ∨
        ((s.cause j).level = (s.cause i).level ∧ i ≤ j)) ∧
      exec (.readCause sb arg) s = .next
        { s.setCause i ⟨false, 0, (s.cause i).level⟩ with
          frame := some ⟨10, 0, [], some [0x01, BitVec.ofNat 8 (i.val + 1),
            BitVec.ofNat 8 ((s.cause i).streams.toNat / 256), BitVec.ofNat 8 (s.cause i).streams.toNat]⟩ })

/-- SET-CAUSE-LEVEL sets one level and keeps the flag and the stream set; a cause number outside 1 to 12 or a level above
3 is REFUSED and changes nothing (R157, R188). SET-AGE replaces divider and limit, starts the tick period again and starts
AGED commits for the COLLECTING entries whose count is at or above a new nonzero limit, in the last-write order; a divider
code of 4 or more is REFUSED (R51, R158). -/
def Obligations.SetCauseLevelAndSetAge : Prop :=
  (∀ (sb : Byte) (arg : BitVec 64) (s : State),
     s.listening = true → s.mode = .managed → s.partState = .ready →
     (∀ (i : Fin 12) (l : Fin 4), arg.toNat % 256 = i.val + 1 → arg.toNat / 256 % 256 = l.val →
       exec (.setCauseLevel sb arg) s = .next
         { s.setCause i ⟨(s.cause i).pending, (s.cause i).streams, l⟩ with frame := some ⟨10, 0, [], some [0x01]⟩ }) ∧
     (arg.toNat % 256 = 0 ∨ 12 < arg.toNat % 256 ∨ 3 < arg.toNat / 256 % 256 →
       exec (.setCauseLevel sb arg) s = .next { s with frame := some ⟨10, 0, [], some [0x04]⟩ })) ∧
  (∀ (sb : Byte) (arg : BitVec 64) (s : State),
     s.listening = true → s.mode = .managed → s.partState = .ready →
     (∀ (code : Nat) (d : Nat), (code, d) ∈ [(0, 1), (1, 4), (2, 16), (3, 64)] → arg.toNat % 256 = code →
       let limit := arg.toNat / 256 % 256
       let t : State := { s with divider := d, ageLimit := limit, refCount := 0 }
       exec (.setAge sb arg) s = .next (State.finish
         { t.startCommits .aged (s.lastWrite.filter fun n =>
             match s.entryNum n with
             | some e => (match e.state with
               | .collecting age => decide (1 ≤ limit) && decide (limit ≤ age)
               | .committing _ => false)
             | none => false) with
           frame := some ⟨10, 0, [], some [0x01]⟩ })) ∧
     (4 ≤ arg.toNat % 256 →
       exec (.setAge sb arg) s = .next (State.finish { s with frame := some ⟨10, 0, [], some [0x04]⟩ })))

/-- STREAM-SETUP by the stream's state: a FREE stream with a good address becomes LOADING and its two descriptor reads are
handed on; otherwise REFUSED or BUSY with no effect (R159, R160). WINDOW-SET by the stream's state: an OPEN or CLOSING
stream takes a 64-aligned address as its pending address, or none for 0; otherwise REFUSED with no effect (R107). Two
transfers of one step carry numbers and tags that are the model's (log entries 12 and 26). -/
def Obligations.StreamSetupAndWindowSetByState : Prop :=
  (∀ (sb : Byte) (arg : BitVec 64) (s : State) (st : StreamId),
     s.listening = true → s.mode = .managed → s.partState = .ready → sb.toNat = st.val →
     let addr := arg.toNat % 2 ^ 40
     ((s.stream st).state = .free → addr % 64 = 0 → addr + 127 < 2 ^ 40 →
       exec (.streamSetup sb arg) s = .next
         { s.setStream st { s.stream st with state := .loading, fetch := [], fetchFailed := false } with
           internal := s.internal ++
             [⟨s.nextXfer, s.stepNum, .descFetch st, Config.freeTag s.nextXfer, ⟨.read, BitVec.ofNat 40 addr, 2, [], []⟩,
               false, false⟩,
               ⟨s.nextXfer + 1, s.stepNum, .descFetch st, Config.freeTag (s.nextXfer + 1), ⟨.read,
                 BitVec.ofNat 40 (addr + 64), 2, [], []⟩, false, false⟩]
           nextXfer := s.nextXfer + 2
           stepNum := s.stepNum + 1
           frame := some ⟨10, 0, [], some [0x02]⟩ }) ∧
     ((s.stream st).state = .free → (addr % 64 ≠ 0 ∨ 2 ^ 40 ≤ addr + 127) →
       exec (.streamSetup sb arg) s = .next { s with frame := some ⟨10, 0, [], some [0x04]⟩ }) ∧
     ((s.stream st).state = .loading ∨ (s.stream st).state = .draining →
       exec (.streamSetup sb arg) s = .next { s with frame := some ⟨10, 0, [], some [0x03]⟩ }) ∧
     ((s.stream st).state = .opened ∨ (s.stream st).state = .closing ∨ (s.stream st).state = .faulted →
       exec (.streamSetup sb arg) s = .next { s with frame := some ⟨10, 0, [], some [0x04]⟩ })) ∧
  (∀ (sb : Byte) (arg : BitVec 64) (s : State) (st : StreamId),
     s.listening = true → s.mode = .managed → s.partState = .ready → sb.toNat = st.val →
     let addr := arg.toNat % 2 ^ 40
     ((s.stream st).state = .opened ∨ (s.stream st).state = .closing → addr % 64 = 0 →
       exec (.windowSet sb arg) s = .next
         { s.setStream st { s.stream st with pendingWin := if addr = 0 then none else some addr } with
           frame := some ⟨10, 0, [], some [0x01]⟩ }) ∧
     ((s.stream st).state = .opened ∨ (s.stream st).state = .closing → addr % 64 ≠ 0 →
       exec (.windowSet sb arg) s = .next { s with frame := some ⟨10, 0, [], some [0x04]⟩ }) ∧
     ((s.stream st).state ≠ .opened → (s.stream st).state ≠ .closing →
       exec (.windowSet sb arg) s = .next { s with frame := some ⟨10, 0, [], some [0x04]⟩ }))

/-- STREAM-ADVANCE by the stream's state: an OPEN stream below the last frame becomes CLOSING in its first phase, and a
CLOSE commit starts for each of its COLLECTING entries; otherwise REFUSED or BUSY with no effect (R53, R115, R116).
STREAM-TEARDOWN by the stream's state: an OPEN, CLOSING or FAULTED stream enters DRAINING; otherwise REFUSED or BUSY with
no effect (R165). -/
def Obligations.StreamAdvanceAndTeardownByState : Prop :=
  (∀ (sb : Byte) (arg : BitVec 64) (s : State) (st : StreamId),
     s.listening = true → s.mode = .managed → s.partState = .ready → sb.toNat = st.val →
     ((s.stream st).state = .opened → (s.stream st).frame < 4294967295 →
       exec (.streamAdvance sb arg) s = .next (State.finish
         { (s.setStream st { s.stream st with state := .closing, phase := some .first }).startCommits .close
             (s.lastWrite.filter fun n => (s.entries.find? fun e => e.num == n).any fun e => e.stream == st) with
           frame := some ⟨10, 0, [], some [0x02]⟩ })) ∧
     ((s.stream st).state = .opened → 4294967295 ≤ (s.stream st).frame →
       exec (.streamAdvance sb arg) s = .next (State.finish { s with frame := some ⟨10, 0, [], some [0x04]⟩ })) ∧
     ((s.stream st).state = .closing ∨ (s.stream st).state = .loading →
       exec (.streamAdvance sb arg) s = .next (State.finish { s with frame := some ⟨10, 0, [], some [0x03]⟩ })) ∧
     ((s.stream st).state = .faulted ∨ (s.stream st).state = .free ∨ (s.stream st).state = .draining →
       exec (.streamAdvance sb arg) s = .next (State.finish { s with frame := some ⟨10, 0, [], some [0x04]⟩ }))) ∧
  (∀ (sb : Byte) (arg : BitVec 64) (s : State) (st : StreamId),
     s.listening = true → s.mode = .managed → s.partState = .ready → sb.toNat = st.val →
     ((s.stream st).state = .opened ∨ (s.stream st).state = .closing ∨ (s.stream st).state = .faulted →
       exec (.streamTeardown sb arg) s = .next (State.finish
         { s.enterDraining st with frame := some ⟨10, 0, [], some [0x02]⟩ })) ∧
     ((s.stream st).state = .loading ∨ (s.stream st).state = .draining →
       exec (.streamTeardown sb arg) s = .next (State.finish { s with frame := some ⟨10, 0, [], some [0x03]⟩ })) ∧
     ((s.stream st).state = .free →
       exec (.streamTeardown sb arg) s = .next (State.finish { s with frame := some ⟨10, 0, [], some [0x04]⟩ })))

/-- The part-wide tests come before a command's own rule: REFUSED in TRANSPARENT mode, BUSY while STARTING, REFUSED for a
stream number of 16 or more of a stream command (R153). A code outside the command table is answered UNKNOWN in every mode
and part state. A frame that has taken a command takes no second, whatever its next ten bytes spell: it only moves on by
them (R152). That a command's bytes outside any frame change nothing is the model's choice (DESIGN CHOICE, log entry 2),
and so is that a READ-STREAM answered REFUSED has no data (DESIGN CHOICE, log entry 27). -/
def Obligations.PartWideAnswersComeFirst : Prop :=
  (∀ (sb : Byte) (arg : BitVec 64) (s : State), s.listening = true →
     let answered (r : Byte) : State := { s with frame := some ⟨10, 0, [], some [r]⟩ }
     let part (r : Byte) : Prop :=
       exec (.readCause sb arg) s = .next (answered r) ∧ exec (.setCauseLevel sb arg) s = .next (answered r) ∧
       exec (.setAge sb arg) s = .next (answered r).finish ∧ exec (.resetPart sb arg) s = .next (answered r).finish
     let stream (r : Byte) : Prop :=
       exec (.readStream sb arg) s = .next (answered r) ∧ exec (.streamSetup sb arg) s = .next (answered r) ∧
       exec (.windowSet sb arg) s = .next (answered r) ∧ exec (.streamAdvance sb arg) s = .next (answered r).finish ∧
       exec (.streamTeardown sb arg) s = .next (answered r).finish
     (s.mode = .transparent → part 0x04 ∧ stream 0x04) ∧
     (s.mode = .managed → s.partState = .starting → part 0x03 ∧ stream 0x03) ∧
     (s.mode = .managed → s.partState = .ready → 16 ≤ sb.toNat → stream 0x04)) ∧
  (∀ (code sb : Byte) (arg : BitVec 64) (s : State),
     code ∉ [0x01#8, 0x02, 0x03, 0x04, 0x05, 0x06, 0x10, 0x11, 0x12, 0x13, 0x7E] → s.listening = true →
     exec (.unknownCommand code sb arg) s = .next { s with frame := some ⟨10, 0, [], some [0x05]⟩ }) ∧
  ∀ (code sb : Byte) (arg : BitVec 64) (s : State) (c : Instr),
    c ∈ [Instr.identify sb arg, .readStatus sb arg, .readStream sb arg, .readCause sb arg, .setCauseLevel sb arg,
      .setAge sb arg, .streamSetup sb arg, .streamAdvance sb arg, .streamTeardown sb arg, .windowSet sb arg,
      .resetPart sb arg] ∨ (c = .unknownCommand code sb arg ∧
        code ∉ [0x01#8, 0x02, 0x03, 0x04, 0x05, 0x06, 0x10, 0x11, 0x12, 0x13, 0x7E]) →
    (∀ f r, s.frame = some f → f.response = some r → f.bit < 8 → 10 ≤ f.byte →
      exec c s = .next { s with frame := some { f with byte := f.byte + 10 } }) ∧
    (s.frame = none → exec c s = .next s)

/-! ### Causes and the interrupt line -/

/-- Raising sets the flag and adds the stream; raising again leaves the record as it stands. A raising taken before the
READ-CAUSE that selects its cause is in the set that it answers with and clears; one taken after it sets the flag again
with a set that holds its stream alone (R171). -/
def Obligations.RaisedStreamsAreHeldOnce : Prop :=
  (∀ (s : State) (c : Cause) (st : StreamId),
    (s.raise c st).raise c st = s.raise c st ∧
    ((s.raise c st).cause c.idx).pending = true ∧
    (∀ u : StreamId, ((s.raise c st).cause c.idx).streams.getLsbD u.val =
      ((s.cause c.idx).streams.getLsbD u.val || decide (u = st))) ∧
    ((s.raise c st).cause c.idx).level = (s.cause c.idx).level ∧
    ∀ i, i ≠ c.idx → (s.raise c st).cause i = s.cause i) ∧
  ∀ (s : State) (c : Cause) (st : StreamId) (sb : Byte) (arg : BitVec 64),
    s.listening = true → s.mode = .managed → s.partState = .ready →
    (∀ i, i ≠ c.idx → (s.cause i).pending = true → (s.cause i).level < (s.cause c.idx).level ∨
      ((s.cause i).level = (s.cause c.idx).level ∧ c.idx < i)) →
    (∃ t, exec (.readCause sb arg) (s.raise c st) = .next t ∧
      t.frame = some ⟨10, 0, [], some [0x01, BitVec.ofNat 8 (c.idx.val + 1),
        BitVec.ofNat 8 (((s.raise c st).cause c.idx).streams.toNat / 256),
        BitVec.ofNat 8 ((s.raise c st).cause c.idx).streams.toNat]⟩ ∧
      t.cause c.idx = ⟨false, 0, (s.cause c.idx).level⟩) ∧
    ((s.cause c.idx).pending = true → ∃ t, exec (.readCause sb arg) s = .next t ∧
      t.frame = some ⟨10, 0, [], some [0x01, BitVec.ofNat 8 (c.idx.val + 1),
        BitVec.ofNat 8 ((s.cause c.idx).streams.toNat / 256), BitVec.ofNat 8 (s.cause c.idx).streams.toNat]⟩ ∧
      ((t.raise c st).cause c.idx).pending = true ∧
      ∀ u : StreamId, ((t.raise c st).cause c.idx).streams.getLsbD u.val = decide (u = st))

/-- IRQN is asserted exactly while some cause is pending at level 1 or more: so in the step in which it is raised,
cleared, or given another level, and not after either reset (R172). -/
def Obligations.InterruptLineFollowsTheCauses : Prop :=
  (∀ s : State, s.irqAsserted = true ↔ ∃ i, (s.cause i).pending = true ∧ 1 ≤ (s.cause i).level) ∧
  (∀ (s : State) (c : Cause) (st : StreamId), 1 ≤ (s.cause c.idx).level → (s.raise c st).irqAsserted = true) ∧
  (∀ (s : State) (i : Fin 12),
    (∀ j, j ≠ i → (s.cause j).pending = true → (s.cause j).level = 0) →
    (s.setCause i (s.cause i).cleared).irqAsserted = false ∧
    (s.setCause i { s.cause i with level := 0 }).irqAsserted = false) ∧
  (∀ (s : State) (i : Fin 12) (l : Fin 4), (s.cause i).pending = true → 1 ≤ l →
    (s.setCause i { s.cause i with level := l }).irqAsserted = true) ∧
  ∀ (s : State) (strap : Mode), (s.pinReset strap).irqAsserted = false ∧ s.partReset.irqAsserted = false

/-! ### The upstream port -/

/-- The shape checks (R133): a request passes them exactly when its length is 1 to 8 beats, its address a multiple of 32 and
its extent within one 256-byte block. One that fails is answered DECLINED, with 00h in every byte for a READ, in every mode
and part state and before any other test; it is entered in the tag order with its answer ready, and nothing else of it is
done. -/
def Obligations.ShapeFailureIsDeclined : Prop :=
  ∀ (r : Request) (s : State),
    (r.shapeOk = true ↔ 1 ≤ r.beats ∧ r.beats ≤ 8 ∧ r.addr.toNat % 32 = 0 ∧
      r.addr.toNat / 256 = (r.addr.toNat + 32 * r.beats - 1) / 256) ∧
    (r.shapeOk = false → s.holdQ.length < 16 → s.IdsOk →
      exec (.upstreamRequest r) s = .next (State.finish { s with
        nextReq := s.nextReq + 1
        tagOrder := s.tagOrder ++ [⟨s.nextReq, r.tag, r.kind, r.beats,
          some ⟨.declined, match r.kind with
            | .read => List.replicate (32 * r.beats) 0
            | .write => []⟩⟩] }))

/-- A request outside every claimed aperture, and, for a WRITE, every claimed guard range, and every request in
TRANSPARENT mode, is handed to the pass-through class unchanged, if no request ahead of it in the hold queue has its tag
or overlaps it (R1, R16, R136). While the hold queue holds 16 requests, no request is taken (R132). The numbers and the
tag that the request and its transfer carry are the model's (log entries 12 and 26). -/
def Obligations.PassThroughIsHandedOnUnchanged : Prop :=
  (∀ (r : Request) (s : State), s.IdsOk → s.holdQ.length < 16 → r.shapeOk = true →
     (∀ h ∈ s.holdQ, h.req.tag ≠ r.tag) →
     (∀ h ∈ s.holdQ, h.closingHeld = true ∨ h.req.addr.toNat / 256 ≠ r.addr.toNat / 256) →
     (s.mode = .transparent ∨
       (∀ st, (s.stream st).live = true →
         ¬((s.geometry st).aperture ≤ r.addr.toNat ∧ r.addr.toNat < (s.geometry st).apertureEnd)) ∧
       (r.kind = .write → ∀ st, (s.stream st).live = true → ∀ g ∈ (s.geometry st).guardRuns,
         ¬(g.1 < r.addr.toNat + 32 * r.beats ∧ r.addr.toNat < g.2))) →
     exec (.upstreamRequest r) s = .next (State.finish { s with
       nextReq := s.nextReq + 1
       tagOrder := s.tagOrder ++ [⟨s.nextReq, r.tag, r.kind, r.beats, none⟩]
       passClass := s.passClass ++
         [⟨s.nextXfer, s.stepNum, .passThrough s.nextReq, Config.freeTag s.nextXfer, ⟨r.kind, r.addr, r.beats, r.data,
           r.enables⟩, false, false⟩]
       nextXfer := s.nextXfer + 1 })) ∧
  (∀ (r : Request) (s : State), 16 ≤ s.holdQ.length → exec (.upstreamRequest r) s = .next s.finish)

/-- An aperture hit of a FAULTED or DRAINING stream is answered at decode by the stream's state, with the vacant byte in a
READ's data and with no cause (R15). The writes that are answered at decode while their stream is OPEN or CLOSING, or that
touch a guard range: a guarded write and a reference-view write are DECLINED with their cause, a write with no enabled
byte is OKAY with none, a wholly vacant write is DECLINED with VACANT-WRITE (R11 to R13). A request hits the aperture of a
live stream where its address lies in it, and meets a guard range of one, slot homes, status maps or record ring, where a
byte of its extent does (R1, R2, R4, R13). No guard range of a stream that has passed its checks is empty (R161). -/
def Obligations.RequestsAnsweredAtDecode : Prop :=
  (∀ (r : Request) (s : State) (st : StreamId), s.IdsOk → s.holdQ.length < 16 → r.shapeOk = true →
     (∀ h ∈ s.holdQ, h.req.tag ≠ r.tag) → s.mode = .managed → s.apertureHit r = some st →
     let answered (a : Answer) : State := { s with
       nextReq := s.nextReq + 1
       tagOrder := s.tagOrder ++ [⟨s.nextReq, r.tag, r.kind, r.beats, some a⟩] }
     let vacant := List.replicate (32 * r.beats) (s.geometry st).vacant
     ((s.stream st).state = .faulted → r.kind = .read →
       exec (.upstreamRequest r) s = .next (answered ⟨.dataError, vacant⟩).finish) ∧
     ((s.stream st).state = .draining → r.kind = .read →
       exec (.upstreamRequest r) s = .next (answered ⟨.declined, vacant⟩).finish) ∧
     ((s.stream st).state = .faulted ∨ (s.stream st).state = .draining → r.kind = .write →
       exec (.upstreamRequest r) s = .next (answered ⟨.declined, []⟩).finish)) ∧
  (∀ (r : Request) (s : State), s.IdsOk → s.holdQ.length < 16 → r.shapeOk = true → r.kind = .write →
     (∀ h ∈ s.holdQ, h.req.tag ≠ r.tag) → s.mode = .managed →
     let answered (status : RespStatus) (t : State) : State := { t with
       nextReq := s.nextReq + 1
       tagOrder := s.tagOrder ++ [⟨s.nextReq, r.tag, .write, r.beats, some ⟨status, []⟩⟩] }
     (s.apertureHit r = none → s.guardHits r ≠ [] →
       exec (.upstreamRequest r) s = .next
         (answered .declined ((s.guardHits r).foldl (fun t st => t.raise .guardWrite st) s)).finish) ∧
     ∀ st, s.apertureHit r = some st → (s.stream st).state = .opened ∨ (s.stream st).state = .closing →
       let g := s.geometry st
       let view := (r.addr.toNat - g.aperture) / g.viewStride
       let pieces := g.pieces ((r.addr.toNat - g.aperture) % g.viewStride) (32 * r.beats)
       (view ≠ 0 →
         exec (.upstreamRequest r) s = .next (answered .declined (s.raise .referenceWrite st)).finish) ∧
       (view = 0 → (∀ e ∈ r.enables, e = false) → exec (.upstreamRequest r) s = .next (answered .okay s).finish) ∧
       (view = 0 → (∃ e ∈ r.enables, e = true) → (∀ p ∈ pieces, p.tile.isSome = true → p.live r = false) →
         exec (.upstreamRequest r) s = .next (answered .declined (s.raise .vacantWrite st)).finish)) ∧
  (∀ g : Geom, g.apertureEnd = g.aperture + g.slots * g.viewStride ∧
     g.guardRuns = [(g.storage, g.storage + g.slots * ((g.tiles * 1024 + 4095) / 4096 * 4096)),
       (g.statusBase, g.statusBase + g.slots * ((g.tiles + 63) / 64 * 64)), (g.ringBase, g.ringBase + g.ringEntries * 64)]) ∧
  ∀ (s : State) (r : Request),
     let live (st : StreamId) : Prop := (s.stream st).state = .opened ∨ (s.stream st).state = .closing ∨
       (s.stream st).state = .faulted ∨ (s.stream st).state = .draining
     let hits (st : StreamId) : Prop := live st ∧ (s.geometry st).aperture ≤ r.addr.toNat ∧
       r.addr.toNat < (s.geometry st).apertureEnd
     (∀ st, s.apertureHit r = some st → hits st) ∧ (s.apertureHit r = none ↔ ∀ st, ¬hits st) ∧
     (∀ st, hits st → (∀ u, hits u → u = st) → s.apertureHit r = some st) ∧
     (∀ st, 1 ≤ r.beats → (∀ run ∈ (s.geometry st).guardRuns, run.1 < run.2) →
       (st ∈ s.guardHits r ↔ live st ∧ ∃ run ∈ (s.geometry st).guardRuns,
         ∃ a, r.addr.toNat ≤ a ∧ a < r.addr.toNat + 32 * r.beats ∧ run.1 ≤ a ∧ a < run.2)) ∧
     (s.guardHits r).Nodup

/-- The holds of the request order. A request whose tag a held request has is held with TAG-ORDER, before any decode, in
every mode; one that decodes as a pass-through, an aperture read or a view-0 write with a live piece is held with OVERLAP
behind a request that it overlaps: one not held with CLOSING, with the same 256-byte block, or with the same stream and a
tile in common (R136, R137, R139). When a request leaves the queue, each request behind it whose reason is TAG-ORDER or
OVERLAP is tested again against the requests still ahead of it, and released where none of them has its tag, or overlaps
it (R138, R140). -/
def Obligations.TagOrderAndOverlapHolds : Prop :=
  (∀ (r : Request) (s : State), s.IdsOk → s.holdQ.length < 16 → r.shapeOk = true →
    let held (why : HoldReason) (stream : Option StreamId) (tiles : List (Nat × Nat)) : State := { s with
      nextReq := s.nextReq + 1
      tagOrder := s.tagOrder ++ [⟨s.nextReq, r.tag, r.kind, r.beats, none⟩]
      holdQ := s.holdQ ++ [⟨s.nextReq, r, why, stream, tiles, false⟩] }
    ((∃ h ∈ s.holdQ, h.req.tag = r.tag) → exec (.upstreamRequest r) s = .next (held .tagOrder none []).finish) ∧
    ((∀ h ∈ s.holdQ, h.req.tag ≠ r.tag) →
      (s.decodeRequest r = .passThrough → (∃ h ∈ s.holdQ, h.overlaps (r.addr.toNat / 256) none [] = true) →
        exec (.upstreamRequest r) s = .next (held .overlap none []).finish) ∧
      (∀ st slot ps, s.decodeRequest r = .reading st slot ps →
        (∃ h ∈ s.holdQ, h.overlaps (r.addr.toNat / 256) (some st) (pieceTiles slot ps) = true) →
        exec (.upstreamRequest r) s = .next (held .overlap (some st) (pieceTiles slot ps)).finish) ∧
      (∀ st slot ps vacant, s.decodeRequest r = .placing st slot ps vacant →
        (∃ h ∈ s.holdQ, h.overlaps (r.addr.toNat / 256) (some st) (pieceTiles slot ps) = true) →
        exec (.upstreamRequest r) s = .next (held .overlap (some st) (pieceTiles slot ps)).finish))) ∧
  (∀ (h : Held) (block : Nat) (stream : Option StreamId) (tiles : List (Nat × Nat)),
    h.overlaps block stream tiles = true ↔
      (∀ st, h.reason = .closing st → h.released = true) ∧
      (h.req.addr.toNat / 256 = block ∨ (stream ≠ none ∧ h.stream = stream ∧ ∃ t ∈ tiles, t ∈ h.tiles))) ∧
  (∀ (slot : Nat) (ps : List Piece) (t : Nat × Nat),
    t ∈ pieceTiles slot ps ↔ ∃ p ∈ ps, ∃ u, p.tile = some u ∧ t = (slot, u.pos)) ∧
  (∀ (s : State) (ahead behind : List Held) (x : Held), s.holdQ = ahead ++ x :: behind → (s.holdQ.map Held.id).Nodup →
    s.leave x.id = { s with
      holdQ := ahead ++ behind.mapIdx fun i h =>
        if h.orderClear (ahead ++ behind.take i) then { h with released := true } else h }) ∧
  ∀ (ahead : List Held) (h : Held), h.orderClear ahead = true ↔
    (h.reason = .tagOrder ∧ ∀ a ∈ ahead, a.req.tag ≠ h.req.tag) ∨
    (h.reason = .overlap ∧ ∀ a ∈ ahead, a.overlaps (h.req.addr.toNat / 256) h.stream h.tiles = false)

/-- A view-0 write with a live piece, held by nothing ahead of it, takes the first case that applies: CLOSING; TILE-BUSY for
its first blocked piece; NO-ENTRY, with an eviction of its shortfall from the front of the last-write order; placement, with
its bytes stored, OKAY answered and the commits of the entries it completes started (R42 to R44, R47, R49). That an eviction
passes over the positions of the write's LIVE pieces, and of no others, is DEDUCED (log entry 23). -/
def Obligations.WriteTakesTheFirstCaseThatApplies : Prop :=
  ∀ (r : Request) (s : State) (st : StreamId), s.IdsOk → s.holdQ.length < 16 → r.shapeOk = true → r.kind = .write →
    (∀ h ∈ s.holdQ, h.req.tag ≠ r.tag) → s.mode = .managed → s.apertureHit r = some st →
    let g := s.geometry st
    let slot := (s.stream st).slot
    let pieces := g.pieces ((r.addr.toNat - g.aperture) % g.viewStride) (32 * r.beats)
    let inPlane := pieces.filter fun p => p.tile.isSome
    let live := livePieces r inPlane
    let tiles := pieceTiles slot inPlane
    (r.addr.toNat - g.aperture) / g.viewStride = 0 → (∃ p ∈ inPlane, p.live r = true) →
    (∀ h ∈ s.holdQ, h.overlaps (r.addr.toNat / 256) (some st) tiles = false) →
    let taken (a : Option Answer) : State := { s with
      nextReq := s.nextReq + 1
      tagOrder := s.tagOrder ++ [⟨s.nextReq, r.tag, .write, r.beats, a⟩] }
    let held (why : HoldReason) : State := { taken none with
      holdQ := s.holdQ ++ [⟨s.nextReq, r, why, some st, tiles, false⟩] }
    let needed := (live.filter fun pt => (s.entryAt st pt.2.pos).isNone).length
    let vacant := pieces.any fun p => p.tile.isNone && p.live r
    ((s.stream st).state = .closing → exec (.upstreamRequest r) s = .next (held (.closing st)).finish) ∧
    ((s.stream st).state = .opened → ∀ pos, s.blockedAt st live = some pos →
      exec (.upstreamRequest r) s = .next (held (.tileBusy st slot pos)).finish) ∧
    ((s.stream st).state = .opened → s.blockedAt st live = none → 64 - s.entries.length < needed →
      exec (.upstreamRequest r) s = .next
        ((held (.noEntry needed)).startCommits .evicted
          ((s.lastWrite.filter fun n => (s.entryNum n).any fun e =>
            !(e.stream == st && (live.map fun pt => pt.2.pos).contains e.pos)).take
              (needed - (64 - s.entries.length)))).finish) ∧
    ((s.stream st).state = .opened → s.blockedAt st live = none → needed ≤ 64 - s.entries.length →
      let placed := (taken (some ⟨.okay, []⟩)).storePieces st r live
      let told := if vacant then placed.raise .vacantWrite st else placed
      exec (.upstreamRequest r) s = .next
        (told.startCommits .complete (live.filterMap fun pt =>
          match placed.entryAt st pt.2.pos with
          | some e => if e.collecting && e.complete g then some e.num else none
          | none => none)).finish)

/-- A read of an OPEN or CLOSING stream whose every piece is vacant or BLANK with no entry is answered at once, with the
vacant byte and the plane's fill byte, and changes nothing but the tag order (R10, R29, R30, R32). What the map entry of
(slot, position) makes of a piece: fill for BLANK, the home of the slot for OWNED, the home of the owner for ALIAS, a
MIGRATING hold where a migration is moving what the alias names; covered bytes stand over it (R25, R29, R30, R55). -/
def Obligations.PiecesShowTheirMapEntries : Prop :=
  (∀ (r : Request) (s : State) (st : StreamId), s.IdsOk → s.holdQ.length < 16 → r.shapeOk = true → r.kind = .read →
     (∀ h ∈ s.holdQ, h.req.tag ≠ r.tag) → s.mode = .managed → s.apertureHit r = some st →
     (s.stream st).state = .opened ∨ (s.stream st).state = .closing →
     let g := s.geometry st
     let slot := g.slotOf (s.stream st).slot ((r.addr.toNat - g.aperture) / g.viewStride)
     let pieces := g.pieces ((r.addr.toNat - g.aperture) % g.viewStride) (32 * r.beats)
     (∀ h ∈ s.holdQ, h.overlaps (r.addr.toNat / 256) (some st) (pieceTiles slot pieces) = false) →
     (∀ p ∈ pieces, ∀ t, p.tile = some t →
       (s.entries.all fun e => !(e.stream == st && e.pos == t.pos)) = true ∧
       (MapMemory.read s.mapMem (s.cellKey st (g.entryCell slot t.pos))).ecc = .good ∧
       (cellEntry (s.peekCell st (g.entryCell slot t.pos))).state = .blank) →
     exec (.upstreamRequest r) s = .next (State.finish { s with
       nextReq := s.nextReq + 1
       tagOrder := s.tagOrder ++ [⟨s.nextReq, r.tag, .read, r.beats,
         some ⟨.okay, pieces.flatMap fun p =>
           List.replicate p.len (match p.tile with
             | some t => g.fillOf t.pos
             | none => g.vacant)⟩⟩] })) ∧
  (∀ (s : State) (st : StreamId) (slot : Nat) (t : PieceTile) (e : MapEntry) (covered : List (Option Byte)),
     let g := s.geometry st
     let at' (owner : Nat) := g.storage + owner * g.slotStride + t.pos * 1024 + t.i * 64 + t.j
     (e.state = .blank →
       s.resolveEntry st slot t (.entry e) covered =
         .resolved (covered.map fun b => some (b.getD (g.fillOf t.pos))) none) ∧
     (e.state = .owned → s.resolveEntry st slot t (.entry e) covered = .resolved covered (some (at' slot))) ∧
     (∀ o, e.state = .aliasOf o → (∀ m, s.migrationAt st t.pos = some m → m.slot ≠ o) →
       s.resolveEntry st slot t (.entry e) covered = .resolved covered (some (at' o))) ∧
     (∀ o m, e.state = .aliasOf o → s.migrationAt st t.pos = some m → m.slot = o →
       s.resolveEntry st slot t (.entry e) covered = .needsHold (.migrating st t.pos)))

/-- An aperture read is resolved whole or held whole (R29). Each piece takes the first case that applies: vacant bytes; a
COMMITTING entry, which needs TILE-BUSY; a COLLECTING entry, whose covered bytes stand over the position's map entry; the
map entry alone (R10, R29, R30, R55). With no hold needed every home read, of whole beats at its piece's place, is handed
to the pass-through class, in address order, and the read is answered at once if it has none; the first hold needed, in
address order, holds the whole read, and no home read is handed on (R29 to R32). That every piece is looked up, a wholly
covered one excepted, is the model's choice (log entry 7), and so are the numbers and tags of the transfers (log entries
12 and 26). -/
def Obligations.ReadsAreResolvedWholeOrHeldWhole : Prop :=
  (∀ (r : Request) (s : State) (st : StreamId) (slot : Nat) (ps : List Piece), s.IdsOk → s.holdQ.length < 16 →
    r.shapeOk = true → (∀ h ∈ s.holdQ, h.req.tag ≠ r.tag) → s.decodeRequest r = .reading st slot ps →
    (∀ h ∈ s.holdQ, h.overlaps (r.addr.toNat / 256) (some st) (pieceTiles slot ps) = false) →
    exec (.upstreamRequest r) s = .next (State.finish (State.serveRead { s with
      nextReq := s.nextReq + 1
      tagOrder := s.tagOrder ++ [⟨s.nextReq, r.tag, r.kind, r.beats, none⟩] } s.nextReq r st slot ps))) ∧
  (∀ (s : State) (id : Nat) (r : Request) (st : StreamId) (slot : Nat) (ps : List Piece),
    (∀ q ∈ s.reads, q.id ≠ id) →
    let os := (s.resolvePieces st slot ps).1
    let t := (s.resolvePieces st slot ps).2
    let vacant := (s.geometry st).vacant
    PieceOutcome.mapError ∉ os →
    ((∀ h ∈ s.holdQ, h.id ≠ id) → ∀ before why after, os = before ++ .needsHold why :: after →
      (∀ o ∈ before, ∀ w, o ≠ .needsHold w) → s.serveRead id r st slot ps = { t with holdQ :=
        t.holdQ ++ [⟨id, r, why, some st, pieceTiles slot ps, false⟩] }) ∧
    ((∀ o ∈ os, ∀ why, o ≠ .needsHold why) →
      let homes : List (Nat × Nat × Nat) := os.zipIdx.filterMap fun oi => match oi.1 with
        | .resolved known (some home) => some (oi.2, home, known.length / 32)
        | _ => none
      let read : ResolvedRead := ⟨id, vacant, os.map fun o => match o with
        | .resolved known home => ⟨known, home.isSome⟩
        | _ => ⟨[], false⟩, false⟩
      let handed : State := { t.leave id with
        passClass := t.passClass ++ homes.mapIdx fun j x => ⟨t.nextXfer + j, t.stepNum, .homeRead id x.1,
          Config.freeTag (t.nextXfer + j), ⟨.read, BitVec.ofNat 40 x.2.1, x.2.2, [], []⟩, false, false⟩
        nextXfer := t.nextXfer + homes.length }
      (homes ≠ [] → s.serveRead id r st slot ps = { handed with reads := t.reads ++ [read] }) ∧
      (homes = [] → s.serveRead id r st slot ps = { handed with
        tagOrder := t.tagOrder.map fun u => if u.id = id then
          { u with answer := some ⟨.okay, read.pieces.flatMap fun p => p.known.map fun b => b.getD vacant⟩ } else u }))) ∧
  (∀ (s : State) (st : StreamId) (slot : Nat), s.resolvePieces st slot [] = ([], s) ∧
    ∀ p ps, s.resolvePieces st slot (p :: ps) =
      let one := s.resolvePiece st slot p
      let rest := one.2.resolvePieces st slot ps
      (one.1 :: rest.1, rest.2)) ∧
  ∀ (s : State) (st : StreamId) (slot : Nat) (p : Piece),
    (p.tile = none → s.resolvePiece st slot p = (.resolved (List.replicate p.len (some (s.geometry st).vacant)) none, s)) ∧
    ∀ t, p.tile = some t →
      let looked (covered : List (Option Byte)) : PieceOutcome × State :=
        let one := s.lookupCell st ((s.geometry st).entryCell slot t.pos)
        match one.1 with
        | none => (.mapError, one.2)
        | some v => (one.2.resolveEntry st slot t v covered, one.2)
      ((∀ e, s.entryAt st t.pos = some e → e.slot ≠ slot) →
        s.resolvePiece st slot p = looked (List.replicate p.len none)) ∧
      ∀ e, s.entryAt st t.pos = some e → e.slot = slot →
        (∀ why, e.state = .committing why → s.resolvePiece st slot p = (.needsHold (.tileBusy st slot t.pos), s)) ∧
        ∀ age, e.state = .collecting age → e.data.length = 1024 → e.cov.length = 1024 → t.i * 64 + t.j + p.len ≤ 1024 →
          ∃ covered : List (Option Byte), covered.length = p.len ∧
            (∀ k, k < p.len → covered[k]? = some (if e.cov[t.i * 64 + t.j + k]? = some true then e.data[t.i * 64 + t.j + k]?
              else none)) ∧
            s.resolvePiece st slot p =
              if ∀ b ∈ covered, b.isSome = true then (.resolved covered none, s) else looked covered

/-- The first deliverable answer leaves with its tag, status and data, its request leaves the tag order, and the next answer
of the tag, if ready, comes directly after it (R134). What leaves is recorded (DESIGN CHOICE, log entry 14); that with none
deliverable nothing happens is the model's choice (DESIGN CHOICE, log entry 2). -/
def Obligations.DeliveryFollowsTheTagOrder : Prop :=
  ∀ s : State,
    (s.deliverable = [] → exec .responseDelivery s = .next s) ∧
    ∀ id rest t a, s.deliverable = id :: rest → s.tagOrder.find? (fun u => u.id == id) = some t → t.answer = some a →
      let left := s.tagOrder.filter fun u => u.id != id
      exec .responseDelivery s = .next { s with
        tagOrder := left
        deliverable := (match left.find? (fun u => decide (u.tag = t.tag)) with
          | some u => if u.answer.isSome then [u.id] else []
          | none => []) ++ rest
        upstreamOut := some ⟨t.tag, a.status, a.data⟩ }

/-- Released requests are retried in queue order, each in its place and each retry taken whole, with the completions it
makes due, before the next. A retry takes the request's course again, against the requests ahead of it: held again with
TAG-ORDER or OVERLAP in its place; answered at decode; held again by its serving block in its place; or taken, leaving the
queue (R140). What is not released is not retried (that a HOLD_RELEASE with none released is no event is the model's
choice, log entries 1 and 2). What a request's leaving does to those behind it (`State.leave`) and what a taken read does
(`State.serveRead`) other statements say. That the eviction for a write held again with NO-ENTRY passes over the positions
of its LIVE pieces, and of no others, is DEDUCED (log entry 23). The numbers and tags of transfers are the model's (log
entries 12 and 26). -/
def Obligations.ReleasedRequestsAreRetriedInTheirPlaces : Prop :=
  (∀ s : State, exec .holdRelease s = .next ((s.holdQ.map Held.id).foldl State.retryOne s).finish) ∧
  (∀ (s : State) (id : Nat), (∀ h ∈ s.holdQ, h.id = id → h.released = false) → s.retryOne id = s) ∧
  (∀ (s : State) (ahead behind : List Held) (h : Held), s.holdQ = ahead ++ h :: behind → (s.holdQ.map Held.id).Nodup →
    h.released = true →
    let up : State := { s with holdQ := ahead ++ { h with released := false } :: behind }
    let again (why : HoldReason) (stream : Option StreamId) (tiles : List (Nat × Nat)) (t : State) : State :=
      { t with holdQ := ahead ++ ⟨h.id, h.req, why, stream, tiles, false⟩ :: behind }
    let overlapped (stream : Option StreamId) (tiles : List (Nat × Nat)) : Prop :=
      ∃ a ∈ ahead, a.overlaps (h.req.addr.toNat / 256) stream tiles = true
    ((∃ a ∈ ahead, a.req.tag = h.req.tag) → s.retryOne h.id = (again .tagOrder h.stream h.tiles s).settleCommits) ∧
    ((∀ a ∈ ahead, a.req.tag ≠ h.req.tag) →
      (∀ a causes, s.decodeRequest h.req = .answered a causes →
        s.retryOne h.id = (((up.raiseAll causes).answer h.id a).leave h.id).settleCommits) ∧
      (s.decodeRequest h.req = .passThrough →
        (overlapped none [] → s.retryOne h.id = (again .overlap none [] s).settleCommits) ∧
        (¬overlapped none [] → s.retryOne h.id = State.settleCommits { up.leave h.id with
          passClass := s.passClass ++ [⟨s.nextXfer, s.stepNum, .passThrough h.id, Config.freeTag s.nextXfer,
            ⟨h.req.kind, h.req.addr, h.req.beats, h.req.data, h.req.enables⟩, false, false⟩]
          nextXfer := s.nextXfer + 1 })) ∧
      (∀ st slot ps, s.decodeRequest h.req = .reading st slot ps →
        let tiles := pieceTiles slot ps
        let os := (up.resolvePieces st slot ps).1
        let t := (up.resolvePieces st slot ps).2
        (overlapped (some st) tiles → s.retryOne h.id = (again .overlap (some st) tiles s).settleCommits) ∧
        (¬overlapped (some st) tiles →
          (∀ before why after, PieceOutcome.mapError ∉ os → os = before ++ .needsHold why :: after →
            (∀ o ∈ before, ∀ w, o ≠ .needsHold w) → s.retryOne h.id = (again why (some st) tiles t).settleCommits) ∧
          (PieceOutcome.mapError ∉ os → (∀ o ∈ os, ∀ why, o ≠ .needsHold why) →
            s.retryOne h.id = (up.serveRead h.id h.req st slot ps).settleCommits) ∧
          (PieceOutcome.mapError ∈ os → s.retryOne h.id =
            (((t.faultStream .mapFault st).answer h.id (faultAnswer (s.geometry st).vacant h.req)).leave h.id).settleCommits))) ∧
      ∀ st slot ps vacant, s.decodeRequest h.req = .placing st slot ps vacant →
        let tiles := pieceTiles slot ps
        let live := livePieces h.req ps
        let needed := (live.filter fun pt => (s.entryAt st pt.2.pos).isNone).length
        (overlapped (some st) tiles → s.retryOne h.id = (again .overlap (some st) tiles s).settleCommits) ∧
        (¬overlapped (some st) tiles →
          ((s.stream st).state = .closing → s.retryOne h.id = (again (.closing st) (some st) tiles s).settleCommits) ∧
          ((s.stream st).state ≠ .closing → ∀ pos, s.blockedAt st live = some pos →
            s.retryOne h.id = (again (.tileBusy st slot pos) (some st) tiles s).settleCommits) ∧
          ((s.stream st).state ≠ .closing → s.blockedAt st live = none → 64 - s.entries.length < needed →
            s.retryOne h.id = ((again (.noEntry needed) (some st) tiles s).startCommits .evicted
              ((s.lastWrite.filter fun n => (s.entryNum n).any fun e =>
                !(e.stream == st && (live.map fun pt => pt.2.pos).contains e.pos)).take
                  (needed - (64 - s.entries.length)))).settleCommits) ∧
          ((s.stream st).state ≠ .closing → s.blockedAt st live = none → needed ≤ 64 - s.entries.length →
            let placed : State := { (up.leave h.id).storePieces st h.req live with
              tagOrder := s.tagOrder.map fun u => if u.id = h.id then { u with answer := some ⟨.okay, []⟩ } else u }
            let told := if vacant then placed.raise .vacantWrite st else placed
            s.retryOne h.id = (told.startCommits .complete (live.filterMap fun pt =>
              match placed.entryAt st pt.2.pos with
              | some e => if e.collecting && e.complete (s.geometry st) then some e.num else none
              | none => none)).settleCommits)))) ∧
  ∀ s : State, (∀ h ∈ s.holdQ, h.released = false) → exec .holdRelease s = .next s.finish

/-! ### The downstream port -/

/-- The arbiter grants by the classes waiting, and by the class not granted last where both wait; after either reset the
class granted last is internal. The pass-through class waits with its front transfer, if its per-home wait is clear; the
internal class, below 8 issued and unanswered, with its oldest transfer that is not issued and has no per-home wait (R145,
R146, R148). A home transfer is a home read, a verify or merge read, a commit write, or a copy read or write, at an
address in a tile home of a live stream (R147). It waits exactly while a home transfer to the same 1,024-byte home, from
an earlier group, is outstanding in either class (R147): one handed over before it, and not in its step by its block, as
the model numbers transfers and steps (R144; DEDUCED, log entry 12). The model's choices: a transfer's stream is tested
for being live at every grant (DESIGN CHOICE, log entry 29), and the transfer granted stays in the record of the output
channel (DESIGN CHOICE, log entry 14). -/
def Obligations.ArbiterGrantsByTheClassesWaiting : Prop :=
  (∀ s : State,
     let pass (x : Xfer) : State := { s with
       passClass := markIssued x.id s.passClass, lastGranted := .passThrough
       downstreamOut := some { x with issued := true } }
     let internal (x : Xfer) : State := { s with
       internal := markIssued x.id s.internal, lastGranted := .internal, downstreamOut := some { x with issued := true } }
     (∀ x, s.passCandidate = some x → s.internalCandidate = none → exec .arbiterGrant s = .next (pass x)) ∧
     (∀ y, s.passCandidate = none → s.internalCandidate = some y → exec .arbiterGrant s = .next (internal y)) ∧
     (∀ x y, s.passCandidate = some x → s.internalCandidate = some y → s.lastGranted = .internal →
       exec .arbiterGrant s = .next (pass x)) ∧
     (∀ x y, s.passCandidate = some x → s.internalCandidate = some y → s.lastGranted = .passThrough →
       exec .arbiterGrant s = .next (internal y)) ∧
     (s.passCandidate = none → s.internalCandidate = none → exec .arbiterGrant s = .next s) ∧
     (∀ x, s.passCandidate = some x ↔
       s.passClass.find? (fun y => !y.issued) = some x ∧ s.homeWait x = false) ∧
     (∀ x, s.internalCandidate = some x ↔
       (s.internal.filter Xfer.issued).length < 8 ∧ ∃ older younger, s.internal = older ++ x :: younger ∧
         x.issued = false ∧ s.homeWait x = false ∧ ∀ y ∈ older, y.issued = true ∨ s.homeWait y = true) ∧
     (∀ strap, (s.pinReset strap).lastGranted = .internal) ∧ s.partReset.lastGranted = .internal) ∧
  (∀ (s : State) (x : Xfer), s.homeWait x = true ↔
     s.homeXfer x = true ∧ ∃ y, (y ∈ s.passClass ∨ y ∈ s.internal) ∧ s.homeXfer y = true ∧
       y.wire.addr.toNat / 1024 = x.wire.addr.toNat / 1024 ∧ y.id < x.id ∧
       ¬(y.step = x.step ∧ y.owner.block = x.owner.block)) ∧
  (∀ (s : State) (x : Xfer), s.homeXfer x = true ↔
     ((∃ req piece, x.owner = .homeRead req piece) ∨ ∃ st pos, x.owner ∈ [.verifyRead st pos, .mergeRead st pos,
       .commitWrite st pos, .copyRead st pos, .copyWrite st pos]) ∧
     ∃ st, ((s.stream st).state = .opened ∨ (s.stream st).state = .closing ∨ (s.stream st).state = .faulted ∨
         (s.stream st).state = .draining) ∧
       ∃ slot pos, slot < (s.geometry st).slots ∧ pos < (s.geometry st).tiles ∧
         (s.geometry st).home slot pos ≤ x.wire.addr.toNat ∧ x.wire.addr.toNat < (s.geometry st).home slot pos + 1024) ∧
  ∀ o : Owner, o.block = match o with
    | .passThrough _ => .upstreamPort
    | .homeRead _ _ => .readResolver
    | .verifyRead _ _ | .mergeRead _ _ | .commitWrite _ _ => .commitEngine
    | .copyRead _ _ | .copyWrite _ _ => .migrationEngine
    | .statusMap _ | .frameRecord _ | .descFetch _ => .streamTable
    | .winDesc _ | .lineTable _ => .windowUnit

/-- An answered pass-through goes upstream with the controller's status and, for a READ, its data; it raises no cause and
touches no stream (R16). An answered home read brings its piece the bytes it lacks, or, at DATA-ERROR, the vacant byte in
all of it; at the last the read is answered, OKAY if none failed, else DATA-ERROR. No stream faults and no cause is raised
(R32, R55). -/
def Obligations.PassThroughClassAnswers : Prop :=
  (∀ (a : DramAnswer) (s : State) (x : Xfer) (req : Nat),
     s.passClass.find? (fun y => y.id == a.xfer && y.tag == a.tag && y.issued) = some x → x.owner = .passThrough req →
     (x.wire.kind = .read → a.data.length = 32 * x.wire.beats) →
     exec (.passThroughAnswer a) s = .next (State.finish { s with
       passClass := s.passClass.filter fun y => y.id != x.id
       tagOrder := s.tagOrder.map fun t => if t.id = req then
         { t with answer := some ⟨(match a.status with
             | .okay => .okay
             | .dataError => .dataError),
           match x.wire.kind with
             | .read => a.data
             | .write => []⟩ }
         else t })) ∧
  (∀ (a : DramAnswer) (s : State) (x : Xfer) (req k : Nat) (q : ResolvedRead),
     s.passClass.find? (fun y => y.id == a.xfer && y.tag == a.tag && y.issued) = some x → x.owner = .homeRead req k →
     x.abandoned = false → x.wire.kind = .read → (a.status = .okay → a.data.length = 32 * x.wire.beats) →
     s.reads.find? (fun q => q.id == req) = some q →
     let piece (p : ReadPiece) : ReadPiece :=
       match a.status with
       | .okay => ⟨List.zipWith (fun (known : Option Byte) (d : Byte) => some (known.getD d)) p.known a.data, false⟩
       | .dataError => ⟨p.known.map fun _ => some q.vacant, false⟩
     let q' : ResolvedRead := { q with
       pieces := q.pieces.mapIdx fun i p => if i = k then piece p else p
       failed := q.failed || a.status == .dataError }
     let left := s.passClass.filter fun y => y.id != x.id
     (q'.pieces.any ReadPiece.waiting = true →
       exec (.homeReadAnswer a) s = .next (State.finish { s with
         passClass := left
         reads := s.reads.map fun u => if u.id = req then u.answered k a else u })) ∧
     (q'.pieces.any ReadPiece.waiting = false →
       exec (.homeReadAnswer a) s = .next (State.finish { s with
         passClass := left
         reads := (s.reads.map fun u => if u.id = req then u.answered k a else u).filter fun u => u.id != req
         tagOrder := s.tagOrder.map fun t => if t.id = req then
           { t with answer := some ⟨if q'.failed then .dataError else .okay,
             q'.pieces.flatMap fun p => p.known.map fun b => b.getD q.vacant⟩ }
           else t })))

/-- Answers that only end their transfer: OKAY to a commit write or a copy write, and any answer to a transfer that its
owner has abandoned, which is discarded whatever its status (R76, R89, R149). What the ended transfer was waited for by
then goes on. -/
def Obligations.AnswersThatOnlyEndTheirTransfer : Prop :=
  ∀ (a : DramAnswer) (s : State) (x : Xfer),
    let ended : State := { s with internal := s.internal.filter fun y => y.id != x.id }
    (s.internal.find? (fun y => y.id == a.xfer && y.tag == a.tag && y.issued) = some x → x.abandoned = false →
      a.status = .okay →
      x.wire.kind = .write →
      (∀ st pos, x.owner = .commitWrite st pos → exec (.commitWriteAnswer a) s = .next ended.finish) ∧
      (∀ st pos, x.owner = .copyWrite st pos → exec (.copyWriteAnswer a) s = .next ended.finish)) ∧
    (s.internal.find? (fun y => y.id == a.xfer && y.tag == a.tag && y.issued) = some x → x.abandoned = true → s.IdsOk →
      exec (.discardedAnswer a) s = .next ended.finish) ∧
    (s.passClass.find? (fun y => y.id == a.xfer && y.tag == a.tag && y.issued) = some x → x.abandoned = true → s.IdsOk →
      exec (.discardedAnswer a) s = .next
        (State.finish { s with passClass := s.passClass.filter fun y => y.id != x.id }))

/-! ### Apertures, homes, the assembly buffer -/

/-- The pieces of a request are runs of bytes one after the other, all of it together, each within one 64-byte segment and
each boundary between two of them a segment's (R9). A view offset lies in a plane where it is within the raster extent and
its line byte within the width; every other offset is vacant (R10). The place of one in a plane is by the manual's
formulas: plane line, line byte, tile line, segment byte, position (R9). The homes of different (slot, position) pairs
share no byte, and each starts on a 1,024-byte boundary (R17). The anchor of a tile is its first byte, at its picture
column and line (R18); its in-plane lines are those of the plane's height, and an entry is complete when every byte of
them is covered (R48). View k is of slot (current slot − k) mod S (R6). -/
def Obligations.PiecesPlacesAndHomesByTheFormulas : Prop :=
  (∀ (g : Geom) (o len : Nat), 0 < len →
     ((g.pieces o len).map Piece.len).sum = len ∧
     ∀ (i : Nat) (p : Piece), (g.pieces o len)[i]? = some p →
       0 < p.len ∧ p.off = (((g.pieces o len).take i).map Piece.len).sum ∧ (0 < i → (o + p.off) % 64 = 0) ∧
       (o + p.off) / 64 = (o + p.off + p.len - 1) / 64 ∧ p.tile = g.locate (o + p.off)) ∧
  (∀ (g : Geom) (o : Nat),
     let inPlane (n : Nat) : Prop := (g.plane n).raster ≤ o ∧
       o < (g.plane n).raster + (g.plane n).pitch * (g.plane n).height ∧
       (o - (g.plane n).raster) % (g.plane n).pitch < (g.plane n).width
     ((∃ t, g.locate o = some t) ↔ inPlane 0 ∨ (g.planeCount = 2 ∧ inPlane 1)) ∧
     (∀ n, (∃ t, g.locateIn n o = some t) ↔ inPlane n) ∧
     (inPlane 0 → g.locate o = g.locateIn 0 o) ∧ (¬inPlane 0 → g.planeCount = 2 → g.locate o = g.locateIn 1 o)) ∧
  (∀ (g : Geom) (n o : Nat) (t : PieceTile), g.locateIn n o = some t →
     let p := g.plane n
     let d := o - p.raster
     t.plane = n ∧ t.line = d / p.pitch ∧ t.col = d % p.pitch ∧ t.i = d / p.pitch % 16 ∧ t.j = d % p.pitch % 64 ∧
     t.pos = (if n = 0 then 0 else (g.plane 0).width / 64 * (((g.plane 0).height + 15) / 16)) +
       d / p.pitch / 16 * (p.width / 64) + d % p.pitch / 64) ∧
  (∀ (g : Geom) (slot pos slot' pos' : Nat), pos < g.tiles → pos' < g.tiles →
     (slot ≠ slot' ∨ pos ≠ pos') →
     (g.home slot pos + 1024 ≤ g.home slot' pos' ∨ g.home slot' pos' + 1024 ≤ g.home slot pos) ∧
     (g.storage % 4096 = 0 → g.home slot pos % 1024 = 0)) ∧
  (∀ (g : Geom) (n row col : Nat),
     let p := g.plane n
     let tiles0 := (g.plane 0).width / 64 * (((g.plane 0).height + 15) / 16)
     let pos := (if n = 0 then 0 else tiles0) + row * (p.width / 64) + col
     let lines := if p.height - row * 16 < 16 then p.height - row * 16 else 16
     n < 2 → col < p.width / 64 → row < (p.height + 15) / 16 →
     g.anchor pos = (col * 64 / p.colBytes, row * 16 * p.vfactor) ∧ g.fillOf pos = p.fill ∧ g.inPlaneLines pos = lines ∧
     ∀ e : Entry, e.pos = pos → e.cov.length = 1024 →
       (e.complete g = true ↔ ∀ o, o < 64 * lines → e.cov[o]? = some true)) ∧
  ∀ (g : Geom) (cur view : Nat), cur < g.slots → view < g.slots →
    (g.slotOf cur view : Int) = ((cur : Int) - (view : Int)) % (g.slots : Int)

/-- A placed piece is stored in the entry of its position, or in a new one: COLLECTING, of the stream, its current slot
and the piece's plane and position, every byte the plane's fill, nothing covered (R45), with the lowest number that is
free (DESIGN CHOICE, log entry 8). The entry moves to the back of the last-write order (R41). Each enabled byte is stored
at its offset, as fill where MASK is active at its picture coordinates, and covered; the age count becomes 0, and every
other byte and its coverage are as they were (R18, R46, R47). That lane n of a request belongs to its byte n is PRESUMED
(log entry 10). -/
def Obligations.PlacedBytesAreMaskedAndCovered : Prop :=
  (∀ (s : State) (st : StreamId) (r : Request) (p : Piece) (t : PieceTile),
    let x := s.stream st
    let new : Entry := ⟨s.newNumber, st, x.slot, t.plane, t.pos, List.replicate 1024 (x.geometry.plane t.plane).fill,
      List.replicate 1024 false, .collecting 0⟩
    let e := ((s.entryAt st t.pos).getD new).stored x r p t
    s.storePiece st r p t = { s with
      entries := (s.entries.filter fun d => !(d.stream == st && d.pos == t.pos)) ++ [e]
      lastWrite := (s.lastWrite.filter fun n => n != e.num) ++ [e.num] }) ∧
  (∀ s : State, (s.entries.map Entry.num).Nodup → s.entries.length < 64 →
    s.newNumber < 64 ∧ (∀ e ∈ s.entries, e.num ≠ s.newNumber) ∧ ∀ n, n < s.newNumber → ∃ e ∈ s.entries, e.num = n) ∧
  ∀ (e : Entry) (x : Stream) (r : Request) (p : Piece) (t : PieceTile),
    let plane := x.geometry.plane t.plane
    let off := t.i * 64 + t.j
    e.data.length = 1024 → e.cov.length = 1024 → off + p.len ≤ 1024 →
    p.off + p.len ≤ r.data.length → p.off + p.len ≤ r.enables.length →
    let e' := e.stored x r p t
    let stores (o : Nat) : Prop := off ≤ o ∧ o < off + p.len ∧ r.enables.getD (p.off + (o - off)) false = true
    e'.state = .collecting 0 ∧ e'.num = e.num ∧ e'.stream = e.stream ∧ e'.slot = e.slot ∧ e'.plane = e.plane ∧
    e'.pos = e.pos ∧ e'.data.length = 1024 ∧ e'.cov.length = 1024 ∧
    ∀ o, o < 1024 →
      (stores o → e'.cov[o]? = some true ∧
        e'.data[o]? = some (if x.maskActive ((t.col + (o - off)) / plane.colBytes) (t.line * plane.vfactor) then plane.fill
          else r.data.getD (p.off + (o - off)) 0)) ∧
      (¬stores o → e'.cov[o]? = e.cov[o]? ∧ e'.data[o]? = e.data[o]?)

/-- A step with no command waiting is one period of the 1 µs reference: every `divider` of them make an age tick (R50);
that the idle step is a period is the model's choice (DESIGN CHOICE, log entry 3). An age tick raises the age count of
every COLLECTING entry by one, stopping at 255, and starts AGED commits, in the last-write order, for the entries that
stand at or above a nonzero limit (R50). A commanded AGE_TICK starts the tick period again (log entry 3), after the upsets
of the period that ends (log entry 4). AGE_EXPIRY starts that commit for the entry of one tile; one that is not due does
nothing (log entries 1 and 2). -/
def Obligations.ReferencePeriodsAgeTicksAndExpiry : Prop :=
  (∀ s : State, s.pending = [] →
     step s = .next (if s.divider ≤ s.refCount + 1 then s.ageTick.finish else { s with refCount := s.refCount + 1 })) ∧
  (∀ (s : State),
     (∀ us : List Upset,
       let aged : State := { s with
         mapMem := us.foldl upsetCell s.mapMem
         refCount := 0
         entries := s.entries.map fun e => match e.state with
           | .collecting age => { e with state := .collecting (min (age + 1) 255) }
           | .committing _ => e }
       exec (.ageTick us) s = .next (aged.startCommits .aged aged.expired).finish) ∧
     (∀ n, n ∈ s.expired ↔ n ∈ s.lastWrite ∧ ∃ e age, s.entryNum n = some e ∧ e.state = .collecting age ∧
       1 ≤ s.ageLimit ∧ s.ageLimit ≤ age) ∧
     ∀ (st : StreamId) (pos : Nat) (e : Entry), s.BufferLaws → s.entryAt st pos = some e →
       (∀ age, e.state = .collecting age → 1 ≤ s.ageLimit → s.ageLimit ≤ age →
         exec (.ageExpiry st pos) s = .next (s.startCommit .aged e.num).finish) ∧
       (∀ age, e.state = .collecting age → s.ageLimit = 0 ∨ age < s.ageLimit →
         exec (.ageExpiry st pos) s = .next s.finish))

/-! ### The map and its laws -/

/-- Every cell that a lookup reads is checked (R28). Error-free contents are used; a single-bit error is corrected, the
cell written back, the corrected-error count raised unless it stands at 65,535, and MAP-CORRECTED raised for the stream
(R175); a double-bit error leaves the cell and its contents unused. Every cell of several is read and corrected, in
whatever order they are read. A double-bit error found by a commit's lookups faults the stream, with MAP-FAULT, and frees
the entry at once, with no transfer of its tile outstanding (R56, R62); found by a read it is answered DATA-ERROR with the
vacant byte, with no home read; found by the second phase of a close no status write is made (R176). -/
def Obligations.LookupsCheckEveryCell : Prop :=
  (∀ (s : State) (st : StreamId) (c : Nat),
    let cell := MapMemory.read s.mapMem (s.cellKey st c)
    (cell.ecc = .good → s.lookupCell st c = (some cell.val, s)) ∧
    (cell.ecc = .single → s.lookupCell st c = (some cell.val, State.raise { s with
      mapMem := MapMemory.write s.mapMem (s.cellKey st c) ⟨cell.val, .good⟩
      corrected := min (s.corrected + 1) 65535 } .mapCorrected st)) ∧
    (cell.ecc = .double → s.lookupCell st c = (none, s))) ∧
  (∀ (s : State) (st : StreamId) (cells : List Nat), (cells.map (s.cellKey st)).Nodup → MapMemory.wf s.mapMem = true →
    s.corrected ≤ 65535 →
    let ecc (c : Nat) := (MapMemory.read s.mapMem (s.cellKey st c)).ecc
    let singles := cells.filter fun c => ecc c == .single
    let vals := (s.lookupCells st cells).1
    let t := (s.lookupCells st cells).2
    (vals = none ↔ ∃ c ∈ cells, ecc c = .double) ∧
    ((∀ c ∈ cells, ecc c ≠ .double) → vals = some (cells.map (s.peekCell st))) ∧
    (∀ c ∈ singles, MapMemory.read t.mapMem (s.cellKey st c) = ⟨s.peekCell st c, .good⟩) ∧
    (∀ k, k ∉ singles.map (s.cellKey st) → MapMemory.read t.mapMem k = MapMemory.read s.mapMem k) ∧
    t = { s with mapMem := t.mapMem, corrected := min (s.corrected + singles.length) 65535, causes := t.causes } ∧
    (singles ≠ [] → t.cause 11 = (s.cause 11).raised st) ∧ (singles = [] → t = s) ∧
    ∀ i, i ≠ 11 → t.cause i = s.cause i) ∧
  (∀ (s : State) (reason : Reason) (num : Nat) (e : Entry) (age : Nat), s.entryNum num = some e →
    e.state = .collecting age →
    (s.stream e.stream).state = .opened ∨ (s.stream e.stream).state = .closing →
    (∀ x ∈ s.internal, x.owner.tile ≠ some (e.stream, e.pos)) →
    let g := s.geometry e.stream
    let cells := g.entryCell e.slot e.pos :: g.recordCell e.pos ::
      ((List.range g.slots).filter fun q => q != e.slot).map fun q => g.entryCell q e.pos
    let taken : State := { s with
      entries := s.entries.map fun d => if d.num = num then { d with state := .committing reason } else d
      lastWrite := s.lastWrite.filter fun n => n != num }
    (taken.lookupCells e.stream cells).1 = none →
    s.startCommit reason num = (taken.lookupCells e.stream cells).2.faultStream .mapFault e.stream ∧
    ((s.startCommit reason num).stream e.stream).state = .faulted ∧
    (∀ d ∈ (s.startCommit reason num).entries, ¬(d.stream = e.stream ∧ d.pos = e.pos)) ∧
    (∀ c ∈ (s.startCommit reason num).commits, c.stream ≠ e.stream)) ∧
  (∀ (s : State) (id : Nat) (r : Request) (st : StreamId) (slot : Nat) (ps : List Piece), r.kind = .read →
    (∀ h ∈ s.holdQ, h.id ≠ id) → PieceOutcome.mapError ∈ (s.resolvePieces st slot ps).1 →
    let t := (s.resolvePieces st slot ps).2.faultStream .mapFault st
    s.serveRead id r st slot ps = { t with
      tagOrder := t.tagOrder.map fun u => if u.id = id then
        { u with answer := some ⟨.dataError, List.replicate (32 * r.beats) (s.geometry st).vacant⟩ } else u }) ∧
  ∀ (s : State) (st : StreamId), (s.stream st).state = .closing → (s.stream st).phase = some .first →
    (∀ e ∈ s.entries, e.stream ≠ st) →
    let g := s.geometry st
    let looked := s.lookupCells st ((List.range g.tiles).map fun p => g.entryCell (s.stream st).slot p)
    looked.1 = none → exec (.closeFirstPhaseEnd st) s = .next (looked.2.faultStream .mapFault st).finish

/-- The three changes that the map unit applies (R27) keep the laws of the map: every ALIAS names a different slot whose
entry is OWNED (R25), and a record that holds a signature names a slot whose entry is OWNED (R26). An allotment makes them
hold at every position, all of it BLANK (R21). The completion of a commit keeps them at its position, whatever its kind,
where its lookups still hold: of an ALIASED commit, that the record names the matched slot and no slot names its own (R36,
R69, R77). The completion of a migration keeps them and leaves no slot that names the old owner (R89). No other position,
and no other stream, is touched. -/
def Obligations.MapChangesKeepTheMapLaws : Prop :=
  (∀ (s : State) (st : StreamId) (g : Geom) (pos : Nat), g.banksNeeded ≤ s.freeBanks.length → pos < g.tiles →
    (s.passValidation st g).MapLaws st pos ∧ ∀ slot, slot < g.slots →
      (s.passValidation st g).tileState st slot pos = .blank) ∧
  (∀ (s : State) (c : Commit) (k : CommitKind), MapMemory.wf s.mapMem = true → s.CellsHeld c.stream →
    let g := s.geometry c.stream
    c.slot < g.slots → c.pos < g.tiles → s.MapLaws c.stream c.pos →
    (k = .aliased → (∃ o sig, c.matched = some o ∧ o ≠ c.slot ∧ s.posRecord c.stream c.pos = ⟨some sig, o⟩) ∧
      ∀ q, q < g.slots → s.tileState c.stream q c.pos ≠ .aliasOf c.slot) →
    (s.completeCommit c k).MapLaws c.stream c.pos ∧
    ∀ (u : StreamId) (pos : Nat), (u = c.stream → pos ≠ c.pos) → s.BanksApart → s.CellsHeld u → pos < (s.geometry u).tiles →
      (s.completeCommit c k).posRecord u pos = s.posRecord u pos ∧
      ∀ q, q < (s.geometry u).slots → (s.completeCommit c k).tileState u q pos = s.tileState u q pos) ∧
  ∀ (s : State) (m : Migration), MapMemory.wf s.mapMem = true → s.CellsHeld m.stream →
    let g := s.geometry m.stream
    m.slot < g.slots → m.pos < g.tiles → s.MapLaws m.stream m.pos →
    (m.aliasers.map Prod.fst).Nodup → (∃ v, (m.newOwner, v) ∈ m.aliasers) →
    (∀ q, (∃ v, (q, v) ∈ m.aliasers) ↔ q < g.slots ∧ s.tileState m.stream q m.pos = .aliasOf m.slot) →
    (s.completeMigration m).MapLaws m.stream m.pos ∧
    (∀ q, q < g.slots → (s.completeMigration m).tileState m.stream q m.pos ≠ .aliasOf m.slot) ∧
    (s.completeMigration m).tileState m.stream m.newOwner m.pos = .owned ∧
    ∀ (u : StreamId) (pos : Nat), (u = m.stream → pos ≠ m.pos) → s.BanksApart → s.CellsHeld u → pos < (s.geometry u).tiles →
      (s.completeMigration m).posRecord u pos = s.posRecord u pos ∧
      ∀ q, q < (s.geometry u).slots → (s.completeMigration m).tileState u q pos = s.tileState u q pos

/-! ### Commits -/

/-- A commit start makes the entry COMMITTING with its reason, takes it out of the last-write order, and hands it to the
commit engine with its lookups: the previous state, the aliaser set with view indices and the position record. On
error-free cells nothing else changes; where single-bit errors are met and no double-bit one, the commit goes on with the
corrected contents, from the state that the lookups leave (R36, R49, R61, R62, R175). What several lookups leave,
`State.lookupCells`, another statement says, and so what a double-bit error does. -/
def Obligations.CommitStartTakesItsLookups : Prop :=
  ∀ (s : State) (reason : Reason) (num : Nat) (e : Entry), s.entryNum num = some e →
    let g := s.geometry e.stream
    let cell (q : Nat) := s.peekCell e.stream (g.entryCell q e.pos)
    let others := (List.range g.slots).filter fun q => q != e.slot
    let cells := g.entryCell e.slot e.pos :: g.recordCell e.pos :: others.map (fun q => g.entryCell q e.pos)
    let ecc (c : Nat) := (MapMemory.read s.mapMem (s.cellKey e.stream c)).ecc
    (∀ age, e.state = .collecting age →
      let t : State := { s with
        entries := s.entries.map fun d => if d.num = num then { d with state := .committing reason } else d
        lastWrite := s.lastWrite.filter fun n => n != num }
      let c : Commit := {
        stream := e.stream, slot := e.slot, pos := e.pos, entry := num, reason := reason
        path := if reason = .complete then .completePath else .partialPath
        sig := none, matched := none
        prev := (cellEntry (cell e.slot)).state
        aliasers := (others.filter fun q => decide ((cellEntry (cell q)).state = .aliasOf e.slot)).map fun q =>
          (q, ((s.stream e.stream).slot + g.slots - q) % g.slots)
        kind := none, phase := none, got := [], readFailed := false }
      let decided (looked : State) : State := State.decideCommit { looked with commits := s.commits ++ [c] } c e
        (cellRecord (s.peekCell e.stream (g.recordCell e.pos)))
      ((∀ c ∈ cells, ecc c = .good) → s.startCommit reason num = decided t) ∧
      (MapMemory.wf s.mapMem = true → (∀ c ∈ cells, ecc c ≠ .double) →
        s.startCommit reason num = decided (t.lookupCells e.stream cells).2)) ∧
    (∀ r, e.state = .committing r → s.startCommit reason num = s)

/-- How a commit's kind is decided: PARTIAL off the complete path; EXEMPT where the anchor lies in the EXEMPT area;
CHANGED where the record holds no signature equal to the tile's; else, by the matched slot, RETAINED or ALIASED, or, with
the verify flag set, VERIFY and a whole-tile read of the matched home (R61, R63, R65). The signature starts at FFFFFFFFh;
each byte is combined into the top eight bits and the register shifted eight times, with 04C11DB7h where the bit shifted
out is 1; nothing is reflected or complemented (R64). -/
def Obligations.CommitKindByPathAndRecord : Prop :=
  (∀ (s : State) (c : Commit) (e : Entry) (r : PosRecord),
     let x := s.stream c.stream
     let anchor := x.geometry.anchor c.pos
     let sig := signature e.data
     let c1 := { c with sig := some sig, matched := some r.owner }
     (c.path = .partialPath → s.decideCommit c e r = s.takeKind c e .partialTile) ∧
     (c.path = .completePath → x.exemptActive anchor.1 anchor.2 = true → s.decideCommit c e r = s.takeKind c e .exempt) ∧
     (c.path = .completePath → x.exemptActive anchor.1 anchor.2 = false → r.sig ≠ some sig →
       s.decideCommit c e r = s.takeKind { c with sig := some sig } e .changed) ∧
     (c.path = .completePath → x.exemptActive anchor.1 anchor.2 = false → r.sig = some sig → x.geometry.verify = false →
       s.decideCommit c e r = s.takeKind c1 e (if r.owner = c.slot then .retained else .aliased)) ∧
     (c.path = .completePath → x.exemptActive anchor.1 anchor.2 = false → r.sig = some sig → x.geometry.verify = true →
       let home := x.geometry.home r.owner c.pos
       s.decideCommit c e r =
         (s.updateCommit c.stream c.pos fun _ => { c1 with phase := some .verify }).handInternal
           (.verifyRead c.stream c.pos)
           [readWire home 8, readWire (home + 256) 8, readWire (home + 512) 8, readWire (home + 768) 8])) ∧
  (let shift (r : BitVec 32) : BitVec 32 :=
     if r.getLsbD 31 then (r <<< 1) ^^^ 0x04C11DB7#32 else r <<< 1
   signature [] = 0xFFFFFFFF#32 ∧
   (∀ (bytes : List Byte) (b : Byte), signature (bytes ++ [b]) =
     shift (shift (shift (shift (shift (shift (shift (shift (signature bytes ^^^ (b.setWidth 32 <<< 24)))))))))))

/-- What a commit does by its kind: RETAINED needs no transfer; ALIASED only what it must migrate; CHANGED, COLLIDED and
EXEMPT write the whole tile, after the copy where they must migrate; PARTIAL writes the whole tile over BLANK, the covered
bytes over OWNED, and merges over ALIAS. A commit must migrate when its slot is OWNED with aliasers (R68 to R75, R77). A
byte-enabled write has one 8-beat WRITE for each 256-byte block with a covered offset, at the block's start, with its
enables set exactly on the covered offsets; a whole-tile write has all four blocks, every byte enabled (R75, R76). That
the lanes of a byte-enabled write that are not enabled carry the entry's bytes too is the model's choice (DESIGN CHOICE,
log entry 30). -/
def Obligations.CommitGoesOnAsItsKindGives : Prop :=
  (∀ (s : State) (c : Commit) (e : Entry),
     let g := s.geometry c.stream
     let home := g.home c.slot c.pos
     let now (k : CommitKind) (p : Option CommitPhase) : State :=
       s.updateCommit c.stream c.pos fun _ => { c with kind := some k, phase := p, got := [] }
     let whole (k : CommitKind) : State :=
       (now k (some .write)).handInternal (.commitWrite c.stream c.pos) (wholeWrite home e.data)
     let moving (k : CommitKind) : State := { now k (some .migrate) with
       migrations := s.migrations ++ [⟨c.stream, c.slot, c.pos, c.aliasers, youngest c.aliasers, .copyRead, []⟩] }
     let migrate (k : CommitKind) : State := (moving k).handInternal (.copyRead c.stream c.pos) (wholeRead home)
     let must := c.prev = .owned ∧ c.aliasers ≠ []
     s.takeKind c e .retained = now .retained none ∧
     (¬must → s.takeKind c e .aliased = now .aliased none) ∧
     (must → s.takeKind c e .aliased = migrate .aliased) ∧
     (∀ k, k = .changed ∨ k = .collided ∨ k = .exempt →
       (¬must → s.takeKind c e k = whole k) ∧ (must → s.takeKind c e k = migrate k)) ∧
     (c.prev = .blank → s.takeKind c e .partialTile = whole .partialTile) ∧
     (c.prev = .owned → c.aliasers = [] → s.takeKind c e .partialTile =
       (now .partialTile (some .write)).handInternal (.commitWrite c.stream c.pos) (coveredWrite home e.data e.cov)) ∧
     (must → s.takeKind c e .partialTile = migrate .partialTile) ∧
     (∀ o, c.prev = .aliasOf o → s.takeKind c e .partialTile =
       (now .partialTile (some .merge)).handInternal (.mergeRead c.stream c.pos) (wholeRead (g.home o c.pos)))) ∧
  (∀ (home : Nat) (data : List Byte) (cov : List Bool), data.length = 1024 → cov.length = 1024 →
     (∀ w, w ∈ wholeWrite home data ↔ ∃ k < 4, w = ⟨.write, BitVec.ofNat 40 (home + 256 * k), 8,
       (data.drop (256 * k)).take 256, List.replicate 256 true⟩) ∧
     (∀ w, w ∈ coveredWrite home data cov ↔ ∃ k < 4, (∃ o, o < 256 ∧ cov[256 * k + o]? = some true) ∧
       w = ⟨.write, BitVec.ofNat 40 (home + 256 * k), 8, (data.drop (256 * k)).take 256, (cov.drop (256 * k)).take 256⟩))

/-- A verify read answered: bytes are kept until the last answer. Then, if every read was OKAY and all bytes equal the
entry's, the match stands, RETAINED or ALIASED; otherwise the kind is COLLIDED and COLLISION is raised for the stream,
without a fault (R66). A merge read answered OKAY: bytes are kept until the last answer. Then the merged tile, each
covered offset from the entry and each other as read, is handed on as a whole-tile write (R74). -/
def Obligations.VerifyAndMergeOutcomes : Prop :=
  (∀ (a : DramAnswer) (s : State) (x : Xfer) (st : StreamId) (pos : Nat) (c : Commit) (e : Entry),
     s.internal.find? (fun y => y.id == a.xfer && y.tag == a.tag && y.issued) = some x → x.abandoned = false →
     x.owner = .verifyRead st pos → x.wire.kind = .read → (a.status = .okay → a.data.length = 32 * x.wire.beats) →
     s.commitAt st pos = some c → s.entryNum c.entry = some e →
     let c' : Commit := match a.status with
       | .okay => { c with got := c.got ++ [(x.wire.addr.toNat % 1024, a.data)] }
       | .dataError => { c with readFailed := true }
     let left := s.internal.filter fun y => y.id != x.id
     let t : State := { s with
       internal := left
       commits := s.commits.map fun d => if d.stream = st ∧ d.pos = pos then
         (match a.status with
           | .okay => { d with got := d.got ++ [(x.wire.addr.toNat % 1024, a.data)] }
           | .dataError => { d with readFailed := true })
         else d }
     ((∃ y ∈ left, y.owner = .verifyRead st pos) → exec (.verifyReadAnswer a) s = .next t.finish) ∧
     ((∀ y ∈ left, y.owner ≠ .verifyRead st pos) →
       (c'.readFailed = false → gather c'.got [0, 256, 512, 768] = e.data →
         exec (.verifyReadAnswer a) s = .next
           (t.takeKind c' e (if c.matched.getD 0 = c.slot then .retained else .aliased)).finish) ∧
       (c'.readFailed = true ∨ gather c'.got [0, 256, 512, 768] ≠ e.data →
         exec (.verifyReadAnswer a) s = .next ((t.raise .collision st).takeKind c' e .collided).finish))) ∧
  ((∀ (a : DramAnswer) (s : State) (x : Xfer) (st : StreamId) (pos : Nat) (c : Commit) (e : Entry),
     s.internal.find? (fun y => y.id == a.xfer && y.tag == a.tag && y.issued) = some x → x.abandoned = false →
     x.owner = .mergeRead st pos → x.wire.kind = .read → a.status = .okay → a.data.length = 32 * x.wire.beats →
     s.commitAt st pos = some c → s.entryNum c.entry = some e →
     let c' : Commit := { c with got := c.got ++ [(x.wire.addr.toNat % 1024, a.data)] }
     let left := s.internal.filter fun y => y.id != x.id
     let t : State := { s with
       internal := left
       commits := s.commits.map fun d => if d.stream = st ∧ d.pos = pos then
         { d with got := d.got ++ [(x.wire.addr.toNat % 1024, a.data)] } else d }
     ((∃ y ∈ left, y.owner = .mergeRead st pos) → exec (.mergeReadAnswer a) s = .next t.finish) ∧
     ((∀ y ∈ left, y.owner ≠ .mergeRead st pos) → ∀ o, c.prev = .aliasOf o →
       exec (.mergeReadAnswer a) s = .next (State.finish
         ((t.updateCommit st pos fun d => { d with phase := some .write, got := [] }).handInternal (.commitWrite st pos)
           (wholeWrite ((s.geometry st).home c.slot c.pos)
             (mergedTile e (gather c'.got [0, 256, 512, 768]))))))) ∧
   ∀ (e : Entry) (read : List Byte), e.data.length = 1024 → e.cov.length = 1024 → read.length = 1024 →
     (mergedTile e read).length = 1024 ∧
     ∀ o, o < 1024 → (mergedTile e read)[o]? = if e.cov[o]? = some true then e.data[o]? else read[o]?)

/-- A commit whose needs are met completes: the entry of (slot, position) takes its new state, the kind and the frame
number, the record follows the kind, a PARTIAL commit is counted under its reason up to 65,535, the commit is removed, its
entry freed, and nothing else changes but the holds released (R78, R127). That one that is not due changes nothing is the
model's choice (DESIGN CHOICE, log entries 1 and 2). -/
def Obligations.CommitCompletionChangesTheMap : Prop :=
  ∀ (s : State) (st : StreamId) (pos : Nat) (c : Commit) (k : CommitKind), s.commitAt st pos = some c → c.kind = some k →
    (s.commitDue c = false → exec (.commitCompletion st pos) s = .next s.finish) ∧
    (s.commitDue c = true → ∃ t : State, t = s.completeCommit c k ∧ exec (.commitCompletion st pos) s = .next t.finish ∧
      (let g := s.geometry st
       let withEntry := MapMemory.write s.mapMem (s.cellKey st (g.entryCell c.slot pos))
        ⟨.entry ⟨if k = .aliased then .aliasOf (c.matched.getD 0) else .owned, some (k, (s.stream st).frame)⟩, .good⟩
       t.mapMem = if k = .aliased ∨ k = .retained then withEntry
        else MapMemory.write withEntry (s.cellKey st (g.recordCell pos))
          ⟨.record ⟨if k = .changed ∨ k = .collided then c.sig else none, c.slot⟩, .good⟩) ∧
      (let count (r : Reason) (n : Nat) : Nat := if k = .partialTile ∧ c.reason = r then min (n + 1) 65535 else n
       t.stream st = { s.stream st with
        evicted := count .evicted (s.stream st).evicted
        aged := count .aged (s.stream st).aged
        closed := count .close (s.stream st).closed }) ∧
      (∀ u, u ≠ st → t.stream u = s.stream u) ∧
      t.commits = s.commits.filter (fun d => !(d.stream == st && d.pos == pos)) ∧
      t.entries = s.entries.filter (fun e => e.num != c.entry) ∧
      t.lastWrite = s.lastWrite.filter (fun n => (s.entries.filter fun e => e.num != c.entry).any fun e => e.num == n) ∧
      t.holdQ = s.holdQ.map (fun h =>
        if h.reason = .tileBusy st c.slot pos ∨
            (∃ n, n ≤ 64 - (s.entries.filter fun e => e.num != c.entry).length ∧ h.reason = .noEntry n) then
          { h with released := true }
        else h) ∧
      t = { s with
        mapMem := t.mapMem, streams := t.streams, commits := t.commits, entries := t.entries, lastWrite := t.lastWrite
        holdQ := t.holdQ })

/-! ### Migrations -/

/-- The new owner is the aliaser with the smallest view index, (current slot − q) mod S. Different slots of a stream have
different view indices, so it is one slot; it is chosen when the migration is created, whichever kind called it (R86). -/
def Obligations.NewOwnerIsTheYoungestAliaser : Prop :=
  (∀ as : List (Nat × Nat), as ≠ [] → ∃ v, (youngest as, v) ∈ as ∧ ∀ b ∈ as, v ≤ b.2) ∧
  (∀ (g : Geom) (cur q : Nat), cur < g.slots → q < g.slots →
    (g.viewOf cur q : Int) = ((cur : Int) - (q : Int)) % (g.slots : Int)) ∧
  (∀ (g : Geom) (cur q r : Nat), cur < g.slots → q < g.slots → r < g.slots → g.viewOf cur q = g.viewOf cur r → q = r) ∧
  (∀ g : Geom, g.slots = 6 →
    youngest ([0, 1, 2, 3, 5].map fun q => (q, g.viewOf 4 q)) = 3 ∧ youngest ([5].map fun q => (q, g.viewOf 4 q)) = 5) ∧
  (∀ g : Geom, g.slots = 4 → youngest ([0, 2, 3].map fun q => (q, g.viewOf 1 q)) = 0) ∧
  (∀ g : Geom, g.slots = 2 → youngest ([1].map fun q => (q, g.viewOf 0 q)) = 1) ∧
  ∀ (s : State) (c : Commit), (s.startMigration c).migrations =
    s.migrations ++ [⟨c.stream, c.slot, c.pos, c.aliasers, youngest c.aliasers, .copyRead, []⟩]

/-- A copy read answered OKAY: bytes are kept until the last answer. Then the migration enters COPY-WRITE, the whole-tile
write of the copied bytes to the new owner's home is handed on, and after it the write of the commit, which enters WRITE,
unless the commit is ALIASED (R87). -/
def Obligations.CopyReadsLeadToTheCopyWrite : Prop :=
  ∀ (a : DramAnswer) (s : State) (x : Xfer) (st : StreamId) (pos : Nat) (m : Migration) (c : Commit) (e : Entry),
    s.internal.find? (fun y => y.id == a.xfer && y.tag == a.tag && y.issued) = some x → x.abandoned = false →
    x.owner = .copyRead st pos → x.wire.kind = .read → a.status = .okay → a.data.length = 32 * x.wire.beats →
    s.migrationAt st pos = some m → s.commitAt st pos = some c → s.entryNum c.entry = some e →
    let part := (x.wire.addr.toNat % 1024, a.data)
    let left := s.internal.filter fun y => y.id != x.id
    ((∃ y ∈ left, y.owner = .copyRead st pos) →
      exec (.copyReadAnswer a) s = .next (State.finish { s with
        internal := left
        migrations := s.migrations.map fun n => if n.stream = st ∧ n.pos = pos then { n with got :=
          n.got ++ [part] } else n })) ∧
    ((∀ y ∈ left, y.owner ≠ .copyRead st pos) →
      let copied : State := { s with
        internal := left
        migrations := s.migrations.map fun n => if n.stream = st ∧ n.pos = pos then
          { n with step := .copyWrite, got := [] } else n }
      let t : State := copied.handInternal (.copyWrite st pos)
        (wholeWrite ((s.geometry st).home m.newOwner pos) (gather (m.got ++ [part]) [0, 256, 512, 768]))
      (c.kind = some .aliased → exec (.copyReadAnswer a) s = .next t.finish) ∧
      (c.kind ≠ some .aliased → exec (.copyReadAnswer a) s = .next
        ((t.updateCommit st pos fun d => { d with phase := some .write, got := [] }).handInternal (.commitWrite st pos)
          (c.writeWires (s.geometry st) e.data e.cov)).finish))

/-- A migration whose copy write has been answered completes: of its aliasers the new owner becomes OWNED and every other
an alias of it, each keeping its last kind and frame; the migration count rises by one, up to 65,535; the migration is
removed and the holds on its position released (R89, R92). That the change is made without a lookup, so that the check
bits of the aliasers' cells are not examined, is the model's choice (DESIGN CHOICE, log entry 18); that a migration whose
copy write is not yet answered changes nothing is too (log entries 1 and 2). -/
def Obligations.MigrationCompletionRepointsTheAliasers : Prop :=
  (∀ (s : State) (st : StreamId) (pos : Nat) (m : Migration), s.migrationAt st pos = some m →
    (m.step = .copyRead ∨ (∃ y ∈ s.internal, y.owner = .copyWrite st pos) →
      exec (.migrationCompletion st pos) s = .next s.finish) ∧
    (m.step = .copyWrite → (∀ y ∈ s.internal, y.owner ≠ .copyWrite st pos) →
      exec (.migrationCompletion st pos) s = .next (s.completeMigration m).finish ∧
      s.completeMigration m =
        { (s.applyMigration m).setStream st { s.stream st with migrated := min ((s.stream st).migrated + 1) 65535 } with
          migrations := s.migrations.filter fun n => !(n.stream == st && n.pos == pos)
          holdQ := s.holdQ.map fun h => if h.reason = .migrating st pos then { h with released := true } else h })) ∧
  ∀ (s : State) (m : Migration), MapMemory.wf s.mapMem = true →
    let key (q : Nat) := s.cellKey m.stream ((s.geometry m.stream).entryCell q m.pos)
    (m.aliasers.map fun a => key a.1).Nodup → ∃ mem,
      s.applyMigration m = { s with mapMem := mem } ∧
      (∀ a ∈ m.aliasers, MapMemory.read mem (key a.1) = ⟨.entry
        ⟨if a.1 = m.newOwner then .owned else .aliasOf m.newOwner,
          (cellEntry (MapMemory.read s.mapMem (key a.1)).val).last⟩,
        .good⟩) ∧
      ∀ k, k ∉ m.aliasers.map (fun a => key a.1) → MapMemory.read mem k = MapMemory.read s.mapMem k

/-! ### Windows -/

/-- The chosen area of a window at a position: with INSIDE it holds where the window contains the position, with OUTSIDE
where it does not; so an empty window holds nowhere or everywhere (R101). When a process is active at a picture position:
by the containment of the two rectangles and the line window, the areas and enables, and the logic; with no window
enabled, never under OR and always under AND (R99, R100, R102). MASK, EXEMPT and CHANGE are the processes of the active
set's three settings (R103 to R105). -/
def Obligations.WindowAreasAndActiveAreas : Prop :=
  (∀ (on contains : Bool),
     ((⟨on, .inside⟩ : WinUse).chosen contains = true ↔ contains = true) ∧
     ((⟨on, .outside⟩ : WinUse).chosen contains = true ↔ contains = false) ∧
     (⟨on, .inside⟩ : WinUse).chosen false = false ∧ (⟨on, .outside⟩ : WinUse).chosen false = true) ∧
  (∀ (x : Stream) (p : ProcSet) (col line : Nat),
     (∀ r : Rect, r.holds col line = true ↔
       r.startCol ≤ col ∧ col ≤ r.endCol ∧ r.startLine ≤ line ∧ line ≤ r.endLine) ∧
     (lineHolds x.active.n x.store col line = true ↔
       line < x.active.n ∧ ∃ sp, x.store[line]? = some (some sp) ∧ sp.startCol ≤ col ∧ col ≤ sp.endCol) ∧
     (let windows := [(p.w0, x.active.w0.holds col line), (p.w1, x.active.w1.holds col line),
         (p.lw, lineHolds x.active.n x.store col line)]
      (p.logic = .anyOf → (x.processActive p col line = true ↔
         ∃ w ∈ windows, w.1.on = true ∧ w.1.chosen w.2 = true)) ∧
      (p.logic = .allOf → (x.processActive p col line = true ↔
         ∀ w ∈ windows, w.1.on = true → w.1.chosen w.2 = true)))) ∧
  ∀ (x : Stream) (col line : Nat),
     x.maskActive col line = x.processActive x.active.mask col line ∧
     x.exemptActive col line = x.processActive x.active.exempt col line ∧
     x.changeActive col line = x.processActive x.active.change col line

/-- The window descriptor of a closing stream is read: rejected if a check fails, with the active set and store kept;
switched in at once with N = 0; else its line table is read, every transfer handed on together (R109 to R111). A setup's
window descriptor: rejected or switched in, the stream opens with frame 0 in slot 0 and SETUP-DONE; with N of 1 or more
its line table is read while the stream stays LOADING; at DATA-ERROR the setup is refused with FETCH-ERROR (R106, R109,
R110, R163). The set that the 64 bytes of a window descriptor describe: the two rectangles at 0 and 8, N at 24, the
settings bytes of MASK, EXEMPT and CHANGE at 28, 29 and 30, each with the enable and area bits of the three windows and
the logic bit (R186). -/
def Obligations.WindowDescriptorAnswer : Prop :=
  (∀ (a : DramAnswer) (s : State) (x : Xfer) (st : StreamId),
     s.internal.find? (fun y => y.id == a.xfer && y.tag == a.tag && y.issued) = some x → x.abandoned = false →
       x.owner = .winDesc st →
     x.wire.kind = .read → a.status = .okay → a.data.length = 32 * x.wire.beats → (s.stream st).state = .closing →
     let table := recField a.data 16 8 % 2 ^ 40
     let n := recField a.data 24 2
     let ok := table % 4 = 0 ∧ n ≤ 1088 ∧ (1 ≤ n → table + 4 * n - 1 < 2 ^ 40)
     let left := s.internal.filter fun y => y.id != x.id
     (¬ok → exec (.windowDescriptorReadAnswer a) s = .next (State.finish
       { s.setStream st { s.stream st with loadingWin := none, load := none, rejected := true } with internal := left })) ∧
     (ok → n = 0 → exec (.windowDescriptorReadAnswer a) s = .next (State.finish
       { s.setStream st { s.stream st with
           active := windowSetOf a.data, store := [], loadingWin := none, load := none, switched := true } with
         internal := left })) ∧
     (ok → 1 ≤ n → exec (.windowDescriptorReadAnswer a) s = .next (State.finish
       (State.handInternal
         { s.setStream st { s.stream st with load := some ⟨windowSetOf a.data, table, [], false⟩ } with internal := left }
         (.lineTable st) (lineTableReads table n))))) ∧
  (∀ (a : DramAnswer) (s : State) (x : Xfer) (st : StreamId),
     s.internal.find? (fun y => y.id == a.xfer && y.tag == a.tag && y.issued) = some x → x.abandoned = false →
       x.owner = .winDesc st →
     x.wire.kind = .read → (s.stream st).state = .loading →
     let left : State := { s with internal := s.internal.filter fun y => y.id != x.id }
     let table := recField a.data 16 8 % 2 ^ 40
     let n := recField a.data 24 2
     let ok := table % 4 = 0 ∧ n ≤ 1088 ∧ (1 ≤ n → table + 4 * n - 1 < 2 ^ 40)
     (a.status = .okay → a.data.length = 32 * x.wire.beats →
       (¬ok → exec (.windowDescriptorReadAnswer a) s = .next (State.finish ((left.setStream st { s.stream st with
         state := .opened, frame := 0, slot := 0, phase := none, evicted := 0, aged := 0, closed := 0, migrated := 0
         reason := .noReason, loadingWin := none, load := none, rejected := true }).raise .setupDone st))) ∧
       (ok → n = 0 → exec (.windowDescriptorReadAnswer a) s = .next (State.finish ((left.setStream st { s.stream st with
         state := .opened, frame := 0, slot := 0, phase := none, evicted := 0, aged := 0, closed := 0, migrated := 0
         reason := .noReason, active := windowSetOf a.data, store := [], loadingWin := none, load := none
         switched := true }).raise .setupDone st))) ∧
       (ok → 1 ≤ n → exec (.windowDescriptorReadAnswer a) s = .next (State.finish
         ((left.setStream st { s.stream st with load := some ⟨windowSetOf a.data, table, [], false⟩ }).handInternal
           (.lineTable st) (lineTableReads table n))))) ∧
     (a.status = .dataError →
       exec (.windowDescriptorReadAnswer a) s = .next (left.refuseSetup st .fetchError).finish)) ∧
  ∀ bytes : List Byte,
    let rect (off : Nat) : Rect :=
      ⟨recField bytes off 2, recField bytes (off + 2) 2, recField bytes (off + 4) 2, recField bytes (off + 6) 2⟩
    let settings (off : Nat) : ProcSet :=
      let bit (n : Nat) : Bool := (bytes.getD off 0).getLsbD n
      let area (n : Nat) : Area := if bit n = true then .outside else .inside
      ⟨⟨bit 0, area 1⟩, ⟨bit 2, area 3⟩, ⟨bit 4, area 5⟩, if bit 7 = true then .allOf else .anyOf⟩
    windowSetOf bytes = ⟨rect 0, rect 8, recField bytes 24 2, settings 28, settings 29, settings 30⟩

/-- The line table is read by the 32-byte-aligned extent that covers it, cut at every 256-byte boundary, each part one
READ, in ascending order (R110). A read answered OKAY keeps its bytes until the last answer; then the store is written,
line y from the entry at line-table address + 4y, empty where it starts past its end, and the set switched in (R110,
R111): at a frame open the fourth phase has ended, at setup the stream opens with frame 0 in slot 0 and SETUP-DONE. At
setup a read answered DATA-ERROR fails the load, and the setup is refused with FETCH-ERROR in the step in which its last
read is answered (R106). -/
def Obligations.LineTableReadsAndTheirAnswers : Prop :=
  (∀ (a : DramAnswer) (s : State) (x : Xfer) (st : StreamId) (load : WinLoad),
    s.internal.find? (fun y => y.id == a.xfer && y.tag == a.tag && y.issued) = some x → x.abandoned = false →
    x.owner = .lineTable st → x.wire.kind = .read → (a.status = .okay → a.data.length = 32 * x.wire.beats) →
    (s.stream st).load = some load →
    let left := s.internal.filter fun y => y.id != x.id
    let load' : WinLoad := match a.status with
      | .okay => { load with got := load.got ++ [(x.wire.addr.toNat, a.data)] }
      | .dataError => { load with failed := true }
    let kept : State := { s.setStream st { s.stream st with load := some load' } with internal := left }
    let switched : Stream := { s.stream st with
      active := load.set, store := lineStoreOf load', loadingWin := none, load := none, switched := true }
    ((s.stream st).state = .closing → load.failed = false → a.status = .okay →
      ((∃ y ∈ left, y.owner = .lineTable st) → exec (.lineTableReadAnswer a) s = .next kept.finish) ∧
      ((∀ y ∈ left, y.owner ≠ .lineTable st) → exec (.lineTableReadAnswer a) s = .next (State.finish
        { s.setStream st switched with internal := left }))) ∧
    ((s.stream st).state = .loading →
      ((∃ y ∈ left, y.owner = .lineTable st) → exec (.lineTableReadAnswer a) s = .next kept.finish) ∧
      ((∀ y ∈ left, y.owner ≠ .lineTable st) →
        (load'.failed = true → exec (.lineTableReadAnswer a) s = .next (kept.refuseSetup st .fetchError).finish) ∧
        (load'.failed = false → exec (.lineTableReadAnswer a) s = .next (State.finish
          (({ s.setStream st { switched with
              state := .opened, frame := 0, slot := 0, phase := none, evicted := 0, aged := 0, closed := 0, migrated := 0
              reason := .noReason } with internal := left } : State).raise .setupDone st)))))) ∧
  (∀ (load : WinLoad) (y : Nat), y < load.set.n → (lineStoreOf load).length = load.set.n ∧
    (lineStoreOf load)[y]? =
      let run := (gather load.got ((lineTableParts load.table load.set.n).map Prod.fst)).drop (load.table % 32)
      let startCol := recField run (4 * y) 2
      let endCol := recField run (4 * y + 2) 2
      some (if endCol < startCol then none else some ⟨startCol, endCol⟩)) ∧
  ∀ (table n : Nat), 1 ≤ n →
    let parts := lineTableParts table n
    let size (p : Nat × Nat) : Nat := p.2 - p.1
    lineTableReads table n = parts.map (fun p => ⟨.read, BitVec.ofNat 40 p.1, (p.2 - p.1) / 32, [], []⟩) ∧
    (parts.map size).sum = (table + 4 * n + 31) / 32 * 32 - table / 32 * 32 ∧
    ∀ i p, parts[i]? = some p → p.1 = table / 32 * 32 + ((parts.take i).map size).sum ∧ p.1 < p.2 ∧
      (0 < i → p.1 % 256 = 0) ∧ p.1 / 256 = (p.2 - 1) / 256 ∧ 32 ≤ p.2 - p.1 ∧ p.2 - p.1 ≤ 256 ∧ (p.2 - p.1) % 32 = 0

/-! ### The frame cycle -/

/-- The slide change flag is set exactly when the threshold is 1 or more and the changed-in-window count reaches it: the
count of the positions that are in window with status kind CHANGED, COLLIDED or PARTIAL. With a threshold of T it is set
only where every position counts (R122). In every frame record the eight kind counts sum to T, and the record is 64 bytes
(R121, R187). Its fields are the stream, its frame number, slot and T, the count of the positions of each status kind, the
changed-in-window count, and the stream's partial-commit and migration counts and window flags as they stand (R121). -/
def Obligations.RecordCountsAndSlideFlag : Prop :=
  (∀ (x : Stream) (st : StreamId) (status : List (StatusKind × Bool)), status.length = x.geometry.tiles →
     let counts (k : StatusKind × Bool) : Bool := k.2 &&
       (k.1 == .committed .changed || k.1 == .committed .collided || k.1 == .committed .partialTile)
     ((recordOf x st status).slide = true ↔
       1 ≤ x.geometry.threshold ∧ x.geometry.threshold ≤ (status.filter counts).length) ∧
     (x.geometry.threshold = 0 → (recordOf x st status).slide = false) ∧
     (x.geometry.threshold = x.geometry.tiles → (recordOf x st status).slide = true → ∀ k ∈ status, counts k = true)) ∧
  (∀ (x : Stream) (st : StreamId) (status : List (StatusKind × Bool)), status.length = x.geometry.tiles →
     (recordOf x st status).kinds.sum = (recordOf x st status).tiles ∧ (recordOf x st status).bytes.length = 64) ∧
  ∀ (x : Stream) (st : StreamId) (status : List (StatusKind × Bool)),
     let r := recordOf x st status
     r.stream = st ∧ r.frame = x.frame ∧ r.slot = x.slot ∧ r.tiles = x.geometry.tiles ∧
     r.kinds = [StatusKind.blank, .carried, .committed .changed, .committed .aliased, .committed .retained,
       .committed .partialTile, .committed .exempt, .committed .collided].map
         (fun kind => (status.filter fun k => k.1 == kind).length) ∧
     r.changedIn = (status.filter fun k => k.2 &&
       (k.1 == .committed .changed || k.1 == .committed .collided || k.1 == .committed .partialTile)).length ∧
     r.evicted = x.evicted ∧ r.aged = x.aged ∧ r.closed = x.closed ∧ r.migrated = x.migrated ∧ r.switched = x.switched ∧
     r.rejected = x.rejected

/-- The first phase of a close has ended: on error-free cells the second phase begins, with the frame record formed from
the closing slot's entries and the CHANGE area, and the status-map writes handed on (R116, R118 to R121); where single-bit
errors are met and no double-bit one, it goes on with the corrected contents, from the state that the lookups leave (R118,
R175). The status kind of an entry is its kind if it was committed in the closing frame, BLANK without a commit, else
CARRIED (R118). What an entry that fits no row of that rule's table is taken for is the model's choice (DESIGN CHOICE, log
entry 28), and so is that a stream that is not there changes nothing (log entries 1 and 2). -/
def Obligations.FirstPhaseEndFormsTheRecord : Prop :=
  (∀ (s : State) (st : StreamId),
    ((s.stream st).state ≠ .closing ∨ (s.stream st).phase ≠ some .first ∨ (∃ e ∈ s.entries, e.stream = st) →
      exec (.closeFirstPhaseEnd st) s = .next s.finish) ∧
    ((s.stream st).state = .closing → (s.stream st).phase = some .first → (∀ e ∈ s.entries, e.stream ≠ st) →
      let x := s.stream st
      let g := x.geometry
      let cells := (List.range g.tiles).map fun p => g.entryCell x.slot p
      let ecc (c : Nat) := (MapMemory.read s.mapMem (s.cellKey st c)).ecc
      let status := (List.range g.tiles).map fun p =>
        (statusKindOf (cellEntry (s.peekCell st (g.entryCell x.slot p))) x.frame,
          x.changeActive (g.anchor p).1 (g.anchor p).2)
      let formed (looked : State) : State :=
        (looked.setStream st { x with phase := some .second, record := some (recordOf x st status) }).handInternal
          (.statusMap st) (statusMapWrites g x.slot
            (status.map (fun k => statusByte k.1 k.2) ++ List.replicate (g.statusStride - g.tiles) 0))
      ((∀ c ∈ cells, ecc c = .good) → exec (.closeFirstPhaseEnd st) s = .next (formed s).finish) ∧
      (MapMemory.wf s.mapMem = true → (∀ c ∈ cells, ecc c ≠ .double) →
        exec (.closeFirstPhaseEnd st) s = .next (formed (s.lookupCells st cells).2).finish))) ∧
  ∀ (e : MapEntry) (f : Nat),
    (∀ k, e.last = some (k, f) → statusKindOf e f = .committed k) ∧
    (∀ k n, e.last = some (k, n) → n ≠ f → statusKindOf e f = .carried) ∧
    (e.last = none → statusKindOf e f = .blank)

/-- The status map of a slot: one stride of bytes from status-map base + slot × stride, the status bytes of the positions
and then 00h, cut at every 256-byte boundary, each part one WRITE with every byte enabled, in ascending order (R120). A
status byte holds the kind code in bits 0 to 2, 0 in bits 3 to 6, the in-window mark in bit 7; a frame record has its
fields at their offsets, least significant byte first, and 00h from byte 35 on (R184, R187). The codes of results, modes,
part states, stream states and refusal reasons (R188). -/
def Obligations.StatusMapRecordAndCodeFormats : Prop :=
  (∀ (g : Geom) (slot : Nat) (status : List (StatusKind × Bool)), status.length = g.tiles → 1 ≤ g.tiles →
    g.statusBase % 64 = 0 →
    let bytes := statusMapBytes g status
    let stride := (g.tiles + 63) / 64 * 64
    let base := g.statusBase + slot * stride
    bytes.length = stride ∧
    (∀ (i : Nat) (k : StatusKind × Bool), status[i]? = some k → bytes[i]? = some (statusByte k.1 k.2)) ∧
    (∀ i, g.tiles ≤ i → i < stride → bytes[i]? = some 0) ∧
    ∃ parts : List (Nat × Nat),
      let size (p : Nat × Nat) : Nat := p.2 - p.1
      statusMapWrites g slot bytes = parts.map (fun p => ⟨.write, BitVec.ofNat 40 p.1, (p.2 - p.1) / 32,
        (bytes.drop (p.1 - base)).take (p.2 - p.1), List.replicate (p.2 - p.1) true⟩) ∧
      (parts.map size).sum = stride ∧
      ∀ i p, parts[i]? = some p → p.1 = base + ((parts.take i).map size).sum ∧ p.1 < p.2 ∧
        (0 < i → p.1 % 256 = 0) ∧ p.1 / 256 = (p.2 - 1) / 256 ∧ (p.2 - p.1) / 32 ∈ [2, 4, 6, 8]) ∧
  (∀ (k : StatusKind) (mark : Bool),
    (k, (statusByte k mark).toNat % 8) ∈ [(StatusKind.blank, 0), (.carried, 1), (.committed .changed, 2),
      (.committed .aliased, 3), (.committed .retained, 4), (.committed .partialTile, 5), (.committed .exempt, 6),
      (.committed .collided, 7)] ∧
    (statusByte k mark).toNat / 8 % 16 = 0 ∧ (statusByte k mark).getLsbD 7 = mark) ∧
  (∀ r : FrameRecord, r.kinds.length = 8 → r.slot < 256 → r.tiles < 65536 → r.frame < 4294967296 →
    (∀ n ∈ r.kinds, n < 65536) →
    r.changedIn < 65536 → r.evicted < 65536 → r.aged < 65536 → r.closed < 65536 → r.migrated < 65536 →
    r.bytes.length = 64 ∧ recField r.bytes 0 1 = r.stream.val ∧ recField r.bytes 1 1 = r.slot ∧
    recField r.bytes 2 2 = r.tiles ∧ recField r.bytes 4 4 = r.frame ∧
    (∀ c n, r.kinds[c]? = some n → recField r.bytes (8 + 2 * c) 2 = n) ∧ recField r.bytes 24 2 = r.changedIn ∧
    recField r.bytes 26 2 = r.evicted ∧ recField r.bytes 28 2 = r.aged ∧ recField r.bytes 30 2 = r.closed ∧
    recField r.bytes 32 2 = r.migrated ∧
    (∀ b, (r.bytes.getD 34 0).getLsbD b =
      ((decide (b = 0) && r.slide) || (decide (b = 1) && r.switched) || (decide (b = 2) && r.rejected))) ∧
    ∀ i, 35 ≤ i → i < 64 → r.bytes[i]? = some 0) ∧
  (∀ (bytes : List Byte) (off size : Nat), recField bytes off 0 = 0 ∧
    recField bytes off (size + 1) = (bytes.getD off 0).toNat + 256 * recField bytes (off + 1) size) ∧
  [CmdResult.done, .accepted, .busy, .refused, .unknown].map CmdResult.code = [0x01, 0x02, 0x03, 0x04, 0x05] ∧
  [Mode.managed, .transparent].map modeCode = [0x00, 0x01] ∧
    [PartState.starting, .ready].map PartState.code = [0x00, 0x01] ∧
  [StreamState.free, .loading, .opened, .closing, .faulted, .draining].map StreamState.code =
    [0x00, 0x01, 0x02, 0x03, 0x04, 0x05] ∧
  [SetupReason.noReason, .geometry, .rangeOverlap, .noRoom, .fetchError].map SetupReason.code = [0x00, 0x01, 0x02, 0x03,
    0x04]

/-- A status-map write answered OKAY ends its transfer, and the last begins the third phase with the frame-record write at
ring index frame mod entries; the record write answered OKAY begins the fourth phase, which clears the window flags and
moves a pending address to the loading address with the descriptor's read (R108, R120, R123, R124). These answers act by
the owner of their transfer, without a test of the close phase (DESIGN CHOICE, log entry 24). The fourth phase has ended:
the slot becomes (s + 1) mod S and the frame rises by one, the counts become 0, the stream is OPEN, its CLOSING holds are
released, FRAME-DONE is raised, and SLIDE-CHANGE where the closed frame's record is flagged (R125); until then a
FRAME_OPEN changes nothing (the model's choice, log entries 1 and 2). -/
def Obligations.ClosePhasesEndInTheNextFrame : Prop :=
  (∀ (a : DramAnswer) (s : State) (x : Xfer) (st : StreamId),
     s.internal.find? (fun y => y.id == a.xfer && y.tag == a.tag && y.issued) = some x → x.abandoned = false →
       x.wire.kind = .write →
     a.status = .okay →
     let left : State := { s with internal := s.internal.filter fun y => y.id != x.id }
     let g := s.geometry st
     (x.owner = .statusMap st → (∃ y ∈ left.internal, y.owner = .statusMap st) →
       exec (.statusMapWriteAnswer a) s = .next left.finish) ∧
     (∀ r, x.owner = .statusMap st → (∀ y ∈ left.internal, y.owner ≠ .statusMap st) → (s.stream st).record = some r →
       exec (.statusMapWriteAnswer a) s = .next (State.finish
         ((left.setStream st { s.stream st with phase := some .third }).handInternal (.frameRecord st)
           [writeWire (g.ringBase + r.frame % g.ringEntries * 64) r.bytes]))) ∧
     (x.owner = .frameRecord st → (s.stream st).pendingWin = none →
       exec (.frameRecordWriteAnswer a) s = .next (State.finish
         (left.setStream st { s.stream st with phase := some .fourth, switched := false, rejected := false }))) ∧
     (∀ addr, x.owner = .frameRecord st → (s.stream st).pendingWin = some addr →
       exec (.frameRecordWriteAnswer a) s = .next (State.finish
         ((left.setStream st { s.stream st with
             phase := some .fourth, switched := false, rejected := false, pendingWin := none
             loadingWin := some addr }).handInternal (.winDesc st) [readWire addr 2])))) ∧
  (∀ (s : State) (st : StreamId),
     ((s.stream st).state ≠ .closing ∨ (s.stream st).phase ≠ some .fourth ∨ (s.stream st).loadingWin ≠ none →
       exec (.frameOpen st) s = .next s.finish) ∧
     ((s.stream st).state = .closing → (s.stream st).phase = some .fourth → (s.stream st).loadingWin = none →
       let opened : State := { s.setStream st { s.stream st with
           slot := ((s.stream st).slot + 1) % (s.geometry st).slots, frame := (s.stream st).frame + 1
           evicted := 0, aged := 0, closed := 0, migrated := 0, phase := none, record := none, state := .opened } with
         holdQ := s.holdQ.map fun h => if h.reason = .closing st then { h with released := true } else h }
       ((∀ r, (s.stream st).record = some r → r.slide = false) →
         exec (.frameOpen st) s = .next (opened.raise .frameDone st).finish) ∧
       (∀ r, (s.stream st).record = some r → r.slide = true →
         exec (.frameOpen st) s = .next ((opened.raise .frameDone st).raise .slideChange st).finish)))

/-! ### Setup, teardown, faults -/

/-- The fields of a stream descriptor stand at their offsets, least significant byte first; plane 1 is taken only with a
plane count of 2, and its two reads are joined by their addresses in whichever order they were answered (R160, R184,
R185). A descriptor passes the checks of GEOMETRY exactly when each of them holds (R161); it is refused with RANGE-OVERLAP
exactly when two of its own aperture and guard ranges overlap, or one of them overlaps the aperture or a guard range of
another reserved stream (R162). -/
def Obligations.DescriptorFieldsAndChecks : Prop :=
  (∀ bytes : List Byte,
    let g := geomOfBytes bytes
    let planeAt (off : Nat) : Plane := ⟨recField bytes off 4, recField bytes (off + 4) 2, recField bytes (off + 6) 2,
      recField bytes (off + 8) 2, recField bytes (off + 10) 1, recField bytes (off + 11) 1, bytes.getD (off + 12) 0⟩
    g.aperture = recField bytes 0 8 ∧ g.viewStride = recField bytes 8 8 ∧ g.storage = recField bytes 16 8 ∧
    g.statusBase = recField bytes 24 8 ∧ g.ringBase = recField bytes 32 8 ∧ g.ringEntries = recField bytes 40 2 ∧
    g.slots = recField bytes 42 1 ∧ g.planeCount = recField bytes 43 1 ∧ g.vacant = bytes.getD 44 0 ∧
    g.verify = (bytes.getD 45 0).getLsbD 0 ∧ g.threshold = recField bytes 46 2 ∧ g.initialWin = recField bytes 48 8 ∧
    (g.planeCount = 2 → g.planes = [planeAt 64, planeAt 96]) ∧ (g.planeCount ≠ 2 → g.planes = [planeAt 64])) ∧
  (∀ (lo hi : Nat) (first second : List Byte), lo < hi →
    descriptorBytes [(lo, first), (hi, second)] = first ++ second ∧
    descriptorBytes [(hi, second), (lo, first)] = first ++ second) ∧
  (∀ g : Geom, g.planes.length = (if g.planeCount = 2 then 2 else 1) →
    let p0 := g.plane 0
    let p1 := g.plane 1
    let planeOk (p : Plane) : Prop :=
      64 ≤ p.width ∧ p.width ≤ 4096 ∧ p.width % 64 = 0 ∧ p.pitch % 256 = 0 ∧ p.width ≤ p.pitch ∧ p.pitch ≤ 8192 ∧
      16 ≤ p.height ∧ p.height ≤ 1088 ∧ (p.vfactor = 1 ∨ p.vfactor = 2) ∧ p.height * p.vfactor ≤ 1088 ∧
      (p.colBytes = 1 ∨ p.colBytes = 2 ∨ p.colBytes = 4) ∧ p.raster % 4096 = 0 ∧
      p.raster + p.pitch * p.height ≤ g.viewStride
    let tilesOf (p : Plane) : Nat := p.width / 64 * ((p.height + 15) / 16)
    let t := if g.planeCount = 2 then tilesOf p0 + tilesOf p1 else tilesOf p0
    g.tiles = t ∧
    (g.ok = true ↔
      2 ≤ g.slots ∧ g.slots ≤ 16 ∧ (g.planeCount = 1 ∨ g.planeCount = 2) ∧ planeOk p0 ∧
      (g.planeCount = 2 → planeOk p1 ∧ (p0.raster + p0.pitch * p0.height ≤ p1.raster ∨
        p1.raster + p1.pitch * p1.height ≤ p0.raster)) ∧
      t ≤ 6528 ∧ g.aperture % 4096 = 0 ∧ g.viewStride % 4096 = 0 ∧ g.storage % 4096 = 0 ∧
      g.statusBase % 64 = 0 ∧ g.ringBase % 64 = 0 ∧ 4 ≤ g.ringEntries ∧ g.ringEntries ≤ 256 ∧ g.threshold ≤ t ∧
      g.initialWin % 64 = 0 ∧ g.initialWin < 2 ^ 40 ∧ g.aperture + g.slots * g.viewStride ≤ 2 ^ 40 ∧
      g.storage + g.slots * ((t * 1024 + 4095) / 4096 * 4096) ≤ 2 ^ 40 ∧
      g.statusBase + g.slots * ((t + 63) / 64 * 64) ≤ 2 ^ 40 ∧ g.ringBase + g.ringEntries * 64 ≤ 2 ^ 40)) ∧
  ∀ (s : State) (st : StreamId) (g : Geom),
    let runs (h : Geom) : List (Nat × Nat) :=
      [(h.aperture, h.aperture + h.slots * h.viewStride),
        (h.storage, h.storage + h.slots * ((h.tiles * 1024 + 4095) / 4096 * 4096)),
        (h.statusBase, h.statusBase + h.slots * ((h.tiles + 63) / 64 * 64)), (h.ringBase, h.ringBase + h.ringEntries * 64)]
    let overlap (a b : Nat × Nat) : Prop := a.1 < b.2 ∧ b.1 < a.2
    s.rangeOverlap st g = true ↔
      (∃ (i j : Nat) (a b : Nat × Nat), i < j ∧ (runs g)[i]? = some a ∧ (runs g)[j]? = some b ∧ overlap a b) ∨
      ∃ u h, u ≠ st ∧ (s.stream u).geom = some h ∧ ∃ a ∈ runs g, ∃ b ∈ runs h, overlap a b

/-- A descriptor read answered: after the first the stream waits for the other. After both, a failed read refuses the
setup with FETCH-ERROR; else the 128 bytes are validated, and the setup refused with the first reason that applies, in the
order GEOMETRY, RANGE-OVERLAP, NO-ROOM, or passed (R160, R162, R163). A validation that passes makes the stream reserved
with the first banks of the pool, which leave it and are cleared: where the pool is ascending, as every step keeps it, the
lowest-numbered, and sets its window state to the null set; with initial address 0 it is OPEN with frame 0 in slot 0 and
SETUP-DONE is raised, else its initial set's descriptor read is handed on (R20, R21, R106, R163), with a number and a tag
that are the model's (log entries 12 and 26). -/
def Obligations.DescriptorFetchEndsTheSetupOrValidates : Prop :=
  ((∀ (a : DramAnswer) (s : State) (x : Xfer) (st : StreamId),
     s.internal.find? (fun y => y.id == a.xfer && y.tag == a.tag && y.issued) = some x → x.abandoned = false →
       x.owner = .descFetch st →
     x.wire.kind = .read → (a.status = .okay → a.data.length = 32 * x.wire.beats) → (s.stream st).state = .loading →
     let left := s.internal.filter fun y => y.id != x.id
     let y : Stream := match a.status with
       | .okay => { s.stream st with fetch := (s.stream st).fetch ++ [(x.wire.addr.toNat, a.data)] }
       | .dataError => { s.stream st with fetchFailed := true }
     let t : State := { s.setStream st y with internal := left }
     let g := geomOfBytes (descriptorBytes y.fetch)
     ((∃ z ∈ left, z.owner = .descFetch st) → exec (.descriptorFetchAnswer a) s = .next t.finish) ∧
     ((∀ z ∈ left, z.owner ≠ .descFetch st) →
       (y.fetchFailed = true → exec (.descriptorFetchAnswer a) s = .next (t.refuseSetup st .fetchError).finish) ∧
       (y.fetchFailed = false → g.ok = false →
         exec (.descriptorFetchAnswer a) s = .next (t.refuseSetup st .geometry).finish) ∧
       (y.fetchFailed = false → g.ok = true → s.rangeOverlap st g = true →
         exec (.descriptorFetchAnswer a) s = .next (t.refuseSetup st .rangeOverlap).finish) ∧
       (y.fetchFailed = false → g.ok = true → s.rangeOverlap st g = false → s.freeBanks.length < g.banksNeeded →
         exec (.descriptorFetchAnswer a) s = .next (t.refuseSetup st .noRoom).finish) ∧
       (y.fetchFailed = false → g.ok = true → s.rangeOverlap st g = false → g.banksNeeded ≤ s.freeBanks.length →
         exec (.descriptorFetchAnswer a) s = .next (t.passValidation st g).finish))) ∧
   ∀ (s : State) (st : StreamId) (why : SetupReason), ∃ r : State, s.refuseSetup st why = r ∧
     r.stream st = { Stream.reset with reason := why } ∧ (∀ u, u ≠ st → r.stream u = s.stream u) ∧
     (∀ b, b ∈ r.freeBanks ↔ b < 160 ∧ (b ∈ s.freeBanks ∨ b ∈ (s.stream st).banks)) ∧
     r.cause 2 = (s.cause 2).raised st ∧ (∀ i, i ≠ 2 → r.cause i = s.cause i) ∧ r.mapMem = s.mapMem) ∧
  (∀ (s : State) (st : StreamId) (g : Geom), ∃ t : State, s.passValidation st g = t ∧
     t.freeBanks = s.freeBanks.drop g.banksNeeded ∧ (t.stream st).banks = s.freeBanks.take g.banksNeeded ∧
     (∀ k, k / 1024 ∈ s.freeBanks.take g.banksNeeded → MapMemory.read t.mapMem k = ⟨.cleared, .good⟩) ∧
     (∀ k, k / 1024 ∉ s.freeBanks.take g.banksNeeded → MapMemory.read t.mapMem k = MapMemory.read s.mapMem k) ∧
     (s.freeBanks.Pairwise (fun (a b : Nat) => a < b) →
       ∀ a ∈ s.freeBanks.take g.banksNeeded, ∀ b ∈ s.freeBanks.drop g.banksNeeded, a < b) ∧
     (t.stream st).geom = some g ∧ (t.stream st).active = .null ∧ (t.stream st).store = [] ∧
     (∀ u, u ≠ st → t.stream u = s.stream u) ∧
     (g.initialWin = 0 → (t.stream st).state = .opened ∧ (t.stream st).frame = 0 ∧ (t.stream st).slot = 0 ∧
       (t.stream st).phase = none ∧ (t.stream st).evicted = 0 ∧ (t.stream st).aged = 0 ∧ (t.stream st).closed = 0 ∧
       (t.stream st).migrated = 0 ∧ (t.stream st).switched = false ∧ (t.stream st).rejected = false ∧
       (t.stream st).reason = .noReason ∧ t.cause 3 = (s.cause 3).raised st ∧ t.internal = s.internal) ∧
     (g.initialWin ≠ 0 → (t.stream st).state = (s.stream st).state ∧ (t.stream st).loadingWin = some g.initialWin ∧
       t.causes = s.causes ∧ t.internal = s.internal ++
         [⟨s.nextXfer, s.stepNum, .winDesc st, Config.freeTag s.nextXfer, readWire g.initialWin 2, false, false⟩]))

/-- What a stream's fault, and its teardown, leave of its work: its COLLECTING entries and its COMMITTING entries with no
issued transfer go, its commits and migrations are dropped, its unissued transfers withdrawn and its issued ones kept to
be discarded, its held requests answered and gone (a fault: READ DATA-ERROR with the vacant byte, WRITE DECLINED; a
teardown: ABORTED), its close and window load abandoned. The freed entries leave the last-write order. The held requests
of other streams and of none keep their places, and of them those are released whose NO-ENTRY need the free entries then
meet, and those whose TAG-ORDER or OVERLAP reason is clear when it is tested again behind a request that left. Everything
else, the map, the banks, other streams and other causes among it, is as it was (R41, R54, R56, R57, R81, R94, R112, R128,
R138, R140, R141, R146, R165, R178). -/
def Obligations.FaultAndTeardownAbandonOneStreamsWork : Prop :=
  ∀ (s : State) (st : StreamId),
    let left (t : State) (state : StreamState) (answer : Request → Answer) : Prop :=
      t.stream st = { s.stream st with
        state := state, phase := none, record := none, loadingWin := none, load := none } ∧
      (∀ u, u ≠ st → t.stream u = s.stream u) ∧
      (∀ e, e ∈ t.entries ↔ e ∈ s.entries ∧ (e.stream = st → e.collecting = false ∧
        ∃ x ∈ s.internal, x.issued = true ∧ x.owner.tile = some (st, e.pos))) ∧
      t.commits = s.commits.filter (fun c => c.stream != st) ∧
      t.migrations = s.migrations.filter (fun m => m.stream != st) ∧
      t.internal = (s.internal.filter fun x => x.issued || x.owner.stream != some st).map (fun x =>
        if x.owner.stream = some st then { x with abandoned := true } else x) ∧
      t.lastWrite = s.lastWrite.filter (fun n => t.entries.any fun e => e.num == n) ∧
      t.holdQ.map Held.id = (s.holdQ.filter fun h => h.stream != some st).map Held.id ∧
      (let freed := s.holdQ.map fun h =>
        if ∃ n, n ≤ 64 - t.entries.length ∧ h.reason = .noEntry n then { h with released := true } else h
       ∀ ahead h behind, freed = ahead ++ h :: behind → h.stream ≠ some st → ∃ before after,
        before.map Held.id = (ahead.filter fun a => a.stream != some st).map Held.id ∧
        t.holdQ = before ++
          (if (∃ a ∈ ahead, a.stream = some st) ∧ h.orderClear before = true then { h with released := true } else h) ::
            after) ∧
      t.tagOrder = s.tagOrder.map (fun u =>
        match s.holdQ.find? fun h => h.id == u.id && h.stream == some st with
        | some h => { u with answer := some (answer h.req) }
        | none => u) ∧
      t = { s with
        streams := t.streams, entries := t.entries, lastWrite := t.lastWrite, commits := t.commits
        migrations := t.migrations, internal := t.internal, holdQ := t.holdQ, tagOrder := t.tagOrder, causes := t.causes }
    (∀ c : Cause, (s.stream st).state = .opened ∨ (s.stream st).state = .closing →
      left (s.faultStream c st) .faulted (fun r => match r.kind with
        | .read => ⟨.dataError, List.replicate (32 * r.beats) (s.geometry st).vacant⟩
        | .write => ⟨.declined, []⟩) ∧
      (s.faultStream c st).cause c.idx = (s.cause c.idx).raised st ∧
      ∀ i, i ≠ c.idx → (s.faultStream c st).cause i = s.cause i) ∧
    (∀ c : Cause, (s.stream st).state ≠ .opened → (s.stream st).state ≠ .closing → s.faultStream c st = s) ∧
    left (s.enterDraining st) .draining (fun r => ⟨.aborted, match r.kind with
      | .read => List.replicate (32 * r.beats) 0
      | .write => []⟩) ∧
    (s.enterDraining st).causes = s.causes

/-- The DATA-ERROR answers that fault the stream, with TRANSFER-FAULT, in the step in which they are taken: to a merge
read, a commit write, a copy read or write, a status-map or frame-record write, and a window read at a frame open
(R177). -/
def Obligations.DataErrorsThatFaultTheStream : Prop :=
  ∀ (a : DramAnswer) (s : State) (x : Xfer) (st : StreamId),
    s.internal.find? (fun y => y.id == a.xfer && y.tag == a.tag && y.issued) = some x → x.abandoned = false →
      a.status = .dataError →
    let faulted : State :=
      State.faultStream { s with internal := s.internal.filter fun y => y.id != x.id } .transferFault st
    (∀ pos, x.owner = .mergeRead st pos → exec (.mergeReadAnswer a) s = .next faulted.finish) ∧
    (∀ pos, x.owner = .commitWrite st pos → exec (.commitWriteAnswer a) s = .next faulted.finish) ∧
    (∀ pos, x.owner = .copyRead st pos → exec (.copyReadAnswer a) s = .next faulted.finish) ∧
    (∀ pos, x.owner = .copyWrite st pos → exec (.copyWriteAnswer a) s = .next faulted.finish) ∧
    (x.owner = .statusMap st → exec (.statusMapWriteAnswer a) s = .next faulted.finish) ∧
    (x.owner = .frameRecord st → exec (.frameRecordWriteAnswer a) s = .next faulted.finish) ∧
    (x.owner = .winDesc st → (s.stream st).state = .closing →
      exec (.windowDescriptorReadAnswer a) s = .next faulted.finish) ∧
    (∀ load, x.owner = .lineTable st → (s.stream st).state = .closing → (s.stream st).load = some load →
      exec (.lineTableReadAnswer a) s = .next faulted.finish)

/-- The drain of a DRAINING stream ends when none of its part-initiated transfers is outstanding: its banks return to the
pool, uncleared, its record takes the FREE values but for the refusal reason, and TEARDOWN-DONE is raised (R22, R166).
Until then a DRAIN_END changes nothing (the model's choice, log entries 1 and 2). -/
def Obligations.DrainEndFreesTheStream : Prop :=
  ∀ (s : State) (st : StreamId),
    ((s.stream st).state ≠ .draining ∨ (∃ x ∈ s.internal, x.owner.stream = some st) →
      exec (.drainEnd st) s = .next s.finish) ∧
    ((s.stream st).state = .draining → (∀ x ∈ s.internal, x.owner.stream ≠ some st) →
      exec (.drainEnd st) s = .next (State.finish
        (({ s with freeBanks := (List.range 160).filter fun b =>
            s.freeBanks.contains b || (s.stream st).banks.contains b }.setStream st
          { Stream.reset with reason := (s.stream st).reason }).raise .teardownDone st)))
end

