-- ==== Sys2Proof/Laws/State.lean ====
section
/-! SUPPORT. What each named update of the state leaves alone, field by field, so that no proof unfolds a record update. -/

namespace Sys2Proof.Machine

variable (s : State)

/-! ### `State.setStream` -/

@[simp] theorem pending_setStream (st : StreamId) (x : Stream) : (s.setStream st x).pending = s.pending := rfl
@[simp] theorem mode_setStream (st : StreamId) (x : Stream) : (s.setStream st x).mode = s.mode := rfl
@[simp] theorem partState_setStream (st : StreamId) (x : Stream) : (s.setStream st x).partState = s.partState := rfl
@[simp] theorem clearing_setStream (st : StreamId) (x : Stream) : (s.setStream st x).clearing = s.clearing := rfl
@[simp] theorem refCount_setStream (st : StreamId) (x : Stream) : (s.setStream st x).refCount = s.refCount := rfl
@[simp] theorem tagOrder_setStream (st : StreamId) (x : Stream) : (s.setStream st x).tagOrder = s.tagOrder := rfl
@[simp] theorem deliverable_setStream (st : StreamId) (x : Stream) : (s.setStream st x).deliverable = s.deliverable := rfl
@[simp] theorem holdQ_setStream (st : StreamId) (x : Stream) : (s.setStream st x).holdQ = s.holdQ := rfl
@[simp] theorem reads_setStream (st : StreamId) (x : Stream) : (s.setStream st x).reads = s.reads := rfl
@[simp] theorem entries_setStream (st : StreamId) (x : Stream) : (s.setStream st x).entries = s.entries := rfl
@[simp] theorem lastWrite_setStream (st : StreamId) (x : Stream) : (s.setStream st x).lastWrite = s.lastWrite := rfl
@[simp] theorem divider_setStream (st : StreamId) (x : Stream) : (s.setStream st x).divider = s.divider := rfl
@[simp] theorem ageLimit_setStream (st : StreamId) (x : Stream) : (s.setStream st x).ageLimit = s.ageLimit := rfl
@[simp] theorem commits_setStream (st : StreamId) (x : Stream) : (s.setStream st x).commits = s.commits := rfl
@[simp] theorem migrations_setStream (st : StreamId) (x : Stream) : (s.setStream st x).migrations = s.migrations := rfl
@[simp] theorem passClass_setStream (st : StreamId) (x : Stream) : (s.setStream st x).passClass = s.passClass := rfl
@[simp] theorem internal_setStream (st : StreamId) (x : Stream) : (s.setStream st x).internal = s.internal := rfl
@[simp] theorem lastGranted_setStream (st : StreamId) (x : Stream) : (s.setStream st x).lastGranted = s.lastGranted := rfl
@[simp] theorem nextReq_setStream (st : StreamId) (x : Stream) : (s.setStream st x).nextReq = s.nextReq := rfl
@[simp] theorem nextXfer_setStream (st : StreamId) (x : Stream) : (s.setStream st x).nextXfer = s.nextXfer := rfl
@[simp] theorem stepNum_setStream (st : StreamId) (x : Stream) : (s.setStream st x).stepNum = s.stepNum := rfl
@[simp] theorem mapMem_setStream (st : StreamId) (x : Stream) : (s.setStream st x).mapMem = s.mapMem := rfl
@[simp] theorem freeBanks_setStream (st : StreamId) (x : Stream) : (s.setStream st x).freeBanks = s.freeBanks := rfl
@[simp] theorem corrected_setStream (st : StreamId) (x : Stream) : (s.setStream st x).corrected = s.corrected := rfl
@[simp] theorem causes_setStream (st : StreamId) (x : Stream) : (s.setStream st x).causes = s.causes := rfl
@[simp] theorem frame_setStream (st : StreamId) (x : Stream) : (s.setStream st x).frame = s.frame := rfl
@[simp] theorem msdo_setStream (st : StreamId) (x : Stream) : (s.setStream st x).msdo = s.msdo := rfl
@[simp] theorem upstreamOut_setStream (st : StreamId) (x : Stream) : (s.setStream st x).upstreamOut = s.upstreamOut := rfl
@[simp] theorem downstreamOut_setStream (st : StreamId) (x : Stream) : (s.setStream st x).downstreamOut = s.downstreamOut := rfl

/-! ### `State.setCause` -/

@[simp] theorem pending_setCause (i : Fin 12) (r : CauseRec) : (s.setCause i r).pending = s.pending := rfl
@[simp] theorem mode_setCause (i : Fin 12) (r : CauseRec) : (s.setCause i r).mode = s.mode := rfl
@[simp] theorem partState_setCause (i : Fin 12) (r : CauseRec) : (s.setCause i r).partState = s.partState := rfl
@[simp] theorem clearing_setCause (i : Fin 12) (r : CauseRec) : (s.setCause i r).clearing = s.clearing := rfl
@[simp] theorem refCount_setCause (i : Fin 12) (r : CauseRec) : (s.setCause i r).refCount = s.refCount := rfl
@[simp] theorem tagOrder_setCause (i : Fin 12) (r : CauseRec) : (s.setCause i r).tagOrder = s.tagOrder := rfl
@[simp] theorem deliverable_setCause (i : Fin 12) (r : CauseRec) : (s.setCause i r).deliverable = s.deliverable := rfl
@[simp] theorem holdQ_setCause (i : Fin 12) (r : CauseRec) : (s.setCause i r).holdQ = s.holdQ := rfl
@[simp] theorem reads_setCause (i : Fin 12) (r : CauseRec) : (s.setCause i r).reads = s.reads := rfl
@[simp] theorem entries_setCause (i : Fin 12) (r : CauseRec) : (s.setCause i r).entries = s.entries := rfl
@[simp] theorem lastWrite_setCause (i : Fin 12) (r : CauseRec) : (s.setCause i r).lastWrite = s.lastWrite := rfl
@[simp] theorem divider_setCause (i : Fin 12) (r : CauseRec) : (s.setCause i r).divider = s.divider := rfl
@[simp] theorem ageLimit_setCause (i : Fin 12) (r : CauseRec) : (s.setCause i r).ageLimit = s.ageLimit := rfl
@[simp] theorem commits_setCause (i : Fin 12) (r : CauseRec) : (s.setCause i r).commits = s.commits := rfl
@[simp] theorem migrations_setCause (i : Fin 12) (r : CauseRec) : (s.setCause i r).migrations = s.migrations := rfl
@[simp] theorem passClass_setCause (i : Fin 12) (r : CauseRec) : (s.setCause i r).passClass = s.passClass := rfl
@[simp] theorem internal_setCause (i : Fin 12) (r : CauseRec) : (s.setCause i r).internal = s.internal := rfl
@[simp] theorem lastGranted_setCause (i : Fin 12) (r : CauseRec) : (s.setCause i r).lastGranted = s.lastGranted := rfl
@[simp] theorem nextReq_setCause (i : Fin 12) (r : CauseRec) : (s.setCause i r).nextReq = s.nextReq := rfl
@[simp] theorem nextXfer_setCause (i : Fin 12) (r : CauseRec) : (s.setCause i r).nextXfer = s.nextXfer := rfl
@[simp] theorem stepNum_setCause (i : Fin 12) (r : CauseRec) : (s.setCause i r).stepNum = s.stepNum := rfl
@[simp] theorem mapMem_setCause (i : Fin 12) (r : CauseRec) : (s.setCause i r).mapMem = s.mapMem := rfl
@[simp] theorem freeBanks_setCause (i : Fin 12) (r : CauseRec) : (s.setCause i r).freeBanks = s.freeBanks := rfl
@[simp] theorem corrected_setCause (i : Fin 12) (r : CauseRec) : (s.setCause i r).corrected = s.corrected := rfl
@[simp] theorem frame_setCause (i : Fin 12) (r : CauseRec) : (s.setCause i r).frame = s.frame := rfl
@[simp] theorem msdo_setCause (i : Fin 12) (r : CauseRec) : (s.setCause i r).msdo = s.msdo := rfl
@[simp] theorem upstreamOut_setCause (i : Fin 12) (r : CauseRec) : (s.setCause i r).upstreamOut = s.upstreamOut := rfl
@[simp] theorem downstreamOut_setCause (i : Fin 12) (r : CauseRec) : (s.setCause i r).downstreamOut = s.downstreamOut := rfl
@[simp] theorem streams_setCause (i : Fin 12) (r : CauseRec) : (s.setCause i r).streams = s.streams := rfl

/-! ### `State.raise` -/

@[simp] theorem pending_raise (c : Cause) (st : StreamId) : (s.raise c st).pending = s.pending := rfl
@[simp] theorem mode_raise (c : Cause) (st : StreamId) : (s.raise c st).mode = s.mode := rfl
@[simp] theorem partState_raise (c : Cause) (st : StreamId) : (s.raise c st).partState = s.partState := rfl
@[simp] theorem clearing_raise (c : Cause) (st : StreamId) : (s.raise c st).clearing = s.clearing := rfl
@[simp] theorem refCount_raise (c : Cause) (st : StreamId) : (s.raise c st).refCount = s.refCount := rfl
@[simp] theorem tagOrder_raise (c : Cause) (st : StreamId) : (s.raise c st).tagOrder = s.tagOrder := rfl
@[simp] theorem deliverable_raise (c : Cause) (st : StreamId) : (s.raise c st).deliverable = s.deliverable := rfl
@[simp] theorem holdQ_raise (c : Cause) (st : StreamId) : (s.raise c st).holdQ = s.holdQ := rfl
@[simp] theorem reads_raise (c : Cause) (st : StreamId) : (s.raise c st).reads = s.reads := rfl
@[simp] theorem entries_raise (c : Cause) (st : StreamId) : (s.raise c st).entries = s.entries := rfl
@[simp] theorem lastWrite_raise (c : Cause) (st : StreamId) : (s.raise c st).lastWrite = s.lastWrite := rfl
@[simp] theorem divider_raise (c : Cause) (st : StreamId) : (s.raise c st).divider = s.divider := rfl
@[simp] theorem ageLimit_raise (c : Cause) (st : StreamId) : (s.raise c st).ageLimit = s.ageLimit := rfl
@[simp] theorem commits_raise (c : Cause) (st : StreamId) : (s.raise c st).commits = s.commits := rfl
@[simp] theorem migrations_raise (c : Cause) (st : StreamId) : (s.raise c st).migrations = s.migrations := rfl
@[simp] theorem passClass_raise (c : Cause) (st : StreamId) : (s.raise c st).passClass = s.passClass := rfl
@[simp] theorem internal_raise (c : Cause) (st : StreamId) : (s.raise c st).internal = s.internal := rfl
@[simp] theorem lastGranted_raise (c : Cause) (st : StreamId) : (s.raise c st).lastGranted = s.lastGranted := rfl
@[simp] theorem nextReq_raise (c : Cause) (st : StreamId) : (s.raise c st).nextReq = s.nextReq := rfl
@[simp] theorem nextXfer_raise (c : Cause) (st : StreamId) : (s.raise c st).nextXfer = s.nextXfer := rfl
@[simp] theorem stepNum_raise (c : Cause) (st : StreamId) : (s.raise c st).stepNum = s.stepNum := rfl
@[simp] theorem mapMem_raise (c : Cause) (st : StreamId) : (s.raise c st).mapMem = s.mapMem := rfl
@[simp] theorem freeBanks_raise (c : Cause) (st : StreamId) : (s.raise c st).freeBanks = s.freeBanks := rfl
@[simp] theorem corrected_raise (c : Cause) (st : StreamId) : (s.raise c st).corrected = s.corrected := rfl
@[simp] theorem frame_raise (c : Cause) (st : StreamId) : (s.raise c st).frame = s.frame := rfl
@[simp] theorem msdo_raise (c : Cause) (st : StreamId) : (s.raise c st).msdo = s.msdo := rfl
@[simp] theorem upstreamOut_raise (c : Cause) (st : StreamId) : (s.raise c st).upstreamOut = s.upstreamOut := rfl
@[simp] theorem downstreamOut_raise (c : Cause) (st : StreamId) : (s.raise c st).downstreamOut = s.downstreamOut := rfl
@[simp] theorem streams_raise (c : Cause) (st : StreamId) : (s.raise c st).streams = s.streams := rfl

/-! ### `State.answer` -/

@[simp] theorem pending_answer (id : Nat) (a : Answer) : (s.answer id a).pending = s.pending := rfl
@[simp] theorem mode_answer (id : Nat) (a : Answer) : (s.answer id a).mode = s.mode := rfl
@[simp] theorem partState_answer (id : Nat) (a : Answer) : (s.answer id a).partState = s.partState := rfl
@[simp] theorem clearing_answer (id : Nat) (a : Answer) : (s.answer id a).clearing = s.clearing := rfl
@[simp] theorem refCount_answer (id : Nat) (a : Answer) : (s.answer id a).refCount = s.refCount := rfl
@[simp] theorem deliverable_answer (id : Nat) (a : Answer) : (s.answer id a).deliverable = s.deliverable := rfl
@[simp] theorem holdQ_answer (id : Nat) (a : Answer) : (s.answer id a).holdQ = s.holdQ := rfl
@[simp] theorem reads_answer (id : Nat) (a : Answer) : (s.answer id a).reads = s.reads := rfl
@[simp] theorem entries_answer (id : Nat) (a : Answer) : (s.answer id a).entries = s.entries := rfl
@[simp] theorem lastWrite_answer (id : Nat) (a : Answer) : (s.answer id a).lastWrite = s.lastWrite := rfl
@[simp] theorem divider_answer (id : Nat) (a : Answer) : (s.answer id a).divider = s.divider := rfl
@[simp] theorem ageLimit_answer (id : Nat) (a : Answer) : (s.answer id a).ageLimit = s.ageLimit := rfl
@[simp] theorem commits_answer (id : Nat) (a : Answer) : (s.answer id a).commits = s.commits := rfl
@[simp] theorem migrations_answer (id : Nat) (a : Answer) : (s.answer id a).migrations = s.migrations := rfl
@[simp] theorem passClass_answer (id : Nat) (a : Answer) : (s.answer id a).passClass = s.passClass := rfl
@[simp] theorem internal_answer (id : Nat) (a : Answer) : (s.answer id a).internal = s.internal := rfl
@[simp] theorem lastGranted_answer (id : Nat) (a : Answer) : (s.answer id a).lastGranted = s.lastGranted := rfl
@[simp] theorem nextReq_answer (id : Nat) (a : Answer) : (s.answer id a).nextReq = s.nextReq := rfl
@[simp] theorem nextXfer_answer (id : Nat) (a : Answer) : (s.answer id a).nextXfer = s.nextXfer := rfl
@[simp] theorem stepNum_answer (id : Nat) (a : Answer) : (s.answer id a).stepNum = s.stepNum := rfl
@[simp] theorem mapMem_answer (id : Nat) (a : Answer) : (s.answer id a).mapMem = s.mapMem := rfl
@[simp] theorem freeBanks_answer (id : Nat) (a : Answer) : (s.answer id a).freeBanks = s.freeBanks := rfl
@[simp] theorem corrected_answer (id : Nat) (a : Answer) : (s.answer id a).corrected = s.corrected := rfl
@[simp] theorem causes_answer (id : Nat) (a : Answer) : (s.answer id a).causes = s.causes := rfl
@[simp] theorem frame_answer (id : Nat) (a : Answer) : (s.answer id a).frame = s.frame := rfl
@[simp] theorem msdo_answer (id : Nat) (a : Answer) : (s.answer id a).msdo = s.msdo := rfl
@[simp] theorem upstreamOut_answer (id : Nat) (a : Answer) : (s.answer id a).upstreamOut = s.upstreamOut := rfl
@[simp] theorem downstreamOut_answer (id : Nat) (a : Answer) : (s.answer id a).downstreamOut = s.downstreamOut := rfl
@[simp] theorem streams_answer (id : Nat) (a : Answer) : (s.answer id a).streams = s.streams := rfl

/-! ### `State.noteDeliverable` -/

@[simp] theorem pending_noteDeliverable : s.noteDeliverable.pending = s.pending := rfl
@[simp] theorem mode_noteDeliverable : s.noteDeliverable.mode = s.mode := rfl
@[simp] theorem partState_noteDeliverable : s.noteDeliverable.partState = s.partState := rfl
@[simp] theorem clearing_noteDeliverable : s.noteDeliverable.clearing = s.clearing := rfl
@[simp] theorem refCount_noteDeliverable : s.noteDeliverable.refCount = s.refCount := rfl
@[simp] theorem tagOrder_noteDeliverable : s.noteDeliverable.tagOrder = s.tagOrder := rfl
@[simp] theorem holdQ_noteDeliverable : s.noteDeliverable.holdQ = s.holdQ := rfl
@[simp] theorem reads_noteDeliverable : s.noteDeliverable.reads = s.reads := rfl
@[simp] theorem entries_noteDeliverable : s.noteDeliverable.entries = s.entries := rfl
@[simp] theorem lastWrite_noteDeliverable : s.noteDeliverable.lastWrite = s.lastWrite := rfl
@[simp] theorem divider_noteDeliverable : s.noteDeliverable.divider = s.divider := rfl
@[simp] theorem ageLimit_noteDeliverable : s.noteDeliverable.ageLimit = s.ageLimit := rfl
@[simp] theorem commits_noteDeliverable : s.noteDeliverable.commits = s.commits := rfl
@[simp] theorem migrations_noteDeliverable : s.noteDeliverable.migrations = s.migrations := rfl
@[simp] theorem passClass_noteDeliverable : s.noteDeliverable.passClass = s.passClass := rfl
@[simp] theorem internal_noteDeliverable : s.noteDeliverable.internal = s.internal := rfl
@[simp] theorem lastGranted_noteDeliverable : s.noteDeliverable.lastGranted = s.lastGranted := rfl
@[simp] theorem nextReq_noteDeliverable : s.noteDeliverable.nextReq = s.nextReq := rfl
@[simp] theorem nextXfer_noteDeliverable : s.noteDeliverable.nextXfer = s.nextXfer := rfl
@[simp] theorem stepNum_noteDeliverable : s.noteDeliverable.stepNum = s.stepNum := rfl
@[simp] theorem mapMem_noteDeliverable : s.noteDeliverable.mapMem = s.mapMem := rfl
@[simp] theorem freeBanks_noteDeliverable : s.noteDeliverable.freeBanks = s.freeBanks := rfl
@[simp] theorem corrected_noteDeliverable : s.noteDeliverable.corrected = s.corrected := rfl
@[simp] theorem causes_noteDeliverable : s.noteDeliverable.causes = s.causes := rfl
@[simp] theorem frame_noteDeliverable : s.noteDeliverable.frame = s.frame := rfl
@[simp] theorem msdo_noteDeliverable : s.noteDeliverable.msdo = s.msdo := rfl
@[simp] theorem upstreamOut_noteDeliverable : s.noteDeliverable.upstreamOut = s.upstreamOut := rfl
@[simp] theorem downstreamOut_noteDeliverable : s.noteDeliverable.downstreamOut = s.downstreamOut := rfl
@[simp] theorem streams_noteDeliverable : s.noteDeliverable.streams = s.streams := rfl

/-! ### `State.dropHeld` -/

@[simp] theorem pending_dropHeld (p : Held → Bool) : (s.dropHeld p).pending = s.pending := rfl
@[simp] theorem mode_dropHeld (p : Held → Bool) : (s.dropHeld p).mode = s.mode := rfl
@[simp] theorem partState_dropHeld (p : Held → Bool) : (s.dropHeld p).partState = s.partState := rfl
@[simp] theorem clearing_dropHeld (p : Held → Bool) : (s.dropHeld p).clearing = s.clearing := rfl
@[simp] theorem refCount_dropHeld (p : Held → Bool) : (s.dropHeld p).refCount = s.refCount := rfl
@[simp] theorem tagOrder_dropHeld (p : Held → Bool) : (s.dropHeld p).tagOrder = s.tagOrder := rfl
@[simp] theorem deliverable_dropHeld (p : Held → Bool) : (s.dropHeld p).deliverable = s.deliverable := rfl
@[simp] theorem reads_dropHeld (p : Held → Bool) : (s.dropHeld p).reads = s.reads := rfl
@[simp] theorem entries_dropHeld (p : Held → Bool) : (s.dropHeld p).entries = s.entries := rfl
@[simp] theorem lastWrite_dropHeld (p : Held → Bool) : (s.dropHeld p).lastWrite = s.lastWrite := rfl
@[simp] theorem divider_dropHeld (p : Held → Bool) : (s.dropHeld p).divider = s.divider := rfl
@[simp] theorem ageLimit_dropHeld (p : Held → Bool) : (s.dropHeld p).ageLimit = s.ageLimit := rfl
@[simp] theorem commits_dropHeld (p : Held → Bool) : (s.dropHeld p).commits = s.commits := rfl
@[simp] theorem migrations_dropHeld (p : Held → Bool) : (s.dropHeld p).migrations = s.migrations := rfl
@[simp] theorem passClass_dropHeld (p : Held → Bool) : (s.dropHeld p).passClass = s.passClass := rfl
@[simp] theorem internal_dropHeld (p : Held → Bool) : (s.dropHeld p).internal = s.internal := rfl
@[simp] theorem lastGranted_dropHeld (p : Held → Bool) : (s.dropHeld p).lastGranted = s.lastGranted := rfl
@[simp] theorem nextReq_dropHeld (p : Held → Bool) : (s.dropHeld p).nextReq = s.nextReq := rfl
@[simp] theorem nextXfer_dropHeld (p : Held → Bool) : (s.dropHeld p).nextXfer = s.nextXfer := rfl
@[simp] theorem stepNum_dropHeld (p : Held → Bool) : (s.dropHeld p).stepNum = s.stepNum := rfl
@[simp] theorem mapMem_dropHeld (p : Held → Bool) : (s.dropHeld p).mapMem = s.mapMem := rfl
@[simp] theorem freeBanks_dropHeld (p : Held → Bool) : (s.dropHeld p).freeBanks = s.freeBanks := rfl
@[simp] theorem corrected_dropHeld (p : Held → Bool) : (s.dropHeld p).corrected = s.corrected := rfl
@[simp] theorem causes_dropHeld (p : Held → Bool) : (s.dropHeld p).causes = s.causes := rfl
@[simp] theorem frame_dropHeld (p : Held → Bool) : (s.dropHeld p).frame = s.frame := rfl
@[simp] theorem msdo_dropHeld (p : Held → Bool) : (s.dropHeld p).msdo = s.msdo := rfl
@[simp] theorem upstreamOut_dropHeld (p : Held → Bool) : (s.dropHeld p).upstreamOut = s.upstreamOut := rfl
@[simp] theorem downstreamOut_dropHeld (p : Held → Bool) : (s.dropHeld p).downstreamOut = s.downstreamOut := rfl
@[simp] theorem streams_dropHeld (p : Held → Bool) : (s.dropHeld p).streams = s.streams := rfl

/-! ### `State.leave` -/

@[simp] theorem pending_leave (id : Nat) : (s.leave id).pending = s.pending := rfl
@[simp] theorem mode_leave (id : Nat) : (s.leave id).mode = s.mode := rfl
@[simp] theorem partState_leave (id : Nat) : (s.leave id).partState = s.partState := rfl
@[simp] theorem clearing_leave (id : Nat) : (s.leave id).clearing = s.clearing := rfl
@[simp] theorem refCount_leave (id : Nat) : (s.leave id).refCount = s.refCount := rfl
@[simp] theorem tagOrder_leave (id : Nat) : (s.leave id).tagOrder = s.tagOrder := rfl
@[simp] theorem deliverable_leave (id : Nat) : (s.leave id).deliverable = s.deliverable := rfl
@[simp] theorem reads_leave (id : Nat) : (s.leave id).reads = s.reads := rfl
@[simp] theorem entries_leave (id : Nat) : (s.leave id).entries = s.entries := rfl
@[simp] theorem lastWrite_leave (id : Nat) : (s.leave id).lastWrite = s.lastWrite := rfl
@[simp] theorem divider_leave (id : Nat) : (s.leave id).divider = s.divider := rfl
@[simp] theorem ageLimit_leave (id : Nat) : (s.leave id).ageLimit = s.ageLimit := rfl
@[simp] theorem commits_leave (id : Nat) : (s.leave id).commits = s.commits := rfl
@[simp] theorem migrations_leave (id : Nat) : (s.leave id).migrations = s.migrations := rfl
@[simp] theorem passClass_leave (id : Nat) : (s.leave id).passClass = s.passClass := rfl
@[simp] theorem internal_leave (id : Nat) : (s.leave id).internal = s.internal := rfl
@[simp] theorem lastGranted_leave (id : Nat) : (s.leave id).lastGranted = s.lastGranted := rfl
@[simp] theorem nextReq_leave (id : Nat) : (s.leave id).nextReq = s.nextReq := rfl
@[simp] theorem nextXfer_leave (id : Nat) : (s.leave id).nextXfer = s.nextXfer := rfl
@[simp] theorem stepNum_leave (id : Nat) : (s.leave id).stepNum = s.stepNum := rfl
@[simp] theorem mapMem_leave (id : Nat) : (s.leave id).mapMem = s.mapMem := rfl
@[simp] theorem freeBanks_leave (id : Nat) : (s.leave id).freeBanks = s.freeBanks := rfl
@[simp] theorem corrected_leave (id : Nat) : (s.leave id).corrected = s.corrected := rfl
@[simp] theorem causes_leave (id : Nat) : (s.leave id).causes = s.causes := rfl
@[simp] theorem frame_leave (id : Nat) : (s.leave id).frame = s.frame := rfl
@[simp] theorem msdo_leave (id : Nat) : (s.leave id).msdo = s.msdo := rfl
@[simp] theorem upstreamOut_leave (id : Nat) : (s.leave id).upstreamOut = s.upstreamOut := rfl
@[simp] theorem downstreamOut_leave (id : Nat) : (s.leave id).downstreamOut = s.downstreamOut := rfl
@[simp] theorem streams_leave (id : Nat) : (s.leave id).streams = s.streams := rfl



/-! ### `State.freeEntriesWhere` -/

@[simp] theorem pending_freeEntriesWhere (p : Entry → Bool) : (s.freeEntriesWhere p).pending = s.pending := rfl
@[simp] theorem mode_freeEntriesWhere (p : Entry → Bool) : (s.freeEntriesWhere p).mode = s.mode := rfl
@[simp] theorem partState_freeEntriesWhere (p : Entry → Bool) : (s.freeEntriesWhere p).partState = s.partState := rfl
@[simp] theorem clearing_freeEntriesWhere (p : Entry → Bool) : (s.freeEntriesWhere p).clearing = s.clearing := rfl
@[simp] theorem refCount_freeEntriesWhere (p : Entry → Bool) : (s.freeEntriesWhere p).refCount = s.refCount := rfl
@[simp] theorem tagOrder_freeEntriesWhere (p : Entry → Bool) : (s.freeEntriesWhere p).tagOrder = s.tagOrder := rfl
@[simp] theorem deliverable_freeEntriesWhere (p : Entry → Bool) : (s.freeEntriesWhere p).deliverable = s.deliverable := rfl
@[simp] theorem reads_freeEntriesWhere (p : Entry → Bool) : (s.freeEntriesWhere p).reads = s.reads := rfl
@[simp] theorem divider_freeEntriesWhere (p : Entry → Bool) : (s.freeEntriesWhere p).divider = s.divider := rfl
@[simp] theorem ageLimit_freeEntriesWhere (p : Entry → Bool) : (s.freeEntriesWhere p).ageLimit = s.ageLimit := rfl
@[simp] theorem commits_freeEntriesWhere (p : Entry → Bool) : (s.freeEntriesWhere p).commits = s.commits := rfl
@[simp] theorem migrations_freeEntriesWhere (p : Entry → Bool) : (s.freeEntriesWhere p).migrations = s.migrations := rfl
@[simp] theorem passClass_freeEntriesWhere (p : Entry → Bool) : (s.freeEntriesWhere p).passClass = s.passClass := rfl
@[simp] theorem internal_freeEntriesWhere (p : Entry → Bool) : (s.freeEntriesWhere p).internal = s.internal := rfl
@[simp] theorem lastGranted_freeEntriesWhere (p : Entry → Bool) : (s.freeEntriesWhere p).lastGranted = s.lastGranted := rfl
@[simp] theorem nextReq_freeEntriesWhere (p : Entry → Bool) : (s.freeEntriesWhere p).nextReq = s.nextReq := rfl
@[simp] theorem nextXfer_freeEntriesWhere (p : Entry → Bool) : (s.freeEntriesWhere p).nextXfer = s.nextXfer := rfl
@[simp] theorem stepNum_freeEntriesWhere (p : Entry → Bool) : (s.freeEntriesWhere p).stepNum = s.stepNum := rfl
@[simp] theorem mapMem_freeEntriesWhere (p : Entry → Bool) : (s.freeEntriesWhere p).mapMem = s.mapMem := rfl
@[simp] theorem freeBanks_freeEntriesWhere (p : Entry → Bool) : (s.freeEntriesWhere p).freeBanks = s.freeBanks := rfl
@[simp] theorem corrected_freeEntriesWhere (p : Entry → Bool) : (s.freeEntriesWhere p).corrected = s.corrected := rfl
@[simp] theorem causes_freeEntriesWhere (p : Entry → Bool) : (s.freeEntriesWhere p).causes = s.causes := rfl
@[simp] theorem frame_freeEntriesWhere (p : Entry → Bool) : (s.freeEntriesWhere p).frame = s.frame := rfl
@[simp] theorem msdo_freeEntriesWhere (p : Entry → Bool) : (s.freeEntriesWhere p).msdo = s.msdo := rfl
@[simp] theorem upstreamOut_freeEntriesWhere (p : Entry → Bool) : (s.freeEntriesWhere p).upstreamOut = s.upstreamOut := rfl
@[simp] theorem downstreamOut_freeEntriesWhere (p : Entry → Bool) : (s.freeEntriesWhere p).downstreamOut = s.downstreamOut := rfl
@[simp] theorem streams_freeEntriesWhere (p : Entry → Bool) : (s.freeEntriesWhere p).streams = s.streams := rfl

/-! ### `State.handInternal` -/

@[simp] theorem pending_handInternal (o : Owner) (ws : List Wire) : (s.handInternal o ws).pending = s.pending := rfl
@[simp] theorem mode_handInternal (o : Owner) (ws : List Wire) : (s.handInternal o ws).mode = s.mode := rfl
@[simp] theorem partState_handInternal (o : Owner) (ws : List Wire) : (s.handInternal o ws).partState = s.partState := rfl
@[simp] theorem clearing_handInternal (o : Owner) (ws : List Wire) : (s.handInternal o ws).clearing = s.clearing := rfl
@[simp] theorem refCount_handInternal (o : Owner) (ws : List Wire) : (s.handInternal o ws).refCount = s.refCount := rfl
@[simp] theorem tagOrder_handInternal (o : Owner) (ws : List Wire) : (s.handInternal o ws).tagOrder = s.tagOrder := rfl
@[simp] theorem deliverable_handInternal (o : Owner) (ws : List Wire) : (s.handInternal o ws).deliverable = s.deliverable := rfl
@[simp] theorem holdQ_handInternal (o : Owner) (ws : List Wire) : (s.handInternal o ws).holdQ = s.holdQ := rfl
@[simp] theorem reads_handInternal (o : Owner) (ws : List Wire) : (s.handInternal o ws).reads = s.reads := rfl
@[simp] theorem entries_handInternal (o : Owner) (ws : List Wire) : (s.handInternal o ws).entries = s.entries := rfl
@[simp] theorem lastWrite_handInternal (o : Owner) (ws : List Wire) : (s.handInternal o ws).lastWrite = s.lastWrite := rfl
@[simp] theorem divider_handInternal (o : Owner) (ws : List Wire) : (s.handInternal o ws).divider = s.divider := rfl
@[simp] theorem ageLimit_handInternal (o : Owner) (ws : List Wire) : (s.handInternal o ws).ageLimit = s.ageLimit := rfl
@[simp] theorem commits_handInternal (o : Owner) (ws : List Wire) : (s.handInternal o ws).commits = s.commits := rfl
@[simp] theorem migrations_handInternal (o : Owner) (ws : List Wire) : (s.handInternal o ws).migrations = s.migrations := rfl
@[simp] theorem passClass_handInternal (o : Owner) (ws : List Wire) : (s.handInternal o ws).passClass = s.passClass := rfl
@[simp] theorem lastGranted_handInternal (o : Owner) (ws : List Wire) : (s.handInternal o ws).lastGranted = s.lastGranted := rfl
@[simp] theorem nextReq_handInternal (o : Owner) (ws : List Wire) : (s.handInternal o ws).nextReq = s.nextReq := rfl
@[simp] theorem stepNum_handInternal (o : Owner) (ws : List Wire) : (s.handInternal o ws).stepNum = s.stepNum := rfl
@[simp] theorem mapMem_handInternal (o : Owner) (ws : List Wire) : (s.handInternal o ws).mapMem = s.mapMem := rfl
@[simp] theorem freeBanks_handInternal (o : Owner) (ws : List Wire) : (s.handInternal o ws).freeBanks = s.freeBanks := rfl
@[simp] theorem corrected_handInternal (o : Owner) (ws : List Wire) : (s.handInternal o ws).corrected = s.corrected := rfl
@[simp] theorem causes_handInternal (o : Owner) (ws : List Wire) : (s.handInternal o ws).causes = s.causes := rfl
@[simp] theorem frame_handInternal (o : Owner) (ws : List Wire) : (s.handInternal o ws).frame = s.frame := rfl
@[simp] theorem msdo_handInternal (o : Owner) (ws : List Wire) : (s.handInternal o ws).msdo = s.msdo := rfl
@[simp] theorem upstreamOut_handInternal (o : Owner) (ws : List Wire) : (s.handInternal o ws).upstreamOut = s.upstreamOut := rfl
@[simp] theorem downstreamOut_handInternal (o : Owner) (ws : List Wire) : (s.handInternal o ws).downstreamOut = s.downstreamOut := rfl
@[simp] theorem streams_handInternal (o : Owner) (ws : List Wire) : (s.handInternal o ws).streams = s.streams := rfl

/-! ### `State.handPass` -/

@[simp] theorem pending_handPass (o : Owner) (w : Wire) : (s.handPass o w).pending = s.pending := rfl
@[simp] theorem mode_handPass (o : Owner) (w : Wire) : (s.handPass o w).mode = s.mode := rfl
@[simp] theorem partState_handPass (o : Owner) (w : Wire) : (s.handPass o w).partState = s.partState := rfl
@[simp] theorem clearing_handPass (o : Owner) (w : Wire) : (s.handPass o w).clearing = s.clearing := rfl
@[simp] theorem refCount_handPass (o : Owner) (w : Wire) : (s.handPass o w).refCount = s.refCount := rfl
@[simp] theorem tagOrder_handPass (o : Owner) (w : Wire) : (s.handPass o w).tagOrder = s.tagOrder := rfl
@[simp] theorem deliverable_handPass (o : Owner) (w : Wire) : (s.handPass o w).deliverable = s.deliverable := rfl
@[simp] theorem holdQ_handPass (o : Owner) (w : Wire) : (s.handPass o w).holdQ = s.holdQ := rfl
@[simp] theorem reads_handPass (o : Owner) (w : Wire) : (s.handPass o w).reads = s.reads := rfl
@[simp] theorem entries_handPass (o : Owner) (w : Wire) : (s.handPass o w).entries = s.entries := rfl
@[simp] theorem lastWrite_handPass (o : Owner) (w : Wire) : (s.handPass o w).lastWrite = s.lastWrite := rfl
@[simp] theorem divider_handPass (o : Owner) (w : Wire) : (s.handPass o w).divider = s.divider := rfl
@[simp] theorem ageLimit_handPass (o : Owner) (w : Wire) : (s.handPass o w).ageLimit = s.ageLimit := rfl
@[simp] theorem commits_handPass (o : Owner) (w : Wire) : (s.handPass o w).commits = s.commits := rfl
@[simp] theorem migrations_handPass (o : Owner) (w : Wire) : (s.handPass o w).migrations = s.migrations := rfl
@[simp] theorem internal_handPass (o : Owner) (w : Wire) : (s.handPass o w).internal = s.internal := rfl
@[simp] theorem lastGranted_handPass (o : Owner) (w : Wire) : (s.handPass o w).lastGranted = s.lastGranted := rfl
@[simp] theorem nextReq_handPass (o : Owner) (w : Wire) : (s.handPass o w).nextReq = s.nextReq := rfl
@[simp] theorem stepNum_handPass (o : Owner) (w : Wire) : (s.handPass o w).stepNum = s.stepNum := rfl
@[simp] theorem mapMem_handPass (o : Owner) (w : Wire) : (s.handPass o w).mapMem = s.mapMem := rfl
@[simp] theorem freeBanks_handPass (o : Owner) (w : Wire) : (s.handPass o w).freeBanks = s.freeBanks := rfl
@[simp] theorem corrected_handPass (o : Owner) (w : Wire) : (s.handPass o w).corrected = s.corrected := rfl
@[simp] theorem causes_handPass (o : Owner) (w : Wire) : (s.handPass o w).causes = s.causes := rfl
@[simp] theorem frame_handPass (o : Owner) (w : Wire) : (s.handPass o w).frame = s.frame := rfl
@[simp] theorem msdo_handPass (o : Owner) (w : Wire) : (s.handPass o w).msdo = s.msdo := rfl
@[simp] theorem upstreamOut_handPass (o : Owner) (w : Wire) : (s.handPass o w).upstreamOut = s.upstreamOut := rfl
@[simp] theorem downstreamOut_handPass (o : Owner) (w : Wire) : (s.handPass o w).downstreamOut = s.downstreamOut := rfl
@[simp] theorem streams_handPass (o : Owner) (w : Wire) : (s.handPass o w).streams = s.streams := rfl

/-! ### `State.dropInternal` -/

@[simp] theorem pending_dropInternal (id : Nat) : (s.dropInternal id).pending = s.pending := rfl
@[simp] theorem mode_dropInternal (id : Nat) : (s.dropInternal id).mode = s.mode := rfl
@[simp] theorem partState_dropInternal (id : Nat) : (s.dropInternal id).partState = s.partState := rfl
@[simp] theorem clearing_dropInternal (id : Nat) : (s.dropInternal id).clearing = s.clearing := rfl
@[simp] theorem refCount_dropInternal (id : Nat) : (s.dropInternal id).refCount = s.refCount := rfl
@[simp] theorem tagOrder_dropInternal (id : Nat) : (s.dropInternal id).tagOrder = s.tagOrder := rfl
@[simp] theorem deliverable_dropInternal (id : Nat) : (s.dropInternal id).deliverable = s.deliverable := rfl
@[simp] theorem holdQ_dropInternal (id : Nat) : (s.dropInternal id).holdQ = s.holdQ := rfl
@[simp] theorem reads_dropInternal (id : Nat) : (s.dropInternal id).reads = s.reads := rfl
@[simp] theorem entries_dropInternal (id : Nat) : (s.dropInternal id).entries = s.entries := rfl
@[simp] theorem lastWrite_dropInternal (id : Nat) : (s.dropInternal id).lastWrite = s.lastWrite := rfl
@[simp] theorem divider_dropInternal (id : Nat) : (s.dropInternal id).divider = s.divider := rfl
@[simp] theorem ageLimit_dropInternal (id : Nat) : (s.dropInternal id).ageLimit = s.ageLimit := rfl
@[simp] theorem commits_dropInternal (id : Nat) : (s.dropInternal id).commits = s.commits := rfl
@[simp] theorem migrations_dropInternal (id : Nat) : (s.dropInternal id).migrations = s.migrations := rfl
@[simp] theorem passClass_dropInternal (id : Nat) : (s.dropInternal id).passClass = s.passClass := rfl
@[simp] theorem lastGranted_dropInternal (id : Nat) : (s.dropInternal id).lastGranted = s.lastGranted := rfl
@[simp] theorem nextReq_dropInternal (id : Nat) : (s.dropInternal id).nextReq = s.nextReq := rfl
@[simp] theorem nextXfer_dropInternal (id : Nat) : (s.dropInternal id).nextXfer = s.nextXfer := rfl
@[simp] theorem stepNum_dropInternal (id : Nat) : (s.dropInternal id).stepNum = s.stepNum := rfl
@[simp] theorem mapMem_dropInternal (id : Nat) : (s.dropInternal id).mapMem = s.mapMem := rfl
@[simp] theorem freeBanks_dropInternal (id : Nat) : (s.dropInternal id).freeBanks = s.freeBanks := rfl
@[simp] theorem corrected_dropInternal (id : Nat) : (s.dropInternal id).corrected = s.corrected := rfl
@[simp] theorem causes_dropInternal (id : Nat) : (s.dropInternal id).causes = s.causes := rfl
@[simp] theorem frame_dropInternal (id : Nat) : (s.dropInternal id).frame = s.frame := rfl
@[simp] theorem msdo_dropInternal (id : Nat) : (s.dropInternal id).msdo = s.msdo := rfl
@[simp] theorem upstreamOut_dropInternal (id : Nat) : (s.dropInternal id).upstreamOut = s.upstreamOut := rfl
@[simp] theorem downstreamOut_dropInternal (id : Nat) : (s.dropInternal id).downstreamOut = s.downstreamOut := rfl
@[simp] theorem streams_dropInternal (id : Nat) : (s.dropInternal id).streams = s.streams := rfl

/-! ### `State.dropPass` -/

@[simp] theorem pending_dropPass (id : Nat) : (s.dropPass id).pending = s.pending := rfl
@[simp] theorem mode_dropPass (id : Nat) : (s.dropPass id).mode = s.mode := rfl
@[simp] theorem partState_dropPass (id : Nat) : (s.dropPass id).partState = s.partState := rfl
@[simp] theorem clearing_dropPass (id : Nat) : (s.dropPass id).clearing = s.clearing := rfl
@[simp] theorem refCount_dropPass (id : Nat) : (s.dropPass id).refCount = s.refCount := rfl
@[simp] theorem tagOrder_dropPass (id : Nat) : (s.dropPass id).tagOrder = s.tagOrder := rfl
@[simp] theorem deliverable_dropPass (id : Nat) : (s.dropPass id).deliverable = s.deliverable := rfl
@[simp] theorem holdQ_dropPass (id : Nat) : (s.dropPass id).holdQ = s.holdQ := rfl
@[simp] theorem reads_dropPass (id : Nat) : (s.dropPass id).reads = s.reads := rfl
@[simp] theorem entries_dropPass (id : Nat) : (s.dropPass id).entries = s.entries := rfl
@[simp] theorem lastWrite_dropPass (id : Nat) : (s.dropPass id).lastWrite = s.lastWrite := rfl
@[simp] theorem divider_dropPass (id : Nat) : (s.dropPass id).divider = s.divider := rfl
@[simp] theorem ageLimit_dropPass (id : Nat) : (s.dropPass id).ageLimit = s.ageLimit := rfl
@[simp] theorem commits_dropPass (id : Nat) : (s.dropPass id).commits = s.commits := rfl
@[simp] theorem migrations_dropPass (id : Nat) : (s.dropPass id).migrations = s.migrations := rfl
@[simp] theorem internal_dropPass (id : Nat) : (s.dropPass id).internal = s.internal := rfl
@[simp] theorem lastGranted_dropPass (id : Nat) : (s.dropPass id).lastGranted = s.lastGranted := rfl
@[simp] theorem nextReq_dropPass (id : Nat) : (s.dropPass id).nextReq = s.nextReq := rfl
@[simp] theorem nextXfer_dropPass (id : Nat) : (s.dropPass id).nextXfer = s.nextXfer := rfl
@[simp] theorem stepNum_dropPass (id : Nat) : (s.dropPass id).stepNum = s.stepNum := rfl
@[simp] theorem mapMem_dropPass (id : Nat) : (s.dropPass id).mapMem = s.mapMem := rfl
@[simp] theorem freeBanks_dropPass (id : Nat) : (s.dropPass id).freeBanks = s.freeBanks := rfl
@[simp] theorem corrected_dropPass (id : Nat) : (s.dropPass id).corrected = s.corrected := rfl
@[simp] theorem causes_dropPass (id : Nat) : (s.dropPass id).causes = s.causes := rfl
@[simp] theorem frame_dropPass (id : Nat) : (s.dropPass id).frame = s.frame := rfl
@[simp] theorem msdo_dropPass (id : Nat) : (s.dropPass id).msdo = s.msdo := rfl
@[simp] theorem upstreamOut_dropPass (id : Nat) : (s.dropPass id).upstreamOut = s.upstreamOut := rfl
@[simp] theorem downstreamOut_dropPass (id : Nat) : (s.dropPass id).downstreamOut = s.downstreamOut := rfl
@[simp] theorem streams_dropPass (id : Nat) : (s.dropPass id).streams = s.streams := rfl

/-! ### `State.writeCell` -/

@[simp] theorem pending_writeCell (st : StreamId) (c : Nat) (v : CellVal) : (s.writeCell st c v).pending = s.pending := rfl
@[simp] theorem mode_writeCell (st : StreamId) (c : Nat) (v : CellVal) : (s.writeCell st c v).mode = s.mode := rfl
@[simp] theorem partState_writeCell (st : StreamId) (c : Nat) (v : CellVal) : (s.writeCell st c v).partState = s.partState := rfl
@[simp] theorem clearing_writeCell (st : StreamId) (c : Nat) (v : CellVal) : (s.writeCell st c v).clearing = s.clearing := rfl
@[simp] theorem refCount_writeCell (st : StreamId) (c : Nat) (v : CellVal) : (s.writeCell st c v).refCount = s.refCount := rfl
@[simp] theorem tagOrder_writeCell (st : StreamId) (c : Nat) (v : CellVal) : (s.writeCell st c v).tagOrder = s.tagOrder := rfl
@[simp] theorem deliverable_writeCell (st : StreamId) (c : Nat) (v : CellVal) : (s.writeCell st c v).deliverable = s.deliverable := rfl
@[simp] theorem holdQ_writeCell (st : StreamId) (c : Nat) (v : CellVal) : (s.writeCell st c v).holdQ = s.holdQ := rfl
@[simp] theorem reads_writeCell (st : StreamId) (c : Nat) (v : CellVal) : (s.writeCell st c v).reads = s.reads := rfl
@[simp] theorem entries_writeCell (st : StreamId) (c : Nat) (v : CellVal) : (s.writeCell st c v).entries = s.entries := rfl
@[simp] theorem lastWrite_writeCell (st : StreamId) (c : Nat) (v : CellVal) : (s.writeCell st c v).lastWrite = s.lastWrite := rfl
@[simp] theorem divider_writeCell (st : StreamId) (c : Nat) (v : CellVal) : (s.writeCell st c v).divider = s.divider := rfl
@[simp] theorem ageLimit_writeCell (st : StreamId) (c : Nat) (v : CellVal) : (s.writeCell st c v).ageLimit = s.ageLimit := rfl
@[simp] theorem commits_writeCell (st : StreamId) (c : Nat) (v : CellVal) : (s.writeCell st c v).commits = s.commits := rfl
@[simp] theorem migrations_writeCell (st : StreamId) (c : Nat) (v : CellVal) : (s.writeCell st c v).migrations = s.migrations := rfl
@[simp] theorem passClass_writeCell (st : StreamId) (c : Nat) (v : CellVal) : (s.writeCell st c v).passClass = s.passClass := rfl
@[simp] theorem internal_writeCell (st : StreamId) (c : Nat) (v : CellVal) : (s.writeCell st c v).internal = s.internal := rfl
@[simp] theorem lastGranted_writeCell (st : StreamId) (c : Nat) (v : CellVal) : (s.writeCell st c v).lastGranted = s.lastGranted := rfl
@[simp] theorem nextReq_writeCell (st : StreamId) (c : Nat) (v : CellVal) : (s.writeCell st c v).nextReq = s.nextReq := rfl
@[simp] theorem nextXfer_writeCell (st : StreamId) (c : Nat) (v : CellVal) : (s.writeCell st c v).nextXfer = s.nextXfer := rfl
@[simp] theorem stepNum_writeCell (st : StreamId) (c : Nat) (v : CellVal) : (s.writeCell st c v).stepNum = s.stepNum := rfl
@[simp] theorem freeBanks_writeCell (st : StreamId) (c : Nat) (v : CellVal) : (s.writeCell st c v).freeBanks = s.freeBanks := rfl
@[simp] theorem corrected_writeCell (st : StreamId) (c : Nat) (v : CellVal) : (s.writeCell st c v).corrected = s.corrected := rfl
@[simp] theorem causes_writeCell (st : StreamId) (c : Nat) (v : CellVal) : (s.writeCell st c v).causes = s.causes := rfl
@[simp] theorem frame_writeCell (st : StreamId) (c : Nat) (v : CellVal) : (s.writeCell st c v).frame = s.frame := rfl
@[simp] theorem msdo_writeCell (st : StreamId) (c : Nat) (v : CellVal) : (s.writeCell st c v).msdo = s.msdo := rfl
@[simp] theorem upstreamOut_writeCell (st : StreamId) (c : Nat) (v : CellVal) : (s.writeCell st c v).upstreamOut = s.upstreamOut := rfl
@[simp] theorem downstreamOut_writeCell (st : StreamId) (c : Nat) (v : CellVal) : (s.writeCell st c v).downstreamOut = s.downstreamOut := rfl
@[simp] theorem streams_writeCell (st : StreamId) (c : Nat) (v : CellVal) : (s.writeCell st c v).streams = s.streams := rfl

/-! ### `State.correctCell` -/

@[simp] theorem pending_correctCell (st : StreamId) (c : Nat) (v : CellVal) : (s.correctCell st c v).pending = s.pending := rfl
@[simp] theorem mode_correctCell (st : StreamId) (c : Nat) (v : CellVal) : (s.correctCell st c v).mode = s.mode := rfl
@[simp] theorem partState_correctCell (st : StreamId) (c : Nat) (v : CellVal) : (s.correctCell st c v).partState = s.partState := rfl
@[simp] theorem clearing_correctCell (st : StreamId) (c : Nat) (v : CellVal) : (s.correctCell st c v).clearing = s.clearing := rfl
@[simp] theorem refCount_correctCell (st : StreamId) (c : Nat) (v : CellVal) : (s.correctCell st c v).refCount = s.refCount := rfl
@[simp] theorem tagOrder_correctCell (st : StreamId) (c : Nat) (v : CellVal) : (s.correctCell st c v).tagOrder = s.tagOrder := rfl
@[simp] theorem deliverable_correctCell (st : StreamId) (c : Nat) (v : CellVal) : (s.correctCell st c v).deliverable = s.deliverable := rfl
@[simp] theorem holdQ_correctCell (st : StreamId) (c : Nat) (v : CellVal) : (s.correctCell st c v).holdQ = s.holdQ := rfl
@[simp] theorem reads_correctCell (st : StreamId) (c : Nat) (v : CellVal) : (s.correctCell st c v).reads = s.reads := rfl
@[simp] theorem entries_correctCell (st : StreamId) (c : Nat) (v : CellVal) : (s.correctCell st c v).entries = s.entries := rfl
@[simp] theorem lastWrite_correctCell (st : StreamId) (c : Nat) (v : CellVal) : (s.correctCell st c v).lastWrite = s.lastWrite := rfl
@[simp] theorem divider_correctCell (st : StreamId) (c : Nat) (v : CellVal) : (s.correctCell st c v).divider = s.divider := rfl
@[simp] theorem ageLimit_correctCell (st : StreamId) (c : Nat) (v : CellVal) : (s.correctCell st c v).ageLimit = s.ageLimit := rfl
@[simp] theorem commits_correctCell (st : StreamId) (c : Nat) (v : CellVal) : (s.correctCell st c v).commits = s.commits := rfl
@[simp] theorem migrations_correctCell (st : StreamId) (c : Nat) (v : CellVal) : (s.correctCell st c v).migrations = s.migrations := rfl
@[simp] theorem passClass_correctCell (st : StreamId) (c : Nat) (v : CellVal) : (s.correctCell st c v).passClass = s.passClass := rfl
@[simp] theorem internal_correctCell (st : StreamId) (c : Nat) (v : CellVal) : (s.correctCell st c v).internal = s.internal := rfl
@[simp] theorem lastGranted_correctCell (st : StreamId) (c : Nat) (v : CellVal) : (s.correctCell st c v).lastGranted = s.lastGranted := rfl
@[simp] theorem nextReq_correctCell (st : StreamId) (c : Nat) (v : CellVal) : (s.correctCell st c v).nextReq = s.nextReq := rfl
@[simp] theorem nextXfer_correctCell (st : StreamId) (c : Nat) (v : CellVal) : (s.correctCell st c v).nextXfer = s.nextXfer := rfl
@[simp] theorem stepNum_correctCell (st : StreamId) (c : Nat) (v : CellVal) : (s.correctCell st c v).stepNum = s.stepNum := rfl
@[simp] theorem freeBanks_correctCell (st : StreamId) (c : Nat) (v : CellVal) : (s.correctCell st c v).freeBanks = s.freeBanks := rfl
@[simp] theorem frame_correctCell (st : StreamId) (c : Nat) (v : CellVal) : (s.correctCell st c v).frame = s.frame := rfl
@[simp] theorem msdo_correctCell (st : StreamId) (c : Nat) (v : CellVal) : (s.correctCell st c v).msdo = s.msdo := rfl
@[simp] theorem upstreamOut_correctCell (st : StreamId) (c : Nat) (v : CellVal) : (s.correctCell st c v).upstreamOut = s.upstreamOut := rfl
@[simp] theorem downstreamOut_correctCell (st : StreamId) (c : Nat) (v : CellVal) : (s.correctCell st c v).downstreamOut = s.downstreamOut := rfl
@[simp] theorem streams_correctCell (st : StreamId) (c : Nat) (v : CellVal) : (s.correctCell st c v).streams = s.streams := rfl

/-! ### `State.updateCommit` -/

@[simp] theorem pending_updateCommit (st : StreamId) (pos : Nat) (f : Commit → Commit) : (s.updateCommit st pos f).pending = s.pending := rfl
@[simp] theorem mode_updateCommit (st : StreamId) (pos : Nat) (f : Commit → Commit) : (s.updateCommit st pos f).mode = s.mode := rfl
@[simp] theorem partState_updateCommit (st : StreamId) (pos : Nat) (f : Commit → Commit) : (s.updateCommit st pos f).partState = s.partState := rfl
@[simp] theorem clearing_updateCommit (st : StreamId) (pos : Nat) (f : Commit → Commit) : (s.updateCommit st pos f).clearing = s.clearing := rfl
@[simp] theorem refCount_updateCommit (st : StreamId) (pos : Nat) (f : Commit → Commit) : (s.updateCommit st pos f).refCount = s.refCount := rfl
@[simp] theorem tagOrder_updateCommit (st : StreamId) (pos : Nat) (f : Commit → Commit) : (s.updateCommit st pos f).tagOrder = s.tagOrder := rfl
@[simp] theorem deliverable_updateCommit (st : StreamId) (pos : Nat) (f : Commit → Commit) : (s.updateCommit st pos f).deliverable = s.deliverable := rfl
@[simp] theorem holdQ_updateCommit (st : StreamId) (pos : Nat) (f : Commit → Commit) : (s.updateCommit st pos f).holdQ = s.holdQ := rfl
@[simp] theorem reads_updateCommit (st : StreamId) (pos : Nat) (f : Commit → Commit) : (s.updateCommit st pos f).reads = s.reads := rfl
@[simp] theorem entries_updateCommit (st : StreamId) (pos : Nat) (f : Commit → Commit) : (s.updateCommit st pos f).entries = s.entries := rfl
@[simp] theorem lastWrite_updateCommit (st : StreamId) (pos : Nat) (f : Commit → Commit) : (s.updateCommit st pos f).lastWrite = s.lastWrite := rfl
@[simp] theorem divider_updateCommit (st : StreamId) (pos : Nat) (f : Commit → Commit) : (s.updateCommit st pos f).divider = s.divider := rfl
@[simp] theorem ageLimit_updateCommit (st : StreamId) (pos : Nat) (f : Commit → Commit) : (s.updateCommit st pos f).ageLimit = s.ageLimit := rfl
@[simp] theorem migrations_updateCommit (st : StreamId) (pos : Nat) (f : Commit → Commit) : (s.updateCommit st pos f).migrations = s.migrations := rfl
@[simp] theorem passClass_updateCommit (st : StreamId) (pos : Nat) (f : Commit → Commit) : (s.updateCommit st pos f).passClass = s.passClass := rfl
@[simp] theorem internal_updateCommit (st : StreamId) (pos : Nat) (f : Commit → Commit) : (s.updateCommit st pos f).internal = s.internal := rfl
@[simp] theorem lastGranted_updateCommit (st : StreamId) (pos : Nat) (f : Commit → Commit) : (s.updateCommit st pos f).lastGranted = s.lastGranted := rfl
@[simp] theorem nextReq_updateCommit (st : StreamId) (pos : Nat) (f : Commit → Commit) : (s.updateCommit st pos f).nextReq = s.nextReq := rfl
@[simp] theorem nextXfer_updateCommit (st : StreamId) (pos : Nat) (f : Commit → Commit) : (s.updateCommit st pos f).nextXfer = s.nextXfer := rfl
@[simp] theorem stepNum_updateCommit (st : StreamId) (pos : Nat) (f : Commit → Commit) : (s.updateCommit st pos f).stepNum = s.stepNum := rfl
@[simp] theorem mapMem_updateCommit (st : StreamId) (pos : Nat) (f : Commit → Commit) : (s.updateCommit st pos f).mapMem = s.mapMem := rfl
@[simp] theorem freeBanks_updateCommit (st : StreamId) (pos : Nat) (f : Commit → Commit) : (s.updateCommit st pos f).freeBanks = s.freeBanks := rfl
@[simp] theorem corrected_updateCommit (st : StreamId) (pos : Nat) (f : Commit → Commit) : (s.updateCommit st pos f).corrected = s.corrected := rfl
@[simp] theorem causes_updateCommit (st : StreamId) (pos : Nat) (f : Commit → Commit) : (s.updateCommit st pos f).causes = s.causes := rfl
@[simp] theorem frame_updateCommit (st : StreamId) (pos : Nat) (f : Commit → Commit) : (s.updateCommit st pos f).frame = s.frame := rfl
@[simp] theorem msdo_updateCommit (st : StreamId) (pos : Nat) (f : Commit → Commit) : (s.updateCommit st pos f).msdo = s.msdo := rfl
@[simp] theorem upstreamOut_updateCommit (st : StreamId) (pos : Nat) (f : Commit → Commit) : (s.updateCommit st pos f).upstreamOut = s.upstreamOut := rfl
@[simp] theorem downstreamOut_updateCommit (st : StreamId) (pos : Nat) (f : Commit → Commit) : (s.updateCommit st pos f).downstreamOut = s.downstreamOut := rfl
@[simp] theorem streams_updateCommit (st : StreamId) (pos : Nat) (f : Commit → Commit) : (s.updateCommit st pos f).streams = s.streams := rfl

/-! ### `State.updateMigration` -/

@[simp] theorem pending_updateMigration (st : StreamId) (pos : Nat) (f : Migration → Migration) : (s.updateMigration st pos f).pending = s.pending := rfl
@[simp] theorem mode_updateMigration (st : StreamId) (pos : Nat) (f : Migration → Migration) : (s.updateMigration st pos f).mode = s.mode := rfl
@[simp] theorem partState_updateMigration (st : StreamId) (pos : Nat) (f : Migration → Migration) : (s.updateMigration st pos f).partState = s.partState := rfl
@[simp] theorem clearing_updateMigration (st : StreamId) (pos : Nat) (f : Migration → Migration) : (s.updateMigration st pos f).clearing = s.clearing := rfl
@[simp] theorem refCount_updateMigration (st : StreamId) (pos : Nat) (f : Migration → Migration) : (s.updateMigration st pos f).refCount = s.refCount := rfl
@[simp] theorem tagOrder_updateMigration (st : StreamId) (pos : Nat) (f : Migration → Migration) : (s.updateMigration st pos f).tagOrder = s.tagOrder := rfl
@[simp] theorem deliverable_updateMigration (st : StreamId) (pos : Nat) (f : Migration → Migration) : (s.updateMigration st pos f).deliverable = s.deliverable := rfl
@[simp] theorem holdQ_updateMigration (st : StreamId) (pos : Nat) (f : Migration → Migration) : (s.updateMigration st pos f).holdQ = s.holdQ := rfl
@[simp] theorem reads_updateMigration (st : StreamId) (pos : Nat) (f : Migration → Migration) : (s.updateMigration st pos f).reads = s.reads := rfl
@[simp] theorem entries_updateMigration (st : StreamId) (pos : Nat) (f : Migration → Migration) : (s.updateMigration st pos f).entries = s.entries := rfl
@[simp] theorem lastWrite_updateMigration (st : StreamId) (pos : Nat) (f : Migration → Migration) : (s.updateMigration st pos f).lastWrite = s.lastWrite := rfl
@[simp] theorem divider_updateMigration (st : StreamId) (pos : Nat) (f : Migration → Migration) : (s.updateMigration st pos f).divider = s.divider := rfl
@[simp] theorem ageLimit_updateMigration (st : StreamId) (pos : Nat) (f : Migration → Migration) : (s.updateMigration st pos f).ageLimit = s.ageLimit := rfl
@[simp] theorem commits_updateMigration (st : StreamId) (pos : Nat) (f : Migration → Migration) : (s.updateMigration st pos f).commits = s.commits := rfl
@[simp] theorem passClass_updateMigration (st : StreamId) (pos : Nat) (f : Migration → Migration) : (s.updateMigration st pos f).passClass = s.passClass := rfl
@[simp] theorem internal_updateMigration (st : StreamId) (pos : Nat) (f : Migration → Migration) : (s.updateMigration st pos f).internal = s.internal := rfl
@[simp] theorem lastGranted_updateMigration (st : StreamId) (pos : Nat) (f : Migration → Migration) : (s.updateMigration st pos f).lastGranted = s.lastGranted := rfl
@[simp] theorem nextReq_updateMigration (st : StreamId) (pos : Nat) (f : Migration → Migration) : (s.updateMigration st pos f).nextReq = s.nextReq := rfl
@[simp] theorem nextXfer_updateMigration (st : StreamId) (pos : Nat) (f : Migration → Migration) : (s.updateMigration st pos f).nextXfer = s.nextXfer := rfl
@[simp] theorem stepNum_updateMigration (st : StreamId) (pos : Nat) (f : Migration → Migration) : (s.updateMigration st pos f).stepNum = s.stepNum := rfl
@[simp] theorem mapMem_updateMigration (st : StreamId) (pos : Nat) (f : Migration → Migration) : (s.updateMigration st pos f).mapMem = s.mapMem := rfl
@[simp] theorem freeBanks_updateMigration (st : StreamId) (pos : Nat) (f : Migration → Migration) : (s.updateMigration st pos f).freeBanks = s.freeBanks := rfl
@[simp] theorem corrected_updateMigration (st : StreamId) (pos : Nat) (f : Migration → Migration) : (s.updateMigration st pos f).corrected = s.corrected := rfl
@[simp] theorem causes_updateMigration (st : StreamId) (pos : Nat) (f : Migration → Migration) : (s.updateMigration st pos f).causes = s.causes := rfl
@[simp] theorem frame_updateMigration (st : StreamId) (pos : Nat) (f : Migration → Migration) : (s.updateMigration st pos f).frame = s.frame := rfl
@[simp] theorem msdo_updateMigration (st : StreamId) (pos : Nat) (f : Migration → Migration) : (s.updateMigration st pos f).msdo = s.msdo := rfl
@[simp] theorem upstreamOut_updateMigration (st : StreamId) (pos : Nat) (f : Migration → Migration) : (s.updateMigration st pos f).upstreamOut = s.upstreamOut := rfl
@[simp] theorem downstreamOut_updateMigration (st : StreamId) (pos : Nat) (f : Migration → Migration) : (s.updateMigration st pos f).downstreamOut = s.downstreamOut := rfl
@[simp] theorem streams_updateMigration (st : StreamId) (pos : Nat) (f : Migration → Migration) : (s.updateMigration st pos f).streams = s.streams := rfl

/-! ### `State.respond` -/

@[simp] theorem pending_respond (f : Frame) (r : CmdResult) (data : List Byte) : (s.respond f r data).pending = s.pending := rfl
@[simp] theorem mode_respond (f : Frame) (r : CmdResult) (data : List Byte) : (s.respond f r data).mode = s.mode := rfl
@[simp] theorem partState_respond (f : Frame) (r : CmdResult) (data : List Byte) : (s.respond f r data).partState = s.partState := rfl
@[simp] theorem clearing_respond (f : Frame) (r : CmdResult) (data : List Byte) : (s.respond f r data).clearing = s.clearing := rfl
@[simp] theorem refCount_respond (f : Frame) (r : CmdResult) (data : List Byte) : (s.respond f r data).refCount = s.refCount := rfl
@[simp] theorem tagOrder_respond (f : Frame) (r : CmdResult) (data : List Byte) : (s.respond f r data).tagOrder = s.tagOrder := rfl
@[simp] theorem deliverable_respond (f : Frame) (r : CmdResult) (data : List Byte) : (s.respond f r data).deliverable = s.deliverable := rfl
@[simp] theorem holdQ_respond (f : Frame) (r : CmdResult) (data : List Byte) : (s.respond f r data).holdQ = s.holdQ := rfl
@[simp] theorem reads_respond (f : Frame) (r : CmdResult) (data : List Byte) : (s.respond f r data).reads = s.reads := rfl
@[simp] theorem entries_respond (f : Frame) (r : CmdResult) (data : List Byte) : (s.respond f r data).entries = s.entries := rfl
@[simp] theorem lastWrite_respond (f : Frame) (r : CmdResult) (data : List Byte) : (s.respond f r data).lastWrite = s.lastWrite := rfl
@[simp] theorem divider_respond (f : Frame) (r : CmdResult) (data : List Byte) : (s.respond f r data).divider = s.divider := rfl
@[simp] theorem ageLimit_respond (f : Frame) (r : CmdResult) (data : List Byte) : (s.respond f r data).ageLimit = s.ageLimit := rfl
@[simp] theorem commits_respond (f : Frame) (r : CmdResult) (data : List Byte) : (s.respond f r data).commits = s.commits := rfl
@[simp] theorem migrations_respond (f : Frame) (r : CmdResult) (data : List Byte) : (s.respond f r data).migrations = s.migrations := rfl
@[simp] theorem passClass_respond (f : Frame) (r : CmdResult) (data : List Byte) : (s.respond f r data).passClass = s.passClass := rfl
@[simp] theorem internal_respond (f : Frame) (r : CmdResult) (data : List Byte) : (s.respond f r data).internal = s.internal := rfl
@[simp] theorem lastGranted_respond (f : Frame) (r : CmdResult) (data : List Byte) : (s.respond f r data).lastGranted = s.lastGranted := rfl
@[simp] theorem nextReq_respond (f : Frame) (r : CmdResult) (data : List Byte) : (s.respond f r data).nextReq = s.nextReq := rfl
@[simp] theorem nextXfer_respond (f : Frame) (r : CmdResult) (data : List Byte) : (s.respond f r data).nextXfer = s.nextXfer := rfl
@[simp] theorem stepNum_respond (f : Frame) (r : CmdResult) (data : List Byte) : (s.respond f r data).stepNum = s.stepNum := rfl
@[simp] theorem mapMem_respond (f : Frame) (r : CmdResult) (data : List Byte) : (s.respond f r data).mapMem = s.mapMem := rfl
@[simp] theorem freeBanks_respond (f : Frame) (r : CmdResult) (data : List Byte) : (s.respond f r data).freeBanks = s.freeBanks := rfl
@[simp] theorem corrected_respond (f : Frame) (r : CmdResult) (data : List Byte) : (s.respond f r data).corrected = s.corrected := rfl
@[simp] theorem causes_respond (f : Frame) (r : CmdResult) (data : List Byte) : (s.respond f r data).causes = s.causes := rfl
@[simp] theorem msdo_respond (f : Frame) (r : CmdResult) (data : List Byte) : (s.respond f r data).msdo = s.msdo := rfl
@[simp] theorem upstreamOut_respond (f : Frame) (r : CmdResult) (data : List Byte) : (s.respond f r data).upstreamOut = s.upstreamOut := rfl
@[simp] theorem downstreamOut_respond (f : Frame) (r : CmdResult) (data : List Byte) : (s.respond f r data).downstreamOut = s.downstreamOut := rfl
@[simp] theorem streams_respond (f : Frame) (r : CmdResult) (data : List Byte) : (s.respond f r data).streams = s.streams := rfl

/-! ### `State.endStep` -/

@[simp] theorem pending_endStep : s.endStep.pending = s.pending := rfl
@[simp] theorem mode_endStep : s.endStep.mode = s.mode := rfl
@[simp] theorem partState_endStep : s.endStep.partState = s.partState := rfl
@[simp] theorem clearing_endStep : s.endStep.clearing = s.clearing := rfl
@[simp] theorem refCount_endStep : s.endStep.refCount = s.refCount := rfl
@[simp] theorem tagOrder_endStep : s.endStep.tagOrder = s.tagOrder := rfl
@[simp] theorem holdQ_endStep : s.endStep.holdQ = s.holdQ := rfl
@[simp] theorem reads_endStep : s.endStep.reads = s.reads := rfl
@[simp] theorem entries_endStep : s.endStep.entries = s.entries := rfl
@[simp] theorem lastWrite_endStep : s.endStep.lastWrite = s.lastWrite := rfl
@[simp] theorem divider_endStep : s.endStep.divider = s.divider := rfl
@[simp] theorem ageLimit_endStep : s.endStep.ageLimit = s.ageLimit := rfl
@[simp] theorem commits_endStep : s.endStep.commits = s.commits := rfl
@[simp] theorem migrations_endStep : s.endStep.migrations = s.migrations := rfl
@[simp] theorem passClass_endStep : s.endStep.passClass = s.passClass := rfl
@[simp] theorem internal_endStep : s.endStep.internal = s.internal := rfl
@[simp] theorem lastGranted_endStep : s.endStep.lastGranted = s.lastGranted := rfl
@[simp] theorem nextReq_endStep : s.endStep.nextReq = s.nextReq := rfl
@[simp] theorem nextXfer_endStep : s.endStep.nextXfer = s.nextXfer := rfl
@[simp] theorem deliverable_endStep : s.endStep.deliverable = s.deliverable := rfl
@[simp] theorem mapMem_endStep : s.endStep.mapMem = s.mapMem := rfl
@[simp] theorem freeBanks_endStep : s.endStep.freeBanks = s.freeBanks := rfl
@[simp] theorem corrected_endStep : s.endStep.corrected = s.corrected := rfl
@[simp] theorem causes_endStep : s.endStep.causes = s.causes := rfl
@[simp] theorem frame_endStep : s.endStep.frame = s.frame := rfl
@[simp] theorem msdo_endStep : s.endStep.msdo = s.msdo := rfl
@[simp] theorem upstreamOut_endStep : s.endStep.upstreamOut = s.upstreamOut := rfl
@[simp] theorem downstreamOut_endStep : s.endStep.downstreamOut = s.downstreamOut := rfl
@[simp] theorem streams_endStep : s.endStep.streams = s.streams := rfl

/-! ### `State.allot` -/

@[simp] theorem pending_allot (st : StreamId) (n : Nat) : (s.allot st n).pending = s.pending := rfl
@[simp] theorem mode_allot (st : StreamId) (n : Nat) : (s.allot st n).mode = s.mode := rfl
@[simp] theorem partState_allot (st : StreamId) (n : Nat) : (s.allot st n).partState = s.partState := rfl
@[simp] theorem clearing_allot (st : StreamId) (n : Nat) : (s.allot st n).clearing = s.clearing := rfl
@[simp] theorem refCount_allot (st : StreamId) (n : Nat) : (s.allot st n).refCount = s.refCount := rfl
@[simp] theorem tagOrder_allot (st : StreamId) (n : Nat) : (s.allot st n).tagOrder = s.tagOrder := rfl
@[simp] theorem deliverable_allot (st : StreamId) (n : Nat) : (s.allot st n).deliverable = s.deliverable := rfl
@[simp] theorem holdQ_allot (st : StreamId) (n : Nat) : (s.allot st n).holdQ = s.holdQ := rfl
@[simp] theorem reads_allot (st : StreamId) (n : Nat) : (s.allot st n).reads = s.reads := rfl
@[simp] theorem entries_allot (st : StreamId) (n : Nat) : (s.allot st n).entries = s.entries := rfl
@[simp] theorem lastWrite_allot (st : StreamId) (n : Nat) : (s.allot st n).lastWrite = s.lastWrite := rfl
@[simp] theorem divider_allot (st : StreamId) (n : Nat) : (s.allot st n).divider = s.divider := rfl
@[simp] theorem ageLimit_allot (st : StreamId) (n : Nat) : (s.allot st n).ageLimit = s.ageLimit := rfl
@[simp] theorem commits_allot (st : StreamId) (n : Nat) : (s.allot st n).commits = s.commits := rfl
@[simp] theorem migrations_allot (st : StreamId) (n : Nat) : (s.allot st n).migrations = s.migrations := rfl
@[simp] theorem passClass_allot (st : StreamId) (n : Nat) : (s.allot st n).passClass = s.passClass := rfl
@[simp] theorem internal_allot (st : StreamId) (n : Nat) : (s.allot st n).internal = s.internal := rfl
@[simp] theorem lastGranted_allot (st : StreamId) (n : Nat) : (s.allot st n).lastGranted = s.lastGranted := rfl
@[simp] theorem nextReq_allot (st : StreamId) (n : Nat) : (s.allot st n).nextReq = s.nextReq := rfl
@[simp] theorem nextXfer_allot (st : StreamId) (n : Nat) : (s.allot st n).nextXfer = s.nextXfer := rfl
@[simp] theorem stepNum_allot (st : StreamId) (n : Nat) : (s.allot st n).stepNum = s.stepNum := rfl
@[simp] theorem corrected_allot (st : StreamId) (n : Nat) : (s.allot st n).corrected = s.corrected := rfl
@[simp] theorem causes_allot (st : StreamId) (n : Nat) : (s.allot st n).causes = s.causes := rfl
@[simp] theorem frame_allot (st : StreamId) (n : Nat) : (s.allot st n).frame = s.frame := rfl
@[simp] theorem msdo_allot (st : StreamId) (n : Nat) : (s.allot st n).msdo = s.msdo := rfl
@[simp] theorem upstreamOut_allot (st : StreamId) (n : Nat) : (s.allot st n).upstreamOut = s.upstreamOut := rfl
@[simp] theorem downstreamOut_allot (st : StreamId) (n : Nat) : (s.allot st n).downstreamOut = s.downstreamOut := rfl

/-! ### `State.returnBanks` -/

@[simp] theorem pending_returnBanks (st : StreamId) : (s.returnBanks st).pending = s.pending := rfl
@[simp] theorem mode_returnBanks (st : StreamId) : (s.returnBanks st).mode = s.mode := rfl
@[simp] theorem partState_returnBanks (st : StreamId) : (s.returnBanks st).partState = s.partState := rfl
@[simp] theorem clearing_returnBanks (st : StreamId) : (s.returnBanks st).clearing = s.clearing := rfl
@[simp] theorem refCount_returnBanks (st : StreamId) : (s.returnBanks st).refCount = s.refCount := rfl
@[simp] theorem tagOrder_returnBanks (st : StreamId) : (s.returnBanks st).tagOrder = s.tagOrder := rfl
@[simp] theorem deliverable_returnBanks (st : StreamId) : (s.returnBanks st).deliverable = s.deliverable := rfl
@[simp] theorem holdQ_returnBanks (st : StreamId) : (s.returnBanks st).holdQ = s.holdQ := rfl
@[simp] theorem reads_returnBanks (st : StreamId) : (s.returnBanks st).reads = s.reads := rfl
@[simp] theorem entries_returnBanks (st : StreamId) : (s.returnBanks st).entries = s.entries := rfl
@[simp] theorem lastWrite_returnBanks (st : StreamId) : (s.returnBanks st).lastWrite = s.lastWrite := rfl
@[simp] theorem divider_returnBanks (st : StreamId) : (s.returnBanks st).divider = s.divider := rfl
@[simp] theorem ageLimit_returnBanks (st : StreamId) : (s.returnBanks st).ageLimit = s.ageLimit := rfl
@[simp] theorem commits_returnBanks (st : StreamId) : (s.returnBanks st).commits = s.commits := rfl
@[simp] theorem migrations_returnBanks (st : StreamId) : (s.returnBanks st).migrations = s.migrations := rfl
@[simp] theorem passClass_returnBanks (st : StreamId) : (s.returnBanks st).passClass = s.passClass := rfl
@[simp] theorem internal_returnBanks (st : StreamId) : (s.returnBanks st).internal = s.internal := rfl
@[simp] theorem lastGranted_returnBanks (st : StreamId) : (s.returnBanks st).lastGranted = s.lastGranted := rfl
@[simp] theorem nextReq_returnBanks (st : StreamId) : (s.returnBanks st).nextReq = s.nextReq := rfl
@[simp] theorem nextXfer_returnBanks (st : StreamId) : (s.returnBanks st).nextXfer = s.nextXfer := rfl
@[simp] theorem stepNum_returnBanks (st : StreamId) : (s.returnBanks st).stepNum = s.stepNum := rfl
@[simp] theorem mapMem_returnBanks (st : StreamId) : (s.returnBanks st).mapMem = s.mapMem := rfl
@[simp] theorem corrected_returnBanks (st : StreamId) : (s.returnBanks st).corrected = s.corrected := rfl
@[simp] theorem causes_returnBanks (st : StreamId) : (s.returnBanks st).causes = s.causes := rfl
@[simp] theorem frame_returnBanks (st : StreamId) : (s.returnBanks st).frame = s.frame := rfl
@[simp] theorem msdo_returnBanks (st : StreamId) : (s.returnBanks st).msdo = s.msdo := rfl
@[simp] theorem upstreamOut_returnBanks (st : StreamId) : (s.returnBanks st).upstreamOut = s.upstreamOut := rfl
@[simp] theorem downstreamOut_returnBanks (st : StreamId) : (s.returnBanks st).downstreamOut = s.downstreamOut := rfl

/-! ### `State.abandonWork` -/

@[simp] theorem pending_abandonWork (st : StreamId) : (s.abandonWork st).pending = s.pending := rfl
@[simp] theorem mode_abandonWork (st : StreamId) : (s.abandonWork st).mode = s.mode := rfl
@[simp] theorem partState_abandonWork (st : StreamId) : (s.abandonWork st).partState = s.partState := rfl
@[simp] theorem clearing_abandonWork (st : StreamId) : (s.abandonWork st).clearing = s.clearing := rfl
@[simp] theorem refCount_abandonWork (st : StreamId) : (s.abandonWork st).refCount = s.refCount := rfl
@[simp] theorem tagOrder_abandonWork (st : StreamId) : (s.abandonWork st).tagOrder = s.tagOrder := rfl
@[simp] theorem deliverable_abandonWork (st : StreamId) : (s.abandonWork st).deliverable = s.deliverable := rfl
@[simp] theorem reads_abandonWork (st : StreamId) : (s.abandonWork st).reads = s.reads := rfl
@[simp] theorem divider_abandonWork (st : StreamId) : (s.abandonWork st).divider = s.divider := rfl
@[simp] theorem ageLimit_abandonWork (st : StreamId) : (s.abandonWork st).ageLimit = s.ageLimit := rfl
@[simp] theorem passClass_abandonWork (st : StreamId) : (s.abandonWork st).passClass = s.passClass := rfl
@[simp] theorem lastGranted_abandonWork (st : StreamId) : (s.abandonWork st).lastGranted = s.lastGranted := rfl
@[simp] theorem nextReq_abandonWork (st : StreamId) : (s.abandonWork st).nextReq = s.nextReq := rfl
@[simp] theorem nextXfer_abandonWork (st : StreamId) : (s.abandonWork st).nextXfer = s.nextXfer := rfl
@[simp] theorem stepNum_abandonWork (st : StreamId) : (s.abandonWork st).stepNum = s.stepNum := rfl
@[simp] theorem mapMem_abandonWork (st : StreamId) : (s.abandonWork st).mapMem = s.mapMem := rfl
@[simp] theorem freeBanks_abandonWork (st : StreamId) : (s.abandonWork st).freeBanks = s.freeBanks := rfl
@[simp] theorem corrected_abandonWork (st : StreamId) : (s.abandonWork st).corrected = s.corrected := rfl
@[simp] theorem causes_abandonWork (st : StreamId) : (s.abandonWork st).causes = s.causes := rfl
@[simp] theorem frame_abandonWork (st : StreamId) : (s.abandonWork st).frame = s.frame := rfl
@[simp] theorem msdo_abandonWork (st : StreamId) : (s.abandonWork st).msdo = s.msdo := rfl
@[simp] theorem upstreamOut_abandonWork (st : StreamId) : (s.abandonWork st).upstreamOut = s.upstreamOut := rfl
@[simp] theorem downstreamOut_abandonWork (st : StreamId) : (s.abandonWork st).downstreamOut = s.downstreamOut := rfl

/-! ### `State.answerHeld` -/

@[simp] theorem pending_answerHeld (st : StreamId) (f : Request → Answer) : (s.answerHeld st f).pending = s.pending := rfl
@[simp] theorem mode_answerHeld (st : StreamId) (f : Request → Answer) : (s.answerHeld st f).mode = s.mode := rfl
@[simp] theorem partState_answerHeld (st : StreamId) (f : Request → Answer) : (s.answerHeld st f).partState = s.partState := rfl
@[simp] theorem clearing_answerHeld (st : StreamId) (f : Request → Answer) : (s.answerHeld st f).clearing = s.clearing := rfl
@[simp] theorem refCount_answerHeld (st : StreamId) (f : Request → Answer) : (s.answerHeld st f).refCount = s.refCount := rfl
@[simp] theorem deliverable_answerHeld (st : StreamId) (f : Request → Answer) : (s.answerHeld st f).deliverable = s.deliverable := rfl
@[simp] theorem reads_answerHeld (st : StreamId) (f : Request → Answer) : (s.answerHeld st f).reads = s.reads := rfl
@[simp] theorem entries_answerHeld (st : StreamId) (f : Request → Answer) : (s.answerHeld st f).entries = s.entries := rfl
@[simp] theorem lastWrite_answerHeld (st : StreamId) (f : Request → Answer) : (s.answerHeld st f).lastWrite = s.lastWrite := rfl
@[simp] theorem divider_answerHeld (st : StreamId) (f : Request → Answer) : (s.answerHeld st f).divider = s.divider := rfl
@[simp] theorem ageLimit_answerHeld (st : StreamId) (f : Request → Answer) : (s.answerHeld st f).ageLimit = s.ageLimit := rfl
@[simp] theorem commits_answerHeld (st : StreamId) (f : Request → Answer) : (s.answerHeld st f).commits = s.commits := rfl
@[simp] theorem migrations_answerHeld (st : StreamId) (f : Request → Answer) : (s.answerHeld st f).migrations = s.migrations := rfl
@[simp] theorem passClass_answerHeld (st : StreamId) (f : Request → Answer) : (s.answerHeld st f).passClass = s.passClass := rfl
@[simp] theorem internal_answerHeld (st : StreamId) (f : Request → Answer) : (s.answerHeld st f).internal = s.internal := rfl
@[simp] theorem lastGranted_answerHeld (st : StreamId) (f : Request → Answer) : (s.answerHeld st f).lastGranted = s.lastGranted := rfl
@[simp] theorem nextReq_answerHeld (st : StreamId) (f : Request → Answer) : (s.answerHeld st f).nextReq = s.nextReq := rfl
@[simp] theorem nextXfer_answerHeld (st : StreamId) (f : Request → Answer) : (s.answerHeld st f).nextXfer = s.nextXfer := rfl
@[simp] theorem stepNum_answerHeld (st : StreamId) (f : Request → Answer) : (s.answerHeld st f).stepNum = s.stepNum := rfl
@[simp] theorem mapMem_answerHeld (st : StreamId) (f : Request → Answer) : (s.answerHeld st f).mapMem = s.mapMem := rfl
@[simp] theorem freeBanks_answerHeld (st : StreamId) (f : Request → Answer) : (s.answerHeld st f).freeBanks = s.freeBanks := rfl
@[simp] theorem corrected_answerHeld (st : StreamId) (f : Request → Answer) : (s.answerHeld st f).corrected = s.corrected := rfl
@[simp] theorem causes_answerHeld (st : StreamId) (f : Request → Answer) : (s.answerHeld st f).causes = s.causes := rfl
@[simp] theorem frame_answerHeld (st : StreamId) (f : Request → Answer) : (s.answerHeld st f).frame = s.frame := rfl
@[simp] theorem msdo_answerHeld (st : StreamId) (f : Request → Answer) : (s.answerHeld st f).msdo = s.msdo := rfl
@[simp] theorem upstreamOut_answerHeld (st : StreamId) (f : Request → Answer) : (s.answerHeld st f).upstreamOut = s.upstreamOut := rfl
@[simp] theorem downstreamOut_answerHeld (st : StreamId) (f : Request → Answer) : (s.answerHeld st f).downstreamOut = s.downstreamOut := rfl
@[simp] theorem streams_answerHeld (st : StreamId) (f : Request → Answer) : (s.answerHeld st f).streams = s.streams := rfl

/-! ### Reading back what an update wrote -/

@[simp] theorem stream_setStream_self (st : StreamId) (x : Stream) : (s.setStream st x).stream st = x := by
  simp [State.stream, State.setStream]

theorem stream_setStream_ne {st t : StreamId} (x : Stream) (h : t ≠ st) : (s.setStream st x).stream t = s.stream t := by
  have : st.val ≠ t.val := fun e => h (Fin.ext e.symm)
  simp [State.stream, State.setStream, Vector.getElem_set_ne, this]

theorem stream_setStream (st t : StreamId) (x : Stream) :
    (s.setStream st x).stream t = if t = st then x else s.stream t := by
  by_cases h : t = st
  · subst h; simp
  · simp [stream_setStream_ne s x h, h]

@[simp] theorem cause_setCause_self (i : Fin 12) (r : CauseRec) : (s.setCause i r).cause i = r := by
  simp [State.cause, State.setCause]

theorem cause_setCause_ne {i j : Fin 12} (r : CauseRec) (h : j ≠ i) : (s.setCause i r).cause j = s.cause j := by
  have : i.val ≠ j.val := fun e => h (Fin.ext e.symm)
  simp [State.cause, State.setCause, Vector.getElem_set_ne, this]

theorem cause_setCause (i j : Fin 12) (r : CauseRec) :
    (s.setCause i r).cause j = if j = i then r else s.cause j := by
  by_cases h : j = i
  · subst h; simp
  · simp [cause_setCause_ne s r h, h]

/-- Raising a cause changes its own record as R170 says, and no other. -/
theorem cause_raise (c : Cause) (st : StreamId) (j : Fin 12) :
    (s.raise c st).cause j = if j = c.idx then (s.cause c.idx).raised st else s.cause j :=
  cause_setCause s c.idx j _

/-- Where a stream's record is the same, so is everything read from it. -/
theorem stream_of_streams_eq {s t : State} (h : t.streams = s.streams) (st : StreamId) : t.stream st = s.stream st := by
  simp [State.stream, h]

/-- Where the cause records are the same, so is each. -/
theorem cause_of_causes_eq {s t : State} (h : t.causes = s.causes) (i : Fin 12) : t.cause i = s.cause i := by
  simp [State.cause, h]

end Sys2Proof.Machine
end

