-- ==== Sys2Proof/Laws/MapMemory.lean ====
section
/-! SUPPORT. Map memory: every operation on it keeps the canonical form, and what a read gives after a write. -/

namespace Sys2Proof.Machine.MapMemory

/-- The canonical form, as propositions. -/
theorem wf_iff (m : MapMemory) :
    wf m = true ↔ (m.Pairwise fun x y => x.1 < y.1) ∧ ∀ x ∈ m, x.2 ≠ .clean := by
  simp [wf]

theorem wf_nil : wf [] = true := by simp [wf_iff]

/-- Removing cells keeps the canonical form. -/
theorem wf_filter (m : MapMemory) (p : Nat × Cell → Bool) (h : wf m = true) : wf (m.filter p) = true := by
  rw [wf_iff] at *
  exact ⟨h.1.filter p, fun x hx => h.2 x (List.mem_filter.mp hx).1⟩

/-- A key of a written memory is the key written or an old one. -/
theorem mem_write_key (m : MapMemory) (k : Nat) (c : Cell) (x : Nat × Cell) (h : x ∈ write m k c) :
    x = (k, c) ∨ x ∈ m := by
  induction m with
  | nil => simp only [write] at h; split at h <;> simp_all
  | cons y m ih =>
    obtain ⟨a, d⟩ := y
    simp only [write] at h
    split at h
    · split at h
      · exact .inr h
      · exact (List.mem_cons.mp h).imp id id
    · split at h
      · split at h
        · exact .inr (List.mem_cons_of_mem _ h)
        · exact (List.mem_cons.mp h).imp id (List.mem_cons_of_mem _)
      · rcases List.mem_cons.mp h with h | h
        · simp [h]
        · rcases ih h with h | h <;> simp [h]

/-- A write keeps the canonical form. -/
theorem wf_write (m : MapMemory) (k : Nat) (c : Cell) (h : wf m = true) : wf (write m k c) = true := by
  induction m with
  | nil => simp only [write]; split <;> simp_all [wf_iff]
  | cons y m ih =>
    obtain ⟨a, d⟩ := y
    rw [wf_iff] at h
    obtain ⟨hp, hc⟩ := h
    rw [List.pairwise_cons] at hp
    have hm : wf m = true := (wf_iff m).mpr ⟨hp.2, fun x hx => hc x (List.mem_cons_of_mem _ hx)⟩
    have hd : d ≠ .clean := hc (a, d) (List.mem_cons_self ..)
    simp only [write]
    split
    · rename_i hka
      split
      · exact (wf_iff _).mpr ⟨List.pairwise_cons.mpr hp, hc⟩
      · rename_i hcl
        refine (wf_iff _).mpr ⟨List.pairwise_cons.mpr ⟨?_, List.pairwise_cons.mpr hp⟩, ?_⟩
        · intro x hx
          rcases List.mem_cons.mp hx with rfl | hx
          · exact hka
          · exact Nat.lt_trans hka (hp.1 x hx)
        · intro x hx
          rcases List.mem_cons.mp hx with rfl | hx
          · exact hcl
          · exact hc x hx
    · split
      · rename_i hka
        split
        · exact hm
        · rename_i hcl
          refine (wf_iff _).mpr ⟨List.pairwise_cons.mpr ⟨fun x hx => hka ▸ hp.1 x hx, hp.2⟩, ?_⟩
          intro x hx
          rcases List.mem_cons.mp hx with rfl | hx
          · exact hcl
          · exact hc x (List.mem_cons_of_mem _ hx)
      · have ih' := (wf_iff _).mp (ih hm)
        refine (wf_iff _).mpr ⟨List.pairwise_cons.mpr ⟨?_, ih'.1⟩, ?_⟩
        · intro x hx
          rcases mem_write_key m k c x hx with rfl | hx
          · show a < k; omega
          · exact hp.1 x hx
        · intro x hx
          rcases List.mem_cons.mp hx with rfl | hx
          · exact hd
          · exact ih'.2 x hx

/-- A read of a key below every listed one finds the cleared cell. -/
theorem read_below (m : MapMemory) (k : Nat) (h : ∀ x ∈ m, k < x.1) : read m k = .clean := by
  induction m with
  | nil => rfl
  | cons y m ih =>
    obtain ⟨a, d⟩ := y
    have : k < a := h (a, d) (List.mem_cons_self ..)
    simp only [read]
    rw [if_neg (by omega)]
    exact ih fun x hx => h x (List.mem_cons_of_mem _ hx)

/-- In canonical form, a cell reads back as it was written. -/
theorem read_write_self (m : MapMemory) (k : Nat) (c : Cell) (h : wf m = true) : read (write m k c) k = c := by
  induction m with
  | nil => simp only [write]; split <;> simp_all [read]
  | cons y m ih =>
    obtain ⟨a, d⟩ := y
    obtain ⟨hp, hc⟩ := (wf_iff _).mp h
    rw [List.pairwise_cons] at hp
    have hm : wf m = true := (wf_iff m).mpr ⟨hp.2, fun x hx => hc x (List.mem_cons_of_mem _ hx)⟩
    simp only [write]
    split
    · rename_i hka
      split
      · rename_i hcl
        rw [hcl]
        refine read_below _ _ fun x hx => ?_
        rcases List.mem_cons.mp hx with rfl | hx
        · exact hka
        · exact Nat.lt_trans hka (hp.1 x hx)
      · simp [read]
    · split
      · rename_i hka
        split
        · rename_i hcl
          rw [hcl]
          exact read_below _ _ fun x hx => hka ▸ hp.1 x hx
        · simp [read]
      · rename_i h1 h2
        simp only [read]
        rw [if_neg (by omega)]
        exact ih hm

/-- A write leaves every other cell as it was. -/
theorem read_write_ne (m : MapMemory) (k j : Nat) (c : Cell) (h : j ≠ k) : read (write m k c) j = read m j := by
  induction m with
  | nil =>
    simp only [write]; split
    · rfl
    · simp only [read]; rw [if_neg (fun e => h e.symm)]
  | cons y m ih =>
    obtain ⟨a, d⟩ := y
    simp only [write]
    split
    · split
      · rfl
      · simp only [read]; rw [if_neg (fun e => h e.symm)]
    · split
      · rename_i hka
        subst hka
        split
        · simp only [read]; rw [if_neg (fun e => h e.symm)]
        · simp only [read]; rw [if_neg (fun e => h e.symm), if_neg (fun e => h e.symm)]
      · simp only [read, ih]

/-- Clearing banks keeps the canonical form. -/
theorem wf_clearBanks (m : MapMemory) (banks : List Nat) (h : wf m = true) : wf (clearBanks m banks) = true :=
  wf_filter m _ h

/-- A cell of a cleared bank reads as cleared (R21). -/
theorem read_clearBanks_in (m : MapMemory) (banks : List Nat) (k : Nat) (h : k / Config.cellsPerBank ∈ banks) :
    read (clearBanks m banks) k = .clean := by
  induction m with
  | nil => rfl
  | cons y m ih =>
    obtain ⟨a, d⟩ := y
    unfold clearBanks at *
    rw [List.filter_cons]
    split
    · rename_i hb
      simp only [read]
      rw [if_neg]
      · exact ih
      · rintro rfl; simp [h] at hb
    · exact ih

/-- A cell of another bank is left as it was. -/
theorem read_clearBanks_out (m : MapMemory) (banks : List Nat) (k : Nat) (h : k / Config.cellsPerBank ∉ banks) :
    read (clearBanks m banks) k = read m k := by
  induction m with
  | nil => rfl
  | cons y m ih =>
    obtain ⟨a, d⟩ := y
    unfold clearBanks at *
    rw [List.filter_cons]
    split
    · simp only [read, ih]
    · rename_i hb
      simp only [read]
      rw [if_neg, ih]
      rintro rfl; simp [h] at hb

/-- Upsets keep the canonical form. -/
theorem wf_upsets (us : List Upset) : ∀ m : MapMemory, wf m = true → wf (us.foldl upsetCell m) = true := by
  induction us with
  | nil => exact fun _ h => h
  | cons u us ih => exact fun m h => ih _ (wf_write _ _ _ h)

end Sys2Proof.Machine.MapMemory
end

