-- ==== Sys2Proof/Laws/Updates.lean ====
section
/-! SUPPORT. What a step can do, said once: every operation is a run of the updates of `Upd`, each with the condition under
which the part makes it. A law that each update keeps is kept by every step. -/

namespace Sys2Proof.Machine

/-- Two states agree on every field that an update of `Upd` names; the others are free. -/
structure State.Agree (s t : State) : Prop where
  pending : t.pending = s.pending
  mapMem : t.mapMem = s.mapMem
  internal : t.internal = s.internal
  holdQ : t.holdQ = s.holdQ
  entries : t.entries = s.entries
  lastWrite : t.lastWrite = s.lastWrite
  divider : t.divider = s.divider
  ageLimit : t.ageLimit = s.ageLimit
  corrected : t.corrected = s.corrected
  causes : t.causes = s.causes
  streams : t.streams = s.streams
  freeBanks : t.freeBanks = s.freeBanks

/-- One update of the part's state. -/
inductive Upd : State → State → Prop
  | other {s t : State} (h : s.Agree t) (ids : s.IdsOk → t.IdsOk) : Upd s t
  | raise (s : State) (c : Cause) (st : StreamId) : Upd s (s.raise c st)
  | clearCause (s : State) (i : Fin 12) : Upd s (s.setCause i (s.cause i).cleared)
  | levelCause (s : State) (i : Fin 12) (l : Fin 4) : Upd s (s.setCause i { s.cause i with level := l })
  | stream (s : State) (st : StreamId) (x : Stream) (hc : (s.stream st).countsOk → x.countsOk)
      (hr : (s.stream st).ringOk → x.ringOk) (hb : x.banks = (s.stream st).banks ∨ x.banks = []) : Upd s (s.setStream st x)
  | cell (s : State) (k : Nat) (c : Cell) : Upd s { s with mapMem := MapMemory.write s.mapMem k c }
  | allot (s : State) (st : StreamId) (n : Nat) : Upd s (s.allot st n)
  | returnBanks (s : State) (st : StreamId) : Upd s (s.returnBanks st)
  | clearMap (s : State) : Upd s { s with mapMem := [] }
  | correct (s : State) : Upd s s.countCorrected
  | held (s : State) (q : List Held) (h : (q.map Held.id).Sublist (s.holdQ.map Held.id)) : Upd s { s with holdQ := q }
  | holdOne (s : State) (h : Held) (room : s.holdQ.length < Config.holdQueue) (below : h.id < s.nextReq)
      (once : h.id ∉ s.holdQ.map Held.id) : Upd s { s with holdQ := s.holdQ ++ [h] }
  | hand (s : State) (o : Owner) (ws : List Wire) : Upd s (s.handInternal o ws)
  | internal (s : State) (xs : List Xfer) (h : issuedCount xs ≤ issuedCount s.internal)
      (ids : (xs.map Xfer.id).Sublist (s.internal.map Xfer.id)) : Upd s { s with internal := xs }
  | issue (s : State) (xs : List Xfer) (room : issuedCount s.internal < Config.internalIssued)
      (h : issuedCount xs ≤ issuedCount s.internal + 1) (ids : xs.map Xfer.id = s.internal.map Xfer.id) :
      Upd s { s with internal := xs }
  | commit (s : State) (num : Nat) (r : Reason) : Upd s (s.commitEntry num r)
  | free (s : State) (gone : Entry → Bool) : Upd s (s.dropEntries gone)
  | store (s : State) (e : Entry) (hs : e.state = .collecting 0)
      (h : (∃ d, s.entryAt e.stream e.pos = some d ∧ d.collecting = true ∧ d.num = e.num) ∨
        (s.entryAt e.stream e.pos = none ∧ s.entries.length < Config.entries ∧ e.num = s.newNumber)) :
      Upd s (s.putEntry e)
  | age (s : State) : Upd s s.ageEntries
  | ageing (s : State) (d l : Nat) (hd : d ∈ [1, 4, 16, 64]) (hl : l ≤ 255) : Upd s (s.setAgeing d l)
  | blank (s : State) : Upd s { s with
      mapMem := [], holdQ := [], entries := [], lastWrite := [], divider := 16, ageLimit := 200, corrected := 0
      causes := Vector.replicate 12 .reset, streams := Vector.replicate 16 .reset, freeBanks := List.range 160 }

/-- A run of updates. -/
inductive Steps : State → State → Prop
  | refl (s : State) : Steps s s
  | tail {s t u : State} (h : Steps s t) (n : Upd t u) : Steps s u

/-- A law that every update keeps is kept by a run. -/
theorem Steps.keeps {P : State → Prop} (hP : ∀ s t, Upd s t → P s → P t) {s t : State} (h : Steps s t) (hs : P s) : P t := by
  induction h with
  | refl => exact hs
  | tail _ n ih => exact hP _ _ n ih

/-- Identities stay apart when some of them go. -/
theorem IdsApart.sub {r h d p i r' h' d' p' i' : List Nat} {n m n' m' : Nat} (k : IdsApart r h d p i n m)
    (hr : r'.Sublist r) (hh : h'.Sublist h) (hd : d'.Sublist d) (hp : p'.Sublist p) (hi : i'.Sublist i) (hn : n ≤ n') (hm : m ≤ m') :
    IdsApart r' h' d' p' i' n' m' where
  requestsBelow := fun x hx => Nat.lt_of_lt_of_le (k.requestsBelow x (hr.subset hx)) hn
  heldBelow := fun x hx => Nat.lt_of_lt_of_le (k.heldBelow x (hh.subset hx)) hn
  readsBelow := fun x hx => Nat.lt_of_lt_of_le (k.readsBelow x (hd.subset hx)) hn
  passBelow := fun x hx => Nat.lt_of_lt_of_le (k.passBelow x (hp.subset hx)) hm
  internalBelow := fun x hx => Nat.lt_of_lt_of_le (k.internalBelow x (hi.subset hx)) hm
  requestsOnce := List.Pairwise.sublist hr k.requestsOnce
  heldOnce := List.Pairwise.sublist hh k.heldOnce
  passOnce := List.Pairwise.sublist hp k.passOnce
  internalOnce := List.Pairwise.sublist hi k.internalOnce
  classesApart := fun x hx hy => k.classesApart x (hp.subset hx) (hi.subset hy)

/-- A map that keeps the key of each element keeps the keys. -/
theorem map_key {α : Type} (key : α → Nat) (f : α → α) (hf : ∀ x, key (f x) = key x) (xs : List α) :
    (xs.map f).map key = xs.map key := by
  rw [List.map_map]
  exact List.map_congr_left fun x _ => hf x

theorem map_id_numbered (o : Owner) (g : Nat) (ws : List Wire) :
    ∀ n, (numbered o g n ws).map Xfer.id = List.range' n ws.length := by
  induction ws with
  | nil => intro n; rfl
  | cons w ws ih => intro n; simp [numbered, ih, List.range'_succ]

/-- Identities stay apart when fresh ones are added to the pass-through class. -/
theorem IdsApart.addPass {r h d p i : List Nat} {n m : Nat} (k : IdsApart r h d p i n m) :
    IdsApart r h d (p ++ [m]) i n (m + 1) where
  requestsBelow := k.requestsBelow
  heldBelow := k.heldBelow
  readsBelow := k.readsBelow
  passBelow := fun x hx => by
    rcases List.mem_append.mp hx with h1 | h1
    · exact Nat.lt_succ_of_lt (k.passBelow x h1)
    · simp at h1; omega
  internalBelow := fun x hx => Nat.lt_succ_of_lt (k.internalBelow x hx)
  requestsOnce := k.requestsOnce
  heldOnce := k.heldOnce
  passOnce := by
    refine List.nodup_append.mpr ⟨k.passOnce, by simp, fun x hx y hy e => ?_⟩
    simp at hy
    have := k.passBelow x hx
    omega
  internalOnce := k.internalOnce
  classesApart := fun x hx hy => by
    rcases List.mem_append.mp hx with h1 | h1
    · exact k.classesApart x h1 hy
    · simp at h1
      have := k.internalBelow x hy
      omega

/-- Identities stay apart when fresh ones are added to the internal class. -/
theorem IdsApart.addInternal {r h d p i : List Nat} {n m : Nat} (k : IdsApart r h d p i n m) (c : Nat) :
    IdsApart r h d p (i ++ List.range' m c) n (m + c) where
  requestsBelow := k.requestsBelow
  heldBelow := k.heldBelow
  readsBelow := k.readsBelow
  passBelow := fun x hx => Nat.lt_of_lt_of_le (k.passBelow x hx) (Nat.le_add_right ..)
  internalBelow := fun x hx => by
    rcases List.mem_append.mp hx with h1 | h1
    · exact Nat.lt_of_lt_of_le (k.internalBelow x h1) (Nat.le_add_right ..)
    · have := List.mem_range'_1.mp h1; omega
  requestsOnce := k.requestsOnce
  heldOnce := k.heldOnce
  passOnce := k.passOnce
  internalOnce := by
    refine List.nodup_append.mpr ⟨k.internalOnce, List.nodup_range', fun x hx y hy e => ?_⟩
    have h1 := List.mem_range'_1.mp hy
    have h2 := k.internalBelow x hx
    omega
  classesApart := fun x hx hy => by
    rcases List.mem_append.mp hy with h1 | h1
    · exact k.classesApart x hx h1
    · have h2 := List.mem_range'_1.mp h1
      have h3 := k.passBelow x hx
      omega

/-- Identities stay apart when a request joins the tag order. -/
theorem IdsApart.addRequest {r h d p i : List Nat} {n m : Nat} (k : IdsApart r h d p i n m) :
    IdsApart (r ++ [n]) h d p i (n + 1) m where
  requestsBelow := fun x hx => by
    rcases List.mem_append.mp hx with h1 | h1
    · exact Nat.lt_succ_of_lt (k.requestsBelow x h1)
    · simp at h1; omega
  heldBelow := fun x hx => Nat.lt_succ_of_lt (k.heldBelow x hx)
  readsBelow := fun x hx => Nat.lt_succ_of_lt (k.readsBelow x hx)
  passBelow := k.passBelow
  internalBelow := k.internalBelow
  requestsOnce := by
    refine List.nodup_append.mpr ⟨k.requestsOnce, by simp, fun x hx y hy e => ?_⟩
    simp at hy
    have := k.requestsBelow x hx
    omega
  heldOnce := k.heldOnce
  passOnce := k.passOnce
  internalOnce := k.internalOnce
  classesApart := k.classesApart

/-- Identities stay apart when a read of a known request is resolved. -/
theorem IdsApart.addReads {r h d p i : List Nat} {n m : Nat} (k : IdsApart r h d p i n m) (x : Nat) (below : x < n) :
    IdsApart r h (d ++ [x]) p i n m where
  requestsBelow := k.requestsBelow
  heldBelow := k.heldBelow
  readsBelow := fun y hy => by
    rcases List.mem_append.mp hy with h1 | h1
    · exact k.readsBelow y h1
    · simp at h1; omega
  passBelow := k.passBelow
  internalBelow := k.internalBelow
  requestsOnce := k.requestsOnce
  heldOnce := k.heldOnce
  passOnce := k.passOnce
  internalOnce := k.internalOnce
  classesApart := k.classesApart

/-- Identities stay apart when a request is held. -/
theorem IdsApart.addHeld {r h d p i : List Nat} {n m : Nat} (k : IdsApart r h d p i n m) (x : Nat) (below : x < n)
    (once : x ∉ h) : IdsApart r (h ++ [x]) d p i n m where
  requestsBelow := k.requestsBelow
  heldBelow := fun y hy => by
    rcases List.mem_append.mp hy with h1 | h1
    · exact k.heldBelow y h1
    · simp at h1; omega
  readsBelow := k.readsBelow
  passBelow := k.passBelow
  internalBelow := k.internalBelow
  requestsOnce := k.requestsOnce
  heldOnce := by
    refine List.nodup_append.mpr ⟨k.heldOnce, by simp, fun y hy z hz e => ?_⟩
    simp at hz
    subst hz
    exact once (e ▸ hy)
  passOnce := k.passOnce
  internalOnce := k.internalOnce
  classesApart := k.classesApart

namespace Steps

variable {s₀ s t : State}

theorem other (h : Steps s₀ s) (a : s.Agree t) (ids : s.IdsOk → t.IdsOk := by exact fun k => k) : Steps s₀ t :=
  h.tail (.other a ids)

/-! ### Causes, streams, cells -/

theorem raise (h : Steps s₀ s) (c : Cause) (st : StreamId) : Steps s₀ (s.raise c st) := h.tail (.raise _ c st)

theorem raiseAll (cs : List (Cause × StreamId)) : ∀ {s : State}, Steps s₀ s → Steps s₀ (s.raiseAll cs) := by
  induction cs with
  | nil => exact id
  | cons c cs ih => exact fun h => ih (h.raise c.1 c.2)

theorem setStream (h : Steps s₀ s) (st : StreamId) (x : Stream) (hc : (s.stream st).countsOk → x.countsOk)
    (hr : (s.stream st).ringOk → x.ringOk)
    (hb : x.banks = (s.stream st).banks ∨ x.banks = [] := by first | exact .inl rfl | exact .inr rfl) :
    Steps s₀ (s.setStream st x) := h.tail (.stream _ st x hc hr hb)

theorem writeCell (h : Steps s₀ s) (st : StreamId) (c : Nat) (v : CellVal) : Steps s₀ (s.writeCell st c v) :=
  h.tail (.cell _ _ _)

theorem correctCell (h : Steps s₀ s) (st : StreamId) (c : Nat) (v : CellVal) : Steps s₀ (s.correctCell st c v) :=
  ((h.writeCell st c v).tail (.correct _)).raise _ _

theorem lookupCell (h : Steps s₀ s) (st : StreamId) (c : Nat) : Steps s₀ (s.lookupCell st c).2 := by
  simp only [State.lookupCell]
  split
  · exact h
  · exact h.correctCell ..
  · exact h

theorem lookupCells (st : StreamId) (cs : List Nat) :
    ∀ {s : State}, Steps s₀ s → Steps s₀ (s.lookupCells st cs).2 := by
  induction cs with
  | nil => exact id
  | cons c cs ih => exact fun h => ih (h.lookupCell st c)

theorem allot (h : Steps s₀ s) (st : StreamId) (n : Nat) : Steps s₀ (s.allot st n) := h.tail (.allot _ st n)

theorem returnBanks (h : Steps s₀ s) (st : StreamId) : Steps s₀ (s.returnBanks st) := h.tail (.returnBanks _ st)

theorem upset (h : Steps s₀ s) (us : List Upset) : Steps s₀ (s.upset us) := by
  unfold State.upset
  induction us generalizing s with
  | nil => exact h
  | cons u us ih => exact ih (s := { s with mapMem := upsetCell s.mapMem u }) (h.tail (.cell _ _ _))

/-! ### Answers and the hold queue -/

theorem answer (h : Steps s₀ s) (id : Nat) (a : Answer) : Steps s₀ (s.answer id a) :=
  h.other (by constructor <;> rfl) fun k => by
    unfold State.IdsOk State.answer
    rw [map_key _ _ (by intro x; split <;> rfl)]
    exact k

theorem noteDeliverable (h : Steps s₀ s) : Steps s₀ s.noteDeliverable := h.other (by constructor <;> rfl)

theorem endStep (h : Steps s₀ s) : Steps s₀ s.endStep := h.other (by constructor <;> rfl)

/-- The requests that stay keep their places. -/
theorem sublist_sweepQueue (leaves : Held → Bool) (q : List Held) :
    ∀ ahead gone, ((sweepQueue leaves ahead gone q).map Held.id).Sublist (q.map Held.id) := by
  induction q with
  | nil => intros; exact List.Sublist.refl _
  | cons x q ih =>
    intro ahead gone
    unfold sweepQueue
    split
    · exact (ih ..).cons _
    · rw [List.map_cons, List.map_cons]
      have : (if (gone && x.orderClear ahead) = true then { x with released := true } else x).id = x.id := by
        split <;> rfl
      rw [this]
      exact (ih ..).cons_cons _

theorem dropHeld (h : Steps s₀ s) (leaves : Held → Bool) : Steps s₀ (s.dropHeld leaves) :=
  h.tail (.held _ _ (sublist_sweepQueue ..))

theorem leave (h : Steps s₀ s) (id : Nat) : Steps s₀ (s.leave id) := h.dropHeld _

theorem release (h : Steps s₀ s) (p : HoldReason → Bool) : Steps s₀ (s.release p) :=
  h.tail (.held _ _ (by
    unfold releaseWhere
    rw [map_key _ _ (by intro x; split <;> rfl)] <;> exact List.Sublist.refl _))

/-- Request `id` is in the hold queue, or there is room for it. -/
def Room (s : State) (id : Nat) : Prop :=
  (s.holdQ.length < Config.holdQueue ∧ id < s.nextReq) ∨ s.holdQ.any (fun x => x.id == id) = true

theorem hold (h : Steps s₀ s) (x : Held) (room : Room s x.id) : Steps s₀ (s.hold x) := by
  unfold State.hold
  split
  · refine h.tail (.held _ _ ?_)
    rw [map_key _ _ (by intro y; split <;> simp_all)] <;> exact List.Sublist.refl _
  · rename_i hn
    have hr := room.resolve_right hn
    refine h.tail (.holdOne _ _ hr.1 hr.2 fun hm => hn ?_)
    obtain ⟨y, hy, he⟩ := List.mem_map.mp hm
    exact List.any_eq_true.mpr ⟨y, hy, by simp [he]⟩

theorem answerHeld (h : Steps s₀ s) (st : StreamId) (f : Request → Answer) : Steps s₀ (s.answerHeld st f) :=
  (h.other (t := s.readyHeld st f) (by constructor <;> rfl) fun k => by
    unfold State.IdsOk State.readyHeld
    rw [map_key _ _ (by intro x; split <;> rfl)]
    exact k).dropHeld _

/-! ### Entries -/

theorem freeEntriesWhere (h : Steps s₀ s) (p : Entry → Bool) : Steps s₀ (s.freeEntriesWhere p) :=
  (h.tail (.free _ p)).release _

/-! ### Transfers -/

theorem issuedCount_append (xs ys : List Xfer) : issuedCount (xs ++ ys) = issuedCount xs + issuedCount ys := by
  simp [issuedCount]

theorem issuedCount_numbered (o : Owner) (g : Nat) (ws : List Wire) : ∀ n, issuedCount (numbered o g n ws) = 0 := by
  induction ws with
  | nil => intro n; rfl
  | cons w ws ih => intro n; simpa [issuedCount, numbered] using ih (n + 1)

theorem issuedCount_filter (xs : List Xfer) (p : Xfer → Bool) : issuedCount (xs.filter p) ≤ issuedCount xs := by
  unfold issuedCount
  rw [List.filter_filter, ← List.countP_eq_length_filter, ← List.countP_eq_length_filter]
  exact List.countP_mono_left fun x _ hx => by simp at hx; exact hx.1

theorem issuedCount_map (xs : List Xfer) (f : Xfer → Xfer) (hf : ∀ x, (f x).issued = x.issued) :
    issuedCount (xs.map f) = issuedCount xs := by
  induction xs with
  | nil => rfl
  | cons x xs ih => simp only [issuedCount, List.map_cons, List.filter_cons, hf] at *; split <;> simp_all

theorem handInternal (h : Steps s₀ s) (o : Owner) (ws : List Wire) : Steps s₀ (s.handInternal o ws) :=
  h.tail (.hand s o ws)

theorem handPass (h : Steps s₀ s) (o : Owner) (w : Wire) : Steps s₀ (s.handPass o w) :=
  h.other (by constructor <;> rfl) fun k => by
    unfold State.IdsOk State.handPass
    rw [List.map_append, map_id_numbered]
    exact IdsApart.addPass k

theorem dropInternal (h : Steps s₀ s) (id : Nat) : Steps s₀ (s.dropInternal id) :=
  h.tail (.internal _ _ (issuedCount_filter ..) (List.filter_sublist.map _))

theorem dropPass (h : Steps s₀ s) (id : Nat) : Steps s₀ (s.dropPass id) :=
  h.other (by constructor <;> rfl) fun k => IdsApart.sub k (.refl _) (.refl _) (.refl _) (List.filter_sublist.map _)
    (.refl _) (Nat.le_refl _) (Nat.le_refl _)

theorem issuedCount_abandonXfers (st : StreamId) (xs : List Xfer) : issuedCount (abandonXfers st xs) ≤ issuedCount xs := by
  unfold abandonXfers
  rw [issuedCount_map]
  · exact issuedCount_filter ..
  · intro x; split <;> rfl

theorem sublist_abandonXfers (st : StreamId) (xs : List Xfer) :
    ((abandonXfers st xs).map Xfer.id).Sublist (xs.map Xfer.id) := by
  unfold abandonXfers
  rw [map_key _ _ (by intro x; split <;> rfl)]
  exact List.filter_sublist.map _

theorem dropWork (h : Steps s₀ s) (st : StreamId) : Steps s₀ (s.dropWork st) :=
  (h.tail (.internal _ _ (issuedCount_abandonXfers st s.internal) (sublist_abandonXfers ..))).other
    (by constructor <;> rfl)

theorem abandonWork (h : Steps s₀ s) (st : StreamId) : Steps s₀ (s.abandonWork st) :=
  ((h.dropWork st).setStream st (s.stream st).idle id id).freeEntriesWhere _

theorem ringOk_notLive {x y : Stream} (hy : y.live = false) : x.ringOk → y.ringOk := by
  intro _ h; rw [hy] at h; cases h

theorem faultStream (h : Steps s₀ s) (c : Cause) (st : StreamId) : Steps s₀ (s.faultStream c st) := by
  unfold State.faultStream
  split
  · rename_i hr
    refine Steps.answerHeld (Steps.abandonWork (Steps.setStream (h.raise c st) st
      { (s.raise c st).stream st with state := .faulted } id ?_) st) _ _
    intro hk _
    refine hk ?_
    show Stream.live (s.stream st) = true
    revert hr
    unfold Stream.running Stream.live
    cases (s.stream st).state <;> simp
  · exact h

/-! ### Commits and migrations -/

theorem updateCommit (h : Steps s₀ s) (st : StreamId) (pos : Nat) (f : Commit → Commit) :
    Steps s₀ (s.updateCommit st pos f) := h.other (by constructor <;> rfl)

theorem updateMigration (h : Steps s₀ s) (st : StreamId) (pos : Nat) (f : Migration → Migration) :
    Steps s₀ (s.updateMigration st pos f) := h.other (by constructor <;> rfl)

theorem addCommit (h : Steps s₀ s) (c : Commit) : Steps s₀ (s.addCommit c) := h.other (by constructor <;> rfl)

theorem removeCommit (h : Steps s₀ s) (st : StreamId) (pos : Nat) : Steps s₀ (s.removeCommit st pos) :=
  h.other (by constructor <;> rfl)

theorem addMigration (h : Steps s₀ s) (m : Migration) : Steps s₀ (s.addMigration m) := h.other (by constructor <;> rfl)

theorem removeMigration (h : Steps s₀ s) (st : StreamId) (pos : Nat) : Steps s₀ (s.removeMigration st pos) :=
  h.other (by constructor <;> rfl)

theorem startMigration (h : Steps s₀ s) (c : Commit) : Steps s₀ (s.startMigration c) :=
  ((h.updateCommit ..).addMigration _).handInternal _ _

theorem enterWrite (h : Steps s₀ s) (c : Commit) (tile : List Byte) (cov : List Bool) :
    Steps s₀ (s.enterWrite c tile cov) := (h.updateCommit ..).handInternal ..

theorem migrateOrWrite (h : Steps s₀ s) (c : Commit) (e : Entry) :
    Steps s₀ (if c.mustMigrate then s.startMigration c else s.enterWrite c e.data e.cov) := by
  split
  · exact h.startMigration c
  · exact h.enterWrite ..

theorem takeKind (h : Steps s₀ s) (c : Commit) (e : Entry) (k : CommitKind) : Steps s₀ (s.takeKind c e k) := by
  have h1 (f : Commit → Commit) := h.updateCommit c.stream c.pos f
  unfold State.takeKind
  cases k <;> dsimp only
  case retained => exact h1 _
  case aliased =>
    split
    · exact (h1 _).startMigration _
    · exact h1 _
  case partialTile =>
    cases c.prev <;> dsimp only
    case aliasOf o => exact ((h1 _).updateCommit ..).handInternal ..
    all_goals exact (h1 _).migrateOrWrite ..
  all_goals exact (h1 _).migrateOrWrite ..

theorem enterVerify (h : Steps s₀ s) (c : Commit) (o : Nat) : Steps s₀ (s.enterVerify c o) :=
  (h.updateCommit ..).handInternal ..

theorem decideCommit (h : Steps s₀ s) (c : Commit) (e : Entry) (r : PosRecord) : Steps s₀ (s.decideCommit c e r) := by
  unfold State.decideCommit
  dsimp only
  split
  · exact h.takeKind ..
  · split
    · exact h.takeKind ..
    · split
      · split
        · exact (h.updateCommit ..).enterVerify ..
        · exact (h.updateCommit ..).takeKind ..
      · exact h.takeKind ..

theorem startCommit (h : Steps s₀ s) (r : Reason) (num : Nat) : Steps s₀ (s.startCommit r num) := by
  unfold State.startCommit
  split
  · exact h
  · rename_i e _
    split
    · have h1 := (h.tail (.commit s num r)).lookupCells e.stream (commitCells (s.geometry e.stream) e.slot e.pos)
      dsimp only
      split <;> rename_i heq <;> rw [heq] at h1
      · exact h1.faultStream ..
      · exact (h1.addCommit _).decideCommit ..
    · exact h

theorem startCommits (r : Reason) (nums : List Nat) : ∀ {s : State}, Steps s₀ s → Steps s₀ (s.startCommits r nums) := by
  induction nums with
  | nil => exact id
  | cons n nums ih => exact fun h => ih (h.startCommit r n)

theorem applyCommit (h : Steps s₀ s) (c : Commit) (k : CommitKind) : Steps s₀ (s.applyCommit c k) := by
  unfold State.applyCommit
  split
  · exact (h.writeCell ..).writeCell ..
  · exact h.writeCell ..

theorem bump_le (n : Nat) : bump n ≤ Config.countStop := Nat.min_le_right ..

theorem countsOk_countPartial (x : Stream) (r : Reason) (h : x.countsOk) : (x.countPartial r).countsOk := by
  obtain ⟨h1, h2, h3, h4⟩ := h
  cases r
  · exact ⟨h1, h2, h3, h4⟩
  · exact ⟨bump_le _, h2, h3, h4⟩
  · exact ⟨h1, bump_le _, h3, h4⟩
  · exact ⟨h1, h2, bump_le _, h4⟩

theorem ringOk_countPartial (x : Stream) (r : Reason) (h : x.ringOk) : (x.countPartial r).ringOk := by
  cases r <;> exact h

theorem countKind (h : Steps s₀ s) (c : Commit) (k : CommitKind) : Steps s₀ (s.countKind c k) := by
  unfold State.countKind
  split
  · exact h.setStream _ _ (countsOk_countPartial _ _) (ringOk_countPartial _ _) (.inl (by cases c.reason <;> rfl))
  · exact h

theorem completeCommit (h : Steps s₀ s) (c : Commit) (k : CommitKind) : Steps s₀ (s.completeCommit c k) :=
  ((((h.applyCommit c k).countKind c k).removeCommit ..).freeEntriesWhere _).release _

theorem completeIfDue (h : Steps s₀ s) (st : StreamId) (pos : Nat) : Steps s₀ (s.completeIfDue st pos) := by
  unfold State.completeIfDue
  repeat' split
  all_goals first
    | exact h
    | exact h.completeCommit ..

theorem applyMigration (h : Steps s₀ s) (m : Migration) : Steps s₀ (s.applyMigration m) := by
  unfold State.applyMigration
  generalize m.aliasers = as
  induction as generalizing s with
  | nil => exact h
  | cons a as ih => exact ih (h.writeCell ..)

theorem countMigration (h : Steps s₀ s) (st : StreamId) : Steps s₀ (s.countMigration st) :=
  h.setStream st _ (fun hk => ⟨hk.1, hk.2.1, hk.2.2.1, bump_le _⟩) id

theorem completeMigration (h : Steps s₀ s) (m : Migration) : Steps s₀ (s.completeMigration m) :=
  (((h.applyMigration m).countMigration _).removeMigration ..).release _

theorem migrateIfDue (h : Steps s₀ s) (st : StreamId) (pos : Nat) : Steps s₀ (s.migrateIfDue st pos) := by
  unfold State.migrateIfDue
  repeat' split
  all_goals first
    | exact h
    | exact h.completeMigration ..

end Steps

end Sys2Proof.Machine
end

