-- ==== Sys2Proof/Laws/Course.lean ====
section
/-! SUPPORT. The operations of the assembly buffer, the upstream port, the frame cycle and the setup as runs of updates. -/

namespace Sys2Proof.Machine.Steps

variable {s₀ s : State}

/-! ### The assembly buffer -/

theorem expireAll (h : Steps s₀ s) : Steps s₀ s.expireAll := h.startCommits ..

theorem restartPeriod (h : Steps s₀ s) : Steps s₀ s.restartPeriod := h.other (by constructor <;> rfl)

theorem ageTick (h : Steps s₀ s) : Steps s₀ s.ageTick := (h.restartPeriod.tail (.age _)).expireAll

/-- The entry at a position is the one put there, or what it was before at any other position. -/
theorem entryAt_putEntry (s : State) (e : Entry) (st : StreamId) (pos : Nat) :
    (s.putEntry e).entryAt st pos = if e.stream = st ∧ e.pos = pos then some e else s.entryAt st pos := by
  simp only [State.entryAt, State.putEntry, List.find?_append]
  split
  · rename_i hp
    obtain ⟨rfl, rfl⟩ := hp
    have : (s.entries.filter fun d => !(d.stream == e.stream && d.pos == e.pos)).find?
        (fun d => d.stream == e.stream && d.pos == e.pos) = none := by
      rw [List.find?_eq_none]
      intro x hx hh
      have h2 := (List.mem_filter.mp hx).2
      rw [hh] at h2
      cases h2
    rw [this]
    simp
  · rename_i hp
    have he : (e.stream == st && e.pos == pos) = false :=
      Bool.eq_false_iff.mpr fun hh => hp (by simpa using hh)
    rw [List.find?_filter]
    have hs : s.entries.find? (fun d => decide (((!(d.stream == e.stream && d.pos == e.pos)) = true) ∧
        ((d.stream == st && d.pos == pos) = true))) = s.entries.find? (fun d => d.stream == st && d.pos == pos) := by
      congr 1
      funext d
      cases hB : (d.stream == st && d.pos == pos) with
      | false => simp
      | true =>
        have hA : (d.stream == e.stream && d.pos == e.pos) = false := Bool.eq_false_iff.mpr fun hh => by
          simp only [Bool.and_eq_true, beq_iff_eq] at hh hB
          exact hp ⟨hh.1.symm.trans hB.1, hh.2.symm.trans hB.2⟩
        simp [hA]
    rw [hs]
    simp [he]

theorem length_putEntry (s : State) (e : Entry) (h : (s.entryAt e.stream e.pos).isSome = true) :
    (s.putEntry e).entries.length ≤ s.entries.length := by
  simp only [State.putEntry, List.length_append, List.length_singleton]
  obtain ⟨d, hd⟩ := Option.isSome_iff_exists.mp h
  have hm := List.mem_of_find?_eq_some hd
  have hp := List.find?_some hd
  have := List.length_filter_lt_length_iff_exists (l := s.entries)
    (p := fun d => !(d.stream == e.stream && d.pos == e.pos)) |>.mpr ⟨d, hm, by simpa using hp⟩
  omega

/-- Storing a piece in an entry keeps its number, stream and position, and starts its age again. -/
theorem stored_fields (e : Entry) (x : Stream) (r : Request) (p : Piece) (t : PieceTile) :
    (e.stored x r p t).num = e.num ∧ (e.stored x r p t).stream = e.stream ∧ (e.stored x r p t).pos = e.pos ∧
      (e.stored x r p t).state = .collecting 0 := ⟨rfl, rfl, rfl, rfl⟩

/-- No live piece of a write is blocked. -/
def Unblocked (s : State) (st : StreamId) (ps : List (Piece × PieceTile)) : Prop :=
  ∀ pt ∈ ps, ∀ e, s.entryAt st pt.2.pos = some e → e.collecting = true

/-- A write needs no new entry, or the buffer has free entries enough. -/
def Fits (s : State) (st : StreamId) (ps : List (Piece × PieceTile)) : Prop :=
  s.newNeeded st ps = 0 ∨ s.entries.length + s.newNeeded st ps ≤ Config.entries

theorem storePieces (st : StreamId) (r : Request) (ps : List (Piece × PieceTile)) : ∀ {s : State}, Steps s₀ s →
    Unblocked s st ps → Fits s st ps → Steps s₀ (s.storePieces st r ps) := by
  induction ps with
  | nil => exact fun h _ _ => h
  | cons pt ps ih =>
    intro s h hu hn
    have hone : Steps s₀ (s.storePiece st r pt.1 pt.2) ∧ Unblocked (s.storePiece st r pt.1 pt.2) st ps ∧
        Fits (s.storePiece st r pt.1 pt.2) st ps := by
      unfold State.storePiece
      dsimp only
      generalize hd : (s.entryAt st pt.2.pos).getD (newEntry s.newNumber st (s.stream st) pt.2) = d
      generalize he : d.stored (s.stream st) r pt.1 pt.2 = e
      obtain ⟨en, es, ep, ec⟩ := stored_fields d (s.stream st) r pt.1 pt.2
      rw [he] at en es ep ec
      have hds : d.stream = st ∧ d.pos = pt.2.pos := by
        cases ha : s.entryAt st pt.2.pos with
        | none => rw [ha] at hd; subst hd; exact ⟨rfl, rfl⟩
        | some f =>
          rw [ha] at hd
          subst hd
          have := List.find?_some ha
          simpa using this
      rw [hds.1] at es
      rw [hds.2] at ep
      have hcol : e.collecting = true := by simp [Entry.collecting, ec]
      refine ⟨h.tail (.store s e ec ?_), ?_, ?_⟩
      · rw [es, ep]
        cases ha : s.entryAt st pt.2.pos with
        | none =>
          refine .inr ⟨rfl, ?_, ?_⟩
          · have : 1 ≤ s.newNeeded st (pt :: ps) := by
              simp [State.newNeeded, ha]
            unfold Fits at hn
            omega
          · rw [en, ← hd, ha]; rfl
        | some f =>
          refine .inl ⟨f, rfl, hu pt (List.mem_cons_self ..) f ha, ?_⟩
          rw [en, ← hd, ha]; rfl
      · intro q hq f hf
        rw [entryAt_putEntry] at hf
        split at hf
        · cases hf; exact hcol
        · exact hu q (List.mem_cons_of_mem _ hq) f hf
      · have hmono : (s.putEntry e).newNeeded st ps ≤ s.newNeeded st ps := by
          unfold State.newNeeded
          rw [← List.countP_eq_length_filter, ← List.countP_eq_length_filter]
          refine List.countP_mono_left fun q _ hq => ?_
          rw [entryAt_putEntry] at hq
          split at hq
          · cases hq
          · exact hq
        unfold Fits at hn ⊢
        cases ha : s.entryAt st pt.2.pos with
        | none =>
          have h1 : s.newNeeded st (pt :: ps) = s.newNeeded st ps + 1 := by
            simp [State.newNeeded, ha]
          have h2 : (s.putEntry e).entries.length ≤ s.entries.length + 1 := by
            simp only [State.putEntry, List.length_append, List.length_singleton]
            have := List.length_filter_le (fun d => !(d.stream == e.stream && d.pos == e.pos)) s.entries
            omega
          omega
        | some f =>
          have h1 : s.newNeeded st (pt :: ps) = s.newNeeded st ps := by
            simp [State.newNeeded, ha]
          have h2 := length_putEntry s e (by rw [es, ep, ha]; rfl)
          omega
    exact ih hone.1 hone.2.1 hone.2.2

/-! ### The upstream port -/

theorem handHomeReads (id : Nat) (os : List PieceOutcome) :
    ∀ {s : State} (k : Nat), Steps s₀ s → Steps s₀ (s.handHomeReads id k os) := by
  induction os with
  | nil => exact fun _ h => h
  | cons o os ih =>
    intro s k h
    unfold State.handHomeReads
    split
    · exact ih _ (h.handPass ..)
    · exact ih _ h

theorem addRead (h : Steps s₀ s) (q : ResolvedRead) (room : Room s q.id) : Steps s₀ (s.addRead q) :=
  h.other (by constructor <;> rfl) fun k => by
    have hq : q.id < s.nextReq := room.elim And.right fun hh => by
      obtain ⟨x, hx, he⟩ := List.any_eq_true.mp hh
      exact k.heldBelow _ (List.mem_map.mpr ⟨x, hx, by simpa using he⟩)
    unfold State.IdsOk State.addRead
    rw [List.map_append]
    exact IdsApart.addReads k _ hq

theorem dropRead (h : Steps s₀ s) (id : Nat) : Steps s₀ (s.dropRead id) :=
  h.other (by constructor <;> rfl) fun k => IdsApart.sub k (.refl _) (.refl _) (List.filter_sublist.map _) (.refl _)
    (.refl _) (Nat.le_refl _) (Nat.le_refl _)

theorem finishRead (h : Steps s₀ s) (id : Nat) : Steps s₀ (s.finishRead id) := by
  unfold State.finishRead
  split
  · exact h
  · split
    · exact h
    · exact (h.dropRead id).answer ..

theorem issueRead (h : Steps s₀ s) (id : Nat) (v : Byte) (os : List PieceOutcome) (room : Room s id) :
    Steps s₀ (s.issueRead id v os) :=
  (((h.addRead _ room).leave id).handHomeReads id os 0).finishRead id

theorem resolveMap (h : Steps s₀ s) (st : StreamId) (slot : Nat) (t : PieceTile) (covered : List (Option Byte)) :
    Steps s₀ (s.resolveMap st slot t covered).2 := by
  have h1 := h.lookupCell st ((s.geometry st).entryCell slot t.pos)
  unfold State.resolveMap
  split <;> rename_i heq <;> rw [heq] at h1 <;> exact h1

theorem resolvePiece (h : Steps s₀ s) (st : StreamId) (slot : Nat) (p : Piece) :
    Steps s₀ (s.resolvePiece st slot p).2 := by
  unfold State.resolvePiece
  split
  · exact h
  · unfold State.resolveTile
    dsimp only
    split
    · split
      · split
        · exact h
        · exact h.resolveMap ..
      · exact h
    · exact h.resolveMap ..

theorem resolvePieces (st : StreamId) (slot : Nat) (ps : List Piece) :
    ∀ {s : State}, Steps s₀ s → Steps s₀ (s.resolvePieces st slot ps).2 := by
  induction ps with
  | nil => exact id
  | cons p ps ih =>
    intro s h
    exact ih (h.resolvePiece st slot p)

/-- A lookup leaves the hold queue and the count of requests alone. -/
theorem queue_resolveMap (s : State) (st : StreamId) (slot : Nat) (t : PieceTile) (covered : List (Option Byte)) :
    (s.resolveMap st slot t covered).2.holdQ = s.holdQ ∧ (s.resolveMap st slot t covered).2.nextReq = s.nextReq := by
  have h1 : (s.lookupCell st ((s.geometry st).entryCell slot t.pos)).2.holdQ = s.holdQ ∧
      (s.lookupCell st ((s.geometry st).entryCell slot t.pos)).2.nextReq = s.nextReq := by
    unfold State.lookupCell
    dsimp only
    split <;> exact ⟨rfl, rfl⟩
  unfold State.resolveMap
  split <;> rename_i heq <;> rw [heq] at h1 <;> exact h1

/-- The resolution of a read leaves the hold queue and the count of requests alone. -/
theorem queue_resolvePieces (st : StreamId) (slot : Nat) (ps : List Piece) :
    ∀ s : State, (s.resolvePieces st slot ps).2.holdQ = s.holdQ ∧
      (s.resolvePieces st slot ps).2.nextReq = s.nextReq := by
  induction ps with
  | nil => intro s; exact ⟨rfl, rfl⟩
  | cons p ps ih =>
    intro s
    have h1 : (s.resolvePiece st slot p).2.holdQ = s.holdQ ∧ (s.resolvePiece st slot p).2.nextReq = s.nextReq := by
      unfold State.resolvePiece
      split
      · exact ⟨rfl, rfl⟩
      · unfold State.resolveTile
        dsimp only
        split
        · split
          · split
            · exact ⟨rfl, rfl⟩
            · exact queue_resolveMap ..
          · exact ⟨rfl, rfl⟩
        · exact queue_resolveMap ..
    exact ⟨(ih _).1.trans h1.1, (ih _).2.trans h1.2⟩

theorem serveRead (h : Steps s₀ s) (id : Nat) (r : Request) (st : StreamId) (slot : Nat) (ps : List Piece)
    (room : Room s id) : Steps s₀ (s.serveRead id r st slot ps) := by
  have h1 := h.resolvePieces st slot ps
  have hq := queue_resolvePieces st slot ps s
  unfold State.serveRead
  dsimp only
  have hroom : Room (s.resolvePieces st slot ps).2 id := by
    unfold Room
    rw [hq.1, hq.2]
    exact room
  split
  · exact ((h1.faultStream ..).answer ..).leave _
  · split
    · exact h1.hold _ hroom
    · exact h1.issueRead _ _ _ hroom

theorem place (h : Steps s₀ s) (id : Nat) (r : Request) (st : StreamId) (ps : List (Piece × PieceTile)) (vacant : Bool)
    (hu : Unblocked s st ps) (hn : Fits s st ps) :
    Steps s₀ (s.place id r st ps vacant) := by
  have h1 : Steps s₀ (((s.leave id).storePieces st r ps).answer id ⟨.okay, []⟩) :=
    (storePieces st r ps (h.leave id) hu hn).answer ..
  unfold State.place
  dsimp only
  split
  · exact (h1.raise ..).startCommits ..
  · exact h1.startCommits ..

theorem serveWrite (h : Steps s₀ s) (id : Nat) (r : Request) (st : StreamId) (slot : Nat) (ps : List Piece)
    (vacant : Bool) (room : Room s id) :
    Steps s₀ (s.serveWrite id r st slot ps vacant) := by
  unfold State.serveWrite
  dsimp only
  split
  · exact h.hold _ room
  · split
    · exact h.hold _ room
    · rename_i hb
      split
      · exact (h.hold _ room).startCommits ..
      · rename_i hf
        refine h.place id r st _ vacant ?_ ?_
        · intro pt hpt e he
          have := List.findSome?_eq_none_iff.mp hb pt hpt
          rw [he] at this
          dsimp only at this
          split at this
          · assumption
          · cases this
        · unfold State.freeEntries at hf
          unfold Fits
          omega

theorem servePass (h : Steps s₀ s) (id : Nat) (r : Request) : Steps s₀ (s.servePass id r) := (h.leave id).handPass ..

theorem orderedServe (h : Steps s₀ s) (id : Nat) (r : Request) (x : Option StreamId) (ts : List (Nat × Nat)) (t : State)
    (room : Room s id) (ht : Steps s₀ t) : Steps s₀ (s.orderedServe id r x ts t) := by
  unfold State.orderedServe
  split
  · exact h.hold _ room
  · exact ht

theorem course (h : Steps s₀ s) (id : Nat) (r : Request) (room : Room s id) :
    Steps s₀ (s.course id r) := by
  unfold State.course
  split
  · exact h.hold _ room
  · split
    · exact ((raiseAll _ h).answer ..).leave _
    · exact h.orderedServe _ _ _ _ _ room (h.servePass ..)
    · exact h.orderedServe _ _ _ _ _ room (h.serveWrite _ _ _ _ _ _ room)
    · exact h.orderedServe _ _ _ _ _ room (h.serveRead _ _ _ _ _ room)

theorem joinTagOrder (h : Steps s₀ s) (r : Request) : Steps s₀ (s.joinTagOrder r) :=
  h.other (by constructor <;> rfl) fun k => by
    unfold State.IdsOk State.joinTagOrder
    rw [List.map_append]
    exact IdsApart.addRequest k

theorem takeRequest (h : Steps s₀ s) (r : Request) :
    Steps s₀ (s.takeRequest r) := by
  unfold State.takeRequest
  split
  · rename_i hroom
    split
    · exact (h.joinTagOrder r).course _ _ (.inl ⟨hroom, Nat.lt_succ_self _⟩)
    · exact (h.joinTagOrder r).answer ..
  · exact h

/-! ### The frame cycle -/

/-- A stream record with the same per-frame counts, place in the ring and liveness as another. -/
structure SameRing (x y : Stream) : Prop where
  evicted : y.evicted = x.evicted
  aged : y.aged = x.aged
  closed : y.closed = x.closed
  migrated : y.migrated = x.migrated
  live : y.live = x.live
  slot : y.slot = x.slot
  frame : y.frame = x.frame
  geom : y.geom = x.geom
  banks : y.banks = x.banks

theorem setStreamSame (h : Steps s₀ s) (st : StreamId) (x : Stream) (hx : SameRing (s.stream st) x) :
    Steps s₀ (s.setStream st x) := by
  obtain ⟨h1, h2, h3, h4, h5, h6, h7, h8, h9⟩ := hx
  refine h.setStream st x ?_ ?_ (.inl h9)
  · unfold Stream.countsOk
    rw [h1, h2, h3, h4]
    exact id
  · unfold Stream.ringOk Stream.geometry
    rw [h5, h6, h7, h8]
    exact id

theorem beginSecondPhase (h : Steps s₀ s) (st : StreamId) : Steps s₀ (s.beginSecondPhase st) := by
  unfold State.beginSecondPhase
  dsimp only
  have h1 := lookupCells st (slotCells (s.stream st).geometry (s.stream st).slot) h
  split <;> rename_i heq <;> rw [heq] at h1
  · exact h1.faultStream ..
  · exact (h1.setStreamSame st _ (by constructor <;> rfl)).handInternal ..

theorem closeIfDue (h : Steps s₀ s) (st : StreamId) : Steps s₀ (s.closeIfDue st) := by
  unfold State.closeIfDue
  split
  · exact h.beginSecondPhase st
  · exact h

theorem beginThirdPhase (h : Steps s₀ s) (st : StreamId) : Steps s₀ (s.beginThirdPhase st) := by
  unfold State.beginThirdPhase
  dsimp only
  split
  · exact h
  · exact (h.setStreamSame st _ (by constructor <;> rfl)).handInternal ..

theorem beginLoad (h : Steps s₀ s) (st : StreamId) (addr : Nat) : Steps s₀ (s.beginLoad st addr) :=
  (h.setStreamSame st _ (by constructor <;> rfl)).handInternal ..

theorem beginFourthPhase (h : Steps s₀ s) (st : StreamId) : Steps s₀ (s.beginFourthPhase st) := by
  unfold State.beginFourthPhase
  dsimp only
  split
  · exact h.setStreamSame st _ (by constructor <;> rfl)
  · exact (h.setStreamSame st _ (by constructor <;> rfl)).beginLoad ..

theorem openFrame (h : Steps s₀ s) (st : StreamId) (live : (s.stream st).live = true) : Steps s₀ (s.openFrame st) := by
  have h1 := ((h.setStream st (s.stream st).advanced (fun _ => ⟨Nat.zero_le _, Nat.zero_le _, Nat.zero_le _, Nat.zero_le _⟩)
    (fun hk _ => by
      have hs := hk live
      show ((s.stream st).slot + 1) % (s.stream st).geometry.slots = ((s.stream st).frame + 1) % (s.stream st).geometry.slots
      rw [hs, Nat.mod_add_mod])).release (closingOf st)).raise .frameDone st
  unfold State.openFrame
  dsimp only
  split
  · exact h1.raise ..
  · exact h1

theorem openIfDue (h : Steps s₀ s) (st : StreamId) : Steps s₀ (s.openIfDue st) := by
  unfold State.openIfDue
  split
  · rename_i hd
    refine h.openFrame st ?_
    have : (s.stream st).state = .closing := by
      simp [State.openDue] at hd
      exact hd.1.1
    simp [Stream.live, this]
  · exact h

/-! ### Setup, window loads, teardown -/

theorem countsOk_reset (x : SetupReason) : { Stream.reset with reason := x }.countsOk :=
  ⟨Nat.zero_le _, Nat.zero_le _, Nat.zero_le _, Nat.zero_le _⟩

theorem refuseSetup (h : Steps s₀ s) (st : StreamId) (why : SetupReason) : Steps s₀ (s.refuseSetup st why) :=
  ((h.returnBanks st).setStream st _ (fun _ => countsOk_reset _) (ringOk_notLive rfl)).raise ..

theorem openStream (h : Steps s₀ s) (st : StreamId) : Steps s₀ (s.openStream st) :=
  (h.setStream st _ (fun _ => ⟨Nat.zero_le _, Nat.zero_le _, Nat.zero_le _, Nat.zero_le _⟩)
    (fun _ _ => (Nat.zero_mod _).symm)).raise ..

theorem passValidation (h : Steps s₀ s) (st : StreamId) (g : Geom) (loading : (s.stream st).live = false) :
    Steps s₀ (s.passValidation st g) := by
  have h1 := (h.allot st g.banksNeeded).setStream st
    { (s.allot st g.banksNeeded).stream st with
      geom := some g, active := .null, store := [], switched := false, rejected := false, fetch := []
      fetchFailed := false } id
    (ringOk_notLive (by
      unfold State.allot
      rw [stream_setStream_self]
      exact loading))
  unfold State.passValidation
  dsimp only
  split
  · exact h1.openStream st
  · exact h1.beginLoad ..

theorem loadSettled (h : Steps s₀ s) (st : StreamId) : Steps s₀ (s.loadSettled st) := by
  unfold State.loadSettled
  split
  · exact h.openStream st
  · exact h

theorem switchIn (h : Steps s₀ s) (st : StreamId) (set : WindowSet) (store : List (Option Span)) :
    Steps s₀ (s.switchIn st set store) := (h.setStreamSame st _ (by constructor <;> rfl)).loadSettled st

theorem rejectSet (h : Steps s₀ s) (st : StreamId) : Steps s₀ (s.rejectSet st) :=
  (h.setStreamSame st _ (by constructor <;> rfl)).loadSettled st

theorem windowDescRead (h : Steps s₀ s) (st : StreamId) (bytes : List Byte) : Steps s₀ (s.windowDescRead st bytes) := by
  unfold State.windowDescRead
  dsimp only
  split
  · exact h.rejectSet st
  · split
    · exact h.switchIn ..
    · exact (h.setStreamSame st _ (by constructor <;> rfl)).handInternal ..

theorem lineTableRead (h : Steps s₀ s) (st : StreamId) (load : WinLoad) : Steps s₀ (s.lineTableRead st load) := by
  unfold State.lineTableRead
  split
  · exact h.refuseSetup ..
  · exact h.switchIn ..

theorem enterDraining (h : Steps s₀ s) (st : StreamId) (live : (s.stream st).live = true) :
    Steps s₀ (s.enterDraining st) :=
  ((h.setStream st { s.stream st with state := .draining } id fun hk _ => hk live).abandonWork st).answerHeld ..

theorem endDrain (h : Steps s₀ s) (st : StreamId) : Steps s₀ (s.endDrain st) :=
  ((h.returnBanks st).setStream st _ (fun _ => countsOk_reset _) (ringOk_notLive rfl)).raise ..

theorem drainIfDue (h : Steps s₀ s) (st : StreamId) : Steps s₀ (s.drainIfDue st) := by
  unfold State.drainIfDue
  split
  · exact h.endDrain st
  · exact h

end Sys2Proof.Machine.Steps
end

