-- ==== Sys2Proof/Laws/Exec.lean ====
section
/-! SUPPORT. Every command and every step as a run of updates. -/

namespace Sys2Proof.Machine.Steps

variable {s₀ s : State}

/-- A fold of operations that are runs is a run. -/
theorem foldl {α : Type} (f : State → α → State) (hf : ∀ {s : State} (a : α), Steps s₀ s → Steps s₀ (f s a))
    (as : List α) : ∀ {s : State}, Steps s₀ s → Steps s₀ (as.foldl f s) := by
  induction as with
  | nil => exact id
  | cons a as ih => exact fun h => ih (hf a h)

/-! ### What becomes due in a step -/

theorem freeDead (h : Steps s₀ s) : Steps s₀ s.freeDead := by
  unfold State.freeDead
  split
  · exact h.freeEntriesWhere _
  · exact h

theorem settleCommits (h : Steps s₀ s) : Steps s₀ s.settleCommits :=
  (foldl _ (fun c hc => hc.completeIfDue c.stream c.pos) _
    (foldl _ (fun m hm => hm.migrateIfDue m.stream m.pos) _ h)).freeDead

theorem takeUp (h : Steps s₀ s) (id : Nat) : Steps s₀ (s.takeUp id) :=
  h.tail (.held _ _ (by
    rw [map_key _ _ (by intro x; split <;> rfl)] <;> exact List.Sublist.refl _))

theorem retryOne (id : Nat) (h : Steps s₀ s) : Steps s₀ (s.retryOne id) := by
  unfold State.retryOne
  split
  · exact h
  · rename_i x hx
    split
    · refine ((h.takeUp id).course id x.req (.inr ?_)).settleCommits
      have hm := List.mem_of_find?_eq_some hx
      have hp := List.find?_some hx
      simp only [State.takeUp, List.any_map, List.any_eq_true]
      refine ⟨x, hm, ?_⟩
      simp only [Function.comp]
      split <;> exact hp
    · exact h

theorem retryPass (h : Steps s₀ s) : Steps s₀ s.retryPass := foldl _ (fun id hid => hid.retryOne id) _ h

theorem readyIfDue (h : Steps s₀ s) : Steps s₀ s.readyIfDue := by
  unfold State.readyIfDue
  split
  · exact h.other (by constructor <;> rfl)
  · exact h

theorem settleRound (h : Steps s₀ s) : Steps s₀ s.settleRound :=
  (foldl _ (fun st hs => hs.drainIfDue st) _ (foldl _ (fun st hs => hs.openIfDue st) _
    (foldl _ (fun st hs => hs.closeIfDue st) _ h.settleCommits.retryPass))).readyIfDue

theorem settle (n : Nat) : ∀ {s : State}, Steps s₀ s → Steps s₀ (State.settle n s) := by
  induction n with
  | zero => exact id
  | succ n ih =>
    intro s h
    unfold State.settle
    split
    · exact h
    · exact ih h.settleRound

theorem finish (h : Steps s₀ s) : Steps s₀ s.finish := (settle _ h).noteDeliverable.endStep

/-! ### The downstream port -/

theorem issuedCount_cons (x : Xfer) (xs : List Xfer) :
    issuedCount (x :: xs) = (if x.issued then 1 else 0) + issuedCount xs := by
  unfold issuedCount
  rw [List.filter_cons]
  split <;> simp <;> omega

theorem issuedCount_markIssued (id : Nat) (xs : List Xfer) : issuedCount (markIssued id xs) ≤ issuedCount xs + 1 := by
  induction xs with
  | nil => exact Nat.zero_le _
  | cons x xs ih =>
    unfold markIssued
    split
    · rename_i hx
      rw [issuedCount_cons, issuedCount_cons, hx.2]
      simp
      omega
    · rw [issuedCount_cons, issuedCount_cons]
      omega

theorem map_id_markIssued (id : Nat) (xs : List Xfer) : (markIssued id xs).map Xfer.id = xs.map Xfer.id := by
  induction xs with
  | nil => rfl
  | cons x xs ih =>
    unfold markIssued
    split
    · rfl
    · rw [List.map_cons, List.map_cons, ih]

theorem grantInternal (h : Steps s₀ s) (x : Xfer) (room : issuedCount s.internal < Config.internalIssued) :
    Steps s₀ (s.grantInternal x) :=
  (h.tail (.issue _ _ room (issuedCount_markIssued x.id s.internal) (map_id_markIssued ..))).other
    (by constructor <;> rfl)

theorem grantPass (h : Steps s₀ s) (x : Xfer) : Steps s₀ (s.grantPass x) :=
  h.other (by constructor <;> rfl) fun k => by
    unfold State.IdsOk State.grantPass
    rw [map_id_markIssued]
    exact k

/-- A transfer of the internal class is granted only below the limit (R146). -/
theorem room_of_internalCandidate {y : Xfer} (hy : s.internalCandidate = some y) :
    issuedCount s.internal < Config.internalIssued := by
  unfold State.internalCandidate at hy
  split at hy
  · assumption
  · cases hy

theorem arbitrate (h : Steps s₀ s) : Steps s₀ s.arbitrate := by
  unfold State.arbitrate
  split
  · exact h
  · exact h.grantPass _
  · rename_i hy
    exact h.grantInternal _ (room_of_internalCandidate hy)
  · rename_i hy
    split
    · exact h.grantPass _
    · exact h.grantInternal _ (room_of_internalCandidate hy)

theorem internalAnswer (h : Steps s₀ s) (mine : Owner → Bool) (a : DramAnswer) (f : State → Owner → Wire → State)
    (hf : ∀ {s : State} (o : Owner) (w : Wire), Steps s₀ s → Steps s₀ (f s o w)) :
    Steps s₀ (s.internalAnswer mine a f) := by
  unfold State.internalAnswer
  split
  · exact h
  · split
    · exact h.dropInternal _
    · split
      · exact hf _ _ (h.dropInternal _)
      · exact h

theorem verifyAnswered (h : Steps s₀ s) (st : StreamId) (pos : Nat) (w : Wire) (a : DramAnswer) :
    Steps s₀ (s.verifyAnswered st pos w a) := by
  unfold State.verifyAnswered
  dsimp only
  generalize hs1 : s.updateCommit st pos _ = s1
  have h1 : Steps s₀ s1 := hs1 ▸ h.updateCommit ..
  repeat' split
  all_goals first
    | exact h1
    | exact h1.takeKind ..
    | exact (h1.raise ..).takeKind ..

theorem mergeAnswered (h : Steps s₀ s) (st : StreamId) (pos : Nat) (w : Wire) (a : DramAnswer) :
    Steps s₀ (s.mergeAnswered st pos w a) := by
  unfold State.mergeAnswered
  dsimp only
  generalize hs1 : s.updateCommit st pos _ = s1
  have h1 : Steps s₀ s1 := hs1 ▸ h.updateCommit ..
  repeat' split
  all_goals first
    | exact h.faultStream ..
    | exact h1
    | exact h1.enterWrite ..

theorem writeAnswered (h : Steps s₀ s) (st : StreamId) (a : DramAnswer) : Steps s₀ (s.writeAnswered st a) := by
  unfold State.writeAnswered
  split
  · exact h.faultStream ..
  · exact h

theorem copyReadReport (h : Steps s₀ s) (st : StreamId) (pos : Nat) : Steps s₀ (s.copyReadReport st pos) := by
  unfold State.copyReadReport
  repeat' split
  all_goals first
    | exact h
    | exact h.enterWrite ..

theorem copyReadAnswered (h : Steps s₀ s) (st : StreamId) (pos : Nat) (w : Wire) (a : DramAnswer) :
    Steps s₀ (s.copyReadAnswered st pos w a) := by
  unfold State.copyReadAnswered
  dsimp only
  generalize hs1 : s.updateMigration st pos _ = s1
  have h1 : Steps s₀ s1 := hs1 ▸ h.updateMigration ..
  repeat' split
  all_goals first
    | exact h.faultStream ..
    | exact h1
    | exact ((h1.updateMigration ..).handInternal ..).copyReadReport ..

theorem statusMapAnswered (h : Steps s₀ s) (st : StreamId) (a : DramAnswer) : Steps s₀ (s.statusMapAnswered st a) := by
  unfold State.statusMapAnswered
  repeat' split
  all_goals first
    | exact h.faultStream ..
    | exact h.beginThirdPhase ..
    | exact h

theorem frameRecordAnswered (h : Steps s₀ s) (st : StreamId) (a : DramAnswer) :
    Steps s₀ (s.frameRecordAnswered st a) := by
  unfold State.frameRecordAnswered
  split
  · exact h.faultStream ..
  · exact h.beginFourthPhase ..

theorem fetchEnd (h : Steps s₀ s) (st : StreamId) : Steps s₀ (s.fetchEnd st) := by
  unfold State.fetchEnd
  dsimp only
  split
  · exact h
  · rename_i hl
    split
    · exact h.refuseSetup ..
    · split
      · exact h.refuseSetup ..
      · refine h.passValidation _ _ ?_
        simp only [ne_eq, Decidable.not_not] at hl
        simp [Stream.live, hl]

theorem fetchAnswered (h : Steps s₀ s) (st : StreamId) (w : Wire) (a : DramAnswer) :
    Steps s₀ (s.fetchAnswered st w a) := by
  unfold State.fetchAnswered
  dsimp only
  cases a.status <;> dsimp only <;> split
  all_goals first
    | exact h.setStreamSame st _ (by constructor <;> rfl)
    | exact (h.setStreamSame st _ (by constructor <;> rfl)).fetchEnd st

theorem windowDescAnswered (h : Steps s₀ s) (st : StreamId) (a : DramAnswer) :
    Steps s₀ (s.windowDescAnswered st a) := by
  unfold State.windowDescAnswered
  split
  · exact h.windowDescRead ..
  · split
    · exact h.refuseSetup ..
    · exact h.faultStream ..

theorem lineTableAnswered (h : Steps s₀ s) (st : StreamId) (w : Wire) (a : DramAnswer) :
    Steps s₀ (s.lineTableAnswered st w a) := by
  unfold State.lineTableAnswered
  dsimp only
  split
  · exact h
  · split
    · exact h.faultStream ..
    · generalize hs1 : s.setStream st _ = s1
      have h1 : Steps s₀ s1 := hs1 ▸ h.setStreamSame st _ (by constructor <;> rfl)
      split
      · exact h1
      · exact h1.lineTableRead ..

theorem deliverInternal (a : DramAnswer) (o : Owner) (w : Wire) (h : Steps s₀ s) :
    Steps s₀ (Sys2Proof.Machine.deliverInternal a s o w) := by
  unfold Sys2Proof.Machine.deliverInternal
  split
  · exact h.verifyAnswered ..
  · exact h.mergeAnswered ..
  · exact h.writeAnswered ..
  · exact h.copyReadAnswered ..
  · exact h.writeAnswered ..
  · exact h.statusMapAnswered ..
  · exact h.frameRecordAnswered ..
  · exact h.fetchAnswered ..
  · exact h.windowDescAnswered ..
  · exact h.lineTableAnswered ..
  · exact h
  · exact h

/-! ### The other commands -/

theorem answerPiece (h : Steps s₀ s) (req k : Nat) (a : DramAnswer) : Steps s₀ (s.answerPiece req k a) :=
  h.other (by constructor <;> rfl) fun k' => by
    unfold State.IdsOk State.answerPiece
    rw [map_key _ _ (by intro x; split <;> rfl)]
    exact k'

theorem passThroughAnswered (h : Steps s₀ s) (a : DramAnswer) : Steps s₀ (s.passThroughAnswered a) := by
  unfold State.passThroughAnswered
  repeat' split
  all_goals first
    | exact h
    | exact (h.dropPass _).answer ..

theorem homeReadAnswered (h : Steps s₀ s) (a : DramAnswer) : Steps s₀ (s.homeReadAnswered a) := by
  unfold State.homeReadAnswered
  repeat' split
  all_goals first
    | exact h
    | exact h.dropPass _
    | exact ((h.dropPass _).answerPiece ..).finishRead ..

theorem discardPass (h : Steps s₀ s) (a : DramAnswer) : Steps s₀ (s.discardPass a) := by
  unfold State.discardPass
  repeat' split
  all_goals first
    | exact h
    | exact h.dropPass _

theorem deliver (h : Steps s₀ s) : Steps s₀ s.deliver := by
  unfold State.deliver
  split
  · exact h
  · split
    · exact h.other (by constructor <;> rfl)
    · split
      · exact h.other (by constructor <;> rfl)
      · exact h.other (by constructor <;> rfl) fun k => IdsApart.sub k (List.filter_sublist.map _) (.refl _) (.refl _)
          (.refl _) (.refl _) (Nat.le_refl _) (Nat.le_refl _)

/-- With nothing outstanding there is nothing to keep apart. -/
theorem idsApart_nil : IdsApart [] [] [] [] [] 0 0 := by
  constructor <;> simp

theorem pinReset (h : Steps s₀ s) (strap : Mode) : Steps s₀ (s.pinReset strap) :=
  ((h.tail (.blank _)).tail (.internal _ [] (Nat.zero_le _) (List.nil_sublist _))).other (by constructor <;> rfl)
    fun _ => idsApart_nil

theorem issuedCount_resetInternal (xs : List Xfer) : issuedCount (resetInternal xs) ≤ issuedCount xs := by
  unfold resetInternal
  rw [issuedCount_map _ (fun x => { x with abandoned := true }) (fun _ => rfl)]
  exact issuedCount_filter ..

theorem sublist_resetInternal (xs : List Xfer) :
    ((resetInternal xs).map Xfer.id).Sublist (xs.map Xfer.id) := by
  unfold resetInternal
  rw [map_key _ _ (by intro x; rfl)]
  exact List.filter_sublist.map _

theorem partReset (h : Steps s₀ s) : Steps s₀ s.partReset :=
  ((h.tail (.blank _)).tail (.internal _ _ (issuedCount_resetInternal s.internal) (sublist_resetInternal _))).other
    (by constructor <;> rfl) fun k => by
      have h1 : s.resetTagOrder.map Taken.id = s.tagOrder.map Taken.id :=
        map_key _ _ (by intro x; split <;> rfl) _
      have h2 : (resetPassClass s.passClass).map Xfer.id = s.passClass.map Xfer.id :=
        map_key _ _ (by intro x; split <;> rfl) _
      unfold State.IdsOk State.partReset
      dsimp only
      rw [h1, h2]
      exact IdsApart.sub k (.refl _) (.refl _) (List.nil_sublist _) (.refl _) (.refl _) (Nat.le_refl _) (Nat.le_refl _)

theorem clearingEnds (h : Steps s₀ s) : Steps s₀ s.clearingEnds := by
  unfold State.clearingEnds
  split
  · exact (h.tail (.clearMap _)).other (by constructor <;> rfl)
  · exact h

theorem respond (h : Steps s₀ s) (f : Frame) (r : CmdResult) (d : List Byte) : Steps s₀ (s.respond f r d) :=
  h.other (by constructor <;> rfl)

theorem command (h : Steps s₀ s) (f : Frame) (c : CmdClass) (sb : Byte) (own : Effect) (ho : Steps s₀ own.after) :
    Steps s₀ (s.command f c sb own) := by
  unfold State.command
  repeat' split
  all_goals first
    | exact h.respond ..
    | exact ho.respond ..

theorem readCauseEffect (h : Steps s₀ s) : Steps s₀ s.readCauseEffect.after := by
  unfold State.readCauseEffect
  split
  · exact h
  · exact h.tail (.clearCause _ _)

theorem setCauseLevelEffect (h : Steps s₀ s) (arg : BitVec 64) : Steps s₀ (s.setCauseLevelEffect arg).after := by
  unfold State.setCauseLevelEffect
  split
  · exact h.tail (.levelCause _ _ _)
  · exact h

theorem divider_of_code {n d : Nat} (h : dividerOf n = some d) : d ∈ [1, 4, 16, 64] := by
  unfold dividerOf at h
  split at h <;> simp_all

theorem setAgeEffect (h : Steps s₀ s) (arg : BitVec 64) : Steps s₀ (s.setAgeEffect arg).after := by
  unfold State.setAgeEffect
  split
  · exact h
  · rename_i hd
    exact (h.tail (.ageing _ _ _ (divider_of_code hd)
      (Nat.le_of_lt_succ (Nat.mod_lt _ (by decide))))).restartPeriod.expireAll

theorem beginSetup (h : Steps s₀ s) (st : StreamId) (addr : Nat) : Steps s₀ (s.beginSetup st addr) :=
  ((h.setStream st { s.stream st with state := .loading, fetch := [], fetchFailed := false } id
    (ringOk_notLive (y := { s.stream st with state := .loading, fetch := [], fetchFailed := false }) rfl)).handInternal
      ..).endStep

theorem streamSetupEffect (h : Steps s₀ s) (st : StreamId) (addr : Nat) :
    Steps s₀ (s.streamSetupEffect st addr).after := by
  unfold State.streamSetupEffect
  repeat' split
  all_goals first
    | exact h
    | exact h.beginSetup st addr

theorem beginClose (h : Steps s₀ s) (st : StreamId) (live : (s.stream st).live = true) : Steps s₀ (s.beginClose st) :=
  startCommits _ _ (h.setStream st { s.stream st with state := .closing, phase := some .first } id fun hk _ => hk live)

theorem streamAdvanceEffect (h : Steps s₀ s) (st : StreamId) : Steps s₀ (s.streamAdvanceEffect st).after := by
  unfold State.streamAdvanceEffect
  split
  · rename_i hs
    split
    · exact h.beginClose st (by simp [Stream.live, hs])
    · exact h
  all_goals exact h

theorem streamTeardownEffect (h : Steps s₀ s) (st : StreamId) : Steps s₀ (s.streamTeardownEffect st).after := by
  unfold State.streamTeardownEffect
  split <;> rename_i hs
  · exact h.enterDraining st (by simp [Stream.live, hs])
  · exact h.enterDraining st (by simp [Stream.live, hs])
  · exact h.enterDraining st (by simp [Stream.live, hs])
  all_goals exact h

theorem windowSetEffect (h : Steps s₀ s) (st : StreamId) (addr : Nat) :
    Steps s₀ (s.windowSetEffect st addr).after := by
  unfold State.windowSetEffect
  split
  · exact h.setStreamSame st { s.stream st with pendingWin := pendingOf addr } (by constructor <;> rfl)
  · exact h

theorem resetPartEffect (h : Steps s₀ s) : Steps s₀ s.resetPartEffect.after := h.partReset

theorem beginFrame (h : Steps s₀ s) : Steps s₀ s.beginFrame := by
  unfold State.beginFrame
  split
  · exact h.other (by constructor <;> rfl)
  · exact h

theorem endFrame (h : Steps s₀ s) : Steps s₀ s.endFrame := by
  unfold State.endFrame
  split
  · exact h
  · exact h.other (by constructor <;> rfl)

theorem perform (h : Steps s₀ s) (f : Frame) (c : Command) (sb : Byte) (arg : BitVec 64) : Steps s₀ (s.perform f c sb arg) := by
  cases c
  case identify => exact h.command _ .always sb s.identifyEffect h
  case readStatus => exact h.command _ .always sb s.readStatusEffect h
  case readStream => exact h.command _ _ _ (s.readStreamEffect (streamOf sb)) h
  case readCause => exact h.command _ _ _ _ h.readCauseEffect
  case setCauseLevel => exact h.command _ _ _ _ (h.setCauseLevelEffect arg)
  case setAge => exact (h.command _ _ _ _ (h.setAgeEffect arg)).finish
  case streamSetup => exact h.command _ _ _ _ (h.streamSetupEffect _ _)
  case streamAdvance => exact (h.command _ _ _ _ (h.streamAdvanceEffect _)).finish
  case streamTeardown => exact (h.command _ _ _ _ (h.streamTeardownEffect _)).finish
  case windowSet => exact h.command _ _ _ _ (h.windowSetEffect _ _)
  case resetPart => exact (h.command _ _ _ _ h.resetPartEffect).finish

theorem takeCommand (h : Steps s₀ s) (f : Frame) (code sb : Byte) (arg : BitVec 64) :
    Steps s₀ (s.takeCommand f code sb arg) := by
  unfold State.takeCommand
  split
  · exact h.perform ..
  · exact h.respond ..

theorem clockIn (h : Steps s₀ s) (b : Bool) : Steps s₀ (s.clockIn b) := by
  unfold State.clockIn
  split
  · exact h
  · dsimp only
    split
    · exact h.takeCommand ..
    · exact h.other (by constructor <;> rfl)

theorem shiftIn (bits : List Bool) : ∀ {s : State}, Steps s₀ s → Steps s₀ (s.shiftIn bits) := by
  induction bits with
  | nil => exact id
  | cons b bits ih => exact fun h => ih (h.clockIn b)

theorem referencePeriod (h : Steps s₀ s) : Steps s₀ s.referencePeriod := by
  unfold State.referencePeriod
  split
  · exact h.ageTick.finish
  · exact h.other (by constructor <;> rfl)

end Sys2Proof.Machine.Steps

namespace Sys2Proof.Machine

/-- The state that a command leads to. A part never faults or refuses. -/
theorem exec_steps (c : Instr) (s t : State) (h : exec c s = .next t) : Steps s t := by
  have h0 := Steps.refl s
  cases c <;> cases h
  case pinReset strap => exact h0.pinReset strap
  case partReady => show Steps s (if _ then _ else _); split; exact h0.clearingEnds.readyIfDue; exact h0
  case upstreamRequest r => exact (h0.takeRequest r).finish
  case responseDelivery => exact h0.deliver
  case holdRelease => exact h0.retryPass.finish
  case arbiterGrant => exact h0.arbitrate
  case passThroughAnswer a => exact (h0.passThroughAnswered a).finish
  case homeReadAnswer a => exact (h0.homeReadAnswered a).finish
  case commitCompletion st pos => exact (h0.completeIfDue st pos).finish
  case migrationCompletion st pos => exact (h0.migrateIfDue st pos).finish
  case ageTick us => exact (h0.upset us).ageTick.finish
  case ageExpiry st pos => exact (Steps.startCommits _ _ h0).finish
  case unknownCommand code sb arg => show Steps s (if _ then _ else _); split; exact Steps.shiftIn _ h0; exact h0
  case managementFrameEnd msdi => exact (Steps.shiftIn _ h0).endFrame
  case closeFirstPhaseEnd st => exact (h0.closeIfDue st).finish
  case frameOpen st => exact (h0.openIfDue st).finish
  case discardedAnswer a => exact ((h0.internalAnswer _ _ _ fun _ _ h => h).discardPass a).finish
  case drainEnd st => exact (h0.drainIfDue st).finish
  case managementFrameStart => exact h0.beginFrame
  all_goals first
    | exact Steps.shiftIn _ h0
    | exact (h0.internalAnswer _ _ _ fun o w h => h.deliverInternal _ o w).finish

/-- The state that a step leads to, from the state with the command taken off the queue. -/
theorem step_steps (s t : State) (h : step s = .next t) :
    ∃ s', (s' = s ∨ ∃ q, s' = { s with pending := q }) ∧ Steps s' t := by
  unfold step at h
  split at h
  · cases h; exact ⟨s, .inl rfl, (Steps.refl s).referencePeriod⟩
  · rename_i c rest _; exact ⟨_, .inr ⟨rest, rfl⟩, exec_steps _ _ _ h⟩

/-! ### A quiet state -/

/-- With nothing due, nothing more happens in a step. -/
theorem settle_of_quiet (n : Nat) (s : State) (h : s.quiet = true) : State.settle n s = s := by
  cases n with
  | zero => rfl
  | succ n => unfold State.settle; rw [if_pos h]

/-- A step that leaves nothing due ends with its answers made deliverable. -/
theorem finish_of_quiet (s : State) (h : s.quiet = true) : s.finish = s.noteDeliverable.endStep := by
  unfold State.finish; rw [settle_of_quiet _ _ h]

end Sys2Proof.Machine
end

