-- ==== Sys2Proof/Laws/Requests.lean ====
section
/-! SUPPORT. The course of a request (R136, R140): of one that has just been taken, where nothing in the hold queue stands in its
way, and of a held one in its place in the queue. -/

namespace Sys2Proof.Machine

/-- A sweep that takes nothing out changes nothing. -/
theorem sweepQueue_none (p : Held → Bool) (q : List Held) (hq : ∀ h ∈ q, p h = false) :
    ∀ ahead, sweepQueue p ahead false q = q := by
  induction q with
  | nil => intro _; rfl
  | cons x q ih =>
    intro ahead
    unfold sweepQueue
    rw [hq x (List.mem_cons_self ..)]
    simp only [Bool.false_eq_true, if_false, Bool.false_and]
    exact congrArg _ (ih (fun h hh => hq h (List.mem_cons_of_mem _ hh)) _)

/-- A new request has the identity of no held one. -/
theorem fresh_held {s : State} (h : s.IdsOk) : ∀ x ∈ s.holdQ, x.id ≠ s.nextReq := by
  intro x hx e
  have := h.heldBelow x.id (List.mem_map.mpr ⟨x, hx, rfl⟩)
  omega

/-- A new request has the identity of none in the tag order. -/
theorem fresh_request {s : State} (h : s.IdsOk) : ∀ x ∈ s.tagOrder, x.id ≠ s.nextReq := by
  intro x hx e
  have := h.requestsBelow x.id (List.mem_map.mpr ⟨x, hx, rfl⟩)
  omega

/-- A new request has the identity of no resolved read. -/
theorem fresh_read {s : State} (h : s.IdsOk) : ∀ x ∈ s.reads, x.id ≠ s.nextReq := by
  intro x hx e
  have := h.readsBelow x.id (List.mem_map.mpr ⟨x, hx, rfl⟩)
  omega

/-- A request that is not in the hold queue leaves it as it is. -/
theorem leave_absent (s : State) (id : Nat) (h : ∀ x ∈ s.holdQ, x.id ≠ id) : s.leave id = s := by
  unfold State.leave State.dropHeld
  rw [sweepQueue_none]
  intro x hx
  simpa using h x hx

/-- Every held request is ahead of one that is not in the queue. -/
theorem aheadOf_absent (s : State) (id : Nat) (h : ∀ x ∈ s.holdQ, x.id ≠ id) : s.aheadOf id = s.holdQ := by
  unfold State.aheadOf
  generalize s.holdQ = q at h
  induction q with
  | nil => rfl
  | cons x q ih =>
    have hx : (x.id != id) = true := by simpa using h x (List.mem_cons_self ..)
    rw [List.takeWhile_cons, if_pos hx, ih fun y hy => h y (List.mem_cons_of_mem _ hy)]

/-- A request that is not in the queue is held at its back. -/
theorem hold_absent (s : State) (x : Held) (h : ∀ y ∈ s.holdQ, y.id ≠ x.id) :
    s.hold x = { s with holdQ := s.holdQ ++ [x] } := by
  unfold State.hold
  rw [if_neg]
  simpa using h

/-- An answer to a request that a list does not hold leaves the list as it is. -/
theorem map_answer_absent (ts : List Taken) (n : Nat) (a : Answer) (h : ∀ x ∈ ts, x.id ≠ n) :
    ts.map (fun t => if t.id = n then { t with answer := some a } else t) = ts := by
  induction ts with
  | nil => rfl
  | cons x ts ih =>
    rw [List.map_cons, if_neg (h x (List.mem_cons_self ..)), ih fun y hy => h y (List.mem_cons_of_mem _ hy)]

/-- The shape checks, as R133 words them. -/
theorem shapeOk_iff (r : Request) : r.shapeOk = true ↔ 1 ≤ r.beats ∧ r.beats ≤ 8 ∧ r.addr.toNat % 32 = 0 ∧
    r.addr.toNat / 256 = (r.addr.toNat + 32 * r.beats - 1) / 256 := by
  unfold Request.shapeOk Request.base
  simp only [Bool.and_eq_true, decide_eq_true_eq, beq_iff_eq]
  constructor
  · rintro ⟨⟨⟨h1, h2⟩, h3⟩, h4⟩
    refine ⟨h1, h2, h3, ?_⟩
    omega
  · rintro ⟨h1, h2, h3, h4⟩
    refine ⟨⟨⟨h1, h2⟩, h3⟩, ?_⟩
    omega

/-- A request that passes the shape checks runs its course. -/
theorem exec_upstreamRequest (r : Request) (s : State) (h : s.holdQ.length < 16) (hs : r.shapeOk = true) :
    exec (.upstreamRequest r) s = .next ((s.joinTagOrder r).course s.nextReq r).finish := by
  show Host.Outcome.next (State.finish (State.takeRequest s r)) = _
  unfold State.takeRequest
  rw [if_pos (by simpa [Config.holdQueue] using h), if_pos hs]

/-- The answer to a request that has just joined the tag order. -/
theorem answer_joined (r : Request) (s : State) (a : Answer) (h : s.IdsOk) :
    (s.joinTagOrder r).answer s.nextReq a =
      { s with nextReq := s.nextReq + 1, tagOrder := s.tagOrder ++ [⟨s.nextReq, r.tag, r.kind, r.beats, some a⟩] } := by
  simp [State.answer, State.joinTagOrder, map_answer_absent _ _ _ (fresh_request h)]

/-- The course of a new request whose tag no held request has. -/
theorem course_new (r : Request) (s : State) (hi : s.IdsOk) (ht : ∀ h ∈ s.holdQ, h.req.tag ≠ r.tag) :
    (s.joinTagOrder r).course s.nextReq r =
      match s.decodeRequest r with
      | .answered a causes => (((s.joinTagOrder r).raiseAll causes).answer s.nextReq a).leave s.nextReq
      | .passThrough =>
        (s.joinTagOrder r).orderedServe s.nextReq r none [] ((s.joinTagOrder r).servePass s.nextReq r)
      | .placing st slot ps vacant =>
        (s.joinTagOrder r).orderedServe s.nextReq r (some st) (pieceTiles slot ps)
          ((s.joinTagOrder r).serveWrite s.nextReq r st slot ps vacant)
      | .reading st slot ps =>
        (s.joinTagOrder r).orderedServe s.nextReq r (some st) (pieceTiles slot ps)
          ((s.joinTagOrder r).serveRead s.nextReq r st slot ps) := by
  have ha : (s.joinTagOrder r).aheadOf s.nextReq = s.holdQ := aheadOf_absent (s.joinTagOrder r) _ (fresh_held hi)
  unfold State.course
  rw [ha, if_neg]
  · rfl
  · simpa using ht

/-- Step 4 of the course lets a new request pass that overlaps no held one. -/
theorem orderedServe_new (r : Request) (s t : State) (hi : s.IdsOk) (st : Option StreamId) (ts : List (Nat × Nat))
    (ho : ∀ h ∈ s.holdQ, h.overlaps r.block st ts = false) :
    (s.joinTagOrder r).orderedServe s.nextReq r st ts t = t := by
  have ha : (s.joinTagOrder r).aheadOf s.nextReq = s.holdQ := aheadOf_absent (s.joinTagOrder r) _ (fresh_held hi)
  unfold State.orderedServe
  rw [ha, if_neg]
  simpa using ho

/-- The decode of an aperture hit in MANAGED mode. -/
theorem decode_hit (r : Request) (s : State) (st : StreamId) (hm : s.mode = .managed)
    (h : s.apertureHit r = some st) : s.decodeRequest r = decodeHit (s.stream st) st r := by
  unfold State.decodeRequest
  rw [hm, h]

/-- The decode of an aperture hit of an OPEN or CLOSING stream. -/
theorem decodeHit_running (x : Stream) (st : StreamId) (r : Request) (h : x.state = .opened ∨ x.state = .closing) :
    decodeHit x st r = decodeRunning x st r := by
  unfold decodeHit
  rcases h with h | h <;> rw [h]

/-- Storing pieces does not look at the tag order, and leaves it alone. -/
theorem storePieces_tagOrder (st : StreamId) (r : Request) (ps : List (Piece × PieceTile)) (s : State) (ts : List Taken)
    (n : Nat) :
    ({ s with tagOrder := ts, nextReq := n } : State).storePieces st r ps =
      { s.storePieces st r ps with tagOrder := ts, nextReq := n } := by
  induction ps generalizing s with
  | nil => rfl
  | cons p ps ih => exact ih (s.storePiece st r p.1 p.2)

/-- Raising causes leaves the queue, the tag order and the count of requests alone. -/
theorem raiseAll_joined (r : Request) (cs : List (Cause × StreamId)) (s : State) :
    (s.joinTagOrder r).raiseAll cs = (s.raiseAll cs).joinTagOrder r ∧ (s.raiseAll cs).holdQ = s.holdQ ∧
      (s.raiseAll cs).tagOrder = s.tagOrder ∧ (s.raiseAll cs).nextReq = s.nextReq := by
  induction cs generalizing s with
  | nil => exact ⟨rfl, rfl, rfl, rfl⟩
  | cons c cs ih =>
    obtain ⟨h1, h2, h3, h4⟩ := ih (s.raise c.1 c.2)
    exact ⟨h1, h2, h3, h4⟩

/-- A new request that is answered at decode. -/
theorem course_answered (r : Request) (s : State) (hi : s.IdsOk) (ht : ∀ h ∈ s.holdQ, h.req.tag ≠ r.tag)
    (a : Answer) (cs : List (Cause × StreamId)) (hd : s.decodeRequest r = .answered a cs) :
    (s.joinTagOrder r).course s.nextReq r =
      { s.raiseAll cs with
        nextReq := s.nextReq + 1
        tagOrder := s.tagOrder ++ [⟨s.nextReq, r.tag, r.kind, r.beats, some a⟩] } := by
  rw [course_new r s hi ht, hd]
  dsimp only
  obtain ⟨h1, h2, h3, h4⟩ := raiseAll_joined r cs s
  rw [h1, leave_absent]
  · simp [State.answer, State.joinTagOrder, h3, h4, map_answer_absent _ _ _ (fresh_request hi)]
  · intro x hx
    exact fresh_held hi x (h2 ▸ hx)

/-! ### A request in its place in the hold queue -/

/-- In a queue of different identities, the others have not the identity of one. -/
theorem ids_split {ahead behind : List Held} {h : Held} (hn : ((ahead ++ h :: behind).map Held.id).Nodup) :
    (∀ x ∈ ahead, x.id ≠ h.id) ∧ ∀ x ∈ behind, x.id ≠ h.id := by
  rw [List.map_append, List.map_cons, List.nodup_append] at hn
  obtain ⟨_, h2, h3⟩ := hn
  rw [List.nodup_cons] at h2
  refine ⟨fun x hx => h3 x.id (List.mem_map.mpr ⟨x, hx, rfl⟩) h.id (List.mem_cons_self ..), fun x hx e => ?_⟩
  exact h2.1 (e ▸ List.mem_map.mpr ⟨x, hx, rfl⟩)

/-- The requests ahead of one in the queue. -/
theorem aheadOf_split {s : State} {ahead behind : List Held} {h : Held} (hq : s.holdQ = ahead ++ h :: behind)
    (hn : (s.holdQ.map Held.id).Nodup) : s.aheadOf h.id = ahead := by
  rw [hq] at hn
  have ha := (ids_split hn).1
  unfold State.aheadOf
  rw [hq]
  clear hq hn
  induction ahead with
  | nil => simp
  | cons x q ih =>
    have hx : (x.id != h.id) = true := by simpa using ha x (List.mem_cons_self ..)
    rw [List.cons_append, List.takeWhile_cons, if_pos hx, ih fun y hy => ha y (List.mem_cons_of_mem _ hy)]

/-- Replacing the request with an identity. -/
theorem map_split {ahead behind : List Held} {h : Held} (hn : ((ahead ++ h :: behind).map Held.id).Nodup) (f : Held → Held) :
    (ahead ++ h :: behind).map (fun x => if x.id = h.id then f x else x) = ahead ++ f h :: behind := by
  obtain ⟨ha, hb⟩ := ids_split hn
  have key : ∀ q : List Held, (∀ x ∈ q, x.id ≠ h.id) → q.map (fun x => if x.id = h.id then f x else x) = q := by
    intro q hq
    induction q with
    | nil => rfl
    | cons x q ih => rw [List.map_cons, if_neg (hq x (List.mem_cons_self ..)), ih fun y hy => hq y (List.mem_cons_of_mem _ hy)]
  rw [List.map_append, List.map_cons, key ahead ha, key behind hb, if_pos rfl]

/-- A request in the queue is held again in its place (R140). -/
theorem hold_split {s : State} {ahead behind : List Held} {h : Held} (hq : s.holdQ = ahead ++ h :: behind)
    (hn : (s.holdQ.map Held.id).Nodup) (x : Held) (hx : x.id = h.id) :
    s.hold x = { s with holdQ := ahead ++ x :: behind } := by
  unfold State.hold
  rw [if_pos]
  · rw [hq] at hn
    rw [hq, hx, map_split hn fun _ => x]
  · rw [hq, List.any_append, List.any_cons]
    simp [hx]

/-- A request in the queue is taken up in its place (R140). -/
theorem takeUp_split {s : State} {ahead behind : List Held} {h : Held} (hq : s.holdQ = ahead ++ h :: behind)
    (hn : (s.holdQ.map Held.id).Nodup) : s.takeUp h.id = { s with holdQ := ahead ++ { h with released := false } :: behind } := by
  unfold State.takeUp
  rw [hq] at hn
  rw [hq, map_split hn fun x => { x with released := false }]

/-- The request with an identity is found in its place. -/
theorem find_split {ahead behind : List Held} {h : Held} (hn : ((ahead ++ h :: behind).map Held.id).Nodup) :
    (ahead ++ h :: behind).find? (fun x => x.id == h.id) = some h := by
  have ha := (ids_split hn).1
  rw [List.find?_append, List.find?_eq_none.mpr (by intro x hx; simpa using ha x hx), Option.none_or, List.find?_cons]
  simp

/-- What an order test sees of a request ahead. -/
def Held.seen (h : Held) : Request × Bool × Option StreamId × List (Nat × Nat) := (h.req, h.closingHeld, h.stream, h.tiles)

/-- An order test depends on what it sees of the requests ahead. -/
theorem orderClear_congr (h : Held) {as bs : List Held} (e : as.map Held.seen = bs.map Held.seen) :
    h.orderClear as = h.orderClear bs := by
  have key (f : Request × Bool × Option StreamId × List (Nat × Nat) → Bool) :
      as.any (fun a => f a.seen) = bs.any (fun a => f a.seen) := by
    have := congrArg (List.any · f) e
    simpa only [List.any_map, Function.comp_def] using this
  unfold Held.orderClear
  cases h.reason with
  | tagOrder => exact congrArg not (key fun a => a.1.tag == h.req.tag)
  | overlap =>
    exact congrArg not (key fun a => !a.2.1 &&
      (a.1.block == h.req.block || (h.stream.isSome && a.2.2.1 == h.stream && h.tiles.any fun t => a.2.2.2.contains t)))
  | _ => rfl

/-- A request held for its order is not held with CLOSING, released or not. -/
theorem seen_released (h : Held) (as : List Held) (hc : h.orderClear as = true) : Held.seen { h with released := true } = h.seen := by
  unfold Held.orderClear at hc
  unfold Held.seen Held.closingHeld
  cases hr : h.reason <;> simp_all

/-- The requests behind one that left are tested again in turn, each against those then ahead of it (R138, R140). -/
theorem sweepQueue_behind (p : Held → Bool) (q : List Held) (hp : ∀ x ∈ q, p x = false) :
    ∀ ahead ahead' : List Held, ahead.map Held.seen = ahead'.map Held.seen →
      sweepQueue p ahead true q =
        q.mapIdx fun i h => if h.orderClear (ahead' ++ q.take i) then { h with released := true } else h := by
  induction q with
  | nil => intro _ _ _; rfl
  | cons x q ih =>
    intro ahead ahead' e
    unfold sweepQueue
    rw [hp x (List.mem_cons_self ..), if_neg (by simp), List.mapIdx_cons]
    simp only [Bool.true_and, List.take_zero, List.append_nil, orderClear_congr x e, List.take_succ_cons]
    congr 1
    rw [ih (fun y hy => hp y (List.mem_cons_of_mem _ hy)) _ (ahead' ++ [x])]
    · simp only [List.append_assoc, List.singleton_append]
      rfl
    · rw [List.map_append, List.map_append, e]
      congr 1
      simp only [List.map_cons, List.map_nil]
      split
      · rename_i hc
        rw [seen_released x _ hc]
      · rfl

/-- Where a request that stays stands after a sweep: behind the ones ahead of it that stay, itself but for its release, which
it has where one ahead of it left and its order test, against those then ahead of it, is clear (R138, R140). -/
theorem sweepQueue_split (p : Held → Bool) (q : List Held) : ∀ (pre : List Held) (gone : Bool) (ahead behind : List Held)
    (h : Held), q = ahead ++ h :: behind → p h = false → ∃ before after,
      before.map Held.id = (ahead.filter fun a => !p a).map Held.id ∧
      sweepQueue p pre gone q = before ++
        (if (gone = true ∨ ∃ a ∈ ahead, p a = true) ∧ h.orderClear (pre ++ before) = true
          then { h with released := true } else h) :: after := by
  induction q with
  | nil => intro pre gone ahead behind h e; simp at e
  | cons x q ih =>
    intro pre gone ahead behind h e hp
    cases ahead with
    | nil =>
      rw [List.nil_append] at e
      cases e
      refine ⟨[], sweepQueue p (pre ++ [if gone && x.orderClear pre then { x with released := true } else x]) gone q,
        rfl, ?_⟩
      rw [sweepQueue, hp, if_neg (by simp)]
      simp
    | cons a ahead =>
      rw [List.cons_append] at e
      obtain ⟨hxa, e'⟩ := List.cons.inj e
      subst hxa
      rw [sweepQueue]
      by_cases ha : p x = true
      · obtain ⟨before, after, h1, h2⟩ := ih pre true ahead behind h e' hp
        refine ⟨before, after, ?_, ?_⟩
        · rw [h1, List.filter_cons, ha]
          rfl
        · rw [if_pos ha, h2]
          simp [ha]
      · rw [Bool.not_eq_true] at ha
        rw [if_neg (by simp [ha])]
        dsimp only
        generalize hx : (if (gone && x.orderClear pre) = true then { x with released := true } else x) = x'
        have hid : x'.id = x.id := by rw [← hx]; split <;> rfl
        obtain ⟨before, after, h1, h2⟩ := ih (pre ++ [x']) gone ahead behind h e' hp
        refine ⟨x' :: before, after, ?_, ?_⟩
        · rw [List.map_cons, h1, hid, List.filter_cons, ha]
          rfl
        · rw [h2]
          simp [ha]

/-- A request leaves its place: those behind it are tested again (R138, R140). -/
theorem leave_split {s : State} {ahead behind : List Held} {h : Held} (hq : s.holdQ = ahead ++ h :: behind)
    (hn : (s.holdQ.map Held.id).Nodup) :
    s.leave h.id = { s with
      holdQ := ahead ++ behind.mapIdx fun i x =>
        if x.orderClear (ahead ++ behind.take i) then { x with released := true } else x } := by
  rw [hq] at hn
  obtain ⟨ha, hb⟩ := ids_split hn
  have pass : ∀ q pre : List Held, (∀ x ∈ q, x.id ≠ h.id) →
      sweepQueue (fun x => x.id == h.id) pre false (q ++ h :: behind) =
        q ++ sweepQueue (fun x => x.id == h.id) (pre ++ q) true behind := by
    intro q
    induction q with
    | nil =>
      intro pre _
      conv => lhs; unfold sweepQueue
      rw [List.nil_append]
      dsimp only
      rw [if_pos (by simp), List.append_nil, List.nil_append]
    | cons x q ih =>
      intro pre hx
      rw [List.cons_append]
      conv => lhs; unfold sweepQueue
      rw [if_neg (by simpa using hx x (List.mem_cons_self ..))]
      simp only [Bool.false_and, Bool.false_eq_true, if_false]
      rw [ih _ fun y hy => hx y (List.mem_cons_of_mem _ hy)]
      simp only [List.cons_append, List.append_assoc, List.nil_append]
  unfold State.leave State.dropHeld
  rw [hq, pass ahead [] ha, List.nil_append, sweepQueue_behind _ behind (by intro x hx; simpa using hb x hx) ahead ahead rfl]

/-- A released request is retried: taken up in its place, it runs its course, and the completions that it makes due follow
(R140). -/
theorem retryOne_split {s : State} {ahead behind : List Held} {h : Held} (hq : s.holdQ = ahead ++ h :: behind)
    (hn : (s.holdQ.map Held.id).Nodup) (hr : h.released = true) :
    s.retryOne h.id =
      (State.course { s with holdQ := ahead ++ { h with released := false } :: behind } h.id h.req).settleCommits := by
  unfold State.retryOne
  rw [takeUp_split hq hn]
  rw [hq] at hn ⊢
  rw [find_split hn]
  dsimp only
  rw [if_pos hr]

end Sys2Proof.Machine
end

