-- ==== Sys2Proof/Laws/Answers.lean ====
section
/-! SUPPORT. Answers (R149): what an answer to an issued transfer does, and how the records of what is outstanding read. -/

namespace Sys2Proof.Machine

/-- An answer to an issued internal transfer that its owner has not abandoned is handed to the owner. -/
theorem internalAnswer_handed {s : State} {mine : Owner → Bool} {a : DramAnswer} {deliver : State → Owner → Wire → State}
    {x : Xfer} (hf : s.internal.find? (fun y => y.id == a.xfer && y.tag == a.tag && y.issued) = some x) (ha : x.abandoned = false)
    (hm : mine x.owner = true) (hw : x.wire.fits a = true) :
    s.internalAnswer mine a deliver = deliver { s with internal := s.internal.filter fun y => y.id != x.id } x.owner x.wire := by
  unfold State.internalAnswer issuedXfer
  rw [hf]
  simp only [ha, hm, hw, Bool.false_eq_true, if_false, Bool.and_self, if_true]
  rfl

/-- An answer to an abandoned internal transfer ends it and nothing else. -/
theorem internalAnswer_abandoned {s : State} {mine : Owner → Bool} {a : DramAnswer}
    {deliver : State → Owner → Wire → State} {x : Xfer}
    (hf : s.internal.find? (fun y => y.id == a.xfer && y.tag == a.tag && y.issued) = some x) (ha : x.abandoned = true) :
    s.internalAnswer mine a deliver = { s with internal := s.internal.filter fun y => y.id != x.id } := by
  unfold State.internalAnswer issuedXfer
  rw [hf]
  simp only [ha, if_true]
  rfl

/-- An answer to no issued internal transfer changes nothing. -/
theorem internalAnswer_none {s : State} {mine : Owner → Bool} {a : DramAnswer} {deliver : State → Owner → Wire → State}
    (hf : s.internal.find? (fun y => y.id == a.xfer && y.tag == a.tag && y.issued) = none) : s.internalAnswer mine a deliver = s := by
  unfold State.internalAnswer issuedXfer
  rw [hf]

/-- The data of an answer fit a READ: an OKAY answer brings all of it. -/
theorem fits_read {w : Wire} {a : DramAnswer} (hk : w.kind = .read)
    (hd : a.status = .okay → a.data.length = 32 * w.beats) : w.fits a = true := by
  unfold Wire.fits
  rw [hk]
  cases h : a.status with
  | okay => simpa using hd h
  | dataError => rfl

/-- Any answer fits a WRITE. -/
theorem fits_write {w : Wire} {a : DramAnswer} (hk : w.kind = .write) : w.fits a = true := by
  unfold Wire.fits
  rw [hk]

/-- A DATA-ERROR answer fits any transfer. -/
theorem fits_dataError {w : Wire} {a : DramAnswer} (hs : a.status = .dataError) : w.fits a = true := by
  unfold Wire.fits
  rw [hs]
  cases w.kind <;> rfl

/-- A transfer with an owner is outstanding. -/
theorem outstanding_owner (s : State) (o : Owner) :
    (s.outstanding fun p => p == o) = true ↔ ∃ x ∈ s.internal, x.owner = o := by
  unfold State.outstanding
  rw [List.any_eq_true]
  constructor
  · rintro ⟨x, hx, h⟩
    exact ⟨x, hx, eq_of_beq h⟩
  · rintro ⟨x, hx, h⟩
    exact ⟨x, hx, beq_iff_eq.mpr h⟩

/-- No transfer with an owner is outstanding. -/
theorem outstanding_owner_false (s : State) (o : Owner) (h : ∀ x ∈ s.internal, x.owner ≠ o) :
    (s.outstanding fun p => p == o) = false := by
  rw [← Bool.not_eq_true]
  intro hh
  obtain ⟨x, hx, e⟩ := (outstanding_owner s o).mp hh
  exact h x hx e

/-- Replacing a stream's record twice. -/
theorem setStream_setStream (s : State) (st : StreamId) (x y : Stream) :
    (s.setStream st x).setStream st y = s.setStream st y := by
  unfold State.setStream
  simp only [Vector.set_set]

end Sys2Proof.Machine
end

