-- ==== Sys2Proof/Laws/Link.lean ====
section
/-! SUPPORT. The management link (R152, R153): the bits of a frame read back as the command they spell, and what a frame's bits do:
its command, taken once, at the last bit of byte 9. -/

namespace Sys2Proof

/-! ### Bits -/

theorem length_bitsOf (w v : Nat) : (bitsOf w v).length = w := by
  induction w with
  | zero => rfl
  | succ w ih => simp [bitsOf, ih]

/-- Bits shifted most significant first read back as their value. -/
theorem bitsNat_bitsOf (w v : Nat) : bitsNat (bitsOf w v) = v % 2 ^ w := by
  induction w with
  | zero => simp [bitsOf, bitsNat, Nat.mod_one]
  | succ w ih =>
    unfold bitsOf bitsNat
    have hb : (v.testBit w).toNat = v / 2 ^ w % 2 := by
      rw [Nat.testBit_eq_decide_div_mod_eq]
      rcases Nat.mod_two_eq_zero_or_one (v / 2 ^ w) with h | h <;> simp [h]
    rw [ih, length_bitsOf, Nat.mod_pow_succ, hb, Nat.mul_comm, Nat.add_comm]

theorem length_frameBits (code sb : Byte) (arg : BitVec 64) : (frameBits code sb arg).length = 80 := by
  simp [frameBits, length_bitsOf]

/-- Byte 0 of a frame reads back as the code. -/
theorem frameCode_frameBits (code sb : Byte) (arg : BitVec 64) : frameCode (frameBits code sb arg) = code := by
  have h : (frameBits code sb arg).take 8 = bitsOf 8 code.toNat := by
    unfold frameBits
    rw [List.append_assoc, List.take_left' (length_bitsOf ..)]
  unfold frameCode
  rw [h, bitsNat_bitsOf, Nat.mod_eq_of_lt code.isLt, BitVec.ofNat_toNat, BitVec.setWidth_eq]

/-- Byte 1 of a frame reads back as the stream number. -/
theorem frameStream_frameBits (code sb : Byte) (arg : BitVec 64) : frameStream (frameBits code sb arg) = sb := by
  have h : ((frameBits code sb arg).drop 8).take 8 = bitsOf 8 sb.toNat := by
    unfold frameBits
    rw [List.append_assoc, List.drop_left' (length_bitsOf ..), List.take_left' (length_bitsOf ..)]
  unfold frameStream
  rw [h, bitsNat_bitsOf, Nat.mod_eq_of_lt sb.isLt, BitVec.ofNat_toNat, BitVec.setWidth_eq]

/-- Bytes 2 to 9 of a frame read back as the argument. -/
theorem frameArg_frameBits (code sb : Byte) (arg : BitVec 64) : frameArg (frameBits code sb arg) = arg := by
  have h : (frameBits code sb arg).drop 16 = bitsOf 64 arg.toNat := by
    unfold frameBits
    rw [List.drop_left' (by simp [length_bitsOf])]
  unfold frameArg
  rw [h, bitsNat_bitsOf, Nat.mod_eq_of_lt arg.isLt, BitVec.ofNat_toNat, BitVec.setWidth_eq]

/-- A code that the command table does not list names no command (R153). -/
theorem commandOf_none {code : Byte} (h : code ∉ commandTable.map Prod.fst) : commandOf code = none :=
  List.lookup_eq_none_iff.mpr fun p hp => by
    simpa using fun e : code = p.1 => h (e ▸ List.mem_map.mpr ⟨p, hp, rfl⟩)

/-- Bit `i` of the bits as they are shifted. -/
theorem bitsOf_getElem? (w v i : Nat) (h : i < w) : (bitsOf w v)[i]? = some (v.testBit (w - 1 - i)) := by
  induction w generalizing i with
  | zero => omega
  | succ w ih =>
    unfold bitsOf
    cases i with
    | zero => rfl
    | succ i =>
      rw [List.getElem?_cons_succ, ih i (by omega)]
      congr 2
      omega

end Sys2Proof

namespace Sys2Proof.Machine

/-! ### The link's frame has no part in what a command does -/

theorem lookupCells_frame (st : StreamId) (f : Option Frame) (cs : List Nat) : ∀ s : State,
    State.lookupCells { s with frame := f } st cs =
      ((s.lookupCells st cs).1, { (s.lookupCells st cs).2 with frame := f }) := by
  induction cs with
  | nil => intro s; rfl
  | cons c cs ih =>
    intro s
    have h1 : State.lookupCell { s with frame := f } st c = ((s.lookupCell st c).1, { (s.lookupCell st c).2 with frame := f }) := by
      unfold State.lookupCell
      dsimp only
      show (match (MapMemory.read s.mapMem (s.cellKey st c)).ecc with | .good => _ | .single => _ | .double => _) = _
      cases (MapMemory.read s.mapMem (s.cellKey st c)).ecc <;> rfl
    unfold State.lookupCells
    rw [h1]
    dsimp only
    rw [ih]

theorem faultStream_frame (s : State) (f : Option Frame) (c : Cause) (st : StreamId) :
    State.faultStream { s with frame := f } c st = { s.faultStream c st with frame := f } := by
  unfold State.faultStream
  show (if (s.stream st).running then _ else _) = _
  split <;> rfl

theorem takeKind_frame (s : State) (f : Option Frame) (c : Commit) (e : Entry) (k : CommitKind) :
    State.takeKind { s with frame := f } c e k = { s.takeKind c e k with frame := f } := by
  unfold State.takeKind
  dsimp only
  cases k <;> dsimp only
  case retained => rfl
  case aliased => split <;> rfl
  case partialTile =>
    cases c.prev <;> dsimp only
    case aliasOf => rfl
    all_goals split <;> rfl
  all_goals split <;> rfl

theorem decideCommit_frame (s : State) (f : Option Frame) (c : Commit) (e : Entry) (r : PosRecord) :
    State.decideCommit { s with frame := f } c e r = { s.decideCommit c e r with frame := f } := by
  unfold State.decideCommit
  dsimp only
  have h : State.stream { s with frame := f } c.stream = s.stream c.stream := rfl
  rw [h]
  split
  · exact takeKind_frame ..
  · split
    · exact takeKind_frame ..
    · split
      · split
        · rfl
        · exact takeKind_frame (s.updateCommit ..) ..
      · exact takeKind_frame ..

theorem startCommit_frame (s : State) (f : Option Frame) (r : Reason) (num : Nat) :
    State.startCommit { s with frame := f } r num = { s.startCommit r num with frame := f } := by
  unfold State.startCommit
  have h : State.entryNum { s with frame := f } num = s.entryNum num := rfl
  rw [h]
  cases s.entryNum num with
  | none => rfl
  | some e =>
    dsimp only
    split
    · have hl := lookupCells_frame e.stream f (commitCells (s.geometry e.stream) e.slot e.pos) (s.commitEntry num r)
      have hc : State.commitEntry { s with frame := f } num r = { s.commitEntry num r with frame := f } := rfl
      have hg : State.geometry { s with frame := f } e.stream = s.geometry e.stream := rfl
      rw [hc, hg, hl]
      generalize (s.commitEntry num r).lookupCells e.stream (commitCells (s.geometry e.stream) e.slot e.pos) = q
      obtain ⟨v, s2⟩ := q
      cases v with
      | none => exact faultStream_frame ..
      | some vals => exact decideCommit_frame (s2.addCommit _) ..
    · rfl

theorem startCommits_frame (f : Option Frame) (r : Reason) (ns : List Nat) : ∀ s : State,
    State.startCommits { s with frame := f } r ns = { s.startCommits r ns with frame := f } := by
  induction ns with
  | nil => intro s; rfl
  | cons n ns ih =>
    intro s
    show State.startCommits (State.startCommit { s with frame := f } r n) r ns = _
    rw [startCommit_frame, ih]
    rfl

theorem command_frame (s : State) (g : Option Frame) (f : Frame) (k : CmdClass) (sb : Byte) (own own' : Effect)
    (h : own'.result = own.result ∧ own'.data = own.data ∧ own'.after = { own.after with frame := g }) :
    State.command { s with frame := g } f k sb own' = s.command f k sb own := by
  unfold State.command
  have hg : State.gate { s with frame := g } k sb = s.gate k sb := rfl
  rw [hg]
  cases s.gate k sb with
  | some r => rfl
  | none =>
    dsimp only
    rw [h.1, h.2.1, h.2.2]
    rfl

theorem takeCommand_frame (s : State) (g : Option Frame) (f : Frame) (code sb : Byte) (arg : BitVec 64) :
    State.takeCommand { s with frame := g } f code sb arg = s.takeCommand f code sb arg := by
  unfold State.takeCommand
  cases commandOf code with
  | none => rfl
  | some c =>
    dsimp only
    have k (q : CmdClass) (own own' : Effect) h := command_frame s g f q sb own own' h
    cases c
    case identify => exact k .always s.identifyEffect (State.identifyEffect { s with frame := g }) ⟨rfl, rfl, rfl⟩
    case readStatus => exact k .always s.readStatusEffect (State.readStatusEffect { s with frame := g }) ⟨rfl, rfl, rfl⟩
    case readStream =>
      refine k _ _ _ ?_
      exact ⟨rfl, rfl, rfl⟩
    case readCause =>
      refine k _ _ _ ?_
      unfold State.readCauseEffect
      have h : State.selectCause { s with frame := g } = s.selectCause := rfl
      rw [h]
      cases s.selectCause <;> exact ⟨rfl, rfl, rfl⟩
    case setCauseLevel =>
      refine k _ _ _ ?_
      unfold State.setCauseLevelEffect
      split <;> exact ⟨rfl, rfl, rfl⟩
    case setAge =>
      refine congrArg State.finish (k _ _ _ ?_)
      unfold State.setAgeEffect
      cases dividerOf (argByte arg 0) with
      | none => exact ⟨rfl, rfl, rfl⟩
      | some d => exact ⟨rfl, rfl, startCommits_frame _ _ _ ((s.setAgeing d (argByte arg 1)).restartPeriod)⟩
    case streamSetup =>
      refine k _ _ _ ?_
      unfold State.streamSetupEffect
      have h : State.stream { s with frame := g } (streamOf sb) = s.stream (streamOf sb) := rfl
      rw [h]
      cases (s.stream (streamOf sb)).state <;> dsimp only
      case free => split <;> exact ⟨rfl, rfl, rfl⟩
      all_goals exact ⟨rfl, rfl, rfl⟩
    case streamAdvance =>
      refine congrArg State.finish (k _ _ _ ?_)
      unfold State.streamAdvanceEffect
      have h : State.stream { s with frame := g } (streamOf sb) = s.stream (streamOf sb) := rfl
      rw [h]
      cases (s.stream (streamOf sb)).state <;> dsimp only
      case opened =>
        split
        · exact ⟨rfl, rfl, startCommits_frame _ _ _ (s.setStream ..)⟩
        · exact ⟨rfl, rfl, rfl⟩
      all_goals exact ⟨rfl, rfl, rfl⟩
    case streamTeardown =>
      refine congrArg State.finish (k _ _ _ ?_)
      unfold State.streamTeardownEffect
      have h : State.stream { s with frame := g } (streamOf sb) = s.stream (streamOf sb) := rfl
      rw [h]
      cases (s.stream (streamOf sb)).state <;> exact ⟨rfl, rfl, rfl⟩
    case windowSet =>
      refine k _ _ _ ?_
      unfold State.windowSetEffect
      have h : State.stream { s with frame := g } (streamOf sb) = s.stream (streamOf sb) := rfl
      rw [h]
      split <;> exact ⟨rfl, rfl, rfl⟩
    case resetPart =>
      refine congrArg State.finish (k _ _ _ ?_)
      exact ⟨rfl, rfl, rfl⟩

/-! ### The course of a frame -/

/-- The position of a frame in bits. -/
def Frame.place (f : Frame) : Nat := 8 * f.byte + f.bit

theorem Frame.place_clock (f : Frame) (b : Bool) (h : f.bit < 8) :
    (f.clock b).place = f.place + 1 ∧ (f.clock b).bit < 8 := by
  unfold Frame.place Frame.clock
  dsimp only
  split <;> omega

/-- A frame is its position, its bits and its response. -/
theorem Frame.eq_of_place {f g : Frame} (hp : f.place = g.place) (hf : f.bit < 8) (hg : g.bit < 8)
    (hs : f.shifted = g.shifted) (hr : f.response = g.response) : f = g := by
  unfold Frame.place at hp
  obtain ⟨_, _, _, _⟩ := f
  obtain ⟨_, _, _, _⟩ := g
  simp only [Frame.mk.injEq] at *
  refine ⟨?_, ?_, hs, hr⟩ <;> omega

theorem shiftIn_append (s : State) (xs ys : List Bool) : s.shiftIn (xs ++ ys) = (s.shiftIn xs).shiftIn ys := by
  simp [State.shiftIn, List.foldl_append]

/-- Without a frame the link waits (R152). -/
theorem shiftIn_none (bits : List Bool) (s : State) (h : s.frame = none) : s.shiftIn bits = s := by
  induction bits with
  | nil => rfl
  | cons b bits ih =>
    have : s.clockIn b = s := by unfold State.clockIn; rw [h]
    show (s.clockIn b).shiftIn bits = s
    rw [this, ih]

/-- A frame that has taken its command only moves on: MSDI is ignored (R152). -/
theorem shiftIn_taken (bits : List Bool) : ∀ (s : State) (f : Frame) (r : List Byte), s.frame = some f → f.response = some r →
    f.bit < 8 → 10 ≤ f.byte →
    s.shiftIn bits = { s with
      frame := some ⟨(f.place + bits.length) / 8, (f.place + bits.length) % 8, f.shifted, some r⟩ } := by
  induction bits with
  | nil =>
    intro s f r h hr hb _
    have : f = ⟨(f.place + 0) / 8, (f.place + 0) % 8, f.shifted, some r⟩ := by
      refine Frame.eq_of_place ?_ hb (Nat.mod_lt _ (by decide)) rfl hr
      show f.place = 8 * ((f.place + 0) / 8) + (f.place + 0) % 8
      omega
    show s = _
    rw [List.length_nil, ← this, ← h]
  | cons b bits ih =>
    intro s f r h hr hb hy
    have hc := f.place_clock b hb
    have hs : (f.clock b).shifted = f.shifted := by
      unfold Frame.clock
      exact if_neg (by omega)
    have hr' : (f.clock b).response = some r := hr
    have hy' : 10 ≤ (f.clock b).byte := by
      unfold Frame.clock
      dsimp only
      split <;> omega
    have h1 : s.clockIn b = { s with frame := some (f.clock b) } := by
      unfold State.clockIn
      rw [h]
      dsimp only
      rw [if_neg (by simp [Frame.commandDue, hr'])]
    show (s.clockIn b).shiftIn bits = _
    rw [h1, ih _ (f.clock b) r rfl hr' hc.2 hy', hc.1, hs, List.length_cons]
    rw [show f.place + 1 + bits.length = f.place + (bits.length + 1) by omega]

/-- Up to the last bit but one of byte 9 a frame only takes its bits in (R152). -/
theorem shiftIn_early (bits : List Bool) : ∀ (s : State) (f : Frame), s.frame = some f → f.response = none → f.bit < 8 →
    f.place + bits.length < 80 →
    s.shiftIn bits = { s with
      frame := some ⟨(f.place + bits.length) / 8, (f.place + bits.length) % 8, f.shifted ++ bits, none⟩ } := by
  induction bits with
  | nil =>
    intro s f h hr hb _
    have : f = ⟨(f.place + 0) / 8, (f.place + 0) % 8, f.shifted ++ [], none⟩ := by
      refine Frame.eq_of_place ?_ hb (Nat.mod_lt _ (by decide)) (List.append_nil _).symm hr
      show f.place = 8 * ((f.place + 0) / 8) + (f.place + 0) % 8
      omega
    show s = _
    rw [List.length_nil, ← this, ← h]
  | cons b bits ih =>
    intro s f h hr hb hy
    rw [List.length_cons] at hy
    have hc := f.place_clock b hb
    have hs : (f.clock b).shifted = f.shifted ++ [b] := by
      unfold Frame.clock
      refine if_pos ?_
      unfold Frame.place at hy
      omega
    have hd : (f.clock b).commandDue = false := by
      unfold Frame.commandDue
      have : ¬((f.clock b).byte = 10 ∧ (f.clock b).bit = 0) := by
        rintro ⟨h1, h2⟩
        have := hc.1
        unfold Frame.place at this hy
        omega
      cases hb1 : (f.clock b).byte == 10 <;> cases hb2 : (f.clock b).bit == 0 <;> simp_all
    have h1 : s.clockIn b = { s with frame := some (f.clock b) } := by
      unfold State.clockIn
      rw [h]
      dsimp only
      rw [hd]
      rfl
    show (s.clockIn b).shiftIn bits = _
    rw [h1, ih _ (f.clock b) rfl hr hc.2 (by omega), hc.1, hs, List.length_cons, List.append_assoc]
    rw [show f.place + 1 + bits.length = f.place + (bits.length + 1) by omega]
    rfl

/-- The bits of bytes 0 to 9, shifted into a frame that has begun, take their command (R152). -/
theorem shiftIn_bytes (s : State) (bits : List Bool) (h : s.listening = true) (hn : bits.length = 80) :
    s.shiftIn bits = s.takeCommand ⟨10, 0, bits, none⟩ (frameCode bits) (frameStream bits) (frameArg bits) := by
  have hf : s.frame = some Frame.start := by simpa [State.listening] using h
  obtain ⟨xs, b, rfl⟩ : ∃ xs b, bits = xs ++ [b] :=
    ⟨bits.dropLast, bits.getLast (by intro e; simp [e] at hn), (List.dropLast_concat_getLast _).symm⟩
  have hx : xs.length = 79 := by simp at hn; omega
  rw [shiftIn_append, shiftIn_early xs s Frame.start hf rfl (by decide) (by rw [hx]; decide)]
  rw [hx]
  exact takeCommand_frame s (some ⟨9, 7, xs, none⟩) ⟨10, 0, xs ++ [b], none⟩ _ _ _

/-- A command of the table or an unknown code, shifted into a frame that has begun (R152, R153). -/
theorem shiftIn_frameBits (s : State) (code sb : Byte) (arg : BitVec 64) (h : s.listening = true) :
    s.shiftIn (frameBits code sb arg) = s.takeCommand ⟨10, 0, frameBits code sb arg, none⟩ code sb arg := by
  rw [shiftIn_bytes s _ h (length_frameBits ..), frameCode_frameBits, frameStream_frameBits, frameArg_frameBits]

/-! ### The part-wide tests -/

/-- A management command that passes the part-wide tests takes its own effect (R153). -/
theorem command_ready {s : State} (hm : s.mode = .managed) (hr : s.partState = .ready)
    (f : Frame) (k : CmdClass) (sb : Byte) (hk : k = .stream → sb.toNat < 16) (own : Effect) :
    s.command f k sb own = own.after.respond f own.result own.data := by
  have : s.gate k sb = none := by
    unfold State.gate
    cases k with
    | always => rfl
    | part => simp [hm, hr]
    | stream =>
      have := hk rfl
      simp [hm, hr, Nat.not_le.mpr this]
  unfold State.command
  rw [this]

/-- The stream that a stream byte below 16 names. -/
theorem streamOf_eq {sb : Byte} {st : StreamId} (h : sb.toNat = st.val) : streamOf sb = st := by
  apply Fin.ext
  show sb.toNat % 16 = st.val
  omega

end Sys2Proof.Machine
end

