-- ==== Sys2Proof/Laws/Due.lean ====
section
/-! SUPPORT. What is due in a state, and what a round takes of it where one event is due alone (log entries 1 and 9). -/

namespace Sys2Proof.Machine

/-! ### What is due -/

/-- A migration is not due while it copies, or its copy write is outstanding (R89). -/
theorem migrationDue_false (s : State) (m : Migration) : s.migrationDue m = false ↔
    m.step = .copyRead ∨ ∃ x ∈ s.internal, x.owner = .copyWrite m.stream m.pos := by
  rw [← outstanding_owner]
  unfold State.migrationDue
  cases m.step <;> simp

/-- A tile is busy while some transfer of its commit or migration is outstanding. -/
theorem tileBusy_iff (s : State) (st : StreamId) (pos : Nat) : s.tileBusy st pos = true ↔ ∃ x ∈ s.internal, x.owner.tile
    = some (st, pos) := by
  simp [State.tileBusy, State.outstanding]

/-- A stream is busy while some transfer made for it is outstanding. -/
theorem streamBusy_iff (s : State) (st : StreamId) : s.streamBusy st = true ↔ ∃ x ∈ s.internal, x.owner.stream = some st
    := by
  simp [State.streamBusy, State.outstanding]

/-- A commit is not due while something it needs is missing (R77, R78). -/
theorem commitDue_false (s : State) (c : Commit) : s.commitDue c = false ↔ c.kind = none ∨ c.phase = some .verify ∨
    c.phase = some .merge ∨
      (∃ x ∈ s.internal, x.owner.tile = some (c.stream, c.pos)) ∨ ∃ m ∈ s.migrations, m.stream = c.stream ∧ m.pos = c.pos
          := by
  rw [← tileBusy_iff]
  have : (s.migrationAt c.stream c.pos).isNone = false ↔ ∃ m ∈ s.migrations, m.stream = c.stream ∧ m.pos = c.pos := by
    simp [State.migrationAt]
  rw [← this]
  unfold State.commitDue
  cases hk : c.kind <;> cases hp : c.phase <;> cases ht : s.tileBusy c.stream c.pos <;> cases hm : (s.migrationAt
      c.stream c.pos).isNone <;> simp_all
  all_goals rename_i p <;> cases p <;> simp

/-- An entry is not to be freed while it collects, its stream runs, or its tile is busy (R56, R57). -/
theorem entryDead_false (s : State) (e : Entry) : s.entryDead e = false ↔ e.collecting = true ∨ (s.stream e.stream).state
    = .opened ∨ (s.stream e.stream).state = .closing ∨
      ∃ x ∈ s.internal, x.owner.tile = some (e.stream, e.pos) := by
  rw [← tileBusy_iff]
  unfold State.entryDead Stream.running
  cases e.collecting <;> cases (s.stream e.stream).state <;> cases s.tileBusy e.stream e.pos <;> simp

/-- No first phase to end (R116). -/
theorem closeDue_false (s : State) (st : StreamId) : s.closeDue st = false ↔ ((s.stream st).state = .closing → (s.stream
    st).phase =
    some .first → ∃ e ∈ s.entries, e.stream = st) := by
  have : s.hasEntries st = true ↔ ∃ e ∈ s.entries, e.stream = st := by simp [State.hasEntries]
  rw [← this]
  unfold State.closeDue
  cases (s.stream st).state <;> cases (s.stream st).phase <;> cases s.hasEntries st <;> simp

/-- No fourth phase to end (R124). -/
theorem openDue_false (s : State) (st : StreamId) : s.openDue st = false ↔ ((s.stream st).state = .closing → (s.stream
    st).phase =
    some .fourth → (s.stream st).loadingWin ≠ none) := by
  unfold State.openDue
  cases (s.stream st).state <;> cases (s.stream st).phase <;> cases (s.stream st).loadingWin <;> simp

/-- No drain to end (R166). -/
theorem drainDue_false (s : State) (st : StreamId) : s.drainDue st = false ↔ ((s.stream st).state = .draining → ∃ x ∈
    s.internal,
    x.owner.stream = some st) := by
  rw [← streamBusy_iff]
  unfold State.drainDue
  cases (s.stream st).state <;> cases s.streamBusy st <;> simp

/-- No start-up to end (R169). -/
theorem readyDue_false (s : State) : s.readyDue = false ↔ (s.partState = .starting → s.clearing = true ∨ s.internal ≠ [])
    := by
  unfold State.readyDue
  cases s.partState <;> cases s.clearing <;> cases s.internal <;> simp

/-- No element satisfies a test. -/
theorem any_false {α} (l : List α) (p : α → Bool) : l.any p = false ↔ ∀ x ∈ l, p x = false := by simp

/-- Nothing is due. -/
theorem quiet_iff (s : State) : s.quiet = true ↔ (∀ m ∈ s.migrations, s.migrationDue m = false) ∧ (∀ c ∈ s.commits,
    s.commitDue c = false) ∧
   (∀ e ∈ s.entries, s.entryDead e = false) ∧ (∀ h ∈ s.holdQ, h.released = false) ∧ (∀ st, s.closeDue st = false) ∧ (∀
       st, s.openDue st = false) ∧ (∀ st, s.drainDue st = false) ∧ s.readyDue = false := by
  unfold State.quiet
  simp only [Bool.and_eq_true, Bool.not_eq_true', any_false, and_assoc, List.mem_finRange, true_implies]

/-! ### Folds in which one object acts -/

/-- A fold of operations that do nothing does nothing. -/
theorem foldl_id {α : Type} (f : State → α → State) (s : State) (as : List α) (h : ∀ a ∈ as, f s a = s) : as.foldl f s =
    s := by
  induction as with
  | nil => rfl
  | cons a as ih =>
    rw [List.foldl_cons, h a (List.mem_cons_self ..)]
    exact ih fun b hb => h b (List.mem_cons_of_mem _ hb)

/-- A fold in which the objects of one kind do the same change, which no object adds to, is that change. -/
theorem foldl_one {α : Type} (f : State → α → State) (s t : State) (as : List α) (P : α → Prop) (hx : ∃ a ∈ as, P a)
   (h1 : ∀ a ∈ as, P a → f s a = t) (h2 : ∀ a ∈ as, ¬ P a → f s a = s) (h3 : ∀ a ∈ as, f t a = t) : as.foldl f s = t := by
  induction as with
  | nil => obtain ⟨a, ha, _⟩ := hx; cases ha
  | cons a as ih =>
    rw [List.foldl_cons]
    by_cases hp : P a
    · rw [h1 a (List.mem_cons_self ..) hp]
      exact foldl_id _ _ _ fun b hb => h3 b (List.mem_cons_of_mem _ hb)
    · rw [h2 a (List.mem_cons_self ..) hp]
      obtain ⟨b, hb, pb⟩ := hx
      have hb' : b ∈ as := by
        rcases List.mem_cons.mp hb with rfl | h
        · exact absurd pb hp
        · exact h
      exact ih ⟨b, hb', pb⟩ (fun c hc => h1 c (List.mem_cons_of_mem _ hc)) (fun c hc => h2 c (List.mem_cons_of_mem _ hc))
        (fun c hc => h3 c (List.mem_cons_of_mem _ hc))

/-! ### Where nothing is due -/

/-- With no migration due none completes. -/
theorem migrateIfDue_of_none (s : State) (h : ∀ m ∈ s.migrations, s.migrationDue m = false) (st : StreamId) (pos : Nat) :
    s.migrateIfDue st
    pos = s := by
  unfold State.migrateIfDue
  split
  · rfl
  · rename_i m hm
    rw [h m (List.mem_of_find?_eq_some hm)]; rfl

/-- With no commit due none completes. -/
theorem completeIfDue_of_none (s : State) (h : ∀ m ∈ s.commits, s.commitDue m = false) (st : StreamId) (pos : Nat) :
    s.completeIfDue st pos
    = s := by
  unfold State.completeIfDue
  split
  · rfl
  · rename_i m hm
    split
    · rfl
    · rw [h m (List.mem_of_find?_eq_some hm)]; rfl

/-- With no migration due none completes. -/
theorem migrationsDue_of_none (s : State) (h : ∀ m ∈ s.migrations, s.migrationDue m = false) : s.migrationsDue = s :=
  foldl_id _ _ _ fun _ _ => migrateIfDue_of_none s h ..

/-- With no commit due none completes. -/
theorem commitsDue_of_none (s : State) (h : ∀ m ∈ s.commits, s.commitDue m = false) : s.commitsDue = s :=
  foldl_id _ _ _ fun _ _ => completeIfDue_of_none s h ..

/-- With no abandoned entry to free none is freed. -/
theorem freeDead_of_none (s : State) (h : ∀ e ∈ s.entries, s.entryDead e = false) : s.freeDead = s := by
  unfold State.freeDead; rw [(any_false _ _).mpr h]; rfl

/-- With nothing due no completion takes place. -/
theorem settleCommits_of_none (s : State) (h1 : ∀ m ∈ s.migrations, s.migrationDue m = false) (h2 : ∀ m ∈ s.commits,
    s.commitDue m = false)
  (h3 : ∀ e ∈ s.entries, s.entryDead e = false) : s.settleCommits = s := by
  unfold State.settleCommits
  rw [migrationsDue_of_none s h1, commitsDue_of_none s h2, freeDead_of_none s h3]

/-- A request that is not released is not retried (R140). -/
theorem retryOne_of_none (s : State) (id : Nat) (h : ∀ x ∈ s.holdQ, x.id = id → x.released = false) : s.retryOne id = s
    := by
  unfold State.retryOne
  split
  · rfl
  · rename_i x hx
    rw [h x (List.mem_of_find?_eq_some hx) (by simpa using List.find?_some hx)]; rfl

/-- With nothing released nothing is retried (R140). -/
theorem retryPass_of_none (s : State) (h : ∀ x ∈ s.holdQ, x.released = false) : s.retryPass = s :=
  foldl_id _ _ _ fun id _ => retryOne_of_none s id fun x hx _ => h x hx

/-- An operation that does nothing to any stream does nothing to all. -/
theorem each_of_none (s : State) (f : State → StreamId → State) (h : ∀ st, f s st = s) : s.eachStream f = s :=
  foldl_id _ _ _ fun a _ => h a

/-- An operation that changes one stream only, once. -/
theorem each_one (s t : State) (f : State → StreamId → State) (st : StreamId) (h1 : f s st = t) (h2 : ∀ u, u ≠ st → f s u
    = s) (h3 : ∀ u, f t u = t) :
   s.eachStream f = t :=
  foldl_one f s t _ (fun a => a = st) ⟨st, List.mem_finRange _, rfl⟩ (fun _ _ h => h ▸ h1) (fun a _ h => h2 a h) (fun a _
      => h3 a)

/-- A first phase that has not ended goes on. -/
theorem closeIfDue_none {s : State} {st : StreamId} (h : s.closeDue st = false) : s.closeIfDue st = s := by
  unfold State.closeIfDue
  rw [h]
  rfl

/-- A fourth phase that has not ended goes on. -/
theorem openIfDue_none {s : State} {st : StreamId} (h : s.openDue st = false) : s.openIfDue st = s := by
  unfold State.openIfDue
  rw [h]
  rfl

/-- A drain that has not ended goes on. -/
theorem drainIfDue_none {s : State} {st : StreamId} (h : s.drainDue st = false) : s.drainIfDue st = s := by
  unfold State.drainIfDue
  rw [h]
  rfl

/-- A start-up that has not ended goes on. -/
theorem readyIfDue_none {s : State} (h : s.readyDue = false) : s.readyIfDue = s := by
  unfold State.readyIfDue
  rw [h]
  rfl

/-- A READY part stays READY. -/
theorem readyIfDue_ready {s : State} (h : s.partState = .ready) : s.readyIfDue = s := readyIfDue_none (by simp
    [State.readyDue, h])

/-! ### Completions -/

/-- A migration's change is one of map memory alone. -/
theorem applyMigration_shape (s : State) (m : Migration) : s.applyMigration m = { s with mapMem := (s.applyMigration
    m).mapMem } := by
  unfold State.applyMigration
  generalize m.aliasers = as
  induction as generalizing s with
  | nil => rfl
  | cons a as ih => exact ih (s.writeCell ..)

/-- A commit's change is one of map memory alone. -/
theorem applyCommit_shape (s : State) (c : Commit) (k : CommitKind) : s.applyCommit c k = { s with mapMem :=
    (s.applyCommit c k).mapMem } := by
  unfold State.applyCommit; cases c.newRecord k <;> rfl

/-- All that the completion of a migration changes (R89, R92). -/
theorem completeMigration_shape (s : State) (m : Migration) : s.completeMigration m = { s with
    mapMem := (s.applyMigration m).mapMem
    streams := (s.setStream m.stream { s.stream m.stream with migrated := min ((s.stream m.stream).migrated + 1) 65535
        }).streams
    migrations := s.migrations.filter fun n => !(n.stream == m.stream && n.pos == m.pos)
    holdQ := releaseWhere (migratingOn m.stream m.pos) s.holdQ } := by
  unfold State.completeMigration
  rw [applyMigration_shape]
  rfl

/-- All that the completion of a commit changes (R78, R127). -/
theorem completeCommit_shape (s : State) (c : Commit) (k : CommitKind) : s.completeCommit c k = { s with
    mapMem := (s.applyCommit c k).mapMem
    streams := (if k = .partialTile then s.setStream c.stream ((s.stream c.stream).countPartial c.reason) else s).streams
    commits := s.commits.filter fun n => !(n.stream == c.stream && n.pos == c.pos)
    entries := s.entries.filter fun e => !(e.num == c.entry)
    lastWrite := s.lastWrite.filter fun n => (s.entries.filter fun e => !(e.num == c.entry)).any fun e => e.num == n
    holdQ := releaseWhere (busyOn c.stream c.slot c.pos) (releaseWhere (entriesMeet (Config.entries - (s.entries.filter
        fun e => !(e.num == c.entry)).length)) s.holdQ) } := by
  have hs := applyCommit_shape s c k
  generalize (s.applyCommit c k).mapMem = m at hs ⊢
  unfold State.completeCommit State.countKind
  rw [hs]
  by_cases hk : k = .partialTile
  · simp only [hk, if_true, State.freeCommitted, State.freeEntriesWhere, State.dropEntries, State.release,
      State.removeCommit, State.setStream, State.freeEntries, State.stream]
  · simp only [hk, if_false, State.freeCommitted, State.freeEntriesWhere, State.dropEntries, State.release,
      State.removeCommit, State.setStream, State.freeEntries, State.stream]

/-- The commits left when one tile's commit goes. -/
theorem commitAt_filter (s : State) (st : StreamId) (pos : Nat) (st' pos') : (s.commits.filter fun n => !(n.stream == st
    && n.pos ==
    pos)).find? (fun c => c.stream == st' && c.pos == pos') =
    if st' = st ∧ pos' = pos then none else s.commitAt st' pos' := by
  unfold State.commitAt
  rw [List.find?_filter]
  split
  · rename_i h; obtain ⟨rfl, rfl⟩ := h
    rw [List.find?_eq_none]; intro c _; cases c.stream == st' <;> cases c.pos == pos' <;> simp
  · rename_i h
    congr 1; funext c
    cases hA : (c.stream == st' && c.pos == pos') with
    | false => simp
    | true =>
      have hB : (c.stream == st && c.pos == pos) = false := Bool.eq_false_iff.mpr fun hh => by
        simp only [Bool.and_eq_true, beq_iff_eq] at hh hA
        exact h ⟨hA.1.symm.trans hh.1, hA.2.symm.trans hh.2⟩
      simp [hB]

/-- The migrations left when one tile's migration goes. -/
theorem migrationAt_filter (s : State) (st : StreamId) (pos : Nat) (st' pos') : (s.migrations.filter fun n => !(n.stream
    == st && n.pos ==
    pos)).find? (fun c => c.stream == st' && c.pos == pos') =
    if st' = st ∧ pos' = pos then none else s.migrationAt st' pos' := by
  unfold State.migrationAt
  rw [List.find?_filter]
  split
  · rename_i h; obtain ⟨rfl, rfl⟩ := h
    rw [List.find?_eq_none]; intro c _; cases c.stream == st' <;> cases c.pos == pos' <;> simp
  · rename_i h
    congr 1; funext c
    cases hA : (c.stream == st' && c.pos == pos') with
    | false => simp
    | true =>
      have hB : (c.stream == st && c.pos == pos) = false := Bool.eq_false_iff.mpr fun hh => by
        simp only [Bool.and_eq_true, beq_iff_eq] at hh hA
        exact h ⟨hA.1.symm.trans hh.1, hA.2.symm.trans hh.2⟩
      simp [hB]

/-- Counting a commit leaves a stream's state. -/
theorem running_countPartial (x : Stream) (r : Reason) : (x.countPartial r).running = x.running := by cases r <;> rfl

/-- With one migration due, the migrations due are its completion. -/
theorem one_migration (s : State) (m : Migration) (h1 : s.migrationAt m.stream m.pos = some m) (h2 : s.migrationDue m =
    true)
   (h3 : ∀ n ∈ s.migrations, n ≠ m → s.migrationDue n = false) : s.migrationsDue = s.completeMigration m := by
  refine foldl_one _ s _ _ (fun n => n.stream = m.stream ∧ n.pos = m.pos) ⟨m, List.mem_of_find?_eq_some h1, rfl, rfl⟩ ?_
      ?_ ?_
  · rintro n _ ⟨e1, e2⟩
    unfold State.migrateIfDue; rw [e1, e2, h1]; dsimp only; rw [if_pos h2]
  · intro n _ hn
    unfold State.migrateIfDue
    split
    · rfl
    · rename_i d hd
      have := List.find?_some hd
      simp only [Bool.and_eq_true, beq_iff_eq] at this
      rw [h3 d (List.mem_of_find?_eq_some hd) (by rintro rfl; exact hn ⟨this.1.symm, this.2.symm⟩)]; rfl
  · intro n _
    have hs := completeMigration_shape s m
    generalize s.completeMigration m = t at *
    unfold State.migrateIfDue
    split
    · rfl
    · rename_i d hd
      have hd' := hd
      unfold State.migrationAt at hd
      have e : t.migrations = s.migrations.filter fun n => !(n.stream == m.stream && n.pos == m.pos) := by rw [hs]
      rw [e] at hd
      rw [migrationAt_filter] at hd
      split at hd
      · cases hd
      · rename_i hn
        have hp := List.find?_some hd
        simp only [Bool.and_eq_true, beq_iff_eq] at hp
        have : s.migrationDue d = false := h3 d (List.mem_of_find?_eq_some hd) (by rintro rfl; exact hn ⟨hp.1.symm,
            hp.2.symm⟩)
        have e2 : t.migrationDue d = s.migrationDue d := by rw [hs]; rfl
        rw [e2, this]; rfl

/-- With one commit due, the commits due are its completion. -/
theorem one_commit (s : State) (c : Commit) (k : CommitKind) (h1 : s.commitAt c.stream c.pos = some c) (hk : c.kind =
    some k) (h2 :
    s.commitDue c = true)
   (h3 : ∀ n ∈ s.commits, n ≠ c → s.commitDue n = false) : s.commitsDue = s.completeCommit c k := by
  refine foldl_one _ s _ _ (fun n => n.stream = c.stream ∧ n.pos = c.pos) ⟨c, List.mem_of_find?_eq_some h1, rfl, rfl⟩ ?_
      ?_ ?_
  · rintro n _ ⟨e1, e2⟩
    unfold State.completeIfDue; rw [e1, e2, h1]; dsimp only; rw [hk]; dsimp only; rw [if_pos h2]
  · intro n _ hn
    unfold State.completeIfDue
    split
    · rfl
    · rename_i d hd
      have := List.find?_some hd
      simp only [Bool.and_eq_true, beq_iff_eq] at this
      rw [h3 d (List.mem_of_find?_eq_some hd) (by rintro rfl; exact hn ⟨this.1.symm, this.2.symm⟩)]
      split <;> rfl
  · intro n _
    have hs := completeCommit_shape s c k
    generalize s.completeCommit c k = t at *
    unfold State.completeIfDue
    split
    · rfl
    · rename_i d hd
      unfold State.commitAt at hd
      have e : t.commits = s.commits.filter fun n => !(n.stream == c.stream && n.pos == c.pos) := by rw [hs]
      rw [e] at hd
      rw [commitAt_filter] at hd
      split at hd
      · cases hd
      · rename_i hn
        have hp := List.find?_some hd
        simp only [Bool.and_eq_true, beq_iff_eq] at hp
        have : s.commitDue d = false := h3 d (List.mem_of_find?_eq_some hd) (by rintro rfl; exact hn ⟨hp.1.symm, hp.2.symm⟩)
        have e2 : t.commitDue d = s.commitDue d := by rw [hs]; rfl
        rw [e2, this]
        split <;> rfl

/-- The completion of a commit leaves no entry to free that was not there to free before. -/
theorem dead_completeCommit (s : State) (c : Commit) (k : CommitKind) (h : ∀ e ∈ s.entries, s.entryDead e = false) : ∀ e ∈
    (s.completeCommit c k).entries, (s.completeCommit c k).entryDead e = false := by
  have hs := completeCommit_shape s c k
  intro e he
  have : e ∈ s.entries := by rw [hs] at he; exact (List.mem_filter.mp he).1
  have h2 := h e this
  have hr : ((s.completeCommit c k).stream e.stream).running = (s.stream e.stream).running := by
    rw [hs]
    simp only [State.stream]
    split
    · show ((s.setStream c.stream _).stream e.stream).running = _
      rw [stream_setStream]
      split
      · rename_i h; rw [running_countPartial, ← h]
      · rfl
    · rfl
  unfold State.entryDead at *
  rw [hr]
  rw [hs]
  exact h2

/-! ### What the ends of phases depend on -/

/-- A first phase's end depends on the streams and the entries. -/
theorem closeDue_congr {s t : State} (h1 : t.streams = s.streams) (h2 : t.entries = s.entries) (u : StreamId) :
    t.closeDue u =
    s.closeDue u := by
  unfold State.closeDue State.hasEntries State.stream; rw [h1, h2]

/-- A fourth phase's end depends on the streams. -/
theorem openDue_congr {s t : State} (h1 : t.streams = s.streams) (u : StreamId) : t.openDue u = s.openDue u := by
  unfold State.openDue State.stream; rw [h1]

/-- A drain's end depends on the streams and the internal transfers. -/
theorem drainDue_congr {s t : State} (h1 : t.streams = s.streams) (h2 : t.internal = s.internal) (u : StreamId) :
    t.drainDue u =
    s.drainDue u := by
  unfold State.drainDue State.streamBusy State.outstanding State.stream; rw [h1, h2]

/-! ### A stream that abandons its work -/

/-- Of the streams, only the one that abandons its work changes. -/
theorem streams_abandonWork (s : State) (st : StreamId) : (s.abandonWork st).streams = (s.setStream st (s.stream
    st).idle).streams := by
  simp only [State.abandonWork, State.freeEntriesWhere, State.dropEntries, State.release, State.dropWork,
      State.setStream, State.stream]

/-- Of the streams, only the one that abandons its work changes. -/
theorem stream_abandonWork (s : State) (st u : StreamId) : (s.abandonWork st).stream u = if u = st then (s.stream
    st).idle else s.stream u := by
  rw [stream_of_streams_eq (streams_abandonWork s st), stream_setStream]

/-- A cause raised changes no stream. -/
theorem stream_raise (s : State) (c : Cause) (st u : StreamId) : (s.raise c st).stream u = s.stream u := rfl

/-- Held requests answered change no stream. -/
theorem stream_answerHeld (s : State) (f) (st u : StreamId) : (s.answerHeld st f).stream u = s.stream u := rfl

/-- Of the streams, only the one that faults changes (R178). -/
theorem stream_faultStream (s : State) (c : Cause) (st u : StreamId) (h : (s.stream st).running = true) :
    (s.faultStream c st).stream u = if u = st then { (s.stream st).idle with state := .faulted } else s.stream u := by
  unfold State.faultStream
  rw [if_pos h]
  dsimp only
  rw [stream_answerHeld, stream_abandonWork]
  split
  · rw [stream_setStream_self]; rfl
  · rename_i hu; rw [stream_setStream, if_neg hu]; rfl

/-- Abandoning work brings no entry. -/
theorem entries_abandonWork (s : State) (st : StreamId) : (s.abandonWork st).entries.Sublist s.entries := by
  unfold State.abandonWork State.freeEntriesWhere
  exact List.filter_sublist

/-- A fault brings no entry. -/
theorem entries_faultStream (s : State) (c : Cause) (st : StreamId) : (s.faultStream c st).entries.Sublist s.entries := by
  unfold State.faultStream
  split
  · rw [entries_answerHeld]; exact (entries_abandonWork ..)
  · exact List.Sublist.refl _

/-- The entries of other streams stay. -/
theorem mem_entries_abandonWork {s : State} {st : StreamId} {e : Entry} (h : e ∈ s.entries) (he : e.stream ≠ st) : e ∈
    (s.abandonWork st).entries := by
  unfold State.abandonWork State.freeEntriesWhere
  exact List.mem_filter.mpr ⟨h, by simp [State.freesAtOnce, he]⟩

/-- The entries of other streams stay. -/
theorem mem_entries_faultStream {s : State} {c : Cause} {st : StreamId} {e : Entry} (h : e ∈ s.entries) (he : e.stream ≠
    st) : e ∈ (s.faultStream c st).entries := by
  unfold State.faultStream
  split
  · rw [entries_answerHeld]; exact mem_entries_abandonWork h he
  · exact h

/-- The transfers that abandoned work leaves (R146). -/
theorem internal_abandonWork (s : State) (st : StreamId) : (s.abandonWork st).internal = abandonXfers st s.internal := rfl

/-- The transfers of other streams stay. -/
theorem busy_abandonXfers (xs : List Xfer) (st u : StreamId) (hu : u ≠ st) : (abandonXfers st xs).any (fun x =>
    x.owner.stream == some u) = xs.any (fun x => x.owner.stream == some u) := by
  unfold abandonXfers
  rw [List.any_map, List.any_filter]
  congr 1
  funext x
  simp only [Function.comp]
  by_cases h : x.owner.stream = some st
  · simp only [h, if_true, bne_self_eq_false, Bool.or_false]
    have : (some st == some u) = false := by simpa using fun e => hu e.symm
    simp [this]
  · simp [h]

/-- The transfers that a fault leaves (R146, R178). -/
theorem internal_faultStream (s : State) (c : Cause) (st : StreamId) (h : (s.stream st).running = true) : (s.faultStream
    c st).internal = abandonXfers st s.internal := by
  unfold State.faultStream
  rw [if_pos h]
  rfl

/-! ### Lookups and the second phase -/

/-- A lookup changes map memory, the corrected-error count and the causes alone. -/
theorem lookupCell_shape (s : State) (st : StreamId) (c : Nat) : (s.lookupCell st c).2 = { s with
    mapMem := (s.lookupCell st c).2.mapMem, corrected := (s.lookupCell st c).2.corrected, causes := (s.lookupCell st
        c).2.causes } := by
  unfold State.lookupCell
  dsimp only
  split <;> rfl

/-- Lookups change map memory, the corrected-error count and the causes alone. -/
theorem lookupCells_shape (st : StreamId) (cs : List Nat) : ∀ s : State, (s.lookupCells st cs).2 = { s with
    mapMem := (s.lookupCells st cs).2.mapMem, corrected := (s.lookupCells st cs).2.corrected, causes := (s.lookupCells st
        cs).2.causes } := by
  induction cs with
  | nil => intro s; rfl
  | cons c cs ih =>
    intro s
    show ((s.lookupCell st c).2.lookupCells st cs).2 = _
    have h1 := ih (s.lookupCell st c).2
    have h2 := lookupCell_shape s st c
    show _ = { s with
      mapMem := ((s.lookupCell st c).2.lookupCells st cs).2.mapMem
      corrected := ((s.lookupCell st c).2.lookupCells st cs).2.corrected
      causes := ((s.lookupCell st c).2.lookupCells st cs).2.causes }
    generalize (s.lookupCell st c).2 = u at *
    rw [h1, h2]

/-- A lookup that meets no double-bit error gives the cell's contents, and leaves every cell's contents, and its check bits
but for the correction of the cell looked up (R28, R175). -/
theorem lookupCell_spec (s : State) (st : StreamId) (c : Nat) (hw : MapMemory.wf s.mapMem = true)
    (hc : (MapMemory.read s.mapMem (s.cellKey st c)).ecc ≠ .double) :
    (s.lookupCell st c).1 = some (s.peekCell st c) ∧ MapMemory.wf (s.lookupCell st c).2.mapMem = true ∧
    ∀ k, (MapMemory.read (s.lookupCell st c).2.mapMem k).val = (MapMemory.read s.mapMem k).val ∧
      ((MapMemory.read s.mapMem k).ecc ≠ .double → (MapMemory.read (s.lookupCell st c).2.mapMem k).ecc ≠ .double) := by
  unfold State.lookupCell
  dsimp only
  split
  · exact ⟨rfl, hw, fun k => ⟨rfl, id⟩⟩
  · refine ⟨rfl, MapMemory.wf_write _ _ _ hw, fun k => ?_⟩
    show (MapMemory.read (MapMemory.write s.mapMem (s.cellKey st c) ⟨_, .good⟩) k).val = _ ∧
      (_ → (MapMemory.read (MapMemory.write s.mapMem (s.cellKey st c) ⟨_, .good⟩) k).ecc ≠ .double)
    by_cases hk : k = s.cellKey st c
    · subst hk
      rw [MapMemory.read_write_self _ _ _ hw]
      exact ⟨rfl, fun _ => by simp⟩
    · rw [MapMemory.read_write_ne _ _ _ _ hk]
      exact ⟨rfl, id⟩
  · contradiction

/-- Lookups that meet no double-bit error give the contents of every cell, corrected or not (R28, R175). -/
theorem lookupCells_values (st : StreamId) (cs : List Nat) : ∀ s : State, MapMemory.wf s.mapMem = true →
    (∀ c ∈ cs, (MapMemory.read s.mapMem (s.cellKey st c)).ecc ≠ .double) →
    (s.lookupCells st cs).1 = some (cs.map (s.peekCell st)) := by
  induction cs with
  | nil => intro s _ _; rfl
  | cons c cs ih =>
    intro s hw hc
    obtain ⟨h1, h2, h3⟩ := lookupCell_spec s st c hw (hc c (List.mem_cons_self ..))
    have hs := lookupCell_shape s st c
    have key : ∀ d, (s.lookupCell st c).2.cellKey st d = s.cellKey st d := by intro d; rw [hs]; rfl
    show ((s.lookupCell st c).1.bind fun v => ((s.lookupCell st c).2.lookupCells st cs).1.map fun vs => v :: vs) = _
    rw [h1, ih _ h2 fun d hd => by rw [key]; exact (h3 _).2 (hc d (List.mem_cons_of_mem _ hd))]
    show some (s.peekCell st c :: cs.map ((s.lookupCell st c).2.peekCell st)) = some (_ :: cs.map (s.peekCell st))
    congr 2
    refine List.map_congr_left fun d _ => ?_
    show (MapMemory.read (s.lookupCell st c).2.mapMem ((s.lookupCell st c).2.cellKey st d)).val = _
    rw [key]
    exact (h3 _).1

/-- The end of a first phase leaves the other streams, what they have, and the part's state; its own stream is in the second
phase, or FAULTED (R116, R118). -/
theorem beginSecondPhase_spec (s : State) (st : StreamId) (h : s.closeDue st = true) : let t := s.beginSecondPhase st
   (∀ u, u ≠ st → t.stream u = s.stream u) ∧ ((t.stream st).state = .faulted ∨ ((t.stream st).state = .closing ∧
       (t.stream st).phase = some .second)) ∧
   (∀ u, u ≠ st → s.hasEntries u = true → t.hasEntries u = true) ∧ (∀ u, u ≠ st → s.streamBusy u = true → t.streamBusy u
       = true) ∧ t.partState = s.partState := by
  have hc : (s.stream st).state = .closing := by
    simp [State.closeDue] at h; exact h.1.1
  have hs := lookupCells_shape st (slotCells (s.stream st).geometry (s.stream st).slot) s
  intro t
  have ht : t = s.beginSecondPhase st := rfl
  unfold State.beginSecondPhase at ht
  dsimp only at ht
  split at ht <;> rename_i s1 heq
  · rw [heq] at hs
    dsimp only at hs
    have hr : (s1.stream st).running = true := by rw [hs]; show (s.stream st).running = true; simp [Stream.running, hc]
    rw [ht]
    refine ⟨?_, ?_, ?_, ?_, ?_⟩
    · intro u hu; rw [stream_faultStream _ _ _ _ hr, if_neg hu, hs]; rfl
    · rw [stream_faultStream _ _ _ _ hr, if_pos rfl]; exact .inl rfl
    · intro u hu he
      simp only [State.hasEntries, List.any_eq_true, beq_iff_eq] at he ⊢
      obtain ⟨e, he, rfl⟩ := he
      exact ⟨e, mem_entries_faultStream (by rw [hs]; exact he) hu, rfl⟩
    · intro u hu hb
      unfold State.streamBusy State.outstanding at *
      rw [internal_faultStream _ _ _ hr, busy_abandonXfers _ _ _ hu, hs]; exact hb
    · unfold State.faultStream; rw [if_pos hr]
      dsimp only
      rw [partState_answerHeld, partState_abandonWork, hs]; rfl
  · rename_i vals
    rw [heq] at hs
    dsimp only at hs
    rw [ht]
    have e1 : ∀ u, (s1.stream u) = s.stream u := by intro u; rw [hs]; rfl
    refine ⟨?_, ?_, ?_, ?_, ?_⟩
    · intro u hu
      show (s1.setStream st _).stream u = _
      rw [stream_setStream, if_neg hu, e1]
    · refine .inr ?_
      show ((s1.setStream st _).stream st).state = _ ∧ ((s1.setStream st _).stream st).phase = _
      rw [stream_setStream_self]
      refine ⟨?_, rfl⟩
      dsimp only
      rw [e1]; exact hc
    · intro u hu he
      show s1.entries.any _ = true
      rw [hs]; exact he
    · intro u hu hb
      show (s1.internal ++ _).any _ = true
      rw [List.any_append, hs]
      have hb : s.internal.any (fun x => x.owner.stream == some u) = true := hb
      simp only [hb, Bool.true_or]
    · show s1.partState = _; rw [hs]

end Sys2Proof.Machine
end

