-- ==== Sys2Proof/Laws/Operands.lean ====
section
/-! SUPPORT. Operand forms: what the fields of a record, the replacing of bytes in a tile and the cutting of a run give, said
once (R9, R46, R47, R110, R120, R184). -/

namespace Sys2Proof.Machine

/-! ### Fields of records (R184) -/

theorem length_leBytes (n v : Nat) : (leBytes n v).length = n := by
  induction n generalizing v with
  | zero => rfl
  | succ n ih => exact congrArg (· + 1) (ih _)

/-- Bytes written least significant first read back as the value. -/
theorem leNat_leBytes (n v : Nat) : leNat (leBytes n v) = v % 256 ^ n := by
  induction n generalizing v with
  | zero => rw [Nat.pow_zero, Nat.mod_one]; rfl
  | succ n ih =>
    unfold leBytes leNat
    rw [ih, Nat.pow_succ, Nat.mul_comm (256 ^ n), Nat.mod_mul, BitVec.toNat_ofNat]

/-- A field written at its offset reads back. -/
theorem recField_at (pre post : List Byte) (n v off : Nat) (h : pre.length = off) (hv : v < 256 ^ n) :
    recField (pre ++ (leBytes n v ++ post)) off n = v := by
  unfold recField
  rw [List.drop_left' h, List.take_left' (length_leBytes ..), leNat_leBytes, Nat.mod_eq_of_lt hv]

/-! ### Bytes stored in a tile (R46, R47) -/

/-- The bytes of a list with some of them replaced. -/
theorem getElem?_splice {α : Type} (old new : List α) (off i : Nat) (h : off + new.length ≤ old.length) :
    (splice old new off)[i]? = if off ≤ i ∧ i < off + new.length then new[i - off]? else old[i]? := by
  unfold splice
  have ht : (old.take off).length = off := by rw [List.length_take]; omega
  rw [List.append_assoc]
  by_cases h1 : i < off
  · rw [List.getElem?_append_left (by omega), List.getElem?_take_of_lt h1, if_neg (by omega)]
  · rw [List.getElem?_append_right (by omega), ht]
    by_cases h2 : i < off + new.length
    · rw [List.getElem?_append_left (by omega), if_pos (by omega)]
    · rw [List.getElem?_append_right (by omega), List.getElem?_drop, if_neg (by omega)]
      congr 1
      omega

theorem length_splice {α : Type} (old new : List α) (off : Nat) (h : off + new.length ≤ old.length) :
    (splice old new off).length = old.length := by
  simp only [splice, List.length_append, List.length_take, List.length_drop]
  omega

theorem length_storeSegment (masked : Nat → Bool) (fill : Byte) : ∀ (os ds : List Byte) (es : List Bool) (k : Nat),
    (storeSegment masked fill k os ds es).length = os.length := by
  intro os
  induction os with
  | nil => intro ds es k; cases ds <;> cases es <;> rfl
  | cons o os ih =>
    intro ds es k
    cases ds with
    | nil => rfl
    | cons d ds =>
      cases es with
      | nil => rfl
      | cons e es => exact congrArg (· + 1) (ih ds es (k + 1))

theorem length_coverSegment : ∀ (cs es : List Bool), (coverSegment cs es).length = cs.length := by
  intro cs
  induction cs with
  | nil => intro es; cases es <;> rfl
  | cons c cs ih =>
    intro es
    cases es with
    | nil => rfl
    | cons e es => exact congrArg (· + 1) (ih es)

/-- A byte of a segment after a piece is stored. -/
theorem getElem?_storeSegment (masked : Nat → Bool) (fill : Byte) : ∀ (os ds : List Byte) (es : List Bool) (k i : Nat),
    ds.length = os.length → es.length = os.length →
    (storeSegment masked fill k os ds es)[i]? =
      if es[i]? = some true then (if masked (k + i) then some fill else ds[i]?) else os[i]? := by
  intro os
  induction os with
  | nil =>
    intro ds es k i hd he
    rw [List.length_nil] at he
    rw [List.eq_nil_of_length_eq_zero he]
    rfl
  | cons o os ih =>
    intro ds es k i hd he
    obtain ⟨d, ds, rfl⟩ := List.exists_cons_of_length_eq_add_one hd
    obtain ⟨e, es, rfl⟩ := List.exists_cons_of_length_eq_add_one he
    unfold storeSegment
    cases i with
    | zero => cases e <;> cases masked k <;> simp
    | succ i =>
      have := ih ds es (k + 1) i (by simpa using hd) (by simpa using he)
      rw [show k + 1 + i = k + (i + 1) by omega] at this
      simpa only [List.getElem?_cons_succ] using this

/-- The coverage of a byte of a segment after a piece is stored. -/
theorem getElem?_coverSegment : ∀ (cs es : List Bool) (i : Nat), es.length = cs.length →
    (coverSegment cs es)[i]? = if es[i]? = some true then some true else cs[i]? := by
  intro cs
  induction cs with
  | nil =>
    intro es i he
    rw [List.length_nil] at he
    rw [List.eq_nil_of_length_eq_zero he]
    rfl
  | cons c cs ih =>
    intro es i he
    obtain ⟨e, es, rfl⟩ := List.exists_cons_of_length_eq_add_one he
    unfold coverSegment
    cases i with
    | zero => cases e <;> simp
    | succ i => simpa only [List.getElem?_cons_succ] using ih es i (by simpa using he)

/-! ### The parts of a run (R9, R110, R120) -/

/-- The size of a part of a run. -/
def partSize (p : Nat × Nat) : Nat := p.2 - p.1

/-- How many parts a run is cut into. -/
theorem length_cutAt {w lo hi : Nat} (h : lo < hi) : (cutAt w lo hi).length = (hi - 1) / w + 1 - lo / w := by
  unfold cutAt
  rw [if_neg (by omega)]
  simp

/-- The parts of a run. -/
theorem getElem?_cutAt {w lo hi k : Nat} (h : lo < hi) (hk : k < (hi - 1) / w + 1 - lo / w) :
    (cutAt w lo hi)[k]? = some (max lo ((lo / w + k) * w), min hi ((lo / w + k) * w + w)) := by
  unfold cutAt
  rw [if_neg (by omega), List.getElem?_map, List.getElem?_range hk, Option.map_some]
  congr 2
  rw [Nat.add_mul (lo / w + k) 1 w, Nat.one_mul]

/-- Where the part `k` of a run lies among the block boundaries. -/
theorem cutAt_bounds {w lo hi k : Nat} (hw : 0 < w) (h : lo < hi) (hk : k < (hi - 1) / w + 1 - lo / w) :
    (lo / w + k) * w < hi ∧ lo < (lo / w + k) * w + w ∧ (0 < k → lo < (lo / w + k) * w) := by
  have h1 : lo < lo / w * w + w := by
    have := Nat.div_add_mod lo w
    have := Nat.mod_lt lo hw
    rw [Nat.mul_comm (lo / w)]
    omega
  have h2 : (hi - 1) / w * w ≤ hi - 1 := Nat.div_mul_le_self ..
  have h3 : (lo / w + k) * w ≤ (hi - 1) / w * w := Nat.mul_le_mul_right _ (by omega)
  have h4 : lo / w * w ≤ (lo / w + k) * w := Nat.mul_le_mul_right _ (by omega)
  refine ⟨by omega, by omega, fun hk0 => ?_⟩
  have h5 : (lo / w + 1) * w ≤ (lo / w + k) * w := Nat.mul_le_mul_right _ (by omega)
  rw [Nat.add_mul, Nat.one_mul] at h5
  omega

/-- The parts before part `k` cover the run up to it. -/
theorem sum_take_cutAt {w lo hi : Nat} (hw : 0 < w) (h : lo < hi) (k : Nat) (hk : k ≤ (hi - 1) / w + 1 - lo / w) :
    (((cutAt w lo hi).take k).map partSize).sum = min hi (max lo ((lo / w + k) * w)) - lo := by
  induction k with
  | zero =>
    have : lo / w * w ≤ lo := Nat.div_mul_le_self ..
    simp only [List.take_zero, List.map_nil, List.sum_nil, Nat.add_zero]
    omega
  | succ k ih =>
    have hb := cutAt_bounds hw h (k := k) (by omega)
    have e : (cutAt w lo hi).take (k + 1) =
        (cutAt w lo hi).take k ++ [(max lo ((lo / w + k) * w), min hi ((lo / w + k) * w + w))] := by
      rw [List.take_add_one, getElem?_cutAt h (by omega)]
      rfl
    rw [e, List.map_append, List.sum_append, ih (by omega)]
    have e2 : (lo / w + (k + 1)) * w = (lo / w + k) * w + w := by rw [← Nat.add_assoc, Nat.succ_mul]
    simp only [List.map_cons, List.map_nil, List.sum_cons, List.sum_nil, partSize, e2]
    omega

/-- A run is cut whole: its parts follow one another from its start, each but the first from a block boundary on, none across
one, all of it together. -/
theorem cutAt_spec {w lo hi : Nat} (hw : 0 < w) (h : lo < hi) :
    ((cutAt w lo hi).map partSize).sum = hi - lo ∧
    ∀ (k : Nat) (p : Nat × Nat), (cutAt w lo hi)[k]? = some p →
      p.1 = lo + (((cutAt w lo hi).take k).map partSize).sum ∧ p.1 < p.2 ∧ p.2 ≤ hi ∧ (0 < k → p.1 % w = 0) ∧
      p.1 / w = (p.2 - 1) / w ∧ (p.2 % w = 0 ∨ p.2 = hi) := by
  refine ⟨?_, fun k p hp => ?_⟩
  · have hl := length_cutAt (w := w) h
    have hs := sum_take_cutAt hw h ((hi - 1) / w + 1 - lo / w) (Nat.le_refl _)
    rw [← hl, List.take_length, hl] at hs
    rw [hs]
    have h1 : lo / w ≤ (hi - 1) / w := Nat.div_le_div_right (by omega)
    have h2 : hi - 1 < (hi - 1) / w * w + w := by
      have := Nat.div_add_mod (hi - 1) w
      have := Nat.mod_lt (hi - 1) hw
      rw [Nat.mul_comm ((hi - 1) / w)]
      omega
    rw [show lo / w + ((hi - 1) / w + 1 - lo / w) = (hi - 1) / w + 1 by omega, Nat.add_mul, Nat.one_mul]
    omega
  · have hk : k < (hi - 1) / w + 1 - lo / w := by
      rw [← length_cutAt h]
      exact (List.getElem?_eq_some_iff.mp hp).1
    obtain ⟨h1, h2, h3⟩ := cutAt_bounds hw h hk
    rw [getElem?_cutAt h hk] at hp
    cases hp
    dsimp only
    rw [sum_take_cutAt hw h k (by omega)]
    have hq : ∀ n, (lo / w + k) * w ≤ n → n < (lo / w + k) * w + w → n / w = lo / w + k := by
      intro n a b
      refine Nat.div_eq_of_lt_le a ?_
      rw [Nat.succ_mul]
      exact b
    refine ⟨by omega, by omega, by omega, fun h0 => ?_, ?_, ?_⟩
    · rw [Nat.max_eq_right (Nat.le_of_lt (h3 h0))]
      exact Nat.mul_mod_left ..
    · exact (hq _ (by omega) (by omega)).trans (hq _ (by omega) (by omega)).symm
    · rcases Nat.le_total hi ((lo / w + k) * w + w) with hh | hh
      · exact .inr (Nat.min_eq_left hh)
      · left
        rw [Nat.min_eq_right hh, ← Nat.succ_mul]
        exact Nat.mul_mod_left ..

end Sys2Proof.Machine
end

