-- ==== Sys2Proof/Tests/Slice0.lean ====
section
/-! SUPPORT. The model's own tests: ill-formed commands that the check refuses; one or two steps of each command on a small
state, most of them taken from the manual's worked cases; and, for each statement with hypotheses, a state and operands that
meet them (`meets_<statement>`). -/

set_option Elab.async false

namespace Sys2Proof.Tests

open Sys2Proof.Machine

/-! ### Small states -/

/-- The state after a command. -/
def after (c : Instr) (s : State) : State :=
  match exec c s with
  | .next t => t
  | .fault _ => s
  | .refused _ => s

/-- A READY part with nothing set up. -/
def base : State := { State.reset with partState := .ready, clearing := false }

/-- The same with a management frame begun. -/
def framed (s : State) : State := { s with frame := some .start }

/-- What a command answered: its result and data. -/
def answerOf (s : State) : List Byte := (s.frame.bind Frame.response).getD []

/-- The toy stream of 12.1: 256 by 32 bytes, T = 8, S = 3. -/
def toy : Geom where
  aperture := 0x3000000000
  viewStride := 0x2000
  storage := 0x1002000000
  statusBase := 0x1002008000
  ringBase := 0x1002008100
  ringEntries := 4
  slots := 3
  planeCount := 1
  vacant := 0xFF
  verify := false
  threshold := 3
  initialWin := 0
  planes := [⟨0, 256, 256, 32, 1, 1, 0x10⟩]

/-- A stream record of the toy stream, holding bank 10. -/
def toyStream (state : StreamState) : Stream := { Stream.reset with state := state, geom := some toy, banks := [10] }

/-- The part with the toy stream as stream 6. -/
def one (state : StreamState) : State :=
  { base with freeBanks := (List.range 160).filter fun b => b != 10 }.setStream 6 (toyStream state)

/-- A READ of `beats` beats with tag 2. -/
def readReq (addr beats : Nat) : Request := ⟨.read, BitVec.ofNat 40 addr, beats, 2, [], []⟩

/-- A WRITE of one byte value with tag 1, every byte enabled or none. -/
def writeReq (addr beats : Nat) (b : Byte) (on : Bool) : Request :=
  ⟨.write, BitVec.ofNat 40 addr, beats, 1, List.replicate (32 * beats) b, List.replicate (32 * beats) on⟩

/-- An entry of the toy stream, filled with one byte, all or none of it covered. -/
def tile (num pos : Nat) (state : EntryState) (b : Byte) (covered : Bool) : Entry :=
  ⟨num, 6, 0, 0, pos, List.replicate 1024 b, List.replicate 1024 covered, state⟩

/-- A commit of the toy stream in slot 0. -/
def commit (pos entry : Nat) (kind : Option CommitKind) (phase : Option CommitPhase) : Commit :=
  ⟨6, 0, pos, entry, .complete, .completePath, none, none, .blank, [], kind, phase, [], false⟩

/-- An issued transfer. -/
def issuedX (id : Nat) (o : Owner) (w : Wire) : Xfer := ⟨id, 0, o, 0, w, true, false⟩

/-- The toy stream with one issued internal transfer. -/
def withXfer (s : State) (o : Owner) (w : Wire) : State :=
  { s with internal := [issuedX 0 o w], nextXfer := 1, stepNum := 1 }

/-- An OKAY answer to transfer 0. -/
def okay (data : List Byte) : DramAnswer := ⟨0, 0, .okay, data⟩

/-- A DATA-ERROR answer to transfer 0. -/
def bad : DramAnswer := ⟨0, 0, .dataError, []⟩

/-! ### The checks of WellFormed.lean refuse -/

theorem test_refuses_write_short_data :
    (Instr.upstreamRequest ⟨.write, 0, 1, 0, [], List.replicate 32 true⟩).wellFormed = false := by decide
theorem test_refuses_write_short_enables :
    (Instr.upstreamRequest ⟨.write, 0, 1, 0, List.replicate 32 0, []⟩).wellFormed = false := by decide
theorem test_refuses_read_with_data : (Instr.upstreamRequest ⟨.read, 0, 1, 0, [0], []⟩).wellFormed = false := by decide
theorem test_refuses_read_with_enables : (Instr.upstreamRequest ⟨.read, 0, 1, 0, [], [true]⟩).wellFormed = false := by
  decide
theorem test_refuses_part_beats : (Instr.homeReadAnswer ⟨0, 0, .okay, [0]⟩).wellFormed = false := by decide
theorem test_refuses_nine_beats :
    (Instr.passThroughAnswer ⟨0, 0, .okay, List.replicate 288 0⟩).wellFormed = false := by decide +kernel
theorem test_refuses_upset_twice :
    (Instr.ageTick [⟨0, 0, .single, none⟩, ⟨0, 0, .double, none⟩]).wellFormed = false := by decide
theorem test_refuses_position : (Instr.commitCompletion 0 6528).wellFormed = false := by decide
theorem test_refuses_known_code : (Instr.unknownCommand 0x7E 0 0).wellFormed = false := by decide
theorem test_accepts :
    (Instr.upstreamRequest (writeReq 0 8 0 true)).wellFormed = true ∧ (Instr.ageExpiry 3 6527).wellFormed = true ∧
      (Instr.unknownCommand 0x00 0 0).wellFormed = true := by decide +kernel

/-! ### One step of each command -/

/-- PIN_RESET samples the strap and starts clearing (R167, R168). -/
theorem test_pinReset :
    (after (.pinReset .transparent) (one .opened)).mode = .transparent ∧
      (after (.pinReset .transparent) (one .opened)).partState = .starting ∧
      ((after (.pinReset .transparent) (one .opened)).stream 6).state = .free := by decide +kernel

/-- PART_READY (R169). -/
theorem test_partReady : after .partReady State.reset = base := by decide +kernel

/-- A view-0 write of line 0 opens the four entries of tile row 0 (12.3). -/
theorem test_upstreamRequest_places :
    let s := after (.upstreamRequest (writeReq 0x3000000000 8 0x55 true)) (one .opened)
    s.entries.map (fun e => (e.num, e.pos, e.state)) =
        [(0, 0, .collecting 0), (1, 1, .collecting 0), (2, 2, .collecting 0), (3, 3, .collecting 0)] ∧
      s.lastWrite = [0, 1, 2, 3] ∧ s.deliverable = [0] ∧
      s.entries.map (fun e => (e.cov.filter id).length) = [64, 64, 64, 64] := by decide +kernel

/-- A write of 9 beats fails the shape checks and is DECLINED (R133). -/
theorem test_upstreamRequest_shape :
    (after (.upstreamRequest (writeReq 0 9 0 true)) base).tagOrder.map (fun t => t.answer.map Answer.status) =
      [some .declined] := by decide +kernel

/-- A delivered answer leaves with its tag (R134). -/
theorem test_responseDelivery :
    (after .responseDelivery (after (.upstreamRequest (readReq 0x3000000000 1)) (one .opened))).upstreamOut =
      some ⟨2, .okay, List.replicate 32 0x10⟩ := by decide +kernel

/-- A released request is retried and leaves the queue (R140). -/
theorem test_holdRelease :
    let s := after .holdRelease { base with
      holdQ := [⟨0, readReq 0 1, .tagOrder, none, [], true⟩], tagOrder := [⟨0, 2, .read, 1, none⟩], nextReq := 1 }
    s.holdQ = [] ∧ s.passClass.map Xfer.owner = [.passThrough 0] := by decide +kernel

/-- After either reset the class granted last is internal, so pass-through goes first (R148). -/
theorem test_arbiterGrant :
    let s := after .arbiterGrant { base with
      passClass := [⟨0, 0, .passThrough 0, 0, readWire 0 1, false, false⟩]
      internal := [⟨1, 1, .winDesc 6, 0, readWire 64 2, false, false⟩] }
    s.lastGranted = .passThrough ∧ s.downstreamOut.map Xfer.id = some 0 := by decide +kernel

/-- Home reads of one home that one step handed over are of one group, and neither waits; those of an earlier step are
waited for (R144, R147). -/
theorem test_homeWait_byStepAndBlock :
    let x : Xfer := ⟨0, 3, .homeRead 0 0, 0, readWire 0x1002000000 1, false, false⟩
    let y (step : Nat) : Xfer := ⟨1, step, .homeRead 1 0, 0, readWire 0x1002000040 1, false, false⟩
    let s (step : Nat) : State := { one .opened with passClass := [x, y step] }
    (s 3).homeWait (y 3) = false ∧ (s 4).homeWait (y 4) = true ∧ (s 4).homeWait x = false := by decide +kernel

/-- A pass-through answer goes upstream (R16). -/
theorem test_passThroughAnswer :
    let s := after (.passThroughAnswer (okay (List.replicate 32 7))) { base with
      passClass := [issuedX 0 (.passThrough 0) (readWire 0 1)], tagOrder := [⟨0, 2, .read, 1, none⟩], nextReq := 1 }
    s.passClass = [] ∧ s.deliverable = [0] ∧ s.tagOrder.map Taken.answer = [some ⟨.okay, List.replicate 32 7⟩] := by
  decide +kernel

/-- A read whose home read fails is answered DATA-ERROR with the vacant byte, and no stream faults (R32). -/
theorem test_homeReadAnswer :
    let s := after (.homeReadAnswer bad) { one .opened with
      passClass := [issuedX 0 (.homeRead 0 0) (readWire 0x1002000000 1)]
      reads := [⟨0, 0xFF, [⟨List.replicate 32 none, true⟩], false⟩], tagOrder := [⟨0, 2, .read, 1, none⟩], nextReq := 1 }
    s.tagOrder.map Taken.answer = [some ⟨.dataError, List.replicate 32 0xFF⟩] ∧ s.reads = [] ∧
      (s.stream 6).state = .opened := by decide +kernel

/-- A state in which the commit of (0, 0) waits for one issued transfer. -/
def committing (c : Commit) (o : Owner) (w : Wire) : State :=
  withXfer { one .opened with entries := [tile 0 0 (.committing .complete) 5 true], commits := [c] } o w

/-- A verify read that fails makes the kind COLLIDED and raises COLLISION (R66). -/
theorem test_verifyReadAnswer :
    let s := after (.verifyReadAnswer bad)
      (committing { commit 0 0 none (some .verify) with matched := some 0 } (.verifyRead 6 0) (readWire 0x1002000300 8))
    s.commits.map Commit.kind = [some .collided] ∧ (s.cause 10).pending = true ∧ s.internal.length = 4 := by
  decide +kernel

/-- The last merge read leads to a whole-tile write over the old content (R74). -/
theorem test_mergeReadAnswer :
    let s := after (.mergeReadAnswer (okay (List.replicate 256 9)))
      (committing { commit 0 0 (some .partialTile) (some .merge) with
        prev := .aliasOf 2, got := [(0, List.replicate 256 9), (256, List.replicate 256 9), (512, List.replicate 256 9)] }
        (.mergeRead 6 0) (readWire 0x1002004300 8))
    s.commits.map Commit.phase = [some .write] ∧
      s.internal.map (fun x => (x.wire.addr.toNat, x.wire.data.head?)) =
        [(0x1002000000, some 5), (0x1002000100, some 5), (0x1002000200, some 5), (0x1002000300, some 5)] := by
  decide +kernel

/-- The last commit write answered completes the commit in the same step (R78). -/
theorem test_commitWriteAnswer :
    let s := after (.commitWriteAnswer (okay []))
      (committing { commit 0 0 (some .changed) (some .write) with sig := some 0x12345678 } (.commitWrite 6 0)
        (writeWire 0x1002000000 (List.replicate 256 5)))
    s.entries = [] ∧ s.commits = [] ∧
      s.mapMem = [(10240, ⟨.entry ⟨.owned, some (.changed, 0)⟩, .good⟩),
        (10264, ⟨.record ⟨some 0x12345678, 0⟩, .good⟩)] := by decide +kernel

/-- A commit that needs nothing more completes; a RETAINED commit leaves the record (R78). -/
theorem test_commitCompletion :
    let s := after (.commitCompletion 6 0) { one .opened with
      entries := [tile 0 0 (.committing .complete) 5 true], commits := [commit 0 0 (some .retained) none] }
    s.mapMem = [(10240, ⟨.entry ⟨.owned, some (.retained, 0)⟩, .good⟩)] ∧ s.entries = [] := by decide +kernel

/-- A migration of (0, 0) to slot 2 whose aliasers are slots 1 and 2, as in 12.6. -/
def moving (step : CopyStep) (o : Owner) (w : Wire) : State :=
  { committing { commit 0 0 (some .changed) (some .migrate) with prev := .owned, aliasers := [(1, 2), (2, 1)] } o w with
    migrations := [⟨6, 0, 0, [(1, 2), (2, 1)], 2, step,
      [(0, List.replicate 256 1), (256, List.replicate 256 2), (512, List.replicate 256 3)]⟩] }

/-- The last copy read hands on the copy write, then the commit's write (R87; 12.6 step 5). -/
theorem test_copyReadAnswer :
    let s := after (.copyReadAnswer (okay (List.replicate 256 4))) (moving .copyRead (.copyRead 6 0) (readWire 0x1002000300 8))
    s.internal.map (fun x => (x.wire.addr.toNat, x.wire.data.head?)) =
      [(0x1002004000, some 1), (0x1002004100, some 2), (0x1002004200, some 3), (0x1002004300, some 4),
        (0x1002000000, some 5), (0x1002000100, some 5), (0x1002000200, some 5), (0x1002000300, some 5)] ∧
      s.commits.map Commit.phase = [some .write] := by decide +kernel

/-- The copy write answered completes the migration: slot 2 OWNED, slot 1 an alias of it (R89; 12.6 step 6). -/
theorem test_copyWriteAnswer :
    let s := after (.copyWriteAnswer (okay [])) { moving .copyWrite (.copyWrite 6 0) (writeWire 0x1002004300 []) with
      mapMem := [(10240, ⟨.entry ⟨.owned, some (.retained, 3)⟩, .good⟩),
        (10248, ⟨.entry ⟨.aliasOf 0, some (.aliased, 4)⟩, .good⟩), (10256, ⟨.entry ⟨.aliasOf 0, some (.aliased, 5)⟩,
          .good⟩)] }
    s.migrations = [] ∧ (s.stream 6).migrated = 1 ∧
      (s.mapMem.drop 1).take 2 = [(10248, ⟨.entry ⟨.aliasOf 2, some (.aliased, 4)⟩, .good⟩),
        (10256, ⟨.entry ⟨.owned, some (.aliased, 5)⟩, .good⟩)] := by decide +kernel

/-- A migration with nothing outstanding completes. -/
theorem test_migrationCompletion :
    (after (.migrationCompletion 6 0) { moving .copyWrite (.commitWrite 6 0) (writeWire 0x1002000000 []) with
      commits := [] }).migrations = [] := by decide +kernel

/-- An age tick that reaches the limit starts an AGED commit: PARTIAL over BLANK writes the whole tile (R50, R73). -/
theorem test_ageTick :
    let s := after (.ageTick []) { one .opened with
      entries := [tile 0 0 (.collecting 199) 5 false, tile 1 1 (.collecting 198) 5 false], lastWrite := [0, 1] }
    s.entries.map Entry.state = [.committing .aged, .collecting 199] ∧ s.internal.length = 4 := by decide +kernel

/-- A double-bit error met by a commit's lookups faults the stream, which frees the entry (R28, R56, R176). -/
theorem test_ageTick_upset :
    let s := after (.ageTick [⟨10, 24, .double, none⟩]) { one .opened with
      entries := [tile 0 0 (.collecting 199) 5 false], lastWrite := [0] }
    (s.stream 6).state = .faulted ∧ (s.cause 0).streams = 0x40 ∧ s.entries = [] := by decide +kernel

/-- An entry that stands at the limit starts its commit (R50). -/
theorem test_ageExpiry :
    (after (.ageExpiry 6 0) { one .opened with
      entries := [tile 0 0 (.collecting 200) 5 false], lastWrite := [0] }).entries.map Entry.state =
      [.committing .aged] := by decide +kernel

/-- IDENTIFY of a READY part in MANAGED mode (R154, R188). -/
theorem test_identify : answerOf (after (.identify 0xFF 0) (framed base)) = [0x01, 0x46, 0x32, 0x08, 0x01, 0x00, 0x01] := by
  decide +kernel

/-- READ-STATUS after start-up: 24 bytes of data, all streams FREE, 160 banks free (R155, R188). -/
theorem test_readStatus :
    answerOf (after (.readStatus 0 0) (framed base)) =
      [0x01, 0x01, 0x00] ++ List.replicate 16 0x00 ++ [0, 0, 0, 160, 0, 0] := by decide +kernel

/-- READ-STREAM 6 of the faulted stream of 12.9: FAULTED, frame 8, slot 2, one committing entry. -/
theorem test_readStream :
    answerOf (after (.readStream 6 0) (framed ({ base with
      entries := [tile 0 0 (.committing .complete) 5 true] }.setStream 6 { toyStream .faulted with frame := 8, slot :=
        2 }))) =
      [0x01, 0x04, 0, 0, 0, 8, 2, 0, 0, 1, 0] := by decide +kernel

/-- READ-CAUSE takes the higher level before the lower number, and clears what it answers (R173). -/
theorem test_readCause :
    let s := framed ((({ base with }.raise .mapFault 6).raise .frameDone 9).setCause 5 ⟨true, 0x0200, 2⟩)
    answerOf (after (.readCause 0 0) s) = [0x01, 6, 0x02, 0x00] ∧ ((after (.readCause 0 0) s).cause 5) = ⟨false, 0, 2⟩ ∧
      ((after (.readCause 0 0) s).cause 0).pending = true := by decide +kernel

/-- SET-CAUSE-LEVEL drives the interrupt line in its step (R157, R172). -/
theorem test_setCauseLevel :
    let s := framed (base.raise .frameDone 6)
    s.irqAsserted = false ∧ (after (.setCauseLevel 0 0x0306) s).irqAsserted = true ∧
      answerOf (after (.setCauseLevel 0 0x0406) s) = [0x04] := by decide +kernel

/-- SET-AGE: code 2 is divider 16; code 4 is refused (R158). -/
theorem test_setAge :
    (after (.setAge 0 0x0A01) (framed base)).divider = 4 ∧ (after (.setAge 0 0x0A01) (framed base)).ageLimit = 10 ∧
      answerOf (after (.setAge 0 0x0A04) (framed base)) = [0x04] := by decide +kernel

/-- STREAM-SETUP 6 at 10_0200_8240h: two 2-beat fetch reads (12.2). -/
theorem test_streamSetup :
    let s := after (.streamSetup 6 0x1002008240) (framed base)
    answerOf s = [0x02] ∧ (s.stream 6).state = .loading ∧
      s.internal.map (fun x => (x.wire.addr.toNat, x.wire.beats)) = [(0x1002008240, 2), (0x1002008280, 2)] := by
  decide +kernel

/-- STREAM-ADVANCE of a stream with no entry: the status map of slot 0 is one 2-beat write at 10_0200_8000h (12.3). -/
theorem test_streamAdvance :
    let s := after (.streamAdvance 6 0) (framed (one .opened))
    answerOf s = [0x02] ∧ (s.stream 6).phase = some .second ∧
      s.internal.map (fun x => (x.wire.addr.toNat, x.wire.beats)) = [(0x1002008000, 2)] := by decide +kernel

/-- STREAM-TEARDOWN of an idle stream drains at once: FREE, bank 10 back in the pool (R165, R166). -/
theorem test_streamTeardown :
    let s := after (.streamTeardown 6 0) (framed (one .opened))
    answerOf s = [0x02] ∧ (s.stream 6).state = .free ∧ s.freeBanks.length = 160 ∧ (s.cause 4).streams = 0x40 := by
  decide +kernel

/-- WINDOW-SET: a 64-aligned address is pending, 0 withdraws it (R107). -/
theorem test_windowSet :
    let s := after (.windowSet 6 0x1002008200) (framed (one .opened))
    (s.stream 6).pendingWin = some 0x1002008200 ∧ ((after (.windowSet 6 0) (framed s)).stream 6).pendingWin = none ∧
      answerOf (after (.windowSet 6 0x20) (framed (one .opened))) = [0x04] := by decide +kernel

/-- RESET-PART (R169). -/
theorem test_resetPart :
    let s := after (.resetPart 0 0) (framed (one .opened))
    answerOf s = [0x02] ∧ s.partState = .starting ∧ (s.stream 6).state = .free := by decide +kernel

/-- UNKNOWN (R153). -/
theorem test_unknownCommand : answerOf (after (.unknownCommand 0x20 0 0) (framed State.reset)) = [0x05] := by decide +kernel

/-- A frame begins, and one of 18 bytes shifts out its data from byte 12 on (R152). -/
theorem test_managementFrame :
    (after .managementFrameStart base).frame = some .start ∧
      (after (.managementFrameEnd (List.replicate 64 false)) (after (.identify 0 0) (framed base))).msdo =
        List.replicate 12 0 ++ [0x01, 0x46, 0x32, 0x08, 0x01, 0x00] := by decide +kernel

/-- A fall of MCSN with a frame in progress is no event (log entry 2). -/
theorem test_managementFrameStart_inProgress :
    after .managementFrameStart (after (.identify 0 0) (framed base)) = after (.identify 0 0) (framed base) :=
      by decide +kernel

/-- The bits of bytes, each most significant first. -/
def bits (bytes : List Nat) : List Bool := bytes.flatMap (bitsOf 8)

/-- The worked frame of 11.5, SET-AGE with divider 64 and limit 100: byte 12 is shifted out as DONE. -/
theorem test_frame_setAge :
    let s := after (.managementFrameEnd (bits [0x06, 0, 0, 0, 0, 0, 0, 0, 0x64, 0x03, 0, 0, 0])) (framed base)
    s.divider = 64 ∧ s.ageLimit = 100 ∧ s.msdo = List.replicate 12 0 ++ [0x01] := by decide +kernel

/-- The worked frame of 11.5, STREAM-SETUP of stream 0 at 10_0090_0040h; one bit short of it takes no command (R152). -/
theorem test_frame_streamSetup :
    let frame := bits [0x10, 0x00, 0, 0, 0, 0x10, 0x00, 0x90, 0x00, 0x40]
    let s := after (.managementFrameEnd frame) (framed base)
    (s.stream 0).state = .loading ∧ s.internal.map (fun x => x.wire.addr.toNat) = [0x1000900040, 0x1000900080] ∧
      after (.managementFrameEnd (frame.take 79)) (framed base) = { base with msdo := List.replicate 9 0 } :=
        by decide +kernel

/-- The two reads of the toy stream's descriptor, little-endian (11.2; 12.1), with no initial set. -/
def toyBytes : List Byte :=
  leBytes 8 0x3000000000 ++ leBytes 8 0x2000 ++ leBytes 8 0x1002000000 ++ leBytes 8 0x1002008000 ++ leBytes 8 0x1002008100
    ++ [4, 0, 3, 1, 0xFF, 0, 3, 0] ++ List.replicate 16 0
    ++ [0, 0, 0, 0, 0, 1, 0, 1, 32, 0, 1, 1, 0x10] ++ List.replicate 51 0

theorem test_descriptor : geomOfBytes toyBytes = toy ∧ toyBytes.length = 128 ∧ toy.ok = true ∧ toy.tiles = 8 ∧
    toy.slotStride = 8192 ∧ toy.statusStride = 64 ∧ toy.banksNeeded = 1 := by decide +kernel

/-- The second descriptor read answered: bank 0 allotted, OPEN, SETUP-DONE (R160 to R163). -/
theorem test_descriptorFetchAnswer :
    let s := after (.descriptorFetchAnswer (okay (toyBytes.drop 64)))
      (withXfer (base.setStream 6 { Stream.reset with
        state := .loading, fetch := [(0x1002008240, toyBytes.take 64)] }) (.descFetch 6) (readWire 0x1002008280 2))
    (s.stream 6).state = .opened ∧ (s.stream 6).geom = some toy ∧ (s.stream 6).banks = [0] ∧
      s.freeBanks.length = 159 ∧ (s.cause 3).streams = 0x40 := by decide +kernel

/-- The window descriptor of the toy stream (12.1). -/
def toyWindow : List Byte :=
  [0, 0, 255, 0, 24, 0, 31, 0, 192, 0, 255, 0, 0, 0, 15, 0] ++ List.replicate 12 0 ++ [0x01, 0x04, 0x8C]
    ++ List.replicate 33 0

/-- Read at a frame open it is switched in at once, and the next frame opens; only position 3 is exempt, and it alone is
outside the CHANGE area (12.1, R111). -/
theorem test_windowDescriptorReadAnswer :
    let s := after (.windowDescriptorReadAnswer (okay toyWindow)) (withXfer (base.setStream 6 { toyStream .closing with
      phase := some .fourth, loadingWin := some 0x1002008200 }) (.winDesc 6) (readWire 0x1002008200 2))
    let x := s.stream 6
    x.state = .opened ∧ x.switched = true ∧ x.frame = 1 ∧
      (List.range 8).filter (fun p => x.exemptActive (toy.anchor p).1 (toy.anchor p).2) = [3] ∧
      (List.range 8).filter (fun p => !x.changeActive (toy.anchor p).1 (toy.anchor p).2) = [3] ∧
      x.maskActive 0 23 = false ∧ x.maskActive 0 24 = true := by decide +kernel

/-- A settings byte of 8Dh: W0 INSIDE and W1 OUTSIDE under AND (R186). -/
theorem test_settingsByte :
    procSetOf 0x8D = ⟨⟨true, .inside⟩, ⟨true, .outside⟩, ⟨false, .inside⟩, .allOf⟩ ∧
      procSetOf 0x10 = ⟨.off, .off, ⟨true, .inside⟩, .anyOf⟩ := by decide

/-- A window load whose line table of two entries is read. -/
def loading : State :=
  withXfer (base.setStream 6 { toyStream .closing with
    phase := some .fourth, loadingWin := some 64, load := some ⟨{ WindowSet.null with n := 2 }, 0x104, [], false⟩ })
    (.lineTable 6) (readWire 0x100 1)

/-- The line table's entries from its address on; a line whose start is past its end is empty (R110). -/
theorem test_lineTableReadAnswer :
    let s := after (.lineTableReadAnswer (okay ([9, 9, 9, 9, 3, 0, 5, 0, 7, 0, 2, 0] ++ List.replicate 20 9))) loading
    (s.stream 6).store = [some ⟨3, 5⟩, none] ∧ (s.stream 6).active.n = 2 ∧ (s.stream 6).state = .opened := by
  decide +kernel

/-- A line table at 10h of 72 entries is read in two parts, cut at 100h (R110). -/
theorem test_lineTableParts : lineTableParts 0x10 72 = [(0, 0x100), (0x100, 0x140)] := by decide

/-- The first phase ends with no entry left; the frame record counts 8 BLANK positions (R116, R118, R121). -/
theorem test_closeFirstPhaseEnd :
    let s := after (.closeFirstPhaseEnd 6) (base.setStream 6 { toyStream .closing with phase := some .first })
    (s.stream 6).phase = some .second ∧ (s.stream 6).record.map FrameRecord.kinds = some [8, 0, 0, 0, 0, 0, 0, 0] := by
  decide +kernel

/-- The second phase takes every read: a single-bit error behind a double-bit one is still corrected and counted (R118,
R175, R176). -/
theorem test_closeFirstPhaseEnd_takesEveryRead :
    let s := after (.closeFirstPhaseEnd 6) ({ one .closing with
      mapMem := [(10240, ⟨.cleared, .double⟩), (10241, ⟨.cleared, .single⟩)] }.setStream 6
        { toyStream .closing with phase := some .first })
    (s.stream 6).state = .faulted ∧ s.corrected = 1 ∧ s.mapMem = [(10240, ⟨.cleared, .double⟩)] ∧
      (s.cause 0).streams = 0x40 ∧ (s.cause 11).streams = 0x40 := by decide +kernel

/-- A frame record of 12.8: PARTIAL 4, ALIASED 4, changed 3, EVICTED 4, CLOSE 4, slide change. -/
def record7 : FrameRecord := ⟨6, 7, 1, 8, [0, 0, 0, 4, 0, 4, 0, 0], 3, 4, 0, 4, 0, true, false, false⟩

theorem test_recordBytes :
    record7.bytes = [6, 1, 8, 0, 7, 0, 0, 0, 0, 0, 0, 0, 0, 0, 4, 0, 0, 0, 4, 0, 0, 0, 0, 0, 3, 0, 4, 0, 0, 0, 4, 0, 0,
      0, 1]
      ++ List.replicate 29 0 := by decide

/-- A closing toy stream of frame 7 with its record formed. -/
def closing7 (phase : ClosePhase) : Stream :=
  { toyStream .closing with phase := some phase, frame := 7, slot := 1, record := some record7 }

/-- The last status-map write answered: the record goes to ring index 7 mod 4, at 10_0200_81C0h (12.8). -/
theorem test_statusMapWriteAnswer :
    let s := after (.statusMapWriteAnswer (okay []))
      (withXfer (base.setStream 6 (closing7 .second)) (.statusMap 6) (writeWire 0x1002008040 (List.replicate 64 0)))
    (s.stream 6).phase = some .third ∧
      s.internal.map (fun x => (x.wire.addr.toNat, x.wire.beats)) = [(0x10020081C0, 2)] := by
  decide +kernel

/-- The frame-record write answered, with nothing pending: the next frame opens in the same step, and SLIDE-CHANGE is
raised (R123 to R125; 12.8). -/
theorem test_frameRecordWriteAnswer :
    let s := after (.frameRecordWriteAnswer (okay []))
      (withXfer (base.setStream 6 (closing7 .third)) (.frameRecord 6) (writeWire 0x10020081C0 record7.bytes))
    (s.stream 6).state = .opened ∧ (s.stream 6).frame = 8 ∧ (s.stream 6).slot = 2 ∧ (s.cause 5).streams = 0x40 ∧
      (s.cause 6).streams = 0x40 := by decide +kernel

/-- The next frame opens (R125). -/
theorem test_frameOpen :
    ((after (.frameOpen 6) (base.setStream 6 (closing7 .fourth))).stream 6).frame = 8 := by decide +kernel

/-- The answer to a discarded transfer frees the entry that waited on it (R57, R149; 12.9). -/
theorem test_discardedAnswer :
    let s := after (.discardedAnswer bad) { one .faulted with
      entries := [tile 0 0 (.committing .complete) 5 true]
      internal := [⟨0, 0, .commitWrite 6 0, 0, writeWire 0x1002004000 [], true, true⟩] }
    s.entries = [] ∧ s.internal = [] := by decide +kernel

/-- The drain ends: FREE, banks returned, TEARDOWN-DONE (R166). -/
theorem test_drainEnd :
    let s := after (.drainEnd 6) (one .draining)
    (s.stream 6).state = .free ∧ s.freeBanks.length = 160 ∧ (s.cause 4).pending = true := by decide +kernel

/-- No word spells a command. -/
theorem test_decodeTableWord : decodeTableWord 32 0 = none := rfl

/-- The queue is first in, first out. -/
theorem test_queue :
    (match step { base with pending := [.managementFrameStart, .partReady] } with
      | .next t => t.pending
      | .fault _ => []
      | .refused _ => []) = [.partReady] := by decide +kernel

/-! ### Worked values of the manual -/

/-- The CRC of the nine bytes "123456789" by the rule of R64. -/
theorem test_signature : signature [0x31, 0x32, 0x33, 0x34, 0x35, 0x36, 0x37, 0x38, 0x39] = 0x0376E6E7#32 :=
  by decide +kernel

/-- A line of plane 0 and its tiles (R9): the write of line 17 from byte 32 of the toy stream has five pieces. -/
theorem test_pieces :
    (toy.pieces (17 * 256 + 32) 160).map (fun p => (p.off, p.len, p.tile.map fun t => (t.pos, t.i, t.j))) =
      [(0, 32, some (4, 1, 32)), (32, 64, some (5, 1, 0)), (96, 64, some (6, 1, 0))] := by decide

/-! ### The hypotheses of the statements can be met -/

/-- The identities of a state, checked one by one. -/
def idsCheck (s : State) : Bool :=
  let requests := s.tagOrder.map Taken.id
  let held := s.holdQ.map Held.id
  let reads := s.reads.map ResolvedRead.id
  let pass := s.passClass.map Xfer.id
  let internal := s.internal.map Xfer.id
  (requests ++ held ++ reads).all (fun n => decide (n < s.nextReq)) && (pass ++ internal).all (fun n => decide (n < s.nextXfer))
    && decide requests.Nodup && decide held.Nodup && decide (pass ++ internal).Nodup

theorem idsOk_of_check {s : State} (h : idsCheck s = true) : s.IdsOk := by
  unfold idsCheck at h
  simp only [Bool.and_eq_true, List.all_eq_true, decide_eq_true_eq, List.mem_append] at h
  obtain ⟨⟨⟨⟨h1, h2⟩, h3⟩, h4⟩, h5⟩ := h
  obtain ⟨h6, h7, h8⟩ := List.nodup_append.mp h5
  exact ⟨fun n hn => h1 n (.inl (.inl hn)), fun n hn => h1 n (.inl (.inr hn)), fun n hn => h1 n (.inr hn),
    fun n hn => h2 n (.inl hn), fun n hn => h2 n (.inr hn), h3, h4, h6, h7, fun n hn hm => h8 n hn n hm rfl⟩

theorem meets_StepRunsTheFrontCommand : ({ base with pending := [.partReady] } : State).pending = .partReady :: [] := rfl

/-- Nothing due, and a commit due. -/
theorem meets_FinishTakesWhatIsDueAndDelivers :
    (one .opened).quiet = true ∧ ({ one .opened with
      entries := [tile 0 0 (.committing .complete) 5 true], commits := [commit 0 0 (some .retained) none] } : State).quiet =
        false := by decide +kernel

/-- A state for each clause: one event due, and no other of its sort. -/
theorem meets_OneRoundTakesWhatIsDue :
    let m := moving .copyWrite (.commitWrite 6 0) (writeWire 0x1002000000 [])
    let c : State := { one .opened with
      entries := [tile 0 0 (.committing .complete) 5 true], commits := [commit 0 0 (some .retained) none] }
    let e : State := { one .faulted with entries := [tile 0 0 (.committing .complete) 5 true] }
    let first := base.setStream 6 { toyStream .closing with phase := some .first }
    let fourth := base.setStream 6 (closing7 .fourth)
    (m.migrations.all fun x => m.migrationDue x) = true ∧ m.migrations.length = 1 ∧
      c.commitAt 6 0 = some (commit 0 0 (some .retained) none) ∧ c.commitDue (commit 0 0 (some .retained) none) = true ∧
      (∀ x ∈ c.entries, c.entryDead x = false) ∧ (∃ x ∈ e.entries, e.entryDead x = true) ∧
      (first.closeDue 6 = true ∧ (∀ u, first.openDue u = false ∧ first.drainDue u = false) ∧
        ∀ u, u ≠ 6 → first.closeDue u = false) ∧
      (fourth.openDue 6 = true ∧ (∀ u, fourth.closeDue u = false ∧ fourth.drainDue u = false) ∧
        ∀ u, u ≠ 6 → fourth.openDue u = false) ∧
      ((one .draining).drainDue 6 = true ∧ (∀ u, (one .draining).closeDue u = false ∧ (one .draining).openDue u = false) ∧
        ∀ u, u ≠ 6 → (one .draining).drainDue u = false) ∧ base.partState = .ready ∧
      State.reset.partState = .starting ∧ State.reset.internal = [] := by decide +kernel

theorem meets_PinResetAndPartReady :
    State.reset.partState = .starting ∧ State.reset.internal = [] ∧
      ({ State.reset with internal := [issuedX 0 (.winDesc 6) (readWire 0 2)] } : State).internal ≠ [] ∧
      base.partState = .ready := by decide +kernel

/-- A frame that listens, in a READY part in MANAGED mode: the hypotheses of every statement about a management command
(IdentifyAnswersWithoutChange, ReadStatusAndReadStreamReport, ResetPartKeepsOnlyWorkAlreadyTaken among them). -/
theorem meets_management :
    (framed (one .opened)).listening = true ∧ (framed (one .opened)).mode = .managed ∧
      (framed (one .opened)).partState = .ready ∧ (0x06#8).toNat = (6 : StreamId).val ∧
        (0x00#8).toNat = (0 : StreamId).val ∧
      (0x0F#8).toNat = (15 : StreamId).val ∧ base.listening = false ∧
      (framed { base with mode := .transparent }).mode = .transparent ∧ (framed State.reset).partState = .starting ∧
      16 ≤ (0x10#8).toNat := by decide +kernel

/-- The laws hold of a part with work in it. -/
def busy : State :=
  { one .opened with
    entries := [tile 0 0 (.collecting 199) 5 false, tile 1 1 (.committing .complete) 5 true], lastWrite := [0]
    mapMem := [(10240, ⟨.entry ⟨.owned, some (.changed, 0)⟩, .good⟩)]
    tagOrder := [⟨0, 2, .read, 1, none⟩], holdQ := [⟨0, readReq 0x3000000000 1, .tileBusy 6 0 1, some 6, [(0, 1)], false⟩]
    nextReq := 1, internal := [issuedX 0 (.commitWrite 6 1) (writeWire 0x1002000400 [])], nextXfer := 1, stepNum := 1
    pending := [.ageTick []] }

theorem meets_EveryStepKeepsTheBounds : busy.Safe := by
  constructor
  · decide +kernel
  · decide +kernel
  · decide +kernel
  · decide +kernel
  · intro e he
    have h : busy.entries = [tile 0 0 (.collecting 199) 5 false, tile 1 1 (.committing .complete) 5 true] := rfl
    rw [h] at he
    simp only [List.mem_cons, List.not_mem_nil, or_false] at he
    rcases he with rfl | rfl
    · show 199 ≤ 255
      omega
    · exact trivial
  · decide +kernel
  · decide +kernel
  · decide +kernel
  · unfold CauseRec.ok
    decide +kernel
  · unfold Stream.countsOk
    decide +kernel

theorem meets_EveryStepKeepsTheBufferLaws : busy.BufferLaws := by
  have h : busy.entries = [tile 0 0 (.collecting 199) 5 false, tile 1 1 (.committing .complete) 5 true] := rfl
  constructor
  · decide +kernel
  · decide +kernel
  · decide +kernel
  · decide +kernel
  · intro n
    have hl : busy.lastWrite = [0] := rfl
    rw [h, hl]
    simp only [List.mem_cons, List.not_mem_nil, or_false]
    constructor
    · rintro rfl
      exact ⟨_, .inl rfl, rfl, rfl⟩
    · rintro ⟨e, rfl | rfl, hn, hc⟩
      · exact hn.symm
      · cases hc

theorem meets_EveryStepKeepsSlotFrameModS :
    ∀ st, ((busy.setStream 6 { toyStream .opened with frame := 7, slot := 1 }).stream st).ringOk := by
  unfold Stream.ringOk
  decide +kernel

theorem meets_EveryStepKeepsIdentitiesApart : busy.IdsOk := idsOk_of_check (by decide +kernel)

theorem meets_EveryStepKeepsTheBanksApart : busy.BanksApart := by constructor <;> decide +kernel

theorem meets_ResetStateMeetsTheInvariants : ∃ t, exec (.pinReset .transparent) busy = .next t := ⟨_, rfl⟩

/-- A frame that has begun, one that took a command, and none; the last bit that leaves it without a command. -/
theorem meets_FramesShiftOutTheirResponse :
    (framed base).frame = some ⟨0, 0, [], none⟩ ∧ base.frame = none ∧ 8 * 0 + 0 + (List.replicate 79 true).length < 80 ∧
      (after (.identify 0 0) (framed base)).frame.map (fun f => (f.byte, f.bit, f.response.isSome)) = some (10, 0,
        true) := by
  decide +kernel

/-- The first and the last code of the table, the codes beside them, and a code between. -/
theorem meets_FrameBitsTakeTheirCommand :
    (framed base).frame = some ⟨0, 0, [], none⟩ ∧ (∃ t, exec (.identify 6 1) (framed base) = .next t) ∧
      commandOf 0x01 = some .identify ∧ commandOf 0x7E = some .resetPart ∧
      ∀ code ∈ [0x00#8, 0x07, 0x0F, 0x14, 0x7D, 0x7F],
        code ∉ [0x01#8, 0x02, 0x03, 0x04, 0x05, 0x06, 0x10, 0x11, 0x12, 0x13, 0x7E] := by
  refine ⟨rfl, ⟨_, rfl⟩, ?_⟩
  decide

/-- A frame that took a command and goes on, a command of the table and a code outside it. -/
theorem meets_PartWideAnswersComeFirst :
    (after (.resetPart 0 0) (framed base)).frame = some ⟨10, 0, [], some [0x02]⟩ ∧ (0 < 8 ∧ 10 ≤ 10) ∧
      base.frame = none ∧ (framed { base with mode := .transparent }).listening = true ∧
      (framed State.reset).listening = true ∧ 16 ≤ (0x10#8).toNat := by decide +kernel

theorem meets_ReadCauseSelectsAndClears :
    (∀ i, (base.cause i).pending = false) ∧ ∃ i, ((base.raise .mapCorrected 0).cause i).pending = true := by decide +kernel

/-- A cause that READ-CAUSE selects before an equal level with a higher number, and before a lower level. -/
theorem meets_RaisedStreamsAreHeldOnce :
    let s := framed ((base.raise .frameDone 1).raise .mapCorrected 0)
    let t := framed ((base.raise .mapFault 0).setCause 5 ⟨true, 2, 1⟩)
    (s.cause 5).pending = true ∧
      (∀ i, i ≠ Cause.frameDone.idx → (s.cause i).pending = true →
        (s.cause i).level < (s.cause Cause.frameDone.idx).level ∨
          ((s.cause i).level = (s.cause Cause.frameDone.idx).level ∧ Cause.frameDone.idx < i)) ∧
      (t.cause 5).pending = true ∧
      (∀ i, i ≠ Cause.frameDone.idx → (t.cause i).pending = true →
        (t.cause i).level < (t.cause Cause.frameDone.idx).level ∨
          ((t.cause i).level = (t.cause Cause.frameDone.idx).level ∧ Cause.frameDone.idx < i)) := by decide +kernel

/-- Cause 1 at level 0, cause 12 at level 3, and the three refusals. -/
theorem meets_SetCauseLevelAndSetAge_levels :
    (0x0001#64).toNat % 256 = (0 : Fin 12).val + 1 ∧ (0x0001#64).toNat / 256 % 256 = (0 : Fin 4).val ∧
      (0x030C#64).toNat % 256 = (11 : Fin 12).val + 1 ∧ (0x030C#64).toNat / 256 % 256 = (3 : Fin 4).val ∧
      (0x0300#64).toNat % 256 = 0 ∧ 12 < (0x030D#64).toNat % 256 ∧ 3 < (0x0401#64).toNat / 256 % 256 := by decide

theorem meets_SetCauseLevelAndSetAge_settings :
    (∀ p ∈ [(0, 1), (1, 4), (2, 16), (3, 64)], ∃ a : BitVec 64, a.toNat % 256 = (p : Nat × Nat).1) ∧
      4 ≤ (0x04#64).toNat % 256 := by
  refine ⟨fun p hp => ?_, by decide⟩
  simp only [List.mem_cons, List.not_mem_nil, or_false] at hp
  rcases hp with rfl | rfl | rfl | rfl
  · exact ⟨0, by decide⟩
  · exact ⟨1, by decide⟩
  · exact ⟨2, by decide⟩
  · exact ⟨3, by decide⟩

/-- The last address that leaves room for the descriptor, and the first that does not. -/
theorem meets_StreamSetupAndWindowSetByState :
    (base.stream 6).state = .free ∧ (2 ^ 40 - 128) % 64 = 0 ∧ 2 ^ 40 - 128 + 127 < 2 ^ 40 ∧
      2 ^ 40 ≤ 2 ^ 40 - 64 + 127 ∧ ((one .loading).stream 6).state = .loading ∧
        ((one .draining).stream 6).state = .draining ∧
      ((one .opened).stream 6).state = .opened ∧ ((one .closing).stream 6).state = .closing ∧
      ((one .faulted).stream 6).state = .faulted := by decide +kernel

/-- The last frame number but one, and the last. -/
theorem meets_StreamAdvanceAndTeardownByState :
    4294967294 < 4294967295 ∧ 4294967295 ≤ ((base.setStream 6 { toyStream .opened with frame :=
      4294967295 }).stream 6).frame ∧
      ((one .opened).stream 6).frame < 4294967295 := by decide +kernel

theorem meets_InterruptLineFollowsTheCauses :
    1 ≤ ((base.setCause 5 ⟨false, 0, 1⟩).cause Cause.frameDone.idx).level ∧
      (∀ j, j ≠ 5 → ((base.setCause 5 ⟨true, 1, 3⟩).cause j).pending = true →
        ((base.setCause 5 ⟨true, 1, 3⟩).cause j).level = 0) ∧
      ((base.setCause 5 ⟨true, 1, 0⟩).cause 5).pending = true ∧ (1 : Fin 4) ≤ 1 := by decide +kernel

/-- A length of 0, a length of 9, an address off its beat, an extent over its block; and the longest that passes. -/
theorem meets_ShapeFailureIsDeclined :
    (readReq 0 0).shapeOk = false ∧ (readReq 0 9).shapeOk = false ∧ (readReq 1 1).shapeOk = false ∧
      (readReq 32 8).shapeOk = false ∧ (readReq 256 8).shapeOk = true ∧ (readReq 224 1).shapeOk = true ∧
      base.holdQ.length < 16 ∧ base.IdsOk :=
  ⟨by decide, by decide, by decide, by decide, by decide, by decide, by decide, idsOk_of_check (by decide +kernel)⟩

/-- Each of the two ways into the pass-through class; the byte before the aperture and the byte after it; and a full hold
queue. -/
theorem meets_PassThroughIsHandedOnUnchanged :
    (one .opened).IdsOk ∧ (one .opened).holdQ.length < 16 ∧ (readReq 0x2FFFFFFFE0 1).shapeOk = true ∧
      (∀ h ∈ (one .opened).holdQ, h.req.tag ≠ 2) ∧
      (∀ h ∈ (one .opened).holdQ, h.closingHeld = true ∨ h.req.addr.toNat / 256 ≠ 0) ∧
      ({ base with mode := .transparent } : State).mode = .transparent ∧
      (∀ st, ((one .opened).stream st).live = true →
        ¬(((one .opened).geometry st).aperture ≤ (readReq 0x2FFFFFFFE0 1).addr.toNat ∧
          (readReq 0x2FFFFFFFE0 1).addr.toNat < ((one .opened).geometry st).apertureEnd) ∧
        ¬(((one .opened).geometry st).aperture ≤ (readReq 0x3000006000 1).addr.toNat ∧
          (readReq 0x3000006000 1).addr.toNat < ((one .opened).geometry st).apertureEnd)) ∧
      ((one .opened).guardHits (writeReq 0x1001FFFFE0 1 0 true) = [] ∧
        (one .opened).guardHits (writeReq 0x1002008200 1 0 true) = []) ∧
      16 ≤ ({ base with holdQ := List.replicate 16 ⟨0, readReq 0 1, .tagOrder, none, [], false⟩ } : State).holdQ.length :=
  ⟨idsOk_of_check (by decide +kernel), by decide +kernel, by decide, by decide +kernel, by decide +kernel, rfl,
    by decide +kernel, by decide +kernel, by decide⟩

/-- A faulted and a draining stream hit; the first and last bytes of a guard range; a reference view; no enabled byte; a
wholly vacant write, in the view stride past the raster. -/
theorem meets_RequestsAnsweredAtDecode :
    (one .faulted).IdsOk ∧ (one .faulted).apertureHit (readReq 0x3000000000 1) = some 6 ∧
      (one .draining).apertureHit (writeReq 0x3000005FE0 1 0 true) = some 6 ∧
      (one .opened).apertureHit (writeReq 0x1002000000 1 0 true) = none ∧
      (one .opened).guardHits (writeReq 0x1002000000 1 0 true) ≠ [] ∧
      (one .opened).guardHits (writeReq 0x10020081E0 1 0 true) ≠ [] ∧
      ((0x3000002000 - toy.aperture) / toy.viewStride ≠ 0 ∧ (0x3000001FE0 - toy.aperture) / toy.viewStride = 0) ∧
      (∀ e ∈ (writeReq 0x3000000000 1 0 false).enables, e = false) ∧
      (∃ e ∈ (writeReq 0x3000000000 1 0 true).enables, e = true) ∧
      (∀ p ∈ ({ toy with planes := [⟨0, 512, 256, 16, 1, 1, 0⟩] } : Geom).pieces 256 32,
        p.tile.isSome = true → p.live (writeReq 0x3000000100 1 0 true) = false) :=
  ⟨idsOk_of_check (by decide +kernel), by decide +kernel, by decide +kernel, by decide +kernel, by decide +kernel,
    by decide +kernel, by decide, by decide, by decide, by decide +kernel⟩

/-- The ends of the toy stream's aperture and of its guard ranges, and one past them; a stream that is not live. -/
theorem meets_RequestsAnsweredAtDecode_ranges :
    let w (addr : Nat) : Request := writeReq addr 1 0 true
    (∀ run ∈ toy.guardRuns, run.1 < run.2) ∧ 1 ≤ (w 0).beats ∧ toy.apertureEnd = 0x3000006000 ∧
      (one .opened).apertureHit (w 0x3000000000) = some 6 ∧ (one .opened).apertureHit (w 0x3000005FE0) = some 6 ∧
      (one .opened).apertureHit (w 0x3000006000) = none ∧ (one .loading).apertureHit (w 0x3000000000) = none ∧
      (one .draining).guardHits (w 0x1002000000) = [6] ∧ (one .opened).guardHits (w 0x1002005FE0) = [6] ∧
      (one .opened).guardHits (w 0x1002001FE0) = [6] ∧ (one .opened).guardHits (w 0x1002006000) = [] ∧
      (one .opened).guardHits (w 0x1002008000) = [6] ∧ (one .opened).guardHits (w 0x10020080A0) = [6] ∧
      (one .opened).guardHits (w 0x1002008100) = [6] ∧ (one .opened).guardHits (w 0x10020081E0) = [6] ∧
      (one .opened).guardHits (w 0x1002008200) = [] ∧ (one .free).guardHits (w 0x1002000000) = [] := by decide +kernel

/-- The four cases of a view-0 write: CLOSING, a blocked piece, no entry free, and one entry free for one needed. -/
theorem meets_WriteTakesTheFirstCaseThatApplies :
    let r := writeReq 0x3000000000 1 0 true
    let ps := (toy.pieces 0 32).filter fun p => p.tile.isSome
    let full (n : Nat) : State := { one .opened with
      entries := (List.range n).map fun k => { tile k 0 (.collecting 0) 0 false with stream := 5, pos := k } }
    (∃ p ∈ ps, p.live r = true) ∧ (one .opened).apertureHit r = some 6 ∧ (one .closing).apertureHit r = some 6 ∧
      ({ one .opened with entries := [tile 0 0 (.committing .complete) 0 true] } : State).blockedAt 6 (livePieces r ps) = some 0 ∧
      (full 64).blockedAt 6 (livePieces r ps) = none ∧
      64 - (full 64).entries.length < ((livePieces r ps).filter fun pt => ((full 64).entryAt 6 pt.2.pos).isNone).length ∧
      ((livePieces r ps).filter fun pt => ((full 63).entryAt 6 pt.2.pos).isNone).length ≤ 64 - (full 63).entries.length := by
  decide +kernel

/-- A held request with a tag of its own, and its queue. -/
def heldReq (id : Nat) (r : Request) (why : HoldReason) (stream : Option StreamId) (tiles : List (Nat × Nat)) (released : Bool) :
    Held := ⟨id, { r with tag := Fin.ofNat 64 id }, why, stream, tiles, released⟩

/-- A request with a held request's tag; one of each decode that overlaps a held request, by its block or by a tile; one
that leaves with others behind it; a hold of each reason clear and not. -/
theorem meets_TagOrderAndOverlapHolds :
    let pass := heldReq 10 (readReq 0 1) .tagOrder none [] false
    let read := heldReq 11 (readReq 0x3000000000 1) (.tileBusy 6 0 0) (some 6) [(0, 0)] false
    let s (h : Held) : State := { one .opened with holdQ := [h], nextReq := 12 }
    (s pass).IdsOk ∧ (∃ h ∈ (s pass).holdQ, h.req.tag = 10) ∧ (∀ h ∈ (s pass).holdQ, h.req.tag ≠ 2) ∧
      (s pass).decodeRequest (readReq 32 1) = .passThrough ∧ pass.overlaps 0 none [] = true ∧
      (s read).decodeRequest (readReq 0x3000000100 1) = .reading 6 0 (toy.pieces 0x100 32) ∧
      read.overlaps 0x30000001 (some 6) (pieceTiles 0 (toy.pieces 0x100 32)) = true ∧
      (s read).decodeRequest (writeReq 0x3000000100 1 0 true) = .placing 6 0 (toy.pieces 0x100 32) false ∧
      ([pass, read].map Held.id).Nodup ∧ pass.orderClear [] = true ∧ pass.orderClear [pass] = false ∧
      { read with reason := .overlap }.orderClear [] = true ∧ { read with reason := .overlap }.orderClear [read] = false :=
  ⟨idsOk_of_check (by decide +kernel), by decide +kernel⟩

/-- A read of BLANK tiles; and entries of each state, with and without a migration. -/
theorem meets_PiecesShowTheirMapEntries :
    (one .opened).apertureHit (readReq 0x3000000000 8) = some 6 ∧
      ((toy.pieces 0 256).all fun p => match p.tile with
        | some t => ((one .opened).entries.all fun e => !(e.stream == 6 && e.pos == t.pos)) &&
            decide ((MapMemory.read (one .opened).mapMem ((one .opened).cellKey 6 (toy.entryCell 0 t.pos))).ecc = .good) &&
            decide ((cellEntry ((one .opened).peekCell 6 (toy.entryCell 0 t.pos))).state = .blank)
        | none => true) = true ∧
      (moving .copyRead (.copyRead 6 0) (readWire 0 8)).migrationAt 6 0 =
        some ⟨6, 0, 0, [(1, 2), (2, 1)], 2, .copyRead,
          [(0, List.replicate 256 1), (256, List.replicate 256 2), (512, List.replicate 256 3)]⟩ ∧
      (one .opened).migrationAt 6 0 = none := by decide +kernel

/-- Reads whose pieces need a hold behind one that needs none, need home reads, and need neither; a COLLECTING entry that
covers its piece and one that does not. -/
theorem meets_ReadsAreResolvedWholeOrHeldWhole :
    let ps := toy.pieces 0 128
    let held : State := { one .opened with entries := [tile 0 1 (.committing .complete) 5 true] }
    let owned : State := { one .opened with mapMem := [(10240, ⟨.entry ⟨.owned, some (.changed, 0)⟩, .good⟩)] }
    let e (covered : Bool) : State := { one .opened with entries := [tile 0 0 (.collecting 0) 5 covered] }
    (one .opened).decodeRequest (readReq 0x3000000000 4) = .reading 6 0 ps ∧
      (held.resolvePieces 6 0 ps).1 = [.resolved (List.replicate 64 (some 0x10)) none, .needsHold (.tileBusy 6 0 1)] ∧
      (owned.resolvePieces 6 0 ps).1 =
        [.resolved (List.replicate 64 none) (some 0x1002000000), .resolved (List.replicate 64 (some 0x10)) none] ∧
      ((one .opened).resolvePieces 6 0 ps).1 =
        [.resolved (List.replicate 64 (some 0x10)) none, .resolved (List.replicate 64 (some 0x10)) none] ∧
      (toy.locate 0).map (fun t => (t.pos, t.i, t.j)) = some (0, 0, 0) ∧
      ((e true).resolvePieces 6 0 ps).1.head? = some (.resolved (List.replicate 64 (some 5)) none) ∧
      ((e false).entryAt 6 0).map Entry.slot = some 0 := by decide +kernel

theorem meets_DeliveryFollowsTheTagOrder :
    let s : State := { base with deliverable := [0], tagOrder :=
      [⟨0, 2, .read, 1, some ⟨.okay, []⟩⟩, ⟨1, 2, .read, 1, none⟩] }
    base.deliverable = [] ∧ s.deliverable = 0 :: [] ∧
      s.tagOrder.find? (fun u => u.id == 0) = some ⟨0, 2, .read, 1, some ⟨.okay, []⟩⟩ := by decide +kernel

/-- A released request behind one that has its tag or overlaps it and behind one that does neither, decoded in each way; a
read held again, taken and in error; a write in each of its cases. -/
theorem meets_ReleasedRequestsAreRetriedInTheirPlaces :
    let ahead := heldReq 10 (readReq 0 1) .tagOrder none [] false
    let h (r : Request) : Held := ⟨11, r, .overlap, none, [], true⟩
    let s (t : State) (r : Request) : State := { t with holdQ := [ahead, h r] }
    let w := writeReq 0x3000000000 1 0 true
    let live := livePieces w (toy.pieces 0 32)
    let full (n : Nat) : State := { one .opened with
      entries := (List.range n).map fun k => { tile k 0 (.collecting 0) 0 false with stream := 5, pos := k } }
    (s base (readReq 0 1)).holdQ = [ahead] ++ h (readReq 0 1) :: [] ∧ ((s base (readReq 0 1)).holdQ.map Held.id).Nodup ∧
      ahead.req.tag = { readReq 0 1 with tag := 10 }.tag ∧ (∀ a ∈ [ahead], a.req.tag ≠ (readReq 0 1).tag) ∧
      ahead.overlaps 0 none [] = true ∧ ahead.overlaps 1 none [] = false ∧
      (s (one .faulted) (readReq 0x3000000000 1)).decodeRequest (readReq 0x3000000000 1) =
        .answered ⟨.dataError, List.replicate 32 0xFF⟩ [] ∧
      (s base (readReq 256 1)).decodeRequest (readReq 256 1) = .passThrough ∧
      (one .opened).decodeRequest (readReq 0x3000000000 1) = .reading 6 0 (toy.pieces 0 32) ∧
      (one .opened).decodeRequest w = .placing 6 0 (toy.pieces 0 32) false ∧
      .mapError ∈ (({ one .opened with mapMem := [(10240, ⟨.cleared, .double⟩)] } : State).resolvePieces 6 0
        (toy.pieces 0 32)).1 ∧
      ((one .closing).stream 6).state = .closing ∧ (one .closing).decodeRequest w = .placing 6 0 (toy.pieces 0 32) false ∧
      ({ one .opened with entries := [tile 0 0 (.committing .complete) 0 true] } : State).blockedAt 6 live = some 0 ∧
      (full 64).blockedAt 6 live = none ∧
      64 - (full 64).entries.length < (live.filter fun pt => ((full 64).entryAt 6 pt.2.pos).isNone).length ∧
      (live.filter fun pt => ((full 63).entryAt 6 pt.2.pos).isNone).length ≤ 64 - (full 63).entries.length ∧
      (∀ k ∈ busy.holdQ, k.released = false) := by decide +kernel

/-- Each of the four cases of the arbiter. -/
theorem meets_ArbiterGrantsByTheClassesWaiting :
    let p : Xfer := ⟨0, 0, .passThrough 0, 0, readWire 0 1, false, false⟩
    let i : Xfer := ⟨1, 1, .winDesc 6, 0, readWire 64 2, false, false⟩
    let s (a b : List Xfer) : State := { base with passClass := a, internal := b }
    (s [p] []).passCandidate = some p ∧ (s [p] []).internalCandidate = none ∧ (s [] [i]).internalCandidate = some i ∧
      (s [] [i]).passCandidate = none ∧ (s [p] [i]).passCandidate = some p ∧ (s [p] [i]).internalCandidate = some i ∧
      base.lastGranted = .internal ∧ ({ base with lastGranted := .passThrough } : State).lastGranted = .passThrough ∧
      (s [] []).passCandidate = none ∧ (s [] []).internalCandidate = none := by decide +kernel

/-- Home transfers at the ends of a home of a live stream, and what is none: past the homes, of a stream that is not live, of
another kind; a transfer that waits behind one handed over before it, and one of the same step and block. -/
theorem meets_ArbiterGrantsByTheClassesWaiting_homes :
    let x (id step addr : Nat) (o : Owner) : Xfer := ⟨id, step, o, 0, readWire addr 1, false, false⟩
    let first := x 0 0 0x1002000000 (.commitWrite 6 0)
    let s : State := { one .opened with internal := [first] }
    s.homeXfer first = true ∧ s.homeXfer (x 1 1 0x10020003E0 (.homeRead 0 0)) = true ∧
      s.homeXfer (x 1 1 0x1002001FE0 (.homeRead 0 0)) = true ∧ s.homeXfer (x 1 1 0x1002006000 (.homeRead 0 0)) = false ∧
      s.homeXfer (x 1 1 0x1002000000 (.passThrough 0)) = false ∧ (one .free).homeXfer first = false ∧
      s.homeWait (x 1 1 0x10020003E0 (.homeRead 0 0)) = true ∧ s.homeWait (x 1 1 0x1002000400 (.homeRead 0 0)) = false ∧
      s.homeWait (x 1 0 0x1002000000 (.verifyRead 6 0)) = false ∧ s.homeWait (x 1 1 0x1002000000 (.verifyRead 6 0)) = true := by
  decide +kernel

theorem meets_PassThroughClassAnswers_pass :
    let x := issuedX 0 (.passThrough 0) (readWire 0 1)
    [x].find? (fun y => y.id == (okay (List.replicate 32 0)).xfer && y.tag == 0 && y.issued) = some x ∧
      x.owner = .passThrough 0 ∧
      (okay (List.replicate 32 0)).data.length = 32 * x.wire.beats := by decide

/-- A read whose other piece still waits, and one at its last answer. -/
theorem meets_PassThroughClassAnswers_home :
    let x := issuedX 0 (.homeRead 0 0) (readWire 0 1)
    let q (b : Bool) : ResolvedRead := ⟨0, 0xFF, [⟨List.replicate 32 none, true⟩, ⟨List.replicate 32 none, b⟩], false⟩
    [x].find? (fun y => y.id == bad.xfer && y.tag == 0 && y.issued) = some x ∧ x.abandoned = false ∧ x.wire.kind = .read ∧
      [q true].find? (fun u => u.id == 0) = some (q true) ∧ ((q true).answered 0 bad).pieces.any ReadPiece.waiting = true ∧
      ((q false).answered 0 bad).pieces.any ReadPiece.waiting = false := by decide +kernel

/-- An issued write, and an abandoned transfer in each class. -/
theorem meets_AnswersThatOnlyEndTheirTransfer :
    let x := issuedX 0 (.commitWrite 6 0) (writeWire 0x1002000000 [])
    let y : Xfer := { x with abandoned := true }
    let z : Xfer := ⟨0, 0, .homeRead 0 0, 0, readWire 0 1, true, true⟩
    [x].find? (fun u => u.id == (okay []).xfer && u.tag == 0 && u.issued) = some x ∧ x.abandoned = false ∧
      x.wire.kind = .write ∧
      (okay []).status = .okay ∧ [y].find? (fun u => u.id == bad.xfer && u.tag == 0 && u.issued) = some y ∧
        y.abandoned = true ∧
      [z].find? (fun u => u.id == bad.xfer && u.tag == 0 && u.issued) = some z := by decide +kernel

theorem meets_AnswersThatOnlyEndTheirTransfer_ids :
    ({ base with internal := [⟨0, 0, .commitWrite 6 0, 0, writeWire 0 [], true, true⟩], nextXfer := 1 } : State).IdsOk ∧
      ({ base with passClass := [⟨0, 0, .homeRead 0 0, 0, readWire 0 1, true, true⟩], nextXfer := 1 } : State).IdsOk :=
  ⟨idsOk_of_check (by decide +kernel), idsOk_of_check (by decide +kernel)⟩

/-- Pieces on both sides of a segment's boundary; the first and the last byte of the plane and the byte after it;
neighbouring homes. -/
theorem meets_PiecesPlacesAndHomesByTheFormulas :
    0 < 32 ∧ (toy.pieces 48 32)[0]? = some ⟨0, 16, some ⟨0, 0, 0, 48, 0, 48⟩⟩ ∧
      (toy.pieces 48 32)[1]? = some ⟨16, 16, some ⟨0, 1, 0, 64, 0, 0⟩⟩ ∧
      toy.locateIn 0 0 = some ⟨0, 0, 0, 0, 0, 0⟩ ∧ toy.locateIn 0 8191 = some ⟨0, 7, 31, 255, 15, 63⟩ ∧
      toy.locateIn 0 8192 = none ∧ 0 < toy.tiles ∧ 7 < toy.tiles ∧ toy.storage % 4096 = 0 ∧
      toy.home 2 7 = 0x1002005C00 ∧ toy.home 1 0 = 0x1002002000 := by decide +kernel

/-- Two planes, the second with lines and columns of its own: the first and the last tile of each plane, the last row cut
short; an entry whose in-plane lines are covered, and one with a byte of them missing; views on both sides of slot 0. -/
theorem meets_PiecesPlacesAndHomesByTheFormulas_tiles :
    let g : Geom := { toy with planeCount := 2, planes := [⟨0, 256, 256, 24, 1, 1, 0x10⟩, ⟨0x2000, 256, 128, 16, 2, 2, 0x80⟩] }
    let e (pos n : Nat) : Entry := { tile 0 pos (.collecting 0) 0 false with
      cov := List.replicate n true ++ List.replicate (1024 - n) false }
    g.anchor 0 = (0, 0) ∧ g.anchor 7 = (192, 16) ∧ g.inPlaneLines 0 = 16 ∧ g.inPlaneLines 7 = 8 ∧ g.fillOf 7 = 0x10 ∧
      g.anchor 8 = (0, 0) ∧ g.anchor 9 = (32, 0) ∧ g.inPlaneLines 9 = 16 ∧ g.fillOf 8 = 0x80 ∧ g.tiles = 10 ∧
      (e 7 512).cov.length = 1024 ∧ (e 7 512).complete g = true ∧ (e 7 511).complete g = false ∧
      (e 0 1024).complete g = true ∧ (e 0 1023).complete g = false ∧
      g.slotOf 1 1 = 0 ∧ g.slotOf 1 2 = 2 ∧ g.slotOf 2 0 = 2 := by decide +kernel

/-- The last beat of a tile, wholly enabled and wholly disabled. -/
theorem meets_PlacedBytesAreMaskedAndCovered :
    (tile 0 0 (.collecting 0) 0 false).data.length = 1024 ∧ (tile 0 0 (.collecting 0) 0 false).cov.length = 1024 ∧
      15 * 64 + 32 + 32 ≤ 1024 ∧ 0 + 32 ≤ (writeReq 0 1 0 true).data.length ∧
      0 + 32 ≤ (writeReq 0 1 0 true).enables.length ∧ (writeReq 0 1 0 true).enables.getD 31 false = true ∧
      (writeReq 0 1 0 false).enables.getD 31 false = false := by decide +kernel

/-- An idle step on both sides of the sixteenth period; an entry below the limit, at it, and with ageing off. -/
theorem meets_ReferencePeriodsAgeTicksAndExpiry :
    (State.reset.pending = [] ∧ ¬State.reset.divider ≤ 14 + 1 ∧ State.reset.divider ≤ 15 + 1) ∧
      busy.BufferLaws ∧ busy.entryAt 6 0 = some (tile 0 0 (.collecting 199) 5 false) ∧ 1 ≤ busy.ageLimit ∧
      199 < busy.ageLimit ∧ ({ busy with ageLimit := 199 } : State).ageLimit ≤ 199 ∧
      ({ busy with ageLimit := 0 } : State).ageLimit = 0 :=
  ⟨by decide, meets_EveryStepKeepsTheBufferLaws, by decide +kernel, by decide, by decide, by decide, rfl⟩

/-- A cell of each check; lookups of several with all three; a commit start and a read that meet a double-bit error; the
same at the end of a first phase. -/
theorem meets_LookupsCheckEveryCell :
    let m : MapMemory := [(10240, ⟨.cleared, .double⟩), (10241, ⟨.cleared, .single⟩)]
    let s : State := { one .opened with mapMem := m, entries := [tile 0 0 (.collecting 9) 5 false], lastWrite := [0] }
    let t : State := { base.setStream 6 { toyStream .closing with phase := some .first } with mapMem := m }
    (MapMemory.read m (s.cellKey 6 0)).ecc = .double ∧ (MapMemory.read m (s.cellKey 6 1)).ecc = .single ∧
      (MapMemory.read m (s.cellKey 6 2)).ecc = .good ∧ ([0, 1, 2].map (s.cellKey 6)).Nodup ∧ MapMemory.wf m = true ∧
      s.corrected ≤ 65535 ∧ s.entryNum 0 = some (tile 0 0 (.collecting 9) 5 false) ∧ (s.stream 6).state = .opened ∧
      (s.lookupCells 6 [0, 24, 8, 16]).1 = none ∧ (s.lookupCells 6 [1, 2]).1.isSome = true ∧
      .mapError ∈ (({ s with entries := [] } : State).resolvePieces 6 0 (toy.pieces 0 32)).1 ∧
      (t.stream 6).state = .closing ∧ (t.stream 6).phase = some .first ∧ t.entries = [] ∧
      (t.lookupCells 6 [0, 1, 2, 3, 4, 5, 6, 7]).1 = none := by decide +kernel

/-- The laws of the map at a position, checked slot by slot. -/
def mapCheck (s : State) (st : StreamId) (pos : Nat) : Bool :=
  let slots := (s.geometry st).slots
  ((List.range slots).all fun q => match s.tileState st q pos with
    | .aliasOf o => decide (o < slots) && decide (o ≠ q) && decide (s.tileState st o pos = .owned)
    | _ => true) &&
  ((s.posRecord st pos).sig.isNone ||
    decide ((s.posRecord st pos).owner < slots ∧ s.tileState st (s.posRecord st pos).owner pos = .owned))

theorem mapLaws_of_check {s : State} {st : StreamId} {pos : Nat} (h : mapCheck s st pos = true) : s.MapLaws st pos := by
  simp only [mapCheck, Bool.and_eq_true, List.all_eq_true, List.mem_range, Bool.or_eq_true, decide_eq_true_eq] at h
  refine ⟨fun slot o hs ho => ?_, fun sig hsig => ?_⟩
  · have := h.1 slot hs
    rw [ho] at this
    simp only [Bool.and_eq_true, decide_eq_true_eq] at this
    exact ⟨this.1.1, this.1.2, this.2⟩
  · rcases h.2 with hn | hr
    · rw [hsig] at hn
      cases hn
    · exact hr

/-- Tile 0 owned by slot 0, its alias in slots 1 and 2, and a record that names slot 0. -/
def aliased : State :=
  { one .opened with mapMem := [(10240, ⟨.entry ⟨.owned, some (.retained, 3)⟩, .good⟩),
    (10248, ⟨.entry ⟨.aliasOf 0, some (.aliased, 4)⟩, .good⟩), (10256, ⟨.entry ⟨.aliasOf 0, some (.aliased, 5)⟩, .good⟩),
    (10264, ⟨.record ⟨some 7, 0⟩, .good⟩)] }

/-- An allotment; a commit of each sort in a slot that none names; the migration of the old owner. -/
theorem meets_MapChangesKeepTheMapLaws :
    toy.banksNeeded ≤ base.freeBanks.length ∧ 7 < toy.tiles ∧ MapMemory.wf aliased.mapMem = true ∧ aliased.CellsHeld 6 ∧
      aliased.MapLaws 6 0 ∧ aliased.posRecord 6 0 = ⟨some 7, 0⟩ ∧ (0 : Nat) ≠ 2 ∧
      (∀ q, q < 3 → aliased.tileState 6 q 0 ≠ .aliasOf 2) ∧ aliased.BanksApart ∧
      ([((1 : Nat), (2 : Nat)), (2, 1)].map Prod.fst).Nodup ∧ (∃ v, ((2 : Nat), v) ∈ [((1 : Nat), (2 : Nat)), (2, 1)]) ∧
      ∀ q, (∃ v, (q, v) ∈ [((1 : Nat), (2 : Nat)), (2, 1)]) ↔ q < 3 ∧ aliased.tileState 6 q 0 = .aliasOf 0 := by
  refine ⟨by decide +kernel, by decide +kernel, by decide +kernel, ⟨by decide +kernel, by decide +kernel⟩,
    mapLaws_of_check (by decide +kernel), by decide +kernel, by decide, ?_, by constructor <;> decide +kernel, by decide,
    ⟨1, by decide⟩, fun q => ?_⟩
  · decide +kernel
  · match q with
    | 0 => exact ⟨fun ⟨_, h⟩ => by simp at h, fun h => absurd h.2 (by decide +kernel)⟩
    | 1 => exact ⟨fun _ => by decide +kernel, fun _ => ⟨2, by decide⟩⟩
    | 2 => exact ⟨fun _ => by decide +kernel, fun _ => ⟨1, by decide⟩⟩
    | q + 3 => exact ⟨fun ⟨_, h⟩ => by simp at h, fun h => by omega⟩

/-- A COLLECTING entry with error-free cells, and a COMMITTING one. -/
theorem meets_CommitStartTakesItsLookups :
    busy.entryNum 0 = some (tile 0 0 (.collecting 199) 5 false) ∧
      busy.entryNum 1 = some (tile 1 1 (.committing .complete) 5 true) ∧
      (∀ c ∈ toy.entryCell 0 0 :: toy.recordCell 0 :: [toy.entryCell 1 0, toy.entryCell 2 0],
        (MapMemory.read busy.mapMem (busy.cellKey 6 c)).ecc = .good) := by decide +kernel

/-- The same where a lookup meets a single-bit error and none a double-bit one. -/
theorem meets_CommitStartTakesItsLookups_corrected :
    let s : State := { busy with mapMem := [(10240, ⟨.entry ⟨.owned, some (.changed, 0)⟩, .good⟩), (10264, ⟨.cleared, .single⟩)] }
    s.entryNum 0 = some (tile 0 0 (.collecting 199) 5 false) ∧ MapMemory.wf s.mapMem = true ∧ toy.recordCell 0 = 24 ∧
      (∀ c ∈ toy.entryCell 0 0 :: toy.recordCell 0 :: [toy.entryCell 1 0, toy.entryCell 2 0],
        (MapMemory.read s.mapMem (s.cellKey 6 c)).ecc ≠ .double) ∧
      (MapMemory.read s.mapMem (s.cellKey 6 24)).ecc = .single ∧ (s.startCommit .evicted 0).corrected = 1 := by decide +kernel

/-- Both paths; an EXEMPT anchor and another; a record with the tile's signature and one without; the verify flag. -/
theorem meets_CommitKindByPathAndRecord :
    ({ commit 0 0 none none with path := .partialPath } : Commit).path = .partialPath ∧
      (commit 3 0 none none).path = .completePath ∧
      ({ toyStream .opened with active := windowSetOf toyWindow } : Stream).exemptActive (toy.anchor 3).1
        (toy.anchor 3).2 = true ∧
      (toyStream .opened).exemptActive (toy.anchor 3).1 (toy.anchor 3).2 = false ∧
      (⟨none, 0⟩ : PosRecord).sig ≠ some (signature []) ∧ (⟨some (signature []), 0⟩ : PosRecord).sig = some (signature []) ∧
      toy.verify = false ∧ ({ toy with verify := true } : Geom).verify = true := by decide +kernel

/-- Each previous state, with aliasers and without; data and coverage of a whole tile. -/
theorem meets_CommitGoesOnAsItsKindGives :
    (commit 0 0 none none).prev = .blank ∧ ¬((commit 0 0 none none).prev = .owned ∧ (commit 0 0 none none).aliasers ≠ []) ∧
      (({ commit 0 0 none none with prev := .owned, aliasers := [(1, 2)] } : Commit).prev = .owned ∧
        ({ commit 0 0 none none with prev := .owned, aliasers := [(1, 2)] } : Commit).aliasers ≠ []) ∧
      ({ commit 0 0 none none with prev := .aliasOf 2 } : Commit).prev = .aliasOf 2 ∧
      (tile 0 0 (.collecting 0) 0 false).data.length = 1024 ∧ (tile 0 0 (.collecting 0) 0 false).cov.length = 1024 := by
  decide +kernel

/-- The four reads of a tile, in part and at their last: the hypotheses on the answers to verify, merge and copy reads. -/
theorem meets_tile_answers :
    let x := issuedX 0 (.verifyRead 6 0) (readWire 0x1002000300 8)
    let y : Xfer := ⟨1, 0, .verifyRead 6 0, 0, readWire 0x1002000200 8, true, false⟩
    [x].find? (fun u => u.id == (okay (List.replicate 256 9)).xfer && u.tag == 0 && u.issued) = some x ∧
      x.abandoned = false ∧
      x.wire.kind = .read ∧ (okay (List.replicate 256 9)).data.length = 32 * x.wire.beats ∧
      (∃ u ∈ [x, y].filter (fun u => u.id != x.id), u.owner = .verifyRead 6 0) ∧
      (∀ u ∈ [x].filter (fun u => u.id != x.id), u.owner ≠ .verifyRead 6 0) := by decide +kernel

/-- A match that stands, bytes that differ, and a read that failed. -/
theorem meets_VerifyAndMergeOutcomes_verify :
    let got : List (Nat × List Byte) :=
      [(0, List.replicate 256 5), (256, List.replicate 256 5), (512, List.replicate 256 5)]
    let s := committing { commit 0 0 none (some .verify) with matched := some 0, got := got } (.verifyRead 6 0)
      (readWire 0x1002000300 8)
    (s.commitAt 6 0).isSome = true ∧ s.entryNum 0 = some (tile 0 0 (.committing .complete) 5 true) ∧
      gather (got ++ [(768, List.replicate 256 5)]) [0, 256, 512, 768] = (tile 0 0 (.committing .complete) 5 true).data ∧
      gather (got ++ [(768, List.replicate 256 6)]) [0, 256, 512, 768] ≠ (tile 0 0 (.committing .complete) 5 true).data ∧
      bad.status = .dataError := by decide +kernel

theorem meets_VerifyAndMergeOutcomes_merge :
    let c : Commit := { commit 0 0 (some .partialTile) (some .merge) with prev := .aliasOf 2 }
    let s := committing c (.mergeRead 6 0) (readWire 0x1002004300 8)
    s.commitAt 6 0 = some c ∧ s.entryNum c.entry = some (tile 0 0 (.committing .complete) 5 true) ∧ c.prev = .aliasOf 2 ∧
      (List.replicate 1024 (0 : Byte)).length = 1024 := by decide +kernel

/-- A commit that is due and one that waits for its write. -/
theorem meets_CommitCompletionChangesTheMap :
    let c := commit 0 0 (some .changed) (some .write)
    let s := committing c (.commitWrite 6 0) (writeWire 0x1002000000 [])
    s.commitAt 6 0 = some c ∧ c.kind = some .changed ∧ s.commitDue c = false ∧
      ({ s with internal := [] } : State).commitDue c = true := by decide +kernel

/-- Slots of a ring of three; two aliasers. -/
theorem meets_NewOwnerIsTheYoungestAliaser :
    [((1 : Nat), (2 : Nat)), (2, 1)] ≠ [] ∧ 0 < toy.slots ∧ 2 < toy.slots ∧ toy.viewOf 0 1 = toy.viewOf 0 1 ∧
      ({ toy with slots := 6 } : Geom).slots = 6 ∧ ({ toy with slots := 4 } : Geom).slots = 4 ∧
      ({ toy with slots := 2 } : Geom).slots = 2 := by decide

/-- A migration with the commit that called it and its entry. -/
theorem meets_CopyReadsLeadToTheCopyWrite :
    let s := moving .copyRead (.copyRead 6 0) (readWire 0x1002000300 8)
    (s.migrationAt 6 0).isSome = true ∧ (s.commitAt 6 0).map Commit.kind = some (some .changed) ∧
      (s.commitAt 6 0).map Commit.entry = some 0 ∧ (s.entryNum 0).isSome = true ∧
      ({ commit 0 0 (some .aliased) (some .migrate) with prev := .owned } : Commit).kind = some .aliased :=
        by decide +kernel

/-- A migration in each step, with its copy write outstanding and answered; aliasers at different keys. -/
theorem meets_MigrationCompletionRepointsTheAliasers :
    let s := moving .copyWrite (.copyWrite 6 0) (writeWire 0x1002004000 [])
    (s.migrationAt 6 0).map Migration.step = some .copyWrite ∧ (∃ y ∈ s.internal, y.owner = .copyWrite 6 0) ∧
      (∀ y ∈ (moving .copyWrite (.commitWrite 6 0) (writeWire 0x1002000000 [])).internal, y.owner ≠ .copyWrite 6 0) ∧
      MapMemory.wf aliased.mapMem = true ∧
      ([((1 : Nat), (2 : Nat)), (2, 1)].map fun a => aliased.cellKey 6 (toy.entryCell a.1 0)).Nodup := by decide +kernel

/-- Both logics. -/
theorem meets_WindowAreasAndActiveAreas :
    ProcSet.off.logic = .anyOf ∧ (procSetOf 0x8C).logic = .allOf := by decide

/-- A window descriptor that passes with N = 0, one with N = 1,088 whose table ends at the last address, and one that
fails each check by the least. -/
theorem meets_WindowDescriptorAnswer :
    let desc (table n : Nat) : List Byte := List.replicate 16 0 ++ leBytes 8 table ++ leBytes 2 n ++ List.replicate 38 0
    let ok (b : List Byte) : Prop := (recField b 16 8 % 2 ^ 40) % 4 = 0 ∧ recField b 24 2 ≤ 1088 ∧
      (1 ≤ recField b 24 2 → recField b 16 8 % 2 ^ 40 + 4 * recField b 24 2 - 1 < 2 ^ 40)
    ok (desc 0 0) ∧ recField (desc 0 0) 24 2 = 0 ∧ ok (desc (2 ^ 40 - 4352) 1088) ∧
      1 ≤ recField (desc (2 ^ 40 - 4352) 1088) 24 2 ∧ ¬ok (desc 2 0) ∧ ¬ok (desc 0 1089) ∧ ¬ok (desc (2 ^ 40 - 4) 2) ∧
      windowDescOk (desc 0 1089) = false ∧ windowDescOk (desc 0 0) = true ∧ (desc 0 0).length = 32 * 2 ∧
      ((one .closing).stream 6).state = .closing ∧ ((one .loading).stream 6).state = .loading := by decide +kernel

/-- A setup whose window descriptor has N of 1: its line table is read while the stream stays LOADING (R106, R110). -/
theorem meets_WindowDescriptorAnswer_setup :
    let desc : List Byte := List.replicate 16 0 ++ leBytes 8 0x1002008204 ++ leBytes 2 1 ++ List.replicate 38 0
    let s := withXfer (base.setStream 6 { toyStream .loading with loadingWin := some 0x1002008200 }) (.winDesc 6)
      (readWire 0x1002008200 2)
    let t := after (.windowDescriptorReadAnswer (okay desc)) s
    s.internal.find? (fun y => y.id == 0 && y.tag == 0 && y.issued) = s.internal.head? ∧ desc.length = 32 * 2 ∧
      windowDescOk desc = true ∧ (t.stream 6).state = .loading ∧ (t.internal.map Xfer.owner) = [.lineTable 6] ∧
      (t.internal.map fun x => x.wire.addr.toNat) = [0x1002008200] := by decide +kernel

/-- The last read of a table at a frame open and at a setup, answered OKAY and not; a store of two lines; tables on both
sides of a 256-byte boundary. -/
theorem meets_LineTableReadsAndTheirAnswers :
    (loading.stream 6).state = .closing ∧ (loading.stream 6).load.map WinLoad.failed = some false ∧
      loading.internal.map Xfer.owner = [.lineTable 6] ∧ (okay (List.replicate 32 0)).data.length = 32 * 1 ∧
      (({ loading with streams := (base.setStream 6 { loading.stream 6 with state := .loading }).streams } : State).stream
        6).state = .loading ∧ 1 < (loading.stream 6).load.elim 0 (fun l => l.set.n) ∧
      lineTableParts 0xFC 1 = [(0xE0, 0x100)] ∧ lineTableParts 0xFC 2 = [(0xE0, 0x100), (0x100, 0x120)] := by decide +kernel

/-- A status list of the toy stream's length; thresholds 0, 3 and T. -/
theorem meets_RecordCountsAndSlideFlag :
    (List.replicate 8 (StatusKind.committed .changed, true)).length = (toyStream .closing).geometry.tiles ∧
      1 ≤ toy.threshold ∧ ({ toy with threshold := 0 } : Geom).threshold = 0 ∧
      ({ toy with threshold := 8 } : Geom).threshold = ({ toy with threshold := 8 } : Geom).tiles := by decide +kernel

theorem meets_FirstPhaseEndFormsTheRecord :
    let s := base.setStream 6 { toyStream .closing with phase := some .first }
    (s.stream 6).state = .closing ∧ (s.stream 6).phase = some .first ∧ (∀ e ∈ s.entries, e.stream ≠ 6) ∧
      (∀ p < toy.tiles, (MapMemory.read s.mapMem (s.cellKey 6 (toy.entryCell 0 p))).ecc = .good) ∧
      (∃ e ∈ busy.entries, e.stream = 6) ∧ (⟨.owned, some (.changed, 7)⟩ : MapEntry).last = some (.changed, 7) ∧
      (⟨.blank, none⟩ : MapEntry).last = none := by decide +kernel

/-- The same with a single-bit error in the last cell read and no double-bit one. -/
theorem meets_FirstPhaseEndFormsTheRecord_corrected :
    let s : State := { base.setStream 6 { toyStream .closing with phase := some .first } with
      mapMem := [(10247, ⟨.cleared, .single⟩)] }
    (s.stream 6).state = .closing ∧ (s.stream 6).phase = some .first ∧ (∀ e ∈ s.entries, e.stream ≠ 6) ∧
      MapMemory.wf s.mapMem = true ∧ (MapMemory.read s.mapMem (s.cellKey 6 (toy.entryCell 0 7))).ecc = .single ∧
      (∀ p < toy.tiles, (MapMemory.read s.mapMem (s.cellKey 6 (toy.entryCell 0 p))).ecc ≠ .double) ∧
      (after (.closeFirstPhaseEnd 6) s).corrected = 1 := by decide +kernel

/-- A frame record within the widths of its fields; a status list of the toy stream's length. -/
theorem meets_StatusMapRecordAndCodeFormats :
    record7.kinds.length = 8 ∧ record7.slot < 256 ∧ record7.tiles < 65536 ∧ record7.frame < 4294967296 ∧
      (∀ n ∈ record7.kinds, n < 65536) ∧ record7.changedIn < 65536 ∧ record7.evicted < 65536 ∧ record7.aged < 65536 ∧
      record7.closed < 65536 ∧ record7.migrated < 65536 ∧
      (List.replicate 8 (StatusKind.blank, false)).length = toy.tiles ∧ 1 ≤ toy.tiles ∧ toy.statusBase % 64 = 0 := by
  decide +kernel

/-- The last status-map write and one before it; a record with its flag set and clear; a pending address and none; the
fourth phase with a load in progress and without. -/
theorem meets_ClosePhasesEndInTheNextFrame :
    let x := issuedX 0 (.statusMap 6) (writeWire 0x1002008040 (List.replicate 64 0))
    let y : Xfer := ⟨1, 0, .statusMap 6, 0, writeWire 0x1002008080 [], true, false⟩
    let s := base.setStream 6 (closing7 .fourth)
    [x].find? (fun u => u.id == (okay []).xfer && u.tag == (okay []).tag && u.issued) = some x ∧ x.wire.kind = .write ∧
      (∃ u ∈ [x, y].filter (fun u => u.id != x.id), u.owner = .statusMap 6) ∧
      (∀ u ∈ [x].filter (fun u => u.id != x.id), u.owner ≠ .statusMap 6) ∧ (closing7 .second).record = some record7 ∧
      (closing7 .third).pendingWin = none ∧ ({ closing7 .third with pendingWin := some 64 } : Stream).pendingWin = some 64 ∧
      (s.stream 6).state = .closing ∧ (s.stream 6).phase = some .fourth ∧ (s.stream 6).loadingWin = none ∧
      record7.slide = true ∧ ({ record7 with slide := false } : FrameRecord).slide = false ∧
      (loading.stream 6).loadingWin ≠ none := by decide +kernel

/-- A descriptor of one plane, one whose plane count asks for two, and two claims with an overlap and without. -/
theorem meets_DescriptorFieldsAndChecks :
    (geomOfBytes toyBytes).planeCount ≠ 2 ∧ (geomOfBytes (toyBytes.set 43 2)).planeCount = 2 ∧ 0x1002008240 < 0x1002008280 ∧
      toy.planes.length = (if toy.planeCount = 2 then 2 else 1) ∧ toy.ok = true ∧ ({ toy with threshold :=
        9 } : Geom).ok = false ∧
      (one .opened).rangeOverlap 5 toy = true ∧ base.rangeOverlap 5 toy = false := by decide +kernel

/-- The first of two reads, the last with and without a failure; each outcome of the validation; banks for it and one too
few; an initial address. -/
theorem meets_DescriptorFetchEndsTheSetupOrValidates :
    let x := issuedX 0 (.descFetch 6) (readWire 0x1002008240 2)
    let y : Xfer := ⟨1, 0, .descFetch 6, 0, readWire 0x1002008280 2, true, false⟩
    (∃ z ∈ [x, y].filter (fun z => z.id != x.id), z.owner = .descFetch 6) ∧
      (∀ z ∈ [x].filter (fun z => z.id != x.id), z.owner ≠ .descFetch 6) ∧ toy.ok = true ∧
      ({ toy with slots := 1 } : Geom).ok = false ∧ base.rangeOverlap 6 toy = false ∧
        (one .opened).rangeOverlap 5 toy = true ∧
      toy.banksNeeded ≤ base.freeBanks.length ∧ ({ base with freeBanks := [] } : State).freeBanks.length < toy.banksNeeded ∧
      ({ toy with initialWin := 64 } : Geom).initialWin ≠ 0 ∧ 10 / 1024 ∈ base.freeBanks.take 1 ∧
      1024 / 1024 ∉ base.freeBanks.take 1 := by decide +kernel

/-- A running stream and one that is not. -/
theorem meets_FaultAndTeardownAbandonOneStreamsWork :
    ((one .opened).stream 6).state = .opened ∧ ((one .closing).stream 6).state = .closing ∧
      ((one .draining).stream 6).state ≠ .opened ∧ ((one .draining).stream 6).state ≠ .closing ∧
      (∃ e ∈ busy.entries, e.stream = 6 ∧ e.collecting = false) := by decide +kernel

/-- A teardown frees an entry, and its held request leaves: behind it one of another stream with a NO-ENTRY need that the free
entries meet and one with a TAG-ORDER hold on the tag that has gone are released, and one that still overlaps is not; ahead
of it nothing is tested again. -/
theorem meets_FaultAndTeardownAbandonOneStreamsWork_holds :
    let pass (addr : Nat) := heldReq 1 (readReq addr 1)
    let gone := heldReq 2 (readReq 0x3000000000 1) (.tileBusy 6 0 0) (some 6) [(0, 0)] false
    let s : State := { busy with
      holdQ := [pass 0 .overlap none [] false, gone, heldReq 3 (readReq 0 1) (.noEntry 1) (some 5) [(0, 0)] false,
        { pass 512 .tagOrder none [] false with id := 4, req := { readReq 512 1 with tag := 2 } },
        heldReq 5 (readReq 0 1) .overlap none [] false] }
    let t := s.enterDraining 6
    gone.stream = some 6 ∧ t.holdQ.map (fun h => (h.id, h.released)) = [(1, false), (3, true), (4, true), (5, false)] ∧
      s.lastWrite = [0] ∧ t.lastWrite = [] ∧ t.entries.map Entry.num = [1] := by decide +kernel

theorem meets_DataErrorsThatFaultTheStream :
    [issuedX 0 (.mergeRead 6 0) (readWire 0 8)].find? (fun u => u.id == bad.xfer && u.tag == 0 && u.issued) =
        some (issuedX 0 (.mergeRead 6 0) (readWire 0 8)) ∧
      bad.status = .dataError ∧ ((one .closing).stream 6).state = .closing ∧ (loading.stream 6).load.isSome = true := by
  decide +kernel

theorem meets_DrainEndFreesTheStream :
    ((one .draining).stream 6).state = .draining ∧ (∀ x ∈ (one .draining).internal, x.owner.stream ≠ some 6) ∧
      (∃ x ∈ busy.internal, x.owner.stream = some 6) := by decide +kernel

end Sys2Proof.Tests
end

/-! ## The choice of a migration's new owner (O46)

The fold of `youngest` keeps the smaller view index; the view index of a slot is a difference modulo S, and below S it
has one of two plain values, from which different slots are seen to have different ones (R86). -/
section
namespace Sys2Proof.Machine

/-! ### The fold of `youngest` -/

/-- The one of two aliasers with the smaller view index, the first of equal ones. -/
def younger (a b : Nat × Nat) : Nat × Nat := if b.2 < a.2 then b else a

theorem youngest_cons (a : Nat × Nat) (t : List (Nat × Nat)) : youngest (a :: t) = (t.foldl younger a).1 := rfl

theorem younger_eq_or (a b : Nat × Nat) : younger a b = a ∨ younger a b = b := by
  unfold younger
  split
  · exact .inr rfl
  · exact .inl rfl

theorem younger_le (a b : Nat × Nat) : (younger a b).2 ≤ a.2 ∧ (younger a b).2 ≤ b.2 := by
  unfold younger
  split <;> omega

theorem foldl_younger_mem (t : List (Nat × Nat)) (a : Nat × Nat) : t.foldl younger a ∈ a :: t := by
  induction t generalizing a with
  | nil => exact List.mem_singleton.mpr rfl
  | cons b t ih =>
    rw [List.foldl_cons]
    rcases List.mem_cons.mp (ih (younger a b)) with hhead | htail
    · rw [hhead]
      rcases younger_eq_or a b with h | h <;> simp [h]
    · exact List.mem_cons_of_mem a (List.mem_cons_of_mem b htail)

theorem foldl_younger_le (t : List (Nat × Nat)) (a : Nat × Nat) : ∀ b ∈ a :: t, (t.foldl younger a).2 ≤ b.2 := by
  induction t generalizing a with
  | nil => simp
  | cons b t ih =>
    have hfold : (t.foldl younger (younger a b)).2 ≤ (younger a b).2 := ih _ _ List.mem_cons_self
    obtain ⟨ha, hb⟩ := younger_le a b
    intro c hc
    rw [List.foldl_cons]
    rcases List.mem_cons.mp hc with rfl | hc
    · exact Nat.le_trans hfold ha
    rcases List.mem_cons.mp hc with rfl | hc
    · exact Nat.le_trans hfold hb
    · exact ih _ c (List.mem_cons_of_mem _ hc)

/-- The slot that is chosen is an aliaser's, and no aliaser has a smaller view index. -/
theorem youngest_mem_and_le {as : List (Nat × Nat)} (h : as ≠ []) :
    ∃ v, (youngest as, v) ∈ as ∧ ∀ b ∈ as, v ≤ b.2 := by
  cases as with
  | nil => exact absurd rfl h
  | cons a t => exact ⟨(t.foldl younger a).2, foldl_younger_mem t a, foldl_younger_le t a⟩

/-! ### View indices -/

/-- The S that `viewOf` adds keeps the difference from falling below 0; modulo S it is not seen. -/
theorem viewOf_eq_emod (g : Geom) (cur : Nat) {q : Nat} (hq : q < g.slots) :
    (g.viewOf cur q : Int) = ((cur : Int) - (q : Int)) % (g.slots : Int) := by
  have hsum : ((cur + g.slots - q : Nat) : Int) = (cur : Int) - q + g.slots := by omega
  rw [Geom.viewOf, Int.natCast_emod, hsum, Int.add_emod_right]

theorem viewOf_of_le (g : Geom) {cur q : Nat} (hcur : cur < g.slots) (h : q ≤ cur) : g.viewOf cur q = cur - q := by
  have hsum : cur + g.slots - q = cur - q + g.slots := by omega
  rw [Geom.viewOf, hsum, Nat.add_mod_right, Nat.mod_eq_of_lt (by omega)]

theorem viewOf_of_lt (g : Geom) {cur q : Nat} (h : cur < q) (hq : q < g.slots) :
    g.viewOf cur q = cur + g.slots - q :=
  Nat.mod_eq_of_lt (by omega)

/-- Slots up to the current one have the view indices 0 to `cur`, the slots above it those from `cur + 1` on. -/
theorem viewOf_injective (g : Geom) {cur q r : Nat} (hcur : cur < g.slots) (hq : q < g.slots) (hr : r < g.slots)
    (h : g.viewOf cur q = g.viewOf cur r) : q = r := by
  rcases Nat.lt_or_ge cur q with hcq | hqc <;> rcases Nat.lt_or_ge cur r with hcr | hrc
  · rw [viewOf_of_lt g hcq hq, viewOf_of_lt g hcr hr] at h
    omega
  · rw [viewOf_of_lt g hcq hq, viewOf_of_le g hcur hrc] at h
    omega
  · rw [viewOf_of_le g hcur hqc, viewOf_of_lt g hcr hr] at h
    omega
  · rw [viewOf_of_le g hcur hqc, viewOf_of_le g hcur hrc] at h
    omega

/-- The aliasers of some slots, with S put in for the stream's number of slots. -/
theorem map_viewOf_of_slots {g : Geom} {S : Nat} (hg : g.slots = S) (cur : Nat) (qs : List Nat) :
    (qs.map fun q => (q, g.viewOf cur q)) = qs.map fun q => (q, (cur + S - q) % S) := by
  subst hg
  rfl

/-! ### The creation of a migration -/

/-- A migration is created behind those in progress, in COPY-READ and with its new owner chosen (R85, R86). -/
theorem migrations_startMigration (s : State) (c : Commit) : (s.startMigration c).migrations =
    s.migrations ++ [⟨c.stream, c.slot, c.pos, c.aliasers, youngest c.aliasers, .copyRead, []⟩] := by
  simp [State.startMigration, State.addMigration]

end Sys2Proof.Machine

open Sys2Proof.Machine

/-- Settles O46: `youngest` is a minimum by its fold, view indices are differences modulo S and differ by the side of the
current slot they are on, and the manual's table of four choices is evaluated for its S. -/
theorem newOwnerIsTheYoungestAliaser : Obligations.NewOwnerIsTheYoungestAliaser := by
  refine ⟨fun as => youngest_mem_and_le, fun g cur q _ hq => viewOf_eq_emod g cur hq,
    fun g cur q r => viewOf_injective g, fun g hg => ?six, fun g hg => ?four, fun g hg => ?two, migrations_startMigration⟩
  case six =>
    rw [map_viewOf_of_slots hg, map_viewOf_of_slots hg]
    decide
  case four =>
    rw [map_viewOf_of_slots hg]
    decide
  case two =>
    rw [map_viewOf_of_slots hg]
    decide

end

/-! ## Window areas and active areas (O49)

Containment and the active area of a process, read from the Booleans that the window unit computes: a rectangle's and the
line window's test as inequalities, OR and AND over the process's three windows as `∃` and `∀` over their list. -/
section
namespace Sys2Proof.Machine

/-! ### Chosen areas -/

@[simp] theorem WinUse.chosen_inside (on contains : Bool) : (⟨on, .inside⟩ : WinUse).chosen contains = contains := rfl

@[simp] theorem WinUse.chosen_outside (on contains : Bool) : (⟨on, .outside⟩ : WinUse).chosen contains = !contains := rfl

/-! ### Containment -/

theorem Rect.holds_iff (r : Rect) (x y : Nat) :
    r.holds x y = true ↔ r.startCol ≤ x ∧ x ≤ r.endCol ∧ r.startLine ≤ y ∧ y ≤ r.endLine := by
  simp [Rect.holds, and_assoc]

/-- A store line is past the list, empty, or a span; only a span can contain the position. -/
theorem lineHolds_iff (n : Nat) (store : List (Option Span)) (x y : Nat) :
    lineHolds n store x y = true ↔ y < n ∧ ∃ sp, store[y]? = some (some sp) ∧ sp.startCol ≤ x ∧ x ≤ sp.endCol := by
  rw [lineHolds, List.getD_eq_getElem?_getD]
  cases store[y]? with
  | none => simp
  | some content =>
    cases content with
    | none => simp
    | some sp => simp

/-! ### Active areas -/

/-- The three windows of a process, each with whether it contains the position. -/
def ProcSet.windows (p : ProcSet) (in0 in1 inLine : Bool) : List (WinUse × Bool) :=
  [(p.w0, in0), (p.w1, in1), (p.lw, inLine)]

/-- Under OR a window that is not enabled counts as one whose area does not hold. -/
theorem ProcSet.active_iff_of_anyOf {p : ProcSet} (h : p.logic = .anyOf) (in0 in1 inLine : Bool) :
    p.active in0 in1 inLine = true ↔ ∃ w ∈ p.windows in0 in1 inLine, w.1.on = true ∧ w.1.chosen w.2 = true := by
  simp [ProcSet.active, h, ProcSet.windows, or_assoc]

/-- Under AND a window that is not enabled counts as one whose area holds. -/
theorem ProcSet.active_iff_of_allOf {p : ProcSet} (h : p.logic = .allOf) (in0 in1 inLine : Bool) :
    p.active in0 in1 inLine = true ↔ ∀ w ∈ p.windows in0 in1 inLine, w.1.on = true → w.1.chosen w.2 = true := by
  have not_on_or (u : WinUse) (c : Bool) : (!u.on || u.chosen c) = true ↔ (u.on = true → u.chosen c = true) := by
    cases u.on <;> simp
  simp only [ProcSet.active, h, Bool.and_eq_true, not_on_or, and_assoc]
  simp [ProcSet.windows]

end Sys2Proof.Machine

open Sys2Proof.Machine

/-- Settles O49: an area setting passes on or negates containment, the tests of the rectangles and of the line window are
their inequalities, and the logic is an OR or an AND over the three windows of the process. -/
theorem windowAreasAndActiveAreas : Obligations.WindowAreasAndActiveAreas := by
  refine ⟨fun on contains => ?areas, fun x p col line => ⟨?rect, ?lineWindow, ?anyOf, ?allOf⟩, fun x col line => ?tests⟩
  case areas => simp
  case rect => exact fun r => r.holds_iff col line
  case lineWindow => exact lineHolds_iff x.active.n x.store col line
  case anyOf => exact fun h => ProcSet.active_iff_of_anyOf h _ _ _
  case allOf => exact fun h => ProcSet.active_iff_of_allOf h _ _ _
  case tests => exact ⟨rfl, rfl, rfl⟩

end

/-! ## The frame record's counts and the slide change flag (O52)

Kind codes number the eight status kinds, so the counts by code are the counts by kind, and each position is counted under
exactly one code below 8 (R121, R187). The flag compares the threshold with the changed-in-window count, which never
exceeds the number of positions (R119, R122). -/
section
namespace Sys2Proof.Machine

/-! ### Status kinds and their codes -/

/-- The status kinds in the order of their codes (R187). -/
def kindsByCode : List StatusKind :=
  [.blank, .carried, .committed .changed, .committed .aliased, .committed .retained, .committed .partialTile,
    .committed .exempt, .committed .collided]

theorem map_code_kindsByCode : kindsByCode.map StatusKind.code = List.range 8 := rfl

theorem kindsByCode_code (k : StatusKind) : kindsByCode[k.code]? = some k := by
  cases k with
  | blank | carried => rfl
  | committed k => cases k <;> rfl

theorem StatusKind.code_lt (k : StatusKind) : k.code < 8 :=
  (List.getElem?_eq_some_iff.mp (kindsByCode_code k)).1

theorem StatusKind.code_injective : Function.Injective StatusKind.code := fun j k h =>
  Option.some.inj (by rw [← kindsByCode_code j, h, kindsByCode_code k])

theorem StatusKind.countsAsChange_eq (k : StatusKind) : k.countsAsChange =
    (k == .committed .changed || k == .committed .collided || k == .committed .partialTile) := by
  cases k with
  | blank | carried => rfl
  | committed k => cases k <;> rfl

/-! ### The kind counts -/

theorem kindCount_code (status : List (StatusKind × Bool)) (kind : StatusKind) :
    kindCount status kind.code = (status.filter fun k => k.1 == kind).length := by
  have same (k : StatusKind × Bool) : (k.1.code == kind.code) = (k.1 == kind) := by
    rw [Bool.eq_iff_iff, beq_iff_eq, beq_iff_eq]
    exact ⟨fun h => StatusKind.code_injective h, congrArg _⟩
  simp only [kindCount, same]

theorem map_kindCount_range (status : List (StatusKind × Bool)) : (List.range 8).map (kindCount status) =
    kindsByCode.map fun kind => (status.filter fun k => k.1 == kind).length := by
  rw [← map_code_kindsByCode, List.map_map]
  exact List.map_congr_left fun kind _ => kindCount_code status kind

theorem kindCount_cons (k : StatusKind × Bool) (status : List (StatusKind × Bool)) (c : Nat) :
    kindCount (k :: status) c = kindCount status c + if k.1.code = c then 1 else 0 := by
  simp only [kindCount, List.filter_cons, beq_iff_eq]
  by_cases h : k.1.code = c
  · rw [if_pos h, if_pos h, List.length_cons]
  · rw [if_neg h, if_neg h, Nat.add_zero]

/-- Adding one to a function at `j` adds to its sum over a list as often as `j` occurs there. -/
theorem sum_map_add_ite (f : Nat → Nat) (j : Nat) (l : List Nat) :
    (l.map fun c => f c + if j = c then 1 else 0).sum = (l.map f).sum + l.count j := by
  induction l with
  | nil => rfl
  | cons c l ih =>
    rw [List.map_cons, List.map_cons, List.sum_cons, List.sum_cons, ih, List.count_cons]
    by_cases h : c = j
    · rw [if_pos h.symm, if_pos (beq_iff_eq.mpr h)]
      omega
    · rw [if_neg (Ne.symm h), if_neg (mt beq_iff_eq.mp h)]
      omega

theorem count_range_eight : ∀ j < 8, (List.range 8).count j = 1 := by decide

/-- Every position is counted under one of the eight codes, and under no other. -/
theorem sum_kindCount (status : List (StatusKind × Bool)) :
    ((List.range 8).map (kindCount status)).sum = status.length := by
  induction status with
  | nil => rfl
  | cons k status ih =>
    have step : kindCount (k :: status) = fun c => kindCount status c + if k.1.code = c then 1 else 0 :=
      funext (kindCount_cons k status)
    rw [step, sum_map_add_ite, ih, count_range_eight _ k.1.code_lt, List.length_cons]

/-! ### The changed-in-window count and the slide change flag -/

theorem slideFlag_iff (threshold changed : Nat) :
    slideFlag threshold changed = true ↔ 1 ≤ threshold ∧ threshold ≤ changed := by
  rw [slideFlag, Bool.and_eq_true, decide_eq_true_iff, decide_eq_true_iff]

theorem changedCount_eq (status : List (StatusKind × Bool)) : changedCount status =
    (status.filter fun k => k.2 && (k.1 == .committed .changed || k.1 == .committed .collided ||
      k.1 == .committed .partialTile)).length := by
  simp only [changedCount, StatusKind.countsAsChange_eq]

/-! ### The bytes of a frame record -/

theorem length_flatMap_leBytes (size : Nat) (l : List Nat) : (l.flatMap (leBytes size)).length = l.length * size := by
  induction l with
  | nil => rw [List.flatMap_nil, List.length_nil, List.length_nil, Nat.zero_mul]
  | cons n l ih =>
    rw [List.flatMap_cons, List.length_append, length_leBytes, ih, List.length_cons, Nat.succ_mul, Nat.add_comm]

theorem FrameRecord.length_bytes {r : FrameRecord} (h : r.kinds.length = 8) : r.bytes.length = 64 := by
  simp only [FrameRecord.bytes, List.length_append, length_leBytes, length_flatMap_leBytes, h, List.length_replicate]

theorem length_kinds_recordOf (x : Stream) (st : StreamId) (status : List (StatusKind × Bool)) :
    (recordOf x st status).kinds.length = 8 := rfl

end Sys2Proof.Machine

open Sys2Proof.Machine

/-- Settles O52: the flag compares the threshold with the changed-in-window count, the kind counts partition the positions
by code, and the fields are those of `recordOf` with codes read as kinds. -/
theorem recordCountsAndSlideFlag : Obligations.RecordCountsAndSlideFlag := by
  refine ⟨fun x st status len => ?flag, fun x st status len => ⟨?sum, ?size⟩, fun x st status => ?fields⟩
  case flag =>
    have slide_iff : (recordOf x st status).slide = true ↔
        1 ≤ x.geometry.threshold ∧ x.geometry.threshold ≤ changedCount status := slideFlag_iff _ _
    rw [changedCount_eq] at slide_iff
    refine ⟨slide_iff, fun zero => ?clear, fun all set => ?everyPosition⟩
    case clear =>
      rw [Bool.eq_false_iff, Ne, slide_iff]
      omega
    case everyPosition =>
      have reached := (slide_iff.mp set).2
      rw [all, ← len] at reached
      exact List.length_filter_eq_length_iff.mp (Nat.le_antisymm (List.length_filter_le _ _) reached)
  case sum => exact (sum_kindCount status).trans len
  case size => exact FrameRecord.length_bytes (length_kinds_recordOf x st status)
  case fields =>
    exact ⟨rfl, rfl, rfl, rfl, map_kindCount_range status, changedCount_eq status, rfl, rfl, rfl, rfl, rfl, rfl⟩

end

/-! ## A request that fails the shape checks (O24)

The test stands first in `State.takeRequest`, before anything that reads the mode, the part state or the held requests: a
failing request joins the tag order and is answered there, and runs no course (R133). -/
section
namespace Sys2Proof.Machine

theorem takeRequest_of_shapeOk_eq_false {r : Request} {s : State} (room : s.holdQ.length < Config.holdQueue)
    (fails : r.shapeOk = false) : s.takeRequest r =
      (s.joinTagOrder r).answer s.nextReq ⟨.declined, responseBytes r.kind r.beats 0⟩ := by
  rw [State.takeRequest, if_pos room, if_neg (Bool.eq_false_iff.mp fails)]

/-- The answer goes to the new request alone, as no other in the tag order has its identity. -/
theorem takeRequest_declined {r : Request} {s : State} (room : s.holdQ.length < Config.holdQueue)
    (fails : r.shapeOk = false) (ids : s.IdsOk) : s.takeRequest r =
      { s with
        nextReq := s.nextReq + 1
        tagOrder := s.tagOrder ++
          [⟨s.nextReq, r.tag, r.kind, r.beats, some ⟨.declined, responseBytes r.kind r.beats 0⟩⟩] } := by
  rw [takeRequest_of_shapeOk_eq_false room fails, answer_joined r s _ ids]

end Sys2Proof.Machine

open Sys2Proof.Machine

/-- Settles O24: the checks are R133's by `shapeOk_iff`, and a request that fails them ends in the tag order with its
DECLINED, whose data are those of the request's kind. -/
theorem shapeFailureIsDeclined : Obligations.ShapeFailureIsDeclined := by
  refine fun r s => ⟨shapeOk_iff r, fun fails room ids => ?declined⟩
  have runs : exec (.upstreamRequest r) s = .next (s.takeRequest r).finish := rfl
  rw [runs, takeRequest_declined room fails ids]
  cases hkind : r.kind with
  | read => rfl
  | write => rfl

end

/-! ## IDENTIFY (O15)

The bits of a listening frame take the command of their code (`shiftIn_frameBits`). IDENTIFY is of the class that the
part-wide tests of R153 let pass in every mode and part state, and its effect keeps the state that it reports (R154). -/
section
namespace Sys2Proof.Machine

/-- A command of the class answered always meets no part-wide test: its own effect is taken in every state (R153). -/
theorem command_always (s : State) (f : Frame) (sb : Byte) (own : Effect) :
    s.command f .always sb own = own.after.respond f own.result own.data := by
  have passes : s.gate .always sb = none := rfl
  rw [State.command, passes]

theorem takeCommand_identify (s : State) (f : Frame) (sb : Byte) (arg : BitVec 64) :
    s.takeCommand f 0x01 sb arg =
      s.respond f .done [0x46, 0x32, 0x08, 0x01, modeCode s.mode, s.partState.code] := by
  have inTable : commandOf 0x01 = some .identify := by decide
  calc s.takeCommand f 0x01 sb arg
      = s.command f .always sb s.identifyEffect := by rw [State.takeCommand, inTable]; rfl
    _ = s.respond f .done [0x46, 0x32, 0x08, 0x01, modeCode s.mode, s.partState.code] := command_always ..

theorem modeCode_eq_ite (m : Mode) : modeCode m = if m = .managed then 0x00 else 0x01 := by
  cases m with
  | managed => rfl
  | transparent => rfl

theorem partStateCode_eq_ite (p : PartState) : p.code = if p = .starting then 0x00 else 0x01 := by
  cases p with
  | starting => rfl
  | ready => rfl

end Sys2Proof.Machine

open Sys2Proof Sys2Proof.Machine

/-- Settles O15: the 80 bits take IDENTIFY, which passes every part-wide test and only puts up its response. -/
theorem identifyAnswersWithoutChange : Obligations.IdentifyAnswersWithoutChange := by
  intro sb arg s listening
  have runs : exec (.identify sb arg) s = .next (s.shiftIn (frameBits 0x01 sb arg)) := rfl
  rw [runs, shiftIn_frameBits s _ _ _ listening, takeCommand_identify, modeCode_eq_ite, partStateCode_eq_ite]
  rfl

end

/-! ## READ-CAUSE (O17)

The selection goes through the causes in the order of their numbers, and of two pending causes keeps the first unless the
level of the second is higher. So after every initial run of causes it holds the first in precedence of those seen
(`State.FirstAmong`), and after all twelve the cause that R173 names. -/
section
namespace Sys2Proof.Machine

/-! ### Precedence -/

/-- Cause `i` precedes cause `j`: of higher level, or of equal level and not of higher number (R173). -/
def State.Precedes (s : State) (i j : Fin 12) : Prop :=
  (s.cause j).level < (s.cause i).level ∨ ((s.cause j).level = (s.cause i).level ∧ i ≤ j)

theorem precedes_refl (s : State) (i : Fin 12) : s.Precedes i i := .inr ⟨rfl, Fin.le_refl i⟩

theorem precedes_trans {s : State} {i j k : Fin 12} (hij : s.Precedes i j) (hjk : s.Precedes j k) : s.Precedes i k := by
  unfold State.Precedes at *
  omega

theorem precedes_antisymm {s : State} {i j : Fin 12} (hij : s.Precedes i j) (hji : s.Precedes j i) : i = j := by
  unfold State.Precedes at *
  omega

/-! ### The fold of the selection -/

/-- The place found, if any, is that of the pending cause among `seen` that precedes all others pending there. -/
def State.FirstAmong (s : State) (seen : List (Fin 12)) : Option (Fin 12) → Prop
  | none => ∀ j ∈ seen, (s.cause j).pending = false
  | some i => i ∈ seen ∧ (s.cause i).pending = true ∧ ∀ j ∈ seen, (s.cause j).pending = true → s.Precedes i j

theorem betterCause_of_not_pending {s : State} {i : Fin 12} (idle : (s.cause i).pending = false) (best : Option (Fin 12)) :
    s.betterCause best i = best := by
  simp [State.betterCause, idle]

theorem betterCause_none {s : State} {i : Fin 12} (pend : (s.cause i).pending = true) : s.betterCause none i = some i := by
  simp [State.betterCause, pend]

theorem betterCause_some {s : State} {b i : Fin 12} (pend : (s.cause i).pending = true) :
    s.betterCause (some b) i = some (if (s.cause b).level < (s.cause i).level then i else b) := by
  simp only [State.betterCause, pend, if_true]
  split <;> rfl

theorem forall_mem_snoc {P : Fin 12 → Prop} {seen : List (Fin 12)} {i : Fin 12} (before : ∀ j ∈ seen, P j) (last : P i) :
    ∀ j ∈ seen ++ [i], P j :=
  List.forall_mem_append.mpr ⟨before, List.forall_mem_singleton.mpr last⟩

/-- A cause with a higher number than those seen takes the place of the one found exactly if it precedes it. -/
theorem firstAmong_snoc {s : State} {seen : List (Fin 12)} {best : Option (Fin 12)} {i : Fin 12}
    (first : s.FirstAmong seen best) (later : ∀ j ∈ seen, j < i) : s.FirstAmong (seen ++ [i]) (s.betterCause best i) := by
  cases pend : (s.cause i).pending with
  | false =>
    rw [betterCause_of_not_pending pend]
    cases best with
    | none => exact forall_mem_snoc first pend
    | some b =>
      obtain ⟨mem, bpend, prec⟩ := first
      exact ⟨List.mem_append_left _ mem, bpend, forall_mem_snoc prec fun ipend => absurd ipend (by simp [pend])⟩
  | true =>
    have mem_last : i ∈ seen ++ [i] := List.mem_concat_self
    cases best with
    | none =>
      rw [betterCause_none pend]
      exact ⟨mem_last, pend, forall_mem_snoc (fun j hj jpend => absurd jpend (by simp [first j hj]))
        fun _ => precedes_refl s i⟩
    | some b =>
      obtain ⟨mem, bpend, prec⟩ := first
      rw [betterCause_some pend]
      split
      next higher =>
        exact ⟨mem_last, pend, forall_mem_snoc (fun j hj jpend => precedes_trans (.inl higher) (prec j hj jpend))
          fun _ => precedes_refl s i⟩
      next notHigher =>
        have ahead : s.Precedes b i := by
          have before : b < i := later b mem
          unfold State.Precedes
          omega
        exact ⟨List.mem_append_left _ mem, bpend, forall_mem_snoc prec fun _ => ahead⟩

theorem firstAmong_foldl {s : State} {seen rest : List (Fin 12)} {best : Option (Fin 12)}
    (first : s.FirstAmong seen best) (sorted : (seen ++ rest).Pairwise (· < ·)) :
    s.FirstAmong (seen ++ rest) (rest.foldl s.betterCause best) := by
  induction rest generalizing seen best with
  | nil => rwa [List.append_nil]
  | cons i rest ih =>
    obtain ⟨-, -, before⟩ := List.pairwise_append.mp sorted
    have later : ∀ j ∈ seen, j < i := fun j hj => before j hj i List.mem_cons_self
    rw [List.append_cons] at sorted ⊢
    exact ih (firstAmong_snoc first later) sorted

theorem firstAmong_selectCause (s : State) : s.FirstAmong (List.finRange 12) s.selectCause :=
  firstAmong_foldl (seen := []) (fun _ hj => absurd hj List.not_mem_nil) (List.pairwise_lt_finRange 12)

/-! ### The cause selected -/

theorem selectCause_eq_none {s : State} (idle : ∀ i, (s.cause i).pending = false) : s.selectCause = none := by
  have first := firstAmong_selectCause s
  cases hsel : s.selectCause with
  | none => rfl
  | some i =>
    rw [hsel] at first
    obtain ⟨-, pend, -⟩ := first
    simp [idle i] at pend

theorem exists_selectCause_eq_some {s : State} (pend : ∃ i, (s.cause i).pending = true) :
    ∃ i, s.selectCause = some i ∧ (s.cause i).pending = true ∧ ∀ j, (s.cause j).pending = true → s.Precedes i j := by
  have first := firstAmong_selectCause s
  cases hsel : s.selectCause with
  | none =>
    rw [hsel] at first
    obtain ⟨i, pend⟩ := pend
    simp [first i (List.mem_finRange i)] at pend
  | some i =>
    rw [hsel] at first
    obtain ⟨-, ipend, prec⟩ := first
    exact ⟨i, rfl, ipend, fun j => prec j (List.mem_finRange j)⟩

/-- A pending cause that precedes every pending one is the one selected: precedence leaves no choice. -/
theorem selectCause_eq_some {s : State} {i : Fin 12} (pend : (s.cause i).pending = true)
    (prec : ∀ j, (s.cause j).pending = true → s.Precedes i j) : s.selectCause = some i := by
  obtain ⟨k, hsel, kpend, kprec⟩ := exists_selectCause_eq_some ⟨i, pend⟩
  rw [hsel, precedes_antisymm (kprec i pend) (prec k kpend)]

/-! ### The command -/

theorem beBytes_one (v : Nat) : beBytes 1 v = [BitVec.ofNat 8 v] := rfl

theorem beBytes_two (v : Nat) : beBytes 2 v = [BitVec.ofNat 8 (v / 256), BitVec.ofNat 8 v] := rfl

section
variable {s : State} (listening : s.listening = true) (managed : s.mode = .managed) (ready : s.partState = .ready)
include listening managed ready

/-- The 80 bits of READ-CAUSE take its effect and put up its response, result DONE. -/
theorem exec_readCause (sb : Byte) (arg : BitVec 64) : exec (.readCause sb arg) s = .next
    (s.readCauseEffect.after.respond ⟨10, 0, frameBits 0x04 sb arg, none⟩ s.readCauseEffect.result
      s.readCauseEffect.data) := by
  have runs : exec (.readCause sb arg) s = .next (s.shiftIn (frameBits 0x04 sb arg)) := rfl
  have inTable : commandOf 0x04 = some .readCause := by decide
  rw [runs, shiftIn_frameBits s _ _ _ listening, State.takeCommand, inTable]
  exact congrArg _ (command_ready managed ready _ .part sb nofun _)

theorem exec_readCause_of_none (sb : Byte) (arg : BitVec 64) (sel : s.selectCause = none) :
    exec (.readCause sb arg) s = .next { s with frame := some ⟨10, 0, [], some [0x01, 0, 0, 0]⟩ } := by
  rw [exec_readCause listening managed ready, State.readCauseEffect, sel]
  rfl

theorem exec_readCause_of_some (sb : Byte) (arg : BitVec 64) {i : Fin 12} (sel : s.selectCause = some i) :
    exec (.readCause sb arg) s = .next
      { s.setCause i ⟨false, 0, (s.cause i).level⟩ with
        frame := some ⟨10, 0, [], some [0x01, BitVec.ofNat 8 (i.val + 1),
          BitVec.ofNat 8 ((s.cause i).streams.toNat / 256), BitVec.ofNat 8 (s.cause i).streams.toNat]⟩ } := by
  rw [exec_readCause listening managed ready, State.readCauseEffect, sel]
  dsimp only
  rw [beBytes_one, beBytes_two]
  rfl

end

end Sys2Proof.Machine

open Sys2Proof.Machine

/-- Settles O17: nothing is selected where nothing is pending; else the one selected precedes every pending cause. -/
theorem readCauseSelectsAndClears : Obligations.ReadCauseSelectsAndClears := by
  intro sb arg s listening managed ready
  refine ⟨fun idle => ?nothingPending, fun pend => ?somePending⟩
  case nothingPending => exact exec_readCause_of_none listening managed ready sb arg (selectCause_eq_none idle)
  case somePending =>
    obtain ⟨i, sel, ipend, prec⟩ := exists_selectCause_eq_some pend
    exact ⟨i, ipend, prec, exec_readCause_of_some listening managed ready sb arg sel⟩

end

/-! ## Stream sets (O22)

Raising a cause writes its own record alone: the flag, and the stream's bit of the set. The cause that every other pending
cause comes after is the one READ-CAUSE selects, whether it is raised again before or not, since raising keeps levels. -/
section
namespace Sys2Proof.Machine

/-! ### A raised record -/

theorem raised_raised (r : CauseRec) (st : StreamId) : (r.raised st).raised st = r.raised st := by
  simp [CauseRec.raised, BitVec.or_assoc]

/-- The bits of a raised record's set: those that were there, and the stream's own. -/
theorem getLsbD_raised (r : CauseRec) (st u : StreamId) :
    (r.raised st).streams.getLsbD u.val = (r.streams.getLsbD u.val || decide (u = st)) := by
  have own : (1#16 <<< st.val).getLsbD u.val = decide (u = st) := by
    rw [← BitVec.twoPow_eq, BitVec.getLsbD_twoPow]
    simp [Fin.ext_iff, eq_comm]
  rw [CauseRec.raised, BitVec.getLsbD_or, own]

theorem cause_raise_self (s : State) (c : Cause) (st : StreamId) :
    (s.raise c st).cause c.idx = (s.cause c.idx).raised st :=
  cause_setCause_self s _ _

theorem cause_raise_ne {s : State} {c : Cause} {st : StreamId} {i : Fin 12} (other : i ≠ c.idx) :
    (s.raise c st).cause i = s.cause i :=
  cause_setCause_ne s _ other

theorem level_cause_raise (s : State) (c : Cause) (st : StreamId) (i : Fin 12) :
    ((s.raise c st).cause i).level = (s.cause i).level := by
  rw [cause_raise]
  split
  next own => rw [own]; rfl
  next => rfl

theorem setCause_setCause (s : State) (i : Fin 12) (q r : CauseRec) : (s.setCause i q).setCause i r = s.setCause i r := by
  simp [State.setCause]

theorem raise_raise (s : State) (c : Cause) (st : StreamId) : (s.raise c st).raise c st = s.raise c st := by
  rw [State.raise, cause_raise_self, raised_raised, State.raise, setCause_setCause]

/-! ### READ-CAUSE beside a raising -/

/-- Every other pending cause comes after cause `i` (R173). -/
def State.OthersBehind (s : State) (i : Fin 12) : Prop :=
  ∀ j, j ≠ i → (s.cause j).pending = true →
    (s.cause j).level < (s.cause i).level ∨ ((s.cause j).level = (s.cause i).level ∧ i < j)

theorem selectCause_of_othersBehind {s : State} {i : Fin 12} (behind : s.OthersBehind i)
    (pend : (s.cause i).pending = true) : s.selectCause = some i := by
  refine selectCause_eq_some pend fun j jpend => ?_
  by_cases own : j = i
  · exact own ▸ precedes_refl s i
  · exact (behind j own jpend).imp_right fun ⟨level, before⟩ => ⟨level, Fin.le_of_lt before⟩

theorem othersBehind_raise {s : State} {c : Cause} (behind : s.OthersBehind c.idx) (st : StreamId) :
    (s.raise c st).OthersBehind c.idx := by
  intro j other jpend
  rw [level_cause_raise, level_cause_raise]
  rw [cause_raise_ne other] at jpend
  exact behind j other jpend

/-- The cause selected is answered with its number and its whole set, and its record is left cleared, the level kept. -/
theorem exec_readCause_of_othersBehind {s : State} (listening : s.listening = true) (managed : s.mode = .managed)
    (ready : s.partState = .ready) (sb : Byte) (arg : BitVec 64) {i : Fin 12} (behind : s.OthersBehind i)
    (pend : (s.cause i).pending = true) : ∃ t, exec (.readCause sb arg) s = .next t ∧
      t.frame = some ⟨10, 0, [], some [0x01, BitVec.ofNat 8 (i.val + 1),
        BitVec.ofNat 8 ((s.cause i).streams.toNat / 256), BitVec.ofNat 8 (s.cause i).streams.toNat]⟩ ∧
      t.cause i = ⟨false, 0, (s.cause i).level⟩ :=
  ⟨_, exec_readCause_of_some listening managed ready sb arg (selectCause_of_othersBehind behind pend), rfl,
    cause_setCause_self s i _⟩

end Sys2Proof.Machine

open Sys2Proof.Machine

/-- Settles O22: a raising writes one record, twice the same as once; READ-CAUSE after it selects that record with the
stream in it, and a raising after READ-CAUSE finds the record empty. -/
theorem raisedStreamsAreHeldOnce : Obligations.RaisedStreamsAreHeldOnce := by
  refine ⟨fun s c st => ⟨raise_raise s c st, ?flag, fun u => ?set, level_cause_raise s c st _, fun i => cause_raise_ne⟩,
    fun s c st sb arg listening managed ready behind => ⟨?raisedBefore, fun pend => ?raisedAfter⟩⟩
  case flag =>
    rw [cause_raise_self]
    rfl
  case set => rw [cause_raise_self, getLsbD_raised]
  case raisedBefore =>
    have pend : ((s.raise c st).cause c.idx).pending = true := by
      rw [cause_raise_self]
      rfl
    rw [← level_cause_raise s c st c.idx]
    exact exec_readCause_of_othersBehind (s := s.raise c st) listening managed ready sb arg
      (othersBehind_raise behind st) pend
  case raisedAfter =>
    obtain ⟨t, runs, answered, left⟩ := exec_readCause_of_othersBehind listening managed ready sb arg behind pend
    refine ⟨t, runs, answered, ?_, fun u => ?_⟩
    · rw [cause_raise_self]
      rfl
    · rw [cause_raise_self, getLsbD_raised, left]
      simp

end

/-! ## The interrupt line (O23)

The line is a test over the twelve records. A record that drives it asserts it, whatever the others are; where the others
are silent, the record just written decides it alone. -/
section
namespace Sys2Proof.Machine

theorem drives_iff (r : CauseRec) : r.drives = true ↔ r.pending = true ∧ 1 ≤ r.level := by
  have positive : 0 < r.level.val ↔ 1 ≤ r.level := by omega
  simp [CauseRec.drives, positive]

/-- The line is asserted exactly while some record drives it (R172). -/
theorem irqAsserted_iff (s : State) : s.irqAsserted = true ↔ ∃ i, (s.cause i).drives = true := by
  simp only [State.irqAsserted, List.any_eq_true, Vector.mem_toList_iff, Vector.mem_iff_getElem]
  constructor
  · rintro ⟨r, ⟨i, hi, rfl⟩, drives⟩
    exact ⟨⟨i, hi⟩, drives⟩
  · rintro ⟨i, drives⟩
    exact ⟨s.cause i, ⟨i.val, i.isLt, rfl⟩, drives⟩

theorem irqAsserted_setCause_of_drives (s : State) (i : Fin 12) {r : CauseRec} (drives : r.drives = true) :
    (s.setCause i r).irqAsserted = true :=
  (irqAsserted_iff _).mpr ⟨i, by rw [cause_setCause_self, drives]⟩

theorem irqAsserted_setCause_of_silent {s : State} {i : Fin 12} {r : CauseRec} (silent : r.drives = false)
    (others : ∀ j, j ≠ i → (s.cause j).pending = true → (s.cause j).level = 0) :
    (s.setCause i r).irqAsserted = false := by
  rw [Bool.eq_false_iff, ne_eq, irqAsserted_iff]
  rintro ⟨j, drives⟩
  by_cases own : j = i
  · rw [own, cause_setCause_self, silent] at drives
    contradiction
  · rw [cause_setCause_ne s r own] at drives
    obtain ⟨pend, level⟩ := (drives_iff _).mp drives
    rw [others j own pend] at level
    contradiction

/-- With every cause record at its reset value, as after either reset (R174), the line is not asserted. -/
theorem irqAsserted_of_causes_reset {s : State} (reset : s.causes = State.reset.causes) : s.irqAsserted = false := by
  rw [State.irqAsserted, reset]
  decide

end Sys2Proof.Machine

open Sys2Proof.Machine

/-- Settles O23: the line's test record by record; each event writes one record, and both resets write the reset records. -/
theorem interruptLineFollowsTheCauses : Obligations.InterruptLineFollowsTheCauses := by
  refine ⟨fun s => ?line, fun s c st level => ?raised, fun s i others => ⟨?cleared, ?levelZero⟩,
    fun s i l pend level => ?levelSet, fun s strap => ⟨irqAsserted_of_causes_reset rfl, irqAsserted_of_causes_reset rfl⟩⟩
  case line => simp only [irqAsserted_iff, drives_iff]
  case raised => exact irqAsserted_setCause_of_drives s c.idx ((drives_iff _).mpr ⟨rfl, level⟩)
  case cleared => exact irqAsserted_setCause_of_silent rfl others
  case levelZero => exact irqAsserted_setCause_of_silent (Bool.and_false _) others
  case levelSet => exact irqAsserted_setCause_of_drives s i ((drives_iff _).mpr ⟨pend, level⟩)

end

/-! ## The invariants that every step keeps (O8 to O12)

A step is a run of the updates of `Upd`, so a law that each update keeps is kept by every step. For each law the updates
are taken one by one: what an update leaves alone is the old law, what it changes is a lemma about that change. -/
section
namespace Sys2Proof.Machine

/-- A law that taking a command off the queue keeps, and that every update keeps, is kept by every step. -/
theorem step_keeps {P : State → Prop} (hqueue : ∀ (s : State) (q : List Instr), P s → P { s with pending := q })
    (hupd : ∀ s t, Upd s t → P s → P t) {s t : State} (hs : P s) (h : step s = .next t) : P t := by
  obtain ⟨s', hs', hrun⟩ := step_steps s t h
  refine hrun.keeps hupd ?_
  rcases hs' with rfl | ⟨q, rfl⟩
  · exact hs
  · exact hqueue s q hs

theorem stream_blank (s : State) (h : s.streams = Vector.replicate 16 .reset) (st : StreamId) : s.stream st = .reset := by
  simp [State.stream, h]

theorem cause_blank (s : State) (h : s.causes = Vector.replicate 12 .reset) (i : Fin 12) : s.cause i = .reset := by
  simp [State.cause, h]

/-- A stream after an allotment: its own record has the new banks. -/
theorem stream_allot (s : State) (st : StreamId) (n : Nat) (u : StreamId) :
    (s.allot st n).stream u = if u = st then { s.stream st with banks := s.lowestFree n } else s.stream u :=
  stream_setStream (s.takeBanks n) st u _

/-- A stream after banks are returned: the one that returned them has none. -/
theorem stream_returnBanks (s : State) (st u : StreamId) :
    (s.returnBanks st).stream u = if u = st then { s.stream st with banks := [] } else s.stream u :=
  stream_setStream (s.putBanks (s.stream st).banks) st u _

/-! ### A property of each stream's record -/

/-- A property of stream records that an update of one record keeps is kept for every stream. -/
theorem forall_stream_setStream {P : Stream → Prop} {s : State} {st : StreamId} {x : Stream}
    (h : ∀ u, P (s.stream u)) (hx : P x) (u : StreamId) : P ((s.setStream st x).stream u) := by
  rw [stream_setStream]
  split
  · exact hx
  · exact h u

theorem forall_stream_allot {P : Stream → Prop} {s : State} {st : StreamId} {n : Nat} (h : ∀ u, P (s.stream u))
    (hx : P { s.stream st with banks := s.lowestFree n }) (u : StreamId) : P ((s.allot st n).stream u) := by
  rw [stream_allot]
  split
  · exact hx
  · exact h u

theorem forall_stream_returnBanks {P : Stream → Prop} {s : State} {st : StreamId} (h : ∀ u, P (s.stream u))
    (hx : P { s.stream st with banks := [] }) (u : StreamId) : P ((s.returnBanks st).stream u) := by
  rw [stream_returnBanks]
  split
  · exact hx
  · exact h u

theorem forall_stream_blank {P : Stream → Prop} {s : State} (h : s.streams = Vector.replicate 16 .reset)
    (hx : P .reset) (u : StreamId) : P (s.stream u) := by
  rw [stream_blank s h]
  exact hx

/-! ### Bounds (O8) -/

theorem safe_of_agree {s t : State} (a : s.Agree t) (h : s.Safe) : t.Safe where
  mapCanonical := a.mapMem ▸ h.mapCanonical
  issuedAtMost := a.internal ▸ h.issuedAtMost
  heldAtMost := a.holdQ ▸ h.heldAtMost
  entriesAtMost := a.entries ▸ h.entriesAtMost
  agesOk := a.entries ▸ h.agesOk
  dividerOk := a.divider ▸ h.dividerOk
  ageLimitOk := a.ageLimit ▸ h.ageLimitOk
  correctedOk := a.corrected ▸ h.correctedOk
  causesOk := fun i => cause_of_causes_eq a.causes i ▸ h.causesOk i
  countsOk := fun st => stream_of_streams_eq a.streams st ▸ h.countsOk st

theorem causesOk_setCause {s : State} {i : Fin 12} {r : CauseRec} (h : ∀ j, (s.cause j).ok) (hr : r.ok) (j : Fin 12) :
    ((s.setCause i r).cause j).ok := by
  rw [cause_setCause]
  split
  · exact hr
  · exact h j

theorem ageOk_commit {s : State} (num : Nat) (r : Reason) (h : ∀ e ∈ s.entries, e.ageOk) :
    ∀ e ∈ (s.commitEntry num r).entries, e.ageOk := by
  intro e he
  obtain ⟨d, hd, rfl⟩ := List.mem_map.mp he
  split
  · trivial
  · exact h d hd

theorem ageOk_aged (e : Entry) (h : e.ageOk) : e.aged.ageOk := by
  unfold Entry.aged
  split
  · exact Nat.min_le_right ..
  · exact h

/-- A stored entry takes the place of another, or the buffer has room for it. -/
theorem length_entries_putEntry {s : State} {e : Entry} (hlen : s.entries.length ≤ Config.entries)
    (h : (∃ d, s.entryAt e.stream e.pos = some d ∧ d.collecting = true ∧ d.num = e.num) ∨
      (s.entryAt e.stream e.pos = none ∧ s.entries.length < Config.entries ∧ e.num = s.newNumber)) :
    (s.putEntry e).entries.length ≤ Config.entries := by
  rcases h with ⟨d, hd, -, -⟩ | ⟨-, room, -⟩
  · exact Nat.le_trans (Steps.length_putEntry s e (by rw [hd]; rfl)) hlen
  · have := List.length_filter_le (fun d => !(d.stream == e.stream && d.pos == e.pos)) s.entries
    simp only [State.putEntry, List.length_append, List.length_singleton]
    omega

theorem ageOk_putEntry {s : State} {e : Entry} (hs : e.state = .collecting 0) (h : ∀ d ∈ s.entries, d.ageOk) :
    ∀ d ∈ (s.putEntry e).entries, d.ageOk := by
  intro d hd
  rcases List.mem_append.mp hd with old | new
  · exact h d (List.mem_filter.mp old).1
  · rw [List.mem_singleton.mp new]
    simp [Entry.ageOk, hs]

/-- The blocks at their reset values meet the bounds, whatever transfers are left to finish. -/
theorem safe_blank (s : State) (issued : issuedCount s.internal ≤ Config.internalIssued) : State.Safe { s with
    mapMem := [], holdQ := [], entries := [], lastWrite := [], divider := 16, ageLimit := 200, corrected := 0
    causes := Vector.replicate 12 .reset, streams := Vector.replicate 16 .reset, freeBanks := List.range 160 } where
  mapCanonical := MapMemory.wf_nil
  issuedAtMost := issued
  heldAtMost := Nat.zero_le _
  entriesAtMost := Nat.zero_le _
  agesOk := by simp
  dividerOk := by simp
  ageLimitOk := Nat.le_of_ble_eq_true rfl
  correctedOk := Nat.zero_le _
  causesOk := fun i => by rw [cause_blank _ rfl]; exact fun _ => rfl
  countsOk := forall_stream_blank rfl (Steps.countsOk_reset .noReason)

theorem safe_keeps (s t : State) (u : Upd s t) (h : s.Safe) : t.Safe := by
  cases u with
  | other a _ => exact safe_of_agree a h
  | raise c st => exact { h with causesOk := causesOk_setCause h.causesOk fun clear => by cases clear }
  | clearCause i => exact { h with causesOk := causesOk_setCause h.causesOk fun _ => rfl }
  | levelCause i l => exact { h with causesOk := causesOk_setCause h.causesOk (h.causesOk i) }
  | stream st x hc _ _ => exact { h with countsOk := forall_stream_setStream h.countsOk (hc (h.countsOk st)) }
  | cell k c => exact { h with mapCanonical := MapMemory.wf_write _ _ _ h.mapCanonical }
  | allot st n =>
    exact { h with
      mapCanonical := MapMemory.wf_clearBanks _ _ h.mapCanonical
      countsOk := forall_stream_allot h.countsOk (h.countsOk st) }
  | returnBanks st => exact { h with countsOk := forall_stream_returnBanks h.countsOk (h.countsOk st) }
  | clearMap => exact { h with mapCanonical := MapMemory.wf_nil }
  | correct => exact { h with correctedOk := Nat.min_le_right .. }
  | held q hq =>
    have shorter : q.length ≤ s.holdQ.length := by simpa using hq.length_le
    exact { h with heldAtMost := Nat.le_trans shorter h.heldAtMost }
  | holdOne x room _ _ => exact { h with heldAtMost := by rw [List.length_append]; exact room }
  | hand o ws =>
    have none_issued : issuedCount (s.handInternal o ws).internal = issuedCount s.internal := by
      rw [State.handInternal, Steps.issuedCount_append, Steps.issuedCount_numbered, Nat.add_zero]
    exact { h with issuedAtMost := none_issued ▸ h.issuedAtMost }
  | internal xs fewer _ => exact { h with issuedAtMost := Nat.le_trans fewer h.issuedAtMost }
  | issue xs room more _ => exact { h with issuedAtMost := Nat.le_trans more room }
  | commit num r =>
    exact { h with
      entriesAtMost := by simpa [State.commitEntry] using h.entriesAtMost
      agesOk := ageOk_commit num r h.agesOk }
  | free gone =>
    exact { h with
      entriesAtMost := Nat.le_trans (List.length_filter_le ..) h.entriesAtMost
      agesOk := fun e he => h.agesOk e (List.mem_filter.mp he).1 }
  | store e hs hplace =>
    exact { h with
      entriesAtMost := length_entries_putEntry h.entriesAtMost hplace
      agesOk := ageOk_putEntry hs h.agesOk }
  | age =>
    exact { h with
      entriesAtMost := by simpa [State.ageEntries] using h.entriesAtMost
      agesOk := List.forall_mem_map.mpr fun e he => ageOk_aged e (h.agesOk e he) }
  | ageing d l hd hl => exact { h with dividerOk := hd, ageLimitOk := hl }
  | blank => exact safe_blank s h.issuedAtMost

/-! ### The assembly buffer (O9) -/

/-- A symmetric relation that holds pairwise in a list holds between any two different members. -/
theorem rel_of_pairwise {α : Type} {R : α → α → Prop} (symm : ∀ a b, R a b → R b a) {xs : List α} (h : xs.Pairwise R) {a b : α}
    (ha : a ∈ xs) (hb : b ∈ xs) (differ : a ≠ b) : R a b := by
  induction h with
  | nil => exact absurd ha List.not_mem_nil
  | cons front _ ih =>
    rcases List.mem_cons.mp ha with rfl | inA
    · exact front _ ((List.mem_cons.mp hb).resolve_left (Ne.symm differ))
    · rcases List.mem_cons.mp hb with rfl | inB
      · exact symm _ _ (front _ inA)
      · exact ih inA inB

/-- Entries with different numbers that share one are the same. -/
theorem entry_eq_of_num {es : List Entry} (once : (es.map Entry.num).Nodup) {d e : Entry} (hd : d ∈ es) (he : e ∈ es)
    (hnum : d.num = e.num) : d = e :=
  Classical.byContradiction fun differ =>
    rel_of_pairwise (R := fun a b => a.num ≠ b.num) (fun _ _ ne => ne.symm) (List.pairwise_map.mp once) hd he differ hnum

/-- Different entries are of different tiles (R40). -/
theorem apart_of_ne {s : State} (h : s.BufferLaws) {d e : Entry} (hd : d ∈ s.entries) (he : e ∈ s.entries) (hne : d ≠ e) :
    ¬(d.stream = e.stream ∧ d.pos = e.pos) :=
  rel_of_pairwise (R := fun a b => ¬(a.stream = b.stream ∧ a.pos = b.pos))
    (fun _ _ apart same => apart ⟨same.1.symm, same.2.symm⟩) h.onePerTile hd he hne

/-- With fewer than 64 entries a number below 64 is free: the new number is one, and the lowest (R45; log entry 8). -/
theorem newNumber_spec {s : State} (room : s.entries.length < Config.entries) :
    s.newNumber < Config.entries ∧ (∀ e ∈ s.entries, e.num ≠ s.newNumber) ∧
      ∀ n < s.newNumber, ∃ e ∈ s.entries, e.num = n := by
  have free : ∃ n ∈ List.range Config.entries, n ∉ s.entries.map Entry.num := by
    refine Classical.byContradiction fun used => ?_
    have every (n : Nat) (hn : n ∈ List.range Config.entries) : n ∈ s.entries.map Entry.num :=
      Classical.byContradiction fun unused => used ⟨n, hn, unused⟩
    have most := List.nodup_range.length_le_of_subset every
    rw [List.length_range, List.length_map] at most
    omega
  have taken_iff (n : Nat) : (s.entries.any fun e => e.num == n) = true ↔ ∃ e ∈ s.entries, e.num = n := by simp
  unfold State.newNumber
  cases hfind : (List.range Config.entries).find? fun n => !s.entries.any fun e => e.num == n with
  | none =>
    obtain ⟨n, hn, hfree⟩ := free
    have used := List.find?_eq_none.mp hfind n hn
    exact absurd (List.mem_map.mpr ((taken_iff n).mp (by simpa using used))) hfree
  | some n =>
    obtain ⟨hfree, hlt, hlower⟩ := List.find?_range_eq_some.mp hfind
    refine ⟨List.mem_range.mp hlt, fun e he hnum => ?_, fun m hm => (taken_iff m).mp (by simpa using hlower m hm)⟩
    rw [(taken_iff n).mpr ⟨e, he, hnum⟩] at hfree
    cases hfree

theorem collecting_aged (e : Entry) : e.aged.collecting = e.collecting := by
  cases hs : e.state <;> simp [Entry.aged, Entry.collecting, hs]

theorem fields_aged (e : Entry) : e.aged.num = e.num ∧ e.aged.stream = e.stream ∧ e.aged.pos = e.pos := by
  unfold Entry.aged
  split <;> exact ⟨rfl, rfl, rfl⟩

theorem bufferLaws_of_eq {s t : State} (h : s.BufferLaws) (he : t.entries = s.entries) (hl : t.lastWrite = s.lastWrite) :
    t.BufferLaws where
  onePerTile := he ▸ h.onePerTile
  numbersOnce := he ▸ h.numbersOnce
  numbersBelow := he ▸ h.numbersBelow
  orderOnce := hl ▸ h.orderOnce
  orderHolds := he ▸ hl ▸ h.orderHolds

theorem bufferLaws_empty {s : State} (he : s.entries = []) (hl : s.lastWrite = []) : s.BufferLaws where
  onePerTile := by simp [he]
  numbersOnce := by simp [he]
  numbersBelow := by simp [he]
  orderOnce := by simp [hl]
  orderHolds := by simp [he, hl]

/-- The laws of the buffer speak of an entry's number, tile and state alone. -/
theorem bufferLaws_map {s t : State} {f : Entry → Entry} (he : t.entries = s.entries.map f)
    (hf : ∀ e, (f e).num = e.num ∧ (f e).stream = e.stream ∧ (f e).pos = e.pos) (h : s.BufferLaws)
    (once : t.lastWrite.Nodup)
    (holds : ∀ n, n ∈ t.lastWrite ↔ ∃ e ∈ s.entries, e.num = n ∧ (f e).collecting = true) : t.BufferLaws where
  onePerTile := by
    rw [he, List.pairwise_map]
    refine h.onePerTile.imp fun {a b} apart => ?_
    rw [(hf a).2.1, (hf a).2.2, (hf b).2.1, (hf b).2.2]
    exact apart
  numbersOnce := by
    rw [he, map_key Entry.num f fun e => (hf e).1]
    exact h.numbersOnce
  numbersBelow := by
    rw [he]
    exact List.forall_mem_map.mpr fun e hmem => (hf e).1 ▸ h.numbersBelow e hmem
  orderOnce := once
  orderHolds := fun n => by
    rw [holds, he]
    constructor
    · rintro ⟨e, hmem, hnum, hcol⟩
      exact ⟨f e, List.mem_map_of_mem hmem, (hf e).1.trans hnum, hcol⟩
    · rintro ⟨e', hmem, hnum, hcol⟩
      obtain ⟨e, he', rfl⟩ := List.mem_map.mp hmem
      exact ⟨e, he', (hf e).1.symm.trans hnum, hcol⟩

/-- A commit takes its entry out of the last-write order as it takes it out of COLLECTING (R41, R49). -/
theorem bufferLaws_commit {s : State} (num : Nat) (r : Reason) (h : s.BufferLaws) : (s.commitEntry num r).BufferLaws := by
  refine bufferLaws_map rfl (fun e => by split <;> exact ⟨rfl, rfl, rfl⟩) h (h.orderOnce.filter _) fun n => ?_
  simp only [State.commitEntry, List.mem_filter, h.orderHolds, bne_iff_ne, ne_eq]
  constructor
  · rintro ⟨⟨e, hmem, rfl, hcol⟩, hne⟩
    exact ⟨e, hmem, rfl, by rw [if_neg hne]; exact hcol⟩
  · rintro ⟨e, hmem, rfl, hcol⟩
    by_cases hnum : e.num = num
    · rw [if_pos hnum] at hcol
      cases hcol
    · rw [if_neg hnum] at hcol
      exact ⟨⟨e, hmem, rfl, hcol⟩, hnum⟩

/-- Freed entries leave the last-write order, and no other does (R41, R54). -/
theorem bufferLaws_free {s : State} (gone : Entry → Bool) (h : s.BufferLaws) : (s.dropEntries gone).BufferLaws where
  onePerTile := h.onePerTile.filter _
  numbersOnce := h.numbersOnce.sublist (List.filter_sublist.map _)
  numbersBelow := fun e he => h.numbersBelow e (List.mem_filter.mp he).1
  orderOnce := h.orderOnce.filter _
  orderHolds := fun n => by
    simp only [State.dropEntries, List.mem_filter, List.any_eq_true, beq_iff_eq, h.orderHolds]
    constructor
    · rintro ⟨⟨d, hd, hdn, hcol⟩, e, ⟨he, hstays⟩, hen⟩
      have : d = e := entry_eq_of_num h.numbersOnce hd he (hdn.trans hen.symm)
      exact ⟨e, ⟨he, hstays⟩, hen, this ▸ hcol⟩
    · rintro ⟨e, ⟨he, hstays⟩, hen, hcol⟩
      exact ⟨⟨e, he, hen, hcol⟩, e, ⟨he, hstays⟩, hen⟩

/-- The entries away from a tile, and one entry put at it, in a buffer in which no other entry has its number (R40, R41). -/
theorem bufferLaws_putEntry {s : State} {e : Entry} (hcol : e.collecting = true) (below : e.num < Config.entries)
    (own : ∀ d ∈ s.entries, d.num = e.num → d.stream = e.stream ∧ d.pos = e.pos)
    (unblocked : ∀ d ∈ s.entries, d.stream = e.stream → d.pos = e.pos → d.num = e.num) (h : s.BufferLaws) :
    (s.putEntry e).BufferLaws := by
  have mem_rest (d : Entry) : d ∈ (s.entries.filter fun d => !(d.stream == e.stream && d.pos == e.pos)) ↔
      d ∈ s.entries ∧ ¬(d.stream = e.stream ∧ d.pos = e.pos) := by
    rw [List.mem_filter, Bool.not_eq_true', Bool.eq_false_iff, ne_eq, Bool.and_eq_true, beq_iff_eq, beq_iff_eq]
  exact {
    onePerTile := by
      refine List.pairwise_append.mpr ⟨h.onePerTile.filter _, List.pairwise_singleton .., fun d hd f hf => ?_⟩
      rw [List.mem_singleton.mp hf]
      exact ((mem_rest d).mp hd).2
    numbersOnce := by
      simp only [State.putEntry, List.map_append, List.map_singleton]
      refine List.nodup_append.mpr ⟨h.numbersOnce.sublist (List.filter_sublist.map _), by simp, fun n hn m hm same => ?_⟩
      obtain ⟨d, hd, rfl⟩ := List.mem_map.mp hn
      obtain ⟨hd, away⟩ := (mem_rest d).mp hd
      exact away (own d hd (same.trans (List.mem_singleton.mp hm)))
    numbersBelow := fun d hd => by
      rcases List.mem_append.mp hd with hd | hd
      · exact h.numbersBelow d ((mem_rest d).mp hd).1
      · rw [List.mem_singleton.mp hd]
        exact below
    orderOnce := by
      refine List.nodup_append.mpr ⟨h.orderOnce.filter _, by simp, fun n hn m hm same => ?_⟩
      have : n ≠ e.num := by simpa using (List.mem_filter.mp hn).2
      exact this (same.trans (List.mem_singleton.mp hm))
    orderHolds := fun n => by
      simp only [State.putEntry, List.mem_append, List.mem_filter, List.mem_singleton, h.orderHolds, bne_iff_ne, ne_eq]
      constructor
      · rintro (⟨⟨d, hd, hdn, hdcol⟩, hne⟩ | rfl)
        · exact ⟨d, .inl (List.mem_filter.mp ((mem_rest d).mpr ⟨hd, fun at' => hne (hdn ▸ unblocked d hd at'.1 at'.2)⟩)),
            hdn, hdcol⟩
        · exact ⟨e, .inr rfl, rfl, hcol⟩
      · rintro ⟨d, hd | rfl, hdn, hdcol⟩
        · obtain ⟨hd, away⟩ := (mem_rest d).mp (List.mem_filter.mpr hd)
          exact .inl ⟨⟨d, hd, hdn, hdcol⟩, fun same => away (own d hd (hdn.trans same))⟩
        · exact .inr hdn.symm }

/-- The entry that is stored is the one at its tile, or a new one where the tile has none (R45, R47). -/
theorem bufferLaws_store {s : State} {e : Entry} (hs : e.state = .collecting 0)
    (hplace : (∃ d, s.entryAt e.stream e.pos = some d ∧ d.collecting = true ∧ d.num = e.num) ∨
      (s.entryAt e.stream e.pos = none ∧ s.entries.length < Config.entries ∧ e.num = s.newNumber))
    (h : s.BufferLaws) : (s.putEntry e).BufferLaws := by
  have hcol : e.collecting = true := by simp [Entry.collecting, hs]
  rcases hplace with ⟨d, hat, -, hnum⟩ | ⟨hat, room, hnum⟩
  · have hd := List.mem_of_find?_eq_some hat
    have hpos : d.stream = e.stream ∧ d.pos = e.pos := by simpa using List.find?_some hat
    have same (f : Entry) (hf : f ∈ s.entries) (hfs : f.stream = e.stream) (hfp : f.pos = e.pos) : f = d :=
      Classical.byContradiction fun hne => apart_of_ne h hf hd hne ⟨hfs.trans hpos.1.symm, hfp.trans hpos.2.symm⟩
    refine bufferLaws_putEntry hcol (hnum ▸ h.numbersBelow d hd) (fun f hf hfn => ?_)
      (fun f hf hfs hfp => by rw [same f hf hfs hfp, hnum]) h
    rw [entry_eq_of_num h.numbersOnce hf hd (hfn.trans hnum.symm)]
    exact hpos
  · obtain ⟨below, fresh, -⟩ := newNumber_spec room
    refine bufferLaws_putEntry hcol (hnum ▸ below) (fun f hf hfn => absurd (hfn.trans hnum) (fresh f hf))
      (fun f hf hfs hfp => ?_) h
    have := List.find?_eq_none.mp hat f hf
    simp [hfs, hfp] at this

theorem bufferLaws_keeps (s t : State) (u : Upd s t) (h : s.BufferLaws) : t.BufferLaws := by
  cases u with
  | other a _ => exact bufferLaws_of_eq h a.entries a.lastWrite
  | commit num r => exact bufferLaws_commit num r h
  | free gone => exact bufferLaws_free gone h
  | store e hs hplace => exact bufferLaws_store hs hplace h
  | age =>
    refine bufferLaws_map rfl fields_aged h h.orderOnce fun n => ?_
    simp only [collecting_aged]
    exact h.orderHolds n
  | blank => exact bufferLaws_empty rfl rfl
  | raise | clearCause | levelCause | stream | cell | allot | returnBanks | clearMap | correct | held | holdOne | hand
  | internal | issue | ageing => exact bufferLaws_of_eq h rfl rfl

/-! ### Slots and frame numbers (O10) -/

theorem ringOk_keeps (s t : State) (u : Upd s t) (h : ∀ st, (s.stream st).ringOk) : ∀ st, (t.stream st).ringOk := by
  cases u with
  | other a _ => exact fun st => stream_of_streams_eq a.streams st ▸ h st
  | stream st x _ hr _ => exact forall_stream_setStream h (hr (h st))
  | allot st n => exact forall_stream_allot h (h st)
  | returnBanks st => exact forall_stream_returnBanks h (h st)
  | blank => exact forall_stream_blank rfl fun live => by cases live
  | raise | clearCause | levelCause | cell | clearMap | correct | held | holdOne | hand | internal | issue | commit | free
  | store | age | ageing => exact h

/-! ### Identities (O11) -/

theorem idsOk_keeps (s t : State) (u : Upd s t) (h : s.IdsOk) : t.IdsOk := by
  cases u with
  | other _ ids => exact ids h
  | held q hq => exact IdsApart.sub h (.refl _) hq (.refl _) (.refl _) (.refl _) (Nat.le_refl _) (Nat.le_refl _)
  | holdOne x _ below once =>
    unfold State.IdsOk
    rw [List.map_append]
    exact IdsApart.addHeld h x.id below once
  | hand o ws =>
    unfold State.IdsOk State.handInternal
    rw [List.map_append, map_id_numbered]
    exact IdsApart.addInternal h ws.length
  | internal xs _ hxs => exact IdsApart.sub h (.refl _) (.refl _) (.refl _) (.refl _) hxs (Nat.le_refl _) (Nat.le_refl _)
  | issue xs _ _ hxs =>
    unfold State.IdsOk
    rw [hxs]
    exact h
  | blank =>
    exact IdsApart.sub h (.refl _) (List.nil_sublist _) (.refl _) (.refl _) (.refl _) (Nat.le_refl _) (Nat.le_refl _)
  | raise | clearCause | levelCause | stream | cell | allot | returnBanks | clearMap | correct | commit | free | store
  | age | ageing => exact h

/-! ### Banks (O12) -/

theorem banksApart_of_eq {s t : State} (h : s.BanksApart) (hf : t.freeBanks = s.freeBanks)
    (hb : ∀ st, (t.stream st).banks = (s.stream st).banks ∨ (t.stream st).banks = []) : t.BanksApart := by
  have held {st : StreamId} {b : Nat} (hmem : b ∈ (t.stream st).banks) : b ∈ (s.stream st).banks := by
    rcases hb st with same | none
    · exact same ▸ hmem
    · simp [none] at hmem
  exact {
    freeAscending := hf ▸ h.freeAscending
    freeBelow := hf ▸ h.freeBelow
    allottedAscending := fun st => by
      rcases hb st with same | none
      · exact same ▸ h.allottedAscending st
      · simp [none]
    allottedBelow := fun st b hmem => h.allottedBelow st b (held hmem)
    allottedNotFree := fun st b hmem => hf ▸ h.allottedNotFree st b (held hmem)
    streamsApart := fun st u hne b hmem hu => h.streamsApart st u hne b (held hmem) (held hu) }

/-- Banks taken from the front of the pool are not in what is left of it. -/
theorem banksApart_allot {s : State} (st : StreamId) (n : Nat) (h : s.BanksApart) : (s.allot st n).BanksApart := by
  have split : (s.freeBanks.take n ++ s.freeBanks.drop n).Pairwise (· < ·) := by
    rw [List.take_append_drop]
    exact h.freeAscending
  obtain ⟨taken_asc, left_asc, taken_lt_left⟩ := List.pairwise_append.mp split
  have banks_eq (u : StreamId) : ((s.allot st n).stream u).banks =
      if u = st then s.freeBanks.take n else (s.stream u).banks := by
    rw [stream_allot]
    split <;> rfl
  have taken_free {b : Nat} (hmem : b ∈ s.freeBanks.take n) : b ∈ s.freeBanks := List.mem_of_mem_take hmem
  exact {
    freeAscending := left_asc
    freeBelow := fun b hmem => h.freeBelow b (List.mem_of_mem_drop hmem)
    allottedAscending := fun u => by
      rw [banks_eq]
      split
      · exact taken_asc
      · exact h.allottedAscending u
    allottedBelow := fun u b hmem => by
      rw [banks_eq] at hmem
      split at hmem
      · exact h.freeBelow b (taken_free hmem)
      · exact h.allottedBelow u b hmem
    allottedNotFree := fun u b hmem hfree => by
      rw [banks_eq] at hmem
      split at hmem
      · exact Nat.lt_irrefl b (taken_lt_left b hmem b hfree)
      · exact h.allottedNotFree u b hmem (List.mem_of_mem_drop hfree)
    streamsApart := fun u v hne b hu hv => by
      rw [banks_eq] at hu hv
      split at hu <;> split at hv
      · exact hne (by simp_all)
      · exact h.allottedNotFree v b hv (taken_free hu)
      · exact h.allottedNotFree u b hu (taken_free hv)
      · exact h.streamsApart u v hne b hu hv }

/-- A stream that returns its banks has none left, and no other stream had one of them. -/
theorem banksApart_returnBanks {s : State} (st : StreamId) (h : s.BanksApart) : (s.returnBanks st).BanksApart := by
  have held {u : StreamId} {b : Nat} (hmem : b ∈ ((s.returnBanks st).stream u).banks) : u ≠ st ∧ b ∈ (s.stream u).banks := by
    rw [stream_returnBanks] at hmem
    split at hmem
    · cases hmem
    · exact ⟨‹_›, hmem⟩
  have mem_free (b : Nat) : b ∈ (s.returnBanks st).freeBanks ↔
      b < Config.banks ∧ (b ∈ s.freeBanks ∨ b ∈ (s.stream st).banks) := by
    simp [State.returnBanks, State.putBanks]
  exact {
    freeAscending := List.pairwise_lt_range.filter _
    freeBelow := fun b hmem => ((mem_free b).mp hmem).1
    allottedAscending := forall_stream_returnBanks (P := fun x => x.banks.Pairwise (· < ·)) h.allottedAscending .nil
    allottedBelow := fun u b hmem => h.allottedBelow u b (held hmem).2
    allottedNotFree := fun u b hmem hfree => by
      obtain ⟨hne, hmem⟩ := held hmem
      rcases ((mem_free b).mp hfree).2 with hfree | hown
      · exact h.allottedNotFree u b hmem hfree
      · exact h.streamsApart u st hne b hmem hown
    streamsApart := fun u v hne b hu hv => h.streamsApart u v hne b (held hu).2 (held hv).2 }

/-- With the whole pool free and no stream holding a bank, the banks are apart. -/
theorem banksApart_blank {s : State} (hf : s.freeBanks = List.range 160) (hs : s.streams = Vector.replicate 16 .reset) :
    s.BanksApart where
  freeAscending := hf ▸ List.pairwise_lt_range
  freeBelow := fun b hmem => List.mem_range.mp (hf ▸ hmem)
  allottedAscending := fun st => by rw [stream_blank s hs]; exact .nil
  allottedBelow := fun st b hmem => by rw [stream_blank s hs] at hmem; cases hmem
  allottedNotFree := fun st b hmem => by rw [stream_blank s hs] at hmem; cases hmem
  streamsApart := fun st u _ b hmem => by rw [stream_blank s hs] at hmem; cases hmem

theorem banksApart_keeps (s t : State) (u : Upd s t) (h : s.BanksApart) : t.BanksApart := by
  cases u with
  | other a _ => exact banksApart_of_eq h a.freeBanks fun st => .inl (by rw [stream_of_streams_eq a.streams])
  | stream st x _ _ hb =>
    refine banksApart_of_eq h rfl fun u => ?_
    rw [stream_setStream]
    split
    · subst u
      exact hb
    · exact .inl rfl
  | allot st n => exact banksApart_allot st n h
  | returnBanks st => exact banksApart_returnBanks st h
  | blank => exact banksApart_blank rfl rfl
  | raise | clearCause | levelCause | cell | clearMap | correct | held | holdOne | hand | internal | issue | commit | free
  | store | age | ageing => exact banksApart_of_eq h rfl fun _ => .inl rfl

end Sys2Proof.Machine

open Sys2Proof Sys2Proof.Machine

/-- Settles O8: a step is a run of updates, and each update keeps the bounds. -/
theorem everyStepKeepsTheBounds : Obligations.EveryStepKeepsTheBounds :=
  fun _ _ hs h => step_keeps (fun _ _ hs => { hs with }) safe_keeps hs h

/-- Settles O9: only commits, freeings, stores and age ticks touch the buffer, and each keeps its laws. -/
theorem everyStepKeepsTheBufferLaws : Obligations.EveryStepKeepsTheBufferLaws :=
  fun _ _ hs h => step_keeps (fun _ _ hs => bufferLaws_of_eq hs rfl rfl) bufferLaws_keeps hs h

/-- Settles O10: an update of a stream's record carries the law for that record, and no other update writes slot or frame. -/
theorem everyStepKeepsSlotFrameModS : Obligations.EveryStepKeepsSlotFrameModS :=
  fun _ _ hs h => step_keeps (P := fun s => ∀ st, (s.stream st).ringOk) (fun _ _ hs => hs) ringOk_keeps hs h

/-- Settles O11: new requests and transfers take the next number of their counter, and the others only go. -/
theorem everyStepKeepsIdentitiesApart : Obligations.EveryStepKeepsIdentitiesApart :=
  fun _ _ hs h => step_keeps (fun _ _ hs => hs) idsOk_keeps hs h

/-- Settles O12: an allotment takes banks from the front of the pool, and a stream gives back only its own. -/
theorem everyStepKeepsTheBanksApart : Obligations.EveryStepKeepsTheBanksApart :=
  fun _ _ hs h => step_keeps (fun _ _ hs => banksApart_of_eq hs rfl fun _ => .inl rfl) banksApart_keeps hs h

/-- Settles O7: the state after pin reset is blank but for the strap and the queue. -/
theorem resetStateMeetsTheInvariants : Obligations.ResetStateMeetsTheInvariants := by
  have meets (s : State) (strap : Mode) : (s.pinReset strap).Safe ∧ (s.pinReset strap).BufferLaws ∧
      (∀ st, ((s.pinReset strap).stream st).ringOk) ∧ (s.pinReset strap).IdsOk ∧ (s.pinReset strap).BanksApart :=
    ⟨safe_blank (s.pinReset strap) (Nat.zero_le _), bufferLaws_empty rfl rfl,
      forall_stream_blank rfl (fun live => by cases live), Steps.idsApart_nil, banksApart_blank rfl rfl⟩
  obtain ⟨safe, buffer, ring, ids, banks⟩ := meets .reset .managed
  refine ⟨safe, buffer, ring, ids, banks, fun strap s t h => ?_⟩
  cases h
  exact meets s strap

/-- Settles O1: the match of `step` on a queue that is not empty. -/
theorem stepRunsTheFrontCommand : Obligations.StepRunsTheFrontCommand := by
  intro c rest s hq
  simp [step, hq]

end

/-! ## The step, the queue and the resets (O2 to O6)

Only the step takes a command from the queue, as no update does. What is due, and what one round takes of it, is said by the
lemmas about each kind of due event; the resets write constants. -/
section
namespace Sys2Proof.Machine

/-! ### The queue (O2) -/

theorem pending_of_upd (s t : State) (u : Upd s t) : t.pending = s.pending := by
  cases u with
  | other a _ => exact a.pending
  | raise | clearCause | levelCause | stream | cell | allot | returnBanks | clearMap | correct | held | holdOne | hand
  | internal | issue | commit | free | store | age | ageing | blank => rfl

theorem pending_of_steps {s t : State} (h : Steps s t) : t.pending = s.pending :=
  h.keeps (P := fun u => u.pending = s.pending) (fun u v n hu => (pending_of_upd u v n).trans hu) rfl

theorem exec_completes (c : Instr) (s : State) : ∃ t, exec c s = .next t := by
  cases c <;> exact ⟨_, rfl⟩

theorem exec_keeps_queue (c : Instr) (s : State) : ∃ t, exec c s = .next t ∧ t.pending = s.pending := by
  obtain ⟨t, ht⟩ := exec_completes c s
  exact ⟨t, ht, pending_of_steps (exec_steps c s t ht)⟩

/-! ### The end of a step (O3) -/

theorem mem_newlyDeliverable (s : State) (n : Nat) : n ∈ s.newlyDeliverable ↔
    ∃ t ∈ s.tagOrder, t.id = n ∧ t.answer.isSome = true ∧ n ∉ s.deliverable ∧
      ∃ f, s.tagOrder.find? (fun u => decide (u.tag = t.tag)) = some f ∧ f.id = t.id := by
  have at_front (t : Taken) : isDeliverable s.tagOrder t = true ↔ t.answer.isSome = true ∧
      ∃ f, s.tagOrder.find? (fun u => decide (u.tag = t.tag)) = some f ∧ f.id = t.id := by
    simp [isDeliverable, tagFront, Option.any_eq_true]
  simp only [State.newlyDeliverable, List.mem_map, List.mem_filter, Bool.and_eq_true, at_front, Bool.not_eq_true',
    List.contains_eq_mem, decide_eq_false_iff_not]
  constructor
  · rintro ⟨t, ⟨ht, ⟨ready, front⟩, fresh⟩, rfl⟩
    exact ⟨t, ht, rfl, ready, fresh, front⟩
  · rintro ⟨t, ht, rfl, ready, fresh, front⟩
    exact ⟨t, ⟨ht, ⟨ready, front⟩, fresh⟩, rfl⟩

/-! ### One round (O4) -/

/-- What follows the retries in a round. -/
def State.phaseEnds (t : State) : State :=
  (((t.eachStream State.closeIfDue).eachStream State.openIfDue).eachStream State.drainIfDue).readyIfDue

theorem settleRound_eq (s : State) : s.settleRound = s.settleCommits.retryPass.phaseEnds := rfl

/-- The second phase of a stream, begun where no other event of a stream is due, makes none due (R116). -/
theorem phaseEnds_close {s : State} {st : StreamId} (ready : s.partState = .ready)
    (quiet : ∀ u, s.openDue u = false ∧ s.drainDue u = false) (others : ∀ u, u ≠ st → s.closeDue u = false)
    (due : s.closeDue st = true) : s.phaseEnds = s.beginSecondPhase st := by
  obtain ⟨streams, own, entries, busy, part⟩ := beginSecondPhase_spec s st due
  have closed (u : StreamId) : (s.beginSecondPhase st).closeDue u = false := by
    by_cases hu : u = st
    · subst hu
      rcases own with faulted | ⟨-, second⟩
      · simp [State.closeDue, faulted]
      · simp [State.closeDue, second]
    · refine (closeDue_false _ u).mpr fun closing first => ?_
      rw [streams u hu] at closing first
      obtain ⟨e, he, rfl⟩ := (closeDue_false s u).mp (others u hu) closing first
      simpa [State.hasEntries] using entries _ hu (by simpa [State.hasEntries] using ⟨e, he, rfl⟩)
  have opened (u : StreamId) : (s.beginSecondPhase st).openDue u = false := by
    by_cases hu : u = st
    · subst hu
      rcases own with faulted | ⟨-, second⟩
      · simp [State.openDue, faulted]
      · simp [State.openDue, second]
    · have := (quiet u).1
      rwa [State.openDue, ← streams u hu] at this
  have drained (u : StreamId) : (s.beginSecondPhase st).drainDue u = false := by
    by_cases hu : u = st
    · subst hu
      rcases own with faulted | ⟨closing, -⟩
      · simp [State.drainDue, faulted]
      · simp [State.drainDue, closing]
    · refine (drainDue_false _ u).mpr fun draining => ?_
      rw [streams u hu] at draining
      have := (drainDue_false s u).mp (quiet u).2 draining
      exact (streamBusy_iff _ u).mp (busy u hu ((streamBusy_iff s u).mpr this))
  unfold State.phaseEnds
  rw [each_one s (s.beginSecondPhase st) State.closeIfDue st (by rw [State.closeIfDue, if_pos due])
      (fun u hu => closeIfDue_none (others u hu)) (fun u => closeIfDue_none (closed u)),
    each_of_none _ _ fun u => openIfDue_none (opened u), each_of_none _ _ fun u => drainIfDue_none (drained u),
    readyIfDue_ready (part.trans ready)]

theorem stream_openFrame (s : State) (st u : StreamId) :
    (s.openFrame st).stream u = if u = st then (s.stream st).advanced else s.stream u := by
  have : (s.openFrame st).streams = (s.setStream st (s.stream st).advanced).streams := by
    unfold State.openFrame
    dsimp only
    split <;> rfl
  rw [stream_of_streams_eq this, stream_setStream]

/-- The next frame of a stream, opened where no other event of a stream is due, makes none due (R125). -/
theorem phaseEnds_open {s : State} {st : StreamId} (ready : s.partState = .ready)
    (quiet : ∀ u, s.closeDue u = false ∧ s.drainDue u = false) (others : ∀ u, u ≠ st → s.openDue u = false)
    (due : s.openDue st = true) : s.phaseEnds = s.openFrame st := by
  have internal : (s.openFrame st).internal = s.internal := by
    unfold State.openFrame
    dsimp only
    split <;> rfl
  have part : (s.openFrame st).partState = s.partState := by
    unfold State.openFrame
    dsimp only
    split <;> rfl
  have opened (u : StreamId) : (s.openFrame st).openDue u = false := by
    by_cases hu : u = st
    · simp [State.openDue, stream_openFrame, hu, Stream.advanced]
    · simpa [State.openDue, stream_openFrame, hu] using others u hu
  have drained (u : StreamId) : (s.openFrame st).drainDue u = false := by
    by_cases hu : u = st
    · simp [State.drainDue, stream_openFrame, hu, Stream.advanced]
    · simpa [State.drainDue, State.streamBusy, State.outstanding, stream_openFrame, hu, internal] using (quiet u).2
  unfold State.phaseEnds
  rw [each_of_none s State.closeIfDue fun u => closeIfDue_none (quiet u).1,
    each_one s (s.openFrame st) State.openIfDue st (by rw [State.openIfDue, if_pos due])
      (fun u hu => openIfDue_none (others u hu)) (fun u => openIfDue_none (opened u)),
    each_of_none _ _ fun u => drainIfDue_none (drained u), readyIfDue_ready (part.trans ready)]

theorem stream_endDrain (s : State) (st u : StreamId) :
    (s.endDrain st).stream u = if u = st then { Stream.reset with reason := (s.stream st).reason } else s.stream u := by
  rw [State.endDrain, stream_raise, stream_setStream]
  split
  · rfl
  · rw [stream_returnBanks, if_neg ‹_›]

/-- The end of a drain, where no other event of a stream is due, makes none due (R166). -/
theorem phaseEnds_drain {s : State} {st : StreamId} (ready : s.partState = .ready)
    (quiet : ∀ u, s.closeDue u = false ∧ s.openDue u = false) (others : ∀ u, u ≠ st → s.drainDue u = false)
    (due : s.drainDue st = true) : s.phaseEnds = s.endDrain st := by
  have internal : (s.endDrain st).internal = s.internal := rfl
  have part : (s.endDrain st).partState = s.partState := by simp [State.endDrain]
  have drained (u : StreamId) : (s.endDrain st).drainDue u = false := by
    by_cases hu : u = st
    · simp [State.drainDue, stream_endDrain, hu, Stream.reset]
    · simpa [State.drainDue, State.streamBusy, State.outstanding, stream_endDrain, hu, internal] using others u hu
  unfold State.phaseEnds
  rw [each_of_none s State.closeIfDue fun u => closeIfDue_none (quiet u).1,
    each_of_none s State.openIfDue fun u => openIfDue_none (quiet u).2,
    each_one s (s.endDrain st) State.drainIfDue st (by rw [State.drainIfDue, if_pos due])
      (fun u hu => drainIfDue_none (others u hu)) (fun u => drainIfDue_none (drained u)),
    readyIfDue_ready (part.trans ready)]

/-- The end of start-up, where no event of a stream is due (R169). -/
theorem phaseEnds_ready {s : State} (quiet : ∀ u, s.closeDue u = false ∧ s.openDue u = false ∧ s.drainDue u = false)
    (due : s.readyDue = true) : s.phaseEnds = { s with partState := .ready } := by
  unfold State.phaseEnds
  rw [each_of_none s State.closeIfDue fun u => closeIfDue_none (quiet u).1,
    each_of_none s State.openIfDue fun u => openIfDue_none (quiet u).2.1,
    each_of_none s State.drainIfDue fun u => drainIfDue_none (quiet u).2.2, State.readyIfDue, if_pos due]

/-! ### The resets (O5, O6) -/

theorem clearingEnds_eq (s : State) :
    s.clearingEnds = { s with clearing := false, mapMem := if s.clearing then [] else s.mapMem } := by
  unfold State.clearingEnds
  split
  · rfl
  · rename_i ended
    rw [← Bool.eq_false_iff.mpr ended]

/-- The bits of a command of the table, shifted into a frame that has begun, perform it (R152, R153). -/
theorem shiftIn_performs {s : State} (listening : s.listening = true) {code : Byte} {c : Command}
    (listed : commandOf code = some c) (sb : Byte) (arg : BitVec 64) :
    s.shiftIn (frameBits code sb arg) = s.perform ⟨10, 0, frameBits code sb arg, none⟩ c sb arg := by
  rw [shiftIn_frameBits s code sb arg listening, State.takeCommand, listed]

/-- RESET-PART leaves nothing due: the blocks are empty and the part waits for its clearing to end (R169). -/
theorem quiet_partReset (s : State) (f : Option Frame) : ({ s.partReset with frame := f } : State).quiet = true := by
  have idle (st : StreamId) : ({ s.partReset with frame := f } : State).stream st = .reset := stream_blank _ rfl st
  refine (quiet_iff _).mpr ⟨?_, ?_, ?_, ?_, fun st => ?_, fun st => ?_, fun st => ?_, rfl⟩
  · exact fun m hm => nomatch hm
  · exact fun c hc => nomatch hc
  · exact fun e he => nomatch he
  · exact fun h hh => nomatch hh
  · simp [State.closeDue, idle, Stream.reset]
  · simp [State.openDue, idle, Stream.reset]
  · simp [State.drainDue, idle, Stream.reset]

theorem exec_resetPart {s : State} (listening : s.listening = true) (managed : s.mode = .managed)
    (ready : s.partState = .ready) (sb : Byte) (arg : BitVec 64) : exec (.resetPart sb arg) s =
      .next ({ s.partReset with frame := some ⟨10, 0, [], some [0x02]⟩ } : State).noteDeliverable.endStep := by
  have performs : s.shiftIn (frameBits 0x7E sb arg) =
      ({ s.partReset with frame := some ⟨10, 0, [], some [0x02]⟩ } : State).finish := by
    rw [shiftIn_performs listening (c := .resetPart) rfl, State.perform,
      command_ready managed ready _ _ _ (fun stream => by cases stream)]
    rfl
  exact congrArg _ (performs.trans (finish_of_quiet _ (quiet_partReset s _)))

end Sys2Proof.Machine

open Sys2Proof Sys2Proof.Machine

/-- Settles O2: every arm of `exec` answers a next state, and no update touches the queue. -/
theorem everyCommandCompletesAndKeepsTheQueue : Obligations.EveryCommandCompletesAndKeepsTheQueue := by
  refine ⟨exec_keeps_queue, fun s => ?_⟩
  cases hq : s.pending with
  | nil =>
    exact ⟨s.referencePeriod, by simp [step, hq],
      (pending_of_steps (Steps.referencePeriod (.refl s))).trans (by simp [hq])⟩
  | cons c rest =>
    obtain ⟨t, ht, queue⟩ := exec_keeps_queue c { s with pending := rest }
    exact ⟨t, by simp [step, hq, ht], by simp [queue]⟩

/-- Settles O3: the tests of what is due read one by one, and the definitions of `settle` and `finish`. -/
theorem finishTakesWhatIsDueAndDelivers : Obligations.FinishTakesWhatIsDueAndDelivers := by
  refine ⟨fun s => ?due, fun s n => settle_of_quiet n s, fun s n busy => ?rounds,
    fun s => ⟨rfl, mem_newlyDeliverable s, ?order⟩⟩
  case due =>
    simp only [quiet_iff, migrationDue_false, commitDue_false, entryDead_false, closeDue_false, openDue_false,
      drainDue_false, readyDue_false]
    constructor
    · rintro ⟨migrations, commits, entries, held, closes, opens, drains, start⟩
      exact ⟨migrations, commits, entries, held, fun st closing => ⟨closes st closing, opens st closing⟩, drains, start⟩
    · rintro ⟨migrations, commits, entries, held, phases, drains, start⟩
      exact ⟨migrations, commits, entries, held, fun st closing => (phases st closing).1,
        fun st closing => (phases st closing).2, drains, start⟩
  case rounds =>
    rw [State.settle, busy]
    rfl
  case order => exact List.filter_sublist.map _

/-- Settles O4: the completions of a round where one is due, or none, and then the ends of phases where one is due. -/
theorem oneRoundTakesWhatIsDue : Obligations.OneRoundTakesWhatIsDue := by
  intro s noMigration noCommit noneDead noneReleased rest
  have idle (migrations : noMigration) (commits : noCommit) (dead : noneDead) (released : noneReleased) :
      s.settleRound = s.phaseEnds := by
    rw [settleRound_eq, settleCommits_of_none s migrations commits dead, retryPass_of_none s released]
  refine ⟨fun m found due others => ?migration, fun c k migrations found kind due others dead => ?commit,
    fun migrations commits dead => ?dead, fun migrations commits dead => ?retries,
    fun migrations commits dead released ready st quiet others due => ?closes,
    fun migrations commits dead released ready st quiet others due => ?opens,
    fun migrations commits dead released ready st quiet others due => ?drains,
    fun migrations commits dead released quiet starting ended done => ?starts⟩
  case migration => rw [settleRound_eq, State.settleCommits, one_migration s m found due others]; rfl
  case commit =>
    rw [settleRound_eq, State.settleCommits, migrationsDue_of_none s migrations, one_commit s c k found kind due others,
      freeDead_of_none _ (dead_completeCommit s c k dead)]
    rfl
  case dead =>
    rw [settleRound_eq, State.settleCommits, migrationsDue_of_none s migrations, commitsDue_of_none s commits,
      State.freeDead, if_pos (List.any_eq_true.mpr dead)]
    rfl
  case retries => rw [settleRound_eq, settleCommits_of_none s migrations commits dead]; rfl
  case closes => rw [idle migrations commits dead released, phaseEnds_close ready quiet others due]
  case opens => rw [idle migrations commits dead released, phaseEnds_open ready quiet others due]
  case drains => rw [idle migrations commits dead released, phaseEnds_drain ready quiet others due]
  case starts =>
    rw [idle migrations commits dead released, phaseEnds_ready quiet]
    simp [State.readyDue, starting, ended, done]

/-- Settles O5: pin reset writes the reset constants; PART_READY ends clearing and tests the internal transfers. -/
theorem pinResetAndPartReady : Obligations.PinResetAndPartReady := by
  refine ⟨fun strap s => ?reset, fun s => ⟨fun starting done => ?ends, fun starting busy => ?waits, fun ready => ?noEvent⟩⟩
  case reset =>
    have stream (st : StreamId) : (s.pinReset strap).stream st = .reset := stream_blank _ rfl st
    refine ⟨s.pinReset strap, rfl, rfl, rfl, rfl, rfl, fun st => ?_, rfl, rfl, rfl, rfl, rfl, rfl, rfl, rfl, rfl, rfl, rfl,
      rfl, rfl, rfl, cause_blank _ rfl, irqAsserted_of_causes_reset rfl, rfl, rfl⟩
    rw [stream]
    exact ⟨rfl, rfl, rfl, rfl, rfl, rfl, rfl⟩
  case ends =>
    have due : s.clearingEnds.readyDue = true := by simp [clearingEnds_eq, State.readyDue, starting, done]
    rw [exec, execPartReady, if_pos starting, State.readyIfDue, if_pos due, clearingEnds_eq]
  case waits =>
    have waits : s.clearingEnds.readyDue = false := by simp [clearingEnds_eq, State.readyDue, busy]
    rw [exec, execPartReady, if_pos starting, readyIfDue_none waits, clearingEnds_eq]
  case noEvent => simp [exec, execPartReady, ready]

/-- Settles O6: the fields of `partReset`, after which nothing is due. -/
theorem resetPartKeepsOnlyWorkAlreadyTaken : Obligations.ResetPartKeepsOnlyWorkAlreadyTaken := by
  intro sb arg s listening managed ready
  exact ⟨_, exec_resetPart listening managed ready sb arg, rfl, managed, rfl, rfl, rfl, rfl, rfl, rfl, stream_blank _ rfl,
    rfl, rfl, rfl, rfl, rfl, rfl, rfl, rfl, rfl, rfl, rfl, cause_blank _ rfl, rfl, rfl, rfl, rfl, rfl, rfl, rfl⟩

end

/-! ## The management link (O13, O14, O16, O18 to O21)

A command's row is the 80 bits of its frame (`exec_eq_shiftIn`); the bits take the command of their code, which is answered
by the part-wide tests or by its own rule. What remains for each command is the value of its own effect. -/
section
namespace Sys2Proof.Machine

/-! ### Rows and bits -/

/-- The commands of the table with the stream byte and the argument of a frame, each with its code (R153). -/
def codedCommands (sb : Byte) (arg : BitVec 64) : List (Instr × Byte) :=
  [(.identify sb arg, 0x01), (.readStatus sb arg, 0x02), (.readStream sb arg, 0x03),
    (.readCause sb arg, 0x04), (.setCauseLevel sb arg, 0x05), (.setAge sb arg, 0x06), (.streamSetup sb arg, 0x10),
    (.streamAdvance sb arg, 0x11), (.streamTeardown sb arg, 0x12), (.windowSet sb arg, 0x13), (.resetPart sb arg, 0x7E)]

theorem map_fst_codedCommands (sb : Byte) (arg : BitVec 64) : (codedCommands sb arg).map Prod.fst =
    [.identify sb arg, .readStatus sb arg, .readStream sb arg, .readCause sb arg, .setCauseLevel sb arg, .setAge sb arg,
      .streamSetup sb arg, .streamAdvance sb arg, .streamTeardown sb arg, .windowSet sb arg, .resetPart sb arg] := rfl

/-- The row of a command of the table is the bits of its frame with its code (log entry 6). -/
theorem exec_eq_shiftIn {c : Instr} {code sb : Byte} {arg : BitVec 64} (h : (c, code) ∈ codedCommands sb arg) (s : State) :
    exec c s = .next (s.shiftIn (frameBits code sb arg)) := by
  simp only [codedCommands, List.mem_cons, Prod.mk.injEq, List.not_mem_nil, or_false] at h
  rcases h with ⟨rfl, rfl⟩ | ⟨rfl, rfl⟩ | ⟨rfl, rfl⟩ | ⟨rfl, rfl⟩ | ⟨rfl, rfl⟩ | ⟨rfl, rfl⟩ | ⟨rfl, rfl⟩ | ⟨rfl, rfl⟩ |
    ⟨rfl, rfl⟩ | ⟨rfl, rfl⟩ | ⟨rfl, rfl⟩ <;> rfl

/-- The row of an unknown code is the bits of its frame (R153). -/
theorem exec_unknown_eq_shiftIn {code : Byte} (h : code ∉ commandTable.map Prod.fst) (sb : Byte) (arg : BitVec 64)
    (s : State) : exec (.unknownCommand code sb arg) s = .next (s.shiftIn (frameBits code sb arg)) := by
  simp [exec, execUnknownCommand, commandOf_none h]

/-- A code of the table is not the event UNKNOWN_COMMAND (log entry 2). -/
theorem exec_unknown_of_listed {code : Byte} (h : code ∈ commandTable.map Prod.fst) (sb : Byte) (arg : BitVec 64)
    (s : State) : exec (.unknownCommand code sb arg) s = .next s := by
  have listed : (commandOf code).isSome = true := by
    obtain ⟨p, hp, rfl⟩ := List.mem_map.mp h
    revert p
    decide
  simp [exec, execUnknownCommand, Option.isSome_iff_ne_none.mp listed]

theorem getLsbD_of_bitsOf {w : Nat} (v : BitVec w) (i : Nat) (h : i < w) :
    (bitsOf w v.toNat)[i]? = some (v.getLsbD (w - 1 - i)) := bitsOf_getElem? w v.toNat i h

/-- The bits of the three parts of bytes 0 to 9, each most significant first (R152). -/
theorem getElem?_frameBits (code sb : Byte) (arg : BitVec 64) :
    (∀ i, i < 8 → (frameBits code sb arg)[i]? = some (code.getLsbD (7 - i))) ∧
    (∀ i, i < 8 → (frameBits code sb arg)[8 + i]? = some (sb.getLsbD (7 - i))) ∧
    (∀ i, i < 64 → (frameBits code sb arg)[16 + i]? = some (arg.getLsbD (63 - i))) := by
  unfold frameBits
  refine ⟨fun i hi => ?_, fun i hi => ?_, fun i hi => ?_⟩
  · rw [List.append_assoc, List.getElem?_append_left (by rw [length_bitsOf]; exact hi), getLsbD_of_bitsOf code i hi]
  · rw [List.append_assoc, List.getElem?_append_right (by rw [length_bitsOf]; omega), length_bitsOf,
      Nat.add_sub_cancel_left, List.getElem?_append_left (by rw [length_bitsOf]; exact hi), getLsbD_of_bitsOf sb i hi]
  · have front : (bitsOf 8 code.toNat ++ bitsOf 8 sb.toNat).length = 16 := by simp [length_bitsOf]
    rw [List.getElem?_append_right (by omega), front, Nat.add_sub_cancel_left, getLsbD_of_bitsOf arg i hi]

/-! ### The course of a frame (O13) -/

theorem endFrame_of_some {s : State} {f : Frame} (h : s.frame = some f) :
    s.endFrame = { s with frame := none, msdo := (List.range f.byte).map (frameByte f.response) } := by
  simp [State.endFrame, h]

/-- A frame without a response shifts out 00h (R152). -/
theorem map_frameByte_none (n : Nat) : (List.range n).map (frameByte none) = List.replicate n 0 := by
  refine List.eq_replicate_iff.mpr ⟨by simp, fun b hb => ?_⟩
  obtain ⟨i, -, rfl⟩ := List.mem_map.mp hb
  simp [frameByte]

/-! ### Answers -/

/-- The state after a command of a listening frame: its effect, with its result and data as the frame's response (R152). -/
def Effect.answered (own : Effect) : State :=
  { own.after with frame := some ⟨10, 0, [], some (own.result.code :: own.data)⟩ }

theorem command_answered {s : State} (managed : s.mode = .managed) (ready : s.partState = .ready) (bits : List Bool)
    (k : CmdClass) (sb : Byte) (hk : k = .stream → sb.toNat < 16) (own : Effect) :
    s.command ⟨10, 0, bits, none⟩ k sb own = own.answered := command_ready managed ready _ k sb hk own

theorem command_gated {s : State} {k : CmdClass} {sb : Byte} {r : CmdResult} (h : s.gate k sb = some r) (bits : List Bool)
    (own : Effect) :
    s.command ⟨10, 0, bits, none⟩ k sb own = { s with frame := some ⟨10, 0, [], some [r.code]⟩ } := by
  rw [State.command, h]
  rfl

/-! ### Reports (O16) -/

theorem map_streams {α : Type} (s : State) (f : Stream → α) :
    s.streams.toList.map f = (List.finRange 16).map fun st => f (s.stream st) :=
  List.ext_getElem (by simp) fun i _ _ => by simp [State.stream]

theorem beBytes_four (v : Nat) : beBytes 4 v = [BitVec.ofNat 8 (v / 16777216), BitVec.ofNat 8 (v / 65536),
    BitVec.ofNat 8 (v / 256), BitVec.ofNat 8 v] := by
  simp [beBytes, leBytes, Nat.div_div_eq_div_mul]

/-- Where a stream is not live, nor has it a frame number or slot to report (R156). -/
theorem ite_live (x : Stream) (n : Nat) :
    (if x.live = true then n else 0) = if x.state = .free ∨ x.state = .loading then 0 else n := by
  cases hs : x.state <;> simp [Stream.live, hs]

/-! ### Settings (O18) -/

theorem argByte_zero (arg : BitVec 64) : argByte arg 0 = arg.toNat % 256 := by simp [argByte]

theorem argByte_one (arg : BitVec 64) : argByte arg 1 = arg.toNat / 256 % 256 := by simp [argByte]

theorem setCauseLevelEffect_done {s : State} {arg : BitVec 64} {i : Fin 12} {l : Fin 4}
    (hi : argByte arg 0 = i.val + 1) (hl : argByte arg 1 = l.val) :
    s.setCauseLevelEffect arg = ⟨.done, [], s.setCause i { s.cause i with level := l }⟩ := by
  have inRange : (1 ≤ argByte arg 0 ∧ argByte arg 0 ≤ 12) ∧ argByte arg 1 < 4 := by omega
  have place : (⟨argByte arg 0 - 1, by omega⟩ : Fin 12) = i := Fin.ext (by simp [hi])
  have level : (⟨argByte arg 1, inRange.2⟩ : Fin 4) = l := Fin.ext hl
  rw [State.setCauseLevelEffect, dif_pos inRange]
  dsimp only
  rw [place, level]

theorem setCauseLevelEffect_refused {s : State} {arg : BitVec 64}
    (h : argByte arg 0 = 0 ∨ 12 < argByte arg 0 ∨ 3 < argByte arg 1) : s.setCauseLevelEffect arg = ⟨.refused, [], s⟩ := by
  rw [State.setCauseLevelEffect, dif_neg (by omega)]

theorem dividerOf_eq_none {n : Nat} (h : 4 ≤ n) : dividerOf n = none := by
  unfold dividerOf
  split <;> first | omega | rfl

/-! ### Commands by the stream's state (O19, O20) -/

section
variable {s : State} {st : StreamId}

theorem streamSetupEffect_of_free {addr : Nat} (h : (s.stream st).state = .free) : s.streamSetupEffect st addr =
    if addr % 64 = 0 ∧ addr + 127 < Config.addressEnd then ⟨.accepted, [], s.beginSetup st addr⟩ else ⟨.refused, [], s⟩ := by
  simp [State.streamSetupEffect, h]

theorem streamSetupEffect_busy {addr : Nat} (h : (s.stream st).state = .loading ∨ (s.stream st).state = .draining) :
    s.streamSetupEffect st addr = ⟨.busy, [], s⟩ := by
  rcases h with h | h <;> simp [State.streamSetupEffect, h]

theorem streamSetupEffect_refused {addr : Nat} (h : (s.stream st).state = .opened ∨ (s.stream st).state = .closing ∨
    (s.stream st).state = .faulted) : s.streamSetupEffect st addr = ⟨.refused, [], s⟩ := by
  rcases h with h | h | h <;> simp [State.streamSetupEffect, h]

theorem running_iff (x : Stream) : x.running = true ↔ x.state = .opened ∨ x.state = .closing := by
  cases hs : x.state <;> simp [Stream.running, hs]

theorem windowSetEffect_done {addr : Nat} (h : (s.stream st).state = .opened ∨ (s.stream st).state = .closing)
    (aligned : addr % 64 = 0) : s.windowSetEffect st addr =
      ⟨.done, [], s.setStream st { s.stream st with pendingWin := pendingOf addr }⟩ :=
  if_pos ⟨(running_iff _).mpr h, aligned⟩

theorem windowSetEffect_refused {addr : Nat} (h : (s.stream st).running = false ∨ addr % 64 ≠ 0) :
    s.windowSetEffect st addr = ⟨.refused, [], s⟩ :=
  if_neg fun both => by rcases h with h | h <;> simp_all

theorem streamAdvanceEffect_accepted (h : (s.stream st).state = .opened) (below : (s.stream st).frame < Config.lastFrame) :
    s.streamAdvanceEffect st = ⟨.accepted, [], s.beginClose st⟩ := by
  simp [State.streamAdvanceEffect, h, below]

/-- After the last frame number there is none to advance to (R115). -/
theorem streamAdvanceEffect_last (h : (s.stream st).state = .opened) (last : Config.lastFrame ≤ (s.stream st).frame) :
    s.streamAdvanceEffect st = ⟨.refused, [], s⟩ := by
  simp [State.streamAdvanceEffect, h, Nat.not_lt.mpr last]

theorem streamAdvanceEffect_busy (h : (s.stream st).state = .closing ∨ (s.stream st).state = .loading) :
    s.streamAdvanceEffect st = ⟨.busy, [], s⟩ := by
  rcases h with h | h <;> simp [State.streamAdvanceEffect, h]

theorem streamAdvanceEffect_refused (h : (s.stream st).state = .faulted ∨ (s.stream st).state = .free ∨
    (s.stream st).state = .draining) : s.streamAdvanceEffect st = ⟨.refused, [], s⟩ := by
  rcases h with h | h | h <;> simp [State.streamAdvanceEffect, h]

theorem streamTeardownEffect_accepted (h : (s.stream st).state = .opened ∨ (s.stream st).state = .closing ∨
    (s.stream st).state = .faulted) : s.streamTeardownEffect st = ⟨.accepted, [], s.enterDraining st⟩ := by
  rcases h with h | h | h <;> simp [State.streamTeardownEffect, h]

theorem streamTeardownEffect_busy (h : (s.stream st).state = .loading ∨ (s.stream st).state = .draining) :
    s.streamTeardownEffect st = ⟨.busy, [], s⟩ := by
  rcases h with h | h <;> simp [State.streamTeardownEffect, h]

theorem streamTeardownEffect_refused (h : (s.stream st).state = .free) :
    s.streamTeardownEffect st = ⟨.refused, [], s⟩ := by
  simp [State.streamTeardownEffect, h]

end

/-! ### A command that passes the part-wide tests -/

section
variable {s : State} (listening : s.listening = true) (managed : s.mode = .managed) (ready : s.partState = .ready)
include listening managed ready

theorem exec_setCauseLevel (sb : Byte) (arg : BitVec 64) :
    exec (.setCauseLevel sb arg) s = .next (s.setCauseLevelEffect arg).answered := by
  refine congrArg _ ((shiftIn_performs listening (c := .setCauseLevel) rfl sb arg).trans ?_)
  exact command_answered managed ready _ .part sb (fun h => by cases h) _

theorem exec_setAge (sb : Byte) (arg : BitVec 64) :
    exec (.setAge sb arg) s = .next (s.setAgeEffect arg).answered.finish := by
  refine congrArg _ ((shiftIn_performs listening (c := .setAge) rfl sb arg).trans (congrArg State.finish ?_))
  exact command_answered managed ready _ .part sb (fun h => by cases h) _

variable {sb : Byte} {st : StreamId} (named : sb.toNat = st.val)
include named

theorem exec_readStream (arg : BitVec 64) : exec (.readStream sb arg) s = .next (s.readStreamEffect st).answered := by
  refine congrArg _ ((shiftIn_performs listening (c := .readStream) rfl sb arg).trans ?_)
  rw [State.perform, streamOf_eq named]
  exact command_answered managed ready _ .stream sb (fun _ => named ▸ st.isLt) _

theorem exec_streamSetup (arg : BitVec 64) :
    exec (.streamSetup sb arg) s = .next (s.streamSetupEffect st (argAddr arg)).answered := by
  refine congrArg _ ((shiftIn_performs listening (c := .streamSetup) rfl sb arg).trans ?_)
  rw [State.perform, streamOf_eq named]
  exact command_answered managed ready _ .stream sb (fun _ => named ▸ st.isLt) _

theorem exec_windowSet (arg : BitVec 64) :
    exec (.windowSet sb arg) s = .next (s.windowSetEffect st (argAddr arg)).answered := by
  refine congrArg _ ((shiftIn_performs listening (c := .windowSet) rfl sb arg).trans ?_)
  rw [State.perform, streamOf_eq named]
  exact command_answered managed ready _ .stream sb (fun _ => named ▸ st.isLt) _

theorem exec_streamAdvance (arg : BitVec 64) :
    exec (.streamAdvance sb arg) s = .next (s.streamAdvanceEffect st).answered.finish := by
  refine congrArg _ ((shiftIn_performs listening (c := .streamAdvance) rfl sb arg).trans ?_)
  rw [State.perform, streamOf_eq named]
  exact congrArg State.finish (command_answered managed ready _ .stream sb (fun _ => named ▸ st.isLt) _)

theorem exec_streamTeardown (arg : BitVec 64) :
    exec (.streamTeardown sb arg) s = .next (s.streamTeardownEffect st).answered.finish := by
  refine congrArg _ ((shiftIn_performs listening (c := .streamTeardown) rfl sb arg).trans ?_)
  rw [State.perform, streamOf_eq named]
  exact congrArg State.finish (command_answered managed ready _ .stream sb (fun _ => named ▸ st.isLt) _)

end

/-! ### The part-wide answers (O21) -/

section
variable {s : State} (listening : s.listening = true) {sb : Byte} {r : CmdResult} (arg : BitVec 64)
include listening

/-- The part commands but for the two that are always answered, where a part-wide test answers them (R153). -/
theorem exec_part_gated (h : s.gate .part sb = some r) :
    let answered : State := { s with frame := some ⟨10, 0, [], some [r.code]⟩ }
    exec (.readCause sb arg) s = .next answered ∧ exec (.setCauseLevel sb arg) s = .next answered ∧
      exec (.setAge sb arg) s = .next answered.finish ∧ exec (.resetPart sb arg) s = .next answered.finish := by
  refine ⟨congrArg Host.Outcome.next ?_, congrArg Host.Outcome.next ?_, congrArg Host.Outcome.next ?_,
    congrArg Host.Outcome.next ?_⟩
  · exact (shiftIn_performs listening (c := .readCause) rfl sb arg).trans (command_gated h _ _)
  · exact (shiftIn_performs listening (c := .setCauseLevel) rfl sb arg).trans (command_gated h _ _)
  · exact (shiftIn_performs listening (c := .setAge) rfl sb arg).trans (congrArg State.finish (command_gated h _ _))
  · exact (shiftIn_performs listening (c := .resetPart) rfl sb arg).trans (congrArg State.finish (command_gated h _ _))

/-- The stream commands, where a part-wide test answers them (R153). -/
theorem exec_stream_gated (h : s.gate .stream sb = some r) :
    let answered : State := { s with frame := some ⟨10, 0, [], some [r.code]⟩ }
    exec (.readStream sb arg) s = .next answered ∧ exec (.streamSetup sb arg) s = .next answered ∧
      exec (.windowSet sb arg) s = .next answered ∧ exec (.streamAdvance sb arg) s = .next answered.finish ∧
      exec (.streamTeardown sb arg) s = .next answered.finish := by
  refine ⟨congrArg Host.Outcome.next ?_, congrArg Host.Outcome.next ?_, congrArg Host.Outcome.next ?_,
    congrArg Host.Outcome.next ?_, congrArg Host.Outcome.next ?_⟩
  · exact (shiftIn_performs listening (c := .readStream) rfl sb arg).trans (command_gated h _ _)
  · exact (shiftIn_performs listening (c := .streamSetup) rfl sb arg).trans (command_gated h _ _)
  · exact (shiftIn_performs listening (c := .windowSet) rfl sb arg).trans (command_gated h _ _)
  · exact (shiftIn_performs listening (c := .streamAdvance) rfl sb arg).trans (congrArg State.finish (command_gated h _ _))
  · exact (shiftIn_performs listening (c := .streamTeardown) rfl sb arg).trans (congrArg State.finish (command_gated h _ _))

end

/-- Ten more bytes move a frame that has taken its command on by ten bytes (R152). -/
theorem shiftIn_frameBits_taken {s : State} {f : Frame} {r : List Byte} (h : s.frame = some f) (taken : f.response = some r)
    (bit : f.bit < 8) (byte : 10 ≤ f.byte) (code sb : Byte) (arg : BitVec 64) :
    s.shiftIn (frameBits code sb arg) = { s with frame := some { f with byte := f.byte + 10 } } := by
  have bytes : (f.place + 80) / 8 = f.byte + 10 := by unfold Frame.place; omega
  have bits : (f.place + 80) % 8 = f.bit := by unfold Frame.place; omega
  rw [shiftIn_taken _ s f r h taken bit byte, length_frameBits, bytes, bits, ← taken]

end Sys2Proof.Machine

open Sys2Proof Sys2Proof.Machine

/-- Settles O13: a frame's bits are followed by its position (`shiftIn_early`, `shiftIn_taken`), and its end reads them out. -/
theorem framesShiftOutTheirResponse : Obligations.FramesShiftOutTheirResponse := by
  intro s bits
  have runs : exec (.managementFrameEnd bits) s = .next (s.shiftIn bits).endFrame := rfl
  refine ⟨fun idle => ?begins, fun busy => ?goesOn, fun idle => ?noFrame, fun f hf hr bit early => ?early,
    fun f r hf hr bit byte =>
      ⟨(List.range ((f.place + bits.length) / 8)).map (frameByte (some r)), ?taken, ?length, ?bytes⟩⟩
  case begins => simp [exec, execManagementFrameStart, State.beginFrame, idle, Frame.start]
  case goesOn =>
    obtain ⟨f, hf⟩ := Option.ne_none_iff_exists'.mp busy
    simp [exec, execManagementFrameStart, State.beginFrame, hf]
  case noFrame => rw [runs, shiftIn_none bits s idle, State.endFrame, idle]
  case early =>
    rw [runs, shiftIn_early bits s f hf hr bit early, endFrame_of_some rfl, map_frameByte_none]
    rfl
  case taken => rw [runs, shiftIn_taken bits s f r hf hr bit byte, endFrame_of_some rfl]
  case length => simp [Frame.place]
  case bytes =>
    intro i hi
    rw [List.length_map, List.length_range] at hi
    simp [List.getElem?_map, List.getElem?_range hi, frameByte]

/-- Settles O14: the bits of each part read back by `bitsOf`, and the bits of a frame's end split where a command's end. -/
theorem frameBitsTakeTheirCommand : Obligations.FrameBitsTakeTheirCommand := by
  refine ⟨fun code sb arg => ⟨length_frameBits code sb arg, getElem?_frameBits code sb arg⟩,
    fun c code sb arg more s t _ row ht => ?_, fun code sb arg s listed => exec_unknown_of_listed listed sb arg s⟩
  have shifted : exec c s = .next (s.shiftIn (frameBits code sb arg)) := by
    rcases row with listed | ⟨rfl, unlisted⟩
    · exact exec_eq_shiftIn listed s
    · exact exec_unknown_eq_shiftIn unlisted sb arg s
  obtain rfl : s.shiftIn (frameBits code sb arg) = t := by simpa using shifted.symm.trans ht
  simp only [exec, execManagementFrameEnd, shiftIn_append]

/-- Settles O16: the data of the two reports, field by field. -/
theorem readStatusAndReadStreamReport : Obligations.ReadStatusAndReadStreamReport := by
  refine ⟨fun sb arg s listening => ?status, fun sb arg s st listening managed ready named => ?stream⟩
  case status =>
    have runs : exec (.readStatus sb arg) s = .next s.readStatusEffect.answered :=
      congrArg Host.Outcome.next
        ((shiftIn_performs listening (c := .readStatus) rfl sb arg).trans (command_always s _ sb s.readStatusEffect))
    rw [runs, Effect.answered, State.readStatusEffect]
    simp [modeCode_eq_ite, partStateCode_eq_ite, map_streams, State.countCollecting, State.countCommitting, beBytes_one,
      beBytes_two, CmdResult.code]
  case stream =>
    rw [exec_readStream listening managed ready named, Effect.answered, State.readStreamEffect]
    simp [beBytes_four, beBytes_one, ite_live, State.heldCount, State.countCollecting, State.countCommitting,
      CmdResult.code]

/-- Settles O18: the effects of the two commands by the bytes of the argument. -/
theorem setCauseLevelAndSetAge : Obligations.SetCauseLevelAndSetAge := by
  refine ⟨fun sb arg s listening managed ready => ?level, fun sb arg s listening managed ready => ?age⟩
  case level =>
    simp only [exec_setCauseLevel listening managed ready, ← argByte_zero, ← argByte_one]
    refine ⟨fun i l hi hl => ?_, fun outside => ?_⟩
    · rw [setCauseLevelEffect_done hi hl]
      rfl
    · rw [setCauseLevelEffect_refused outside]
      rfl
  case age =>
    simp only [exec_setAge listening managed ready, ← argByte_zero, ← argByte_one, State.setAgeEffect]
    refine ⟨fun code d listed hcode => ?_, fun large => ?_⟩
    · have divider : dividerOf (argByte arg 0) = some d := by
        rw [hcode]
        simp only [List.mem_cons, Prod.mk.injEq, List.not_mem_nil, or_false] at listed
        rcases listed with ⟨rfl, rfl⟩ | ⟨rfl, rfl⟩ | ⟨rfl, rfl⟩ | ⟨rfl, rfl⟩ <;> rfl
      rw [divider]
      rfl
    · rw [dividerOf_eq_none large]
      rfl

/-- Settles O19: the effects of the two commands by the stream's state and the address. -/
theorem streamSetupAndWindowSetByState : Obligations.StreamSetupAndWindowSetByState := by
  refine ⟨fun sb arg s st listening managed ready named => ?setup, fun sb arg s st listening managed ready named => ?window⟩
  case setup =>
    simp only [exec_streamSetup listening managed ready named]
    refine ⟨fun free aligned below => ?_, fun free bad => ?_, fun busy => ?_, fun taken => ?_⟩
    · rw [streamSetupEffect_of_free free, if_pos ⟨aligned, below⟩]
      rfl
    · rw [streamSetupEffect_of_free free, if_neg fun both => bad.elim (fun h => h both.1) (Nat.not_le.mpr both.2)]
      rfl
    · rw [streamSetupEffect_busy busy]
      rfl
    · rw [streamSetupEffect_refused taken]
      rfl
  case window =>
    simp only [exec_windowSet listening managed ready named]
    refine ⟨fun running aligned => ?_, fun running bad => ?_, fun notOpen notClosing => ?_⟩
    · rw [windowSetEffect_done (addr := argAddr arg) running aligned]
      rfl
    · rw [windowSetEffect_refused (addr := argAddr arg) (.inr bad)]
      rfl
    · rw [windowSetEffect_refused (.inl (Bool.eq_false_iff.mpr fun h => ((running_iff _).mp h).elim notOpen notClosing))]
      rfl

/-- Settles O20: the effects of the two commands by the stream's state and frame number. -/
theorem streamAdvanceAndTeardownByState : Obligations.StreamAdvanceAndTeardownByState := by
  refine ⟨fun sb arg s st listening managed ready named => ?advance,
    fun sb arg s st listening managed ready named => ?teardown⟩
  case advance =>
    simp only [exec_streamAdvance listening managed ready named]
    refine ⟨fun opened below => ?_, fun opened last => ?_, fun busy => ?_, fun refused => ?_⟩
    · rw [streamAdvanceEffect_accepted opened below]
      rfl
    · rw [streamAdvanceEffect_last opened last]
      rfl
    · rw [streamAdvanceEffect_busy busy]
      rfl
    · rw [streamAdvanceEffect_refused refused]
      rfl
  case teardown =>
    simp only [exec_streamTeardown listening managed ready named]
    refine ⟨fun accepted => ?_, fun busy => ?_, fun free => ?_⟩
    · rw [streamTeardownEffect_accepted accepted]
      rfl
    · rw [streamTeardownEffect_busy busy]
      rfl
    · rw [streamTeardownEffect_refused free]
      rfl

/-- Settles O21: the value of the part-wide tests in each case, and a frame that takes no command. -/
theorem partWideAnswersComeFirst : Obligations.PartWideAnswersComeFirst := by
  refine ⟨fun sb arg s listening => ⟨fun transparent => ?transparent, fun managed starting => ?starting,
    fun managed ready large => ?noStream⟩, fun code sb arg s unlisted listening => ?unknown,
    fun code sb arg s c row => ?taken⟩
  case transparent =>
    exact ⟨exec_part_gated listening (r := .refused) arg (by simp [State.gate, transparent]),
      exec_stream_gated listening (r := .refused) arg (by simp [State.gate, transparent])⟩
  case starting =>
    exact ⟨exec_part_gated listening (r := .busy) arg (by simp [State.gate, managed, starting]),
      exec_stream_gated listening (r := .busy) arg (by simp [State.gate, managed, starting])⟩
  case noStream => exact exec_stream_gated listening (r := .refused) arg (by simp [State.gate, managed, ready, large])
  case unknown =>
    rw [exec_unknown_eq_shiftIn unlisted, shiftIn_frameBits s code sb arg listening, State.takeCommand,
      commandOf_none unlisted]
    rfl
  case taken =>
    obtain ⟨code', shifted⟩ : ∃ code', exec c s = .next (s.shiftIn (frameBits code' sb arg)) := by
      rcases row with listed | ⟨rfl, unlisted⟩
      · rw [← map_fst_codedCommands] at listed
        obtain ⟨p, hp, rfl⟩ := List.mem_map.mp listed
        exact ⟨p.2, exec_eq_shiftIn hp s⟩
      · exact ⟨code, exec_unknown_eq_shiftIn unlisted sb arg s⟩
    refine ⟨fun f r hf hr bit byte => ?_, fun idle => ?_⟩
    · rw [shifted, shiftIn_frameBits_taken hf hr bit byte]
    · rw [shifted, shiftIn_none _ s idle]

end

/-! ## The upstream port: decode, request order and delivery (O25 to O27, O31)

A new request runs its course (`exec_upstreamRequest`, `course_new`); what it is decoded to is said here by the aperture that
it hits and the guard ranges that it meets. -/
section
namespace Sys2Proof.Machine

/-! ### Apertures and guard ranges -/

theorem live_iff (x : Stream) : x.live = true ↔
    x.state = .opened ∨ x.state = .closing ∨ x.state = .faulted ∨ x.state = .draining := by
  cases hs : x.state <;> simp [Stream.live, hs]

/-- The request's address lies in the claimed aperture of a stream (R1, R2). -/
def State.Hits (s : State) (r : Request) (st : StreamId) : Prop :=
  (s.stream st).live = true ∧ (s.geometry st).aperture ≤ r.addr.toNat ∧ r.addr.toNat < (s.geometry st).apertureEnd

theorem hits_iff (s : State) (r : Request) (st : StreamId) : s.Hits r st ↔
    ((s.stream st).live && decide ((s.geometry st).aperture ≤ r.base) &&
      decide (r.base < (s.geometry st).apertureEnd)) = true := by
  rw [Bool.and_eq_true, Bool.and_eq_true, decide_eq_true_iff, decide_eq_true_iff, and_assoc]
  rfl

theorem hits_of_apertureHit {s : State} {r : Request} {st : StreamId} (h : s.apertureHit r = some st) : s.Hits r st := by
  rw [State.apertureHit] at h
  have found := List.find?_some h
  exact (hits_iff s r st).mpr found

theorem apertureHit_eq_none_iff (s : State) (r : Request) : s.apertureHit r = none ↔ ∀ st, ¬s.Hits r st := by
  rw [State.apertureHit, List.find?_eq_none]
  simp only [hits_iff, List.mem_finRange, forall_const]

/-- The only aperture that an address lies in is the one it hits (R2). -/
theorem apertureHit_eq_some {s : State} {r : Request} {st : StreamId} (h : s.Hits r st) (only : ∀ u, s.Hits r u → u = st) :
    s.apertureHit r = some st := by
  cases hfind : s.apertureHit r with
  | none => exact absurd h ((apertureHit_eq_none_iff s r).mp hfind st)
  | some u => rw [only u (hits_of_apertureHit hfind)]

/-- The guard ranges of a stream that a request meets (R1, R13). -/
theorem mem_guardHits (s : State) (r : Request) (st : StreamId) : st ∈ s.guardHits r ↔ (s.stream st).live = true ∧
    ∃ run ∈ (s.geometry st).guardRuns, run.1 < r.addr.toNat + 32 * r.beats ∧ r.addr.toNat < run.2 := by
  rw [State.guardHits, List.mem_filter, Bool.and_eq_true, List.any_eq_true]
  simp only [List.mem_finRange, true_and, runsMeet, Bool.and_eq_true, decide_eq_true_iff]
  rfl

/-- Two runs that are not empty share a byte where each begins below the other's end. -/
theorem exists_shared_byte {lo hi lo' hi' : Nat} (h : lo < hi) (h' : lo' < hi') :
    (∃ a, lo ≤ a ∧ a < hi ∧ lo' ≤ a ∧ a < hi') ↔ lo' < hi ∧ lo < hi' := by
  constructor
  · rintro ⟨a, h1, h2, h3, h4⟩
    omega
  · rintro ⟨h1, h2⟩
    exact ⟨max lo lo', by omega⟩

/-! ### Decode -/

section
variable {s : State} {r : Request}

theorem decode_transparent (h : s.mode = .transparent) : s.decodeRequest r = .passThrough := by
  simp [State.decodeRequest, h]

theorem decode_outside (managed : s.mode = .managed) (misses : s.apertureHit r = none)
    (clear : r.kind = .write → s.guardHits r = []) : s.decodeRequest r = .passThrough := by
  cases hk : r.kind with
  | read => simp [State.decodeRequest, managed, misses, hk]
  | write => simp [State.decodeRequest, managed, misses, hk, clear hk]

theorem decode_guarded (managed : s.mode = .managed) (misses : s.apertureHit r = none) (write : r.kind = .write)
    (meets : s.guardHits r ≠ []) :
    s.decodeRequest r = .answered ⟨.declined, []⟩ ((s.guardHits r).map fun st => (.guardWrite, st)) := by
  obtain ⟨st, sts, hits⟩ := List.exists_cons_of_ne_nil meets
  simp [State.decodeRequest, managed, misses, write, hits]

theorem decodeHit_faulted {x : Stream} {st : StreamId} (h : x.state = .faulted) :
    decodeHit x st r = .answered (faultAnswer x.geometry.vacant r) [] := by
  rw [decodeHit, h]

theorem decodeHit_draining {x : Stream} {st : StreamId} (h : x.state = .draining) :
    decodeHit x st r = .answered ⟨.declined, responseBytes r.kind r.beats x.geometry.vacant⟩ [] := by
  rw [decodeHit, h]

theorem faultAnswer_read {v : Byte} (h : r.kind = .read) : faultAnswer v r = ⟨.dataError, List.replicate (32 * r.beats) v⟩ := by
  simp [faultAnswer, h, responseBytes]

theorem faultAnswer_write {v : Byte} (h : r.kind = .write) : faultAnswer v r = ⟨.declined, []⟩ := by
  simp [faultAnswer, h]

/-- A write through a reference view (R12). -/
theorem decodeRunning_reference {x : Stream} {st : StreamId} (write : r.kind = .write)
    (view : (r.addr.toNat - x.geometry.aperture) / x.geometry.viewStride ≠ 0) :
    decodeRunning x st r = .answered ⟨.declined, []⟩ [(.referenceWrite, st)] := by
  simp only [decodeRunning, write]
  exact if_pos view

/-- A view-0 write with no enabled byte (R11). -/
theorem decodeRunning_disabled {x : Stream} {st : StreamId} (write : r.kind = .write)
    (view : (r.addr.toNat - x.geometry.aperture) / x.geometry.viewStride = 0) (disabled : ∀ e ∈ r.enables, e = false) :
    decodeRunning x st r = .answered ⟨.okay, []⟩ [] := by
  have none_enabled : (!r.enables.any id) = true := by simpa using disabled
  simp only [decodeRunning, write]
  exact (if_neg (not_not_intro view)).trans (if_pos none_enabled)

/-- A view-0 write with an enabled byte, but none in a plane (R11). -/
theorem decodeRunning_vacant {x : Stream} {st : StreamId} (write : r.kind = .write)
    (view : (r.addr.toNat - x.geometry.aperture) / x.geometry.viewStride = 0) (enabled : ∃ e ∈ r.enables, e = true)
    (vacant : ∀ p ∈ x.geometry.pieces ((r.addr.toNat - x.geometry.aperture) % x.geometry.viewStride) (32 * r.beats),
      p.tile.isSome = true → p.live r = false) :
    decodeRunning x st r = .answered ⟨.declined, []⟩ [(.vacantWrite, st)] := by
  have some_enabled : ¬(!r.enables.any id) = true := by simpa using enabled
  have none_live : (!((x.geometry.pieces ((r.base - x.geometry.aperture) % x.geometry.viewStride) (32 * r.beats)).filter
      fun p => p.tile.isSome).any (Piece.live r)) = true := by
    rw [Bool.not_eq_true', any_false]
    intro p hp
    obtain ⟨hp, inPlane⟩ := List.mem_filter.mp hp
    exact vacant p hp inPlane
  simp only [decodeRunning, write]
  exact (if_neg (not_not_intro view)).trans ((if_neg some_enabled).trans (if_pos none_live))

end

theorem raiseAll_map (s : State) (c : Cause) (sts : List StreamId) :
    s.raiseAll (sts.map fun st => (c, st)) = sts.foldl (fun t st => t.raise c st) s := by
  rw [State.raiseAll, List.foldl_map]

/-! ### The course of a new request -/

section
variable {s : State} {r : Request} (ids : s.IdsOk) (room : s.holdQ.length < 16) (shape : r.shapeOk = true)

include ids

/-- A new request that is held where it stands, at the back of the queue, is not in the tag order's answers (R137). -/
theorem hold_new (why : HoldReason) (st : Option StreamId) (tiles : List (Nat × Nat)) :
    (s.joinTagOrder r).hold ⟨s.nextReq, r, why, st, tiles, false⟩ = { s with
      nextReq := s.nextReq + 1
      tagOrder := s.tagOrder ++ [⟨s.nextReq, r.tag, r.kind, r.beats, none⟩]
      holdQ := s.holdQ ++ [⟨s.nextReq, r, why, st, tiles, false⟩] } :=
  hold_absent (s.joinTagOrder r) _ (fresh_held ids)

/-- A new request is not in the hold queue, so that nothing is swept when it goes on. -/
theorem leave_new : (s.joinTagOrder r).leave s.nextReq = s.joinTagOrder r :=
  leave_absent (s.joinTagOrder r) _ fun x hx => fresh_held ids x hx

/-- A new request that overlaps a held one (R136, R139). -/
theorem orderedServe_overlapped {st : Option StreamId} {tiles : List (Nat × Nat)} (t : State)
    (overlapped : ∃ h ∈ s.holdQ, h.overlaps r.block st tiles = true) :
    (s.joinTagOrder r).orderedServe s.nextReq r st tiles t = { s with
      nextReq := s.nextReq + 1
      tagOrder := s.tagOrder ++ [⟨s.nextReq, r.tag, r.kind, r.beats, none⟩]
      holdQ := s.holdQ ++ [⟨s.nextReq, r, .overlap, st, tiles, false⟩] } := by
  have ahead : (s.joinTagOrder r).aheadOf s.nextReq = s.holdQ := aheadOf_absent (s.joinTagOrder r) _ (fresh_held ids)
  rw [State.orderedServe, ahead, if_pos (List.any_eq_true.mpr overlapped), hold_new ids]

include room shape

/-- A new request that is answered at decode (R136). -/
theorem exec_answeredAtDecode (tags : ∀ h ∈ s.holdQ, h.req.tag ≠ r.tag) {a : Answer} {cs : List (Cause × StreamId)}
    (decoded : s.decodeRequest r = .answered a cs) : exec (.upstreamRequest r) s = .next (State.finish { s.raiseAll cs with
      nextReq := s.nextReq + 1
      tagOrder := s.tagOrder ++ [⟨s.nextReq, r.tag, r.kind, r.beats, some a⟩] }) := by
  rw [exec_upstreamRequest r s room shape, course_answered r s ids tags a cs decoded]

/-- A new request whose tag a held request has (R136, R137). -/
theorem exec_tagOrder (same : ∃ h ∈ s.holdQ, h.req.tag = r.tag) : exec (.upstreamRequest r) s = .next (State.finish { s with
    nextReq := s.nextReq + 1
    tagOrder := s.tagOrder ++ [⟨s.nextReq, r.tag, r.kind, r.beats, none⟩]
    holdQ := s.holdQ ++ [⟨s.nextReq, r, .tagOrder, none, [], false⟩] }) := by
  have ahead : (s.joinTagOrder r).aheadOf s.nextReq = s.holdQ := aheadOf_absent (s.joinTagOrder r) _ (fresh_held ids)
  have footprint : (s.joinTagOrder r).lastFootprint s.nextReq = (none, []) := by
    have absent : (s.joinTagOrder r).holdQ.find? (fun h => h.id == s.nextReq) = none :=
      List.find?_eq_none.mpr fun h hh => by simpa using fresh_held ids h hh
    rw [State.lastFootprint, absent]
  rw [exec_upstreamRequest r s room shape, State.course, ahead, if_pos (by simpa using same), footprint]
  dsimp only
  rw [hold_new ids]

/-- A new request that is handed to the pass-through class (R16). -/
theorem exec_passThrough (tags : ∀ h ∈ s.holdQ, h.req.tag ≠ r.tag) (decoded : s.decodeRequest r = .passThrough)
    (apart : ∀ h ∈ s.holdQ, h.overlaps r.block none [] = false) : exec (.upstreamRequest r) s = .next (State.finish { s with
      nextReq := s.nextReq + 1
      tagOrder := s.tagOrder ++ [⟨s.nextReq, r.tag, r.kind, r.beats, none⟩]
      passClass := s.passClass ++
        [⟨s.nextXfer, s.stepNum, .passThrough s.nextReq, Config.freeTag s.nextXfer, ⟨r.kind, r.addr, r.beats, r.data,
          r.enables⟩, false, false⟩]
      nextXfer := s.nextXfer + 1 }) := by
  rw [exec_upstreamRequest r s room shape, course_new r s ids tags, decoded]
  dsimp only
  rw [orderedServe_new r s _ ids none [] apart, State.servePass, leave_new ids]
  rfl

end

/-! ### The order tests -/

theorem closingHeld_iff (h : Held) : h.closingHeld = false ↔ ∀ st, h.reason = .closing st → h.released = true := by
  cases hr : h.reason <;> simp [Held.closingHeld, hr]

/-- When a request overlaps a held one (R139). -/
theorem overlaps_iff (h : Held) (block : Nat) (stream : Option StreamId) (tiles : List (Nat × Nat)) :
    h.overlaps block stream tiles = true ↔
      (∀ st, h.reason = .closing st → h.released = true) ∧
      (h.req.addr.toNat / 256 = block ∨ (stream ≠ none ∧ h.stream = stream ∧ ∃ t ∈ tiles, t ∈ h.tiles)) := by
  rw [Held.overlaps, Bool.and_eq_true, Bool.not_eq_true', closingHeld_iff]
  simp [Request.block, Request.base, Option.isSome_iff_ne_none, and_assoc]

theorem overlaps_none_eq_false {h : Held} {block : Nat}
    (clear : h.closingHeld = true ∨ h.req.addr.toNat / 256 ≠ block) : h.overlaps block none [] = false := by
  rcases clear with closing | apart
  · simp [Held.overlaps, closing]
  · simp [Held.overlaps, Request.block, Request.base, apart]

theorem mem_pieceTiles (slot : Nat) (ps : List Piece) (t : Nat × Nat) :
    t ∈ pieceTiles slot ps ↔ ∃ p ∈ ps, ∃ u, p.tile = some u ∧ t = (slot, u.pos) := by
  simp only [pieceTiles, List.mem_filterMap, Option.map_eq_some_iff, eq_comm (b := t)]

theorem orderClear_iff (ahead : List Held) (h : Held) : h.orderClear ahead = true ↔
    (h.reason = .tagOrder ∧ ∀ a ∈ ahead, a.req.tag ≠ h.req.tag) ∨
    (h.reason = .overlap ∧ ∀ a ∈ ahead, a.overlaps (h.req.addr.toNat / 256) h.stream h.tiles = false) := by
  cases hr : h.reason <;> simp [Held.orderClear, hr, Request.block, Request.base]

end Sys2Proof.Machine

open Sys2Proof Sys2Proof.Machine

/-- Settles O25: outside every aperture and guard range, and in TRANSPARENT mode, a request decodes as a pass-through. -/
theorem passThroughIsHandedOnUnchanged : Obligations.PassThroughIsHandedOnUnchanged := by
  refine ⟨fun r s ids room shape tags apart outside => ?handed, fun r s full => ?full⟩
  case handed =>
    refine exec_passThrough ids room shape tags ?_ fun h hh => overlaps_none_eq_false (apart h hh)
    cases hm : s.mode with
    | transparent => exact decode_transparent hm
    | managed =>
      obtain ⟨noAperture, noGuard⟩ := outside.resolve_left (by simp [hm])
      refine decode_outside hm ((apertureHit_eq_none_iff s r).mpr fun st hits => noAperture st hits.1 hits.2) fun write => ?_
      refine List.eq_nil_iff_forall_not_mem.mpr fun st hst => ?_
      obtain ⟨live, run, hrun, meets⟩ := (mem_guardHits s r st).mp hst
      exact noGuard write st live run hrun meets
  case full =>
    have taken : s.takeRequest r = s := if_neg (Nat.not_lt.mpr full)
    rw [exec, execUpstreamRequest, taken]

/-- Settles O26: each case is a decode that is answered at once; hits and meetings are their tests read as inequalities. -/
theorem requestsAnsweredAtDecode : Obligations.RequestsAnsweredAtDecode := by
  refine ⟨fun r s st ids room shape tags managed hit => ?byState, fun r s ids room shape write tags managed => ?writes,
    fun g => ⟨rfl, rfl⟩, fun s r => ?hits⟩
  case byState =>
    have answered {a : Answer} (h : decodeHit (s.stream st) st r = .answered a []) :=
      exec_answeredAtDecode ids room shape tags ((decode_hit r s st managed hit).trans h)
    refine ⟨fun faulted read => ?_, fun draining read => ?_, fun stopped write => ?_⟩
    · exact answered ((decodeHit_faulted faulted).trans (by rw [faultAnswer_read read]; rfl))
    · exact answered ((decodeHit_draining draining).trans (by rw [read]; rfl))
    · rcases stopped with faulted | draining
      · exact answered ((decodeHit_faulted faulted).trans (by rw [faultAnswer_write write]))
      · exact answered ((decodeHit_draining draining).trans (by rw [write]; rfl))
  case writes =>
    have answered {a : Answer} {cs : List (Cause × StreamId)} (h : s.decodeRequest r = .answered a cs) :
        exec (.upstreamRequest r) s = .next (State.finish { s.raiseAll cs with
          nextReq := s.nextReq + 1
          tagOrder := s.tagOrder ++ [⟨s.nextReq, r.tag, .write, r.beats, some a⟩] }) := by
      rw [exec_answeredAtDecode ids room shape tags h, write]
    refine ⟨fun misses meets => ?_, fun st hit running => ?_⟩
    · rw [answered (decode_guarded managed misses write meets), raiseAll_map]
    · have decoded := (decode_hit r s st managed hit).trans (decodeHit_running _ st r running)
      exact ⟨fun view => answered (cs := [(.referenceWrite, st)]) (decoded.trans (decodeRunning_reference write view)),
        fun view disabled => answered (cs := []) (decoded.trans (decodeRunning_disabled write view disabled)),
        fun view enabled vacant => answered (cs := [(.vacantWrite, st)]) (decoded.trans (decodeRunning_vacant write view enabled vacant))⟩
  case hits =>
    simp only [← live_iff]
    refine ⟨fun st hit => hits_of_apertureHit hit, apertureHit_eq_none_iff s r, fun st hit only => apertureHit_eq_some hit only,
      fun st beats runs => ?_, (List.nodup_finRange 16).filter _⟩
    rw [mem_guardHits]
    refine and_congr_right fun _ => exists_congr fun run => and_congr_right fun hrun => ?_
    exact (exists_shared_byte (by omega) (runs run hrun)).symm

/-- Settles O27: the two order tests of the course, each read as its rule words it, and the sweep behind a request that left. -/
theorem tagOrderAndOverlapHolds : Obligations.TagOrderAndOverlapHolds := by
  refine ⟨fun r s ids room shape => ⟨exec_tagOrder ids room shape, fun tags => ⟨fun decoded overlapped => ?_,
    fun st slot ps decoded overlapped => ?_, fun st slot ps vacant decoded overlapped => ?_⟩⟩, overlaps_iff, mem_pieceTiles,
    fun s ahead behind x split once => leave_split split once, orderClear_iff⟩
  all_goals
    rw [exec_upstreamRequest r s room shape, course_new r s ids tags, decoded]
    dsimp only
    rw [orderedServe_overlapped ids _ overlapped]

/-- Settles O31: the definition of `deliver` where something is deliverable, and where nothing is. -/
theorem deliveryFollowsTheTagOrder : Obligations.DeliveryFollowsTheTagOrder := by
  refine fun s => ⟨fun none => ?_, fun id rest t a first found answer => ?_⟩
  · simp [exec, execResponseDelivery, State.deliver, none]
  · simp only [exec, execResponseDelivery, State.deliver, first, found, answer]
    rfl

end

/-! ## The upstream port: placing and reading (O28 to O30)

The serving blocks by the first case that applies (`serveWrite_closing` to `serveWrite_placed`, `serveRead_held`,
`serveRead_handed`, `serveRead_atOnce`), for any request in its place; a new request then takes them from `course_new`. -/
section
namespace Sys2Proof.Machine

/-! ### Placing -/

section
variable {s : State} {r : Request} {st : StreamId} {slot : Nat} {ps : List Piece} {vacant : Bool}

theorem serveWrite_closing (id : Nat) (closing : (s.stream st).state = .closing) :
    s.serveWrite id r st slot ps vacant = s.hold ⟨id, r, .closing st, some st, pieceTiles slot ps, false⟩ :=
  if_pos closing

theorem serveWrite_blocked (id : Nat) (running : (s.stream st).state ≠ .closing) {pos : Nat}
    (blocked : s.blockedAt st (livePieces r ps) = some pos) :
    s.serveWrite id r st slot ps vacant = s.hold ⟨id, r, .tileBusy st slot pos, some st, pieceTiles slot ps, false⟩ := by
  simp only [State.serveWrite, if_neg running, blocked]

theorem serveWrite_noEntry (id : Nat) (running : (s.stream st).state ≠ .closing)
    (clear : s.blockedAt st (livePieces r ps) = none) (short : 64 - s.entries.length < s.newNeeded st (livePieces r ps)) :
    let held := s.hold ⟨id, r, .noEntry (s.newNeeded st (livePieces r ps)), some st, pieceTiles slot ps, false⟩
    s.serveWrite id r st slot ps vacant = held.startCommits .evicted (held.victims st
      ((livePieces r ps).map fun pt => pt.2.pos) (s.newNeeded st (livePieces r ps) - (64 - s.entries.length))) := by
  have free : s.freeEntries = 64 - s.entries.length := rfl
  simp only [State.serveWrite, if_neg running, clear, free, if_pos short]

theorem serveWrite_placed (id : Nat) (running : (s.stream st).state ≠ .closing)
    (clear : s.blockedAt st (livePieces r ps) = none) (room : s.newNeeded st (livePieces r ps) ≤ 64 - s.entries.length) :
    s.serveWrite id r st slot ps vacant = s.place id r st (livePieces r ps) vacant := by
  have enough : ¬s.freeEntries < s.newNeeded st (livePieces r ps) := Nat.not_lt.mpr room
  simp only [State.serveWrite, if_neg running, clear, if_neg enough]

end

/-- The victims of an eviction, with the test of an entry read as one on what its number names. -/
theorem victims_eq (s : State) (st : StreamId) (positions : List Nat) (n : Nat) :
    s.victims st positions n = (s.lastWrite.filter fun m => (s.entryNum m).any fun e =>
      !(e.stream == st && positions.contains e.pos)).take n := by
  have test (m : Nat) : (match s.entryNum m with
      | some e => !(e.stream == st && positions.contains e.pos)
      | none => false) = (s.entryNum m).any fun e => !(e.stream == st && positions.contains e.pos) := by
    cases s.entryNum m <;> rfl
  exact congrArg (List.take n) (congrArg (List.filter · s.lastWrite) (funext test))

/-- Storing pieces changes the entries and the last-write order alone. -/
theorem storePieces_shape (st : StreamId) (r : Request) (ps : List (Piece × PieceTile)) (s : State) :
    s.storePieces st r ps =
      { s with entries := (s.storePieces st r ps).entries, lastWrite := (s.storePieces st r ps).lastWrite } := by
  induction ps generalizing s with
  | nil => rfl
  | cons p ps ih => exact ih (s.storePiece st r p.1 p.2)

/-- Told of VACANT-WRITE or not, a placement starts the commits of the entries that its pieces complete (R49). -/
theorem told_startCommits {u placed : State} {st : StreamId} {g : Geom} {live : List (Piece × PieceTile)} {vacant : Bool}
    (same : u = placed) (geom : placed.geometry st = g) :
    let told := if vacant then u.raise .vacantWrite st else u
    told.startCommits .complete (told.completed st live) =
      (if vacant then placed.raise .vacantWrite st else placed).startCommits .complete (live.filterMap fun pt =>
        match placed.entryAt st pt.2.pos with
        | some e => if e.collecting && e.complete g then some e.num else none
        | none => none) := by
  subst same geom
  cases vacant <;> rfl

/-- A request is stored and answered in either order. -/
theorem answer_storePieces (st : StreamId) (r : Request) (ps : List (Piece × PieceTile)) (id : Nat) (a : Answer) (s : State) :
    (s.storePieces st r ps).answer id a = (s.answer id a).storePieces st r ps := by
  induction ps generalizing s with
  | nil => rfl
  | cons p ps ih => exact ih (s.storePiece st r p.1 p.2)

/-! ### The decode of a write that is placed, and of a read -/

section
variable {r : Request} {x : Stream} {st : StreamId}

theorem Piece.live_enabled {p : Piece} (h : p.live r = true) : r.enables.any id = true := by
  obtain ⟨e, he, on⟩ := List.any_eq_true.mp h
  exact List.any_eq_true.mpr ⟨e, List.mem_of_mem_drop (List.mem_of_mem_take he), on⟩

theorem decodeRunning_placing (write : r.kind = .write)
    (view : (r.addr.toNat - x.geometry.aperture) / x.geometry.viewStride = 0)
    (live : ∃ p ∈ (x.geometry.pieces ((r.addr.toNat - x.geometry.aperture) % x.geometry.viewStride) (32 * r.beats)).filter
      (fun p => p.tile.isSome), p.live r = true) :
    decodeRunning x st r = .placing st x.slot
      ((x.geometry.pieces ((r.addr.toNat - x.geometry.aperture) % x.geometry.viewStride) (32 * r.beats)).filter
        fun p => p.tile.isSome)
      ((x.geometry.pieces ((r.addr.toNat - x.geometry.aperture) % x.geometry.viewStride) (32 * r.beats)).any
        fun p => p.tile.isNone && p.live r) := by
  obtain ⟨p, hp, on⟩ := live
  have enabled : ¬(!r.enables.any id) = true := by rw [Piece.live_enabled on]; decide
  have some_live : ¬(!((x.geometry.pieces ((r.addr.toNat - x.geometry.aperture) % x.geometry.viewStride)
      (32 * r.beats)).filter fun p => p.tile.isSome).any (Piece.live r)) = true := by
    rw [List.any_eq_true.mpr ⟨p, hp, on⟩]
    decide
  simp only [decodeRunning, write]
  exact (if_neg (not_not_intro view)).trans ((if_neg enabled).trans (if_neg some_live))

theorem decodeRunning_read (read : r.kind = .read) :
    decodeRunning x st r = .reading st
      (x.geometry.slotOf x.slot ((r.addr.toNat - x.geometry.aperture) / x.geometry.viewStride))
      (x.geometry.pieces ((r.addr.toNat - x.geometry.aperture) % x.geometry.viewStride) (32 * r.beats)) := by
  simp only [decodeRunning, read]
  rfl

end

/-! ### What resolving changes -/

/-- `t` is `s` but for map memory, the corrected-error count and the causes. -/
def OnlyLooked (s t : State) : Prop :=
  t = { s with mapMem := t.mapMem, corrected := t.corrected, causes := t.causes }

theorem OnlyLooked.trans {s t u : State} (h : OnlyLooked s t) (k : OnlyLooked t u) : OnlyLooked s u := by
  have hk : u = { t with mapMem := u.mapMem, corrected := u.corrected, causes := u.causes } := k
  refine hk.trans ?_
  rw [show t = { s with mapMem := t.mapMem, corrected := t.corrected, causes := t.causes } from h]

theorem onlyLooked_resolveMap (s : State) (st : StreamId) (slot : Nat) (t : PieceTile) (covered : List (Option Byte)) :
    OnlyLooked s (s.resolveMap st slot t covered).2 := by
  have looked := lookupCell_shape s st ((s.geometry st).entryCell slot t.pos)
  unfold State.resolveMap
  split <;> rename_i h <;> rw [h] at looked <;> exact looked

theorem onlyLooked_resolvePiece (s : State) (st : StreamId) (slot : Nat) (p : Piece) :
    OnlyLooked s (s.resolvePiece st slot p).2 := by
  unfold State.resolvePiece State.resolveTile
  split
  · rfl
  · split
    · split
      · dsimp only
        split
        · rfl
        · exact onlyLooked_resolveMap ..
      · rfl
    · exact onlyLooked_resolveMap ..

theorem onlyLooked_resolvePieces (st : StreamId) (slot : Nat) (ps : List Piece) (s : State) :
    OnlyLooked s (s.resolvePieces st slot ps).2 := by
  induction ps generalizing s with
  | nil => rfl
  | cons p ps ih => exact (onlyLooked_resolvePiece s st slot p).trans (ih _)

theorem OnlyLooked.holdQ {s t : State} (h : OnlyLooked s t) : t.holdQ = s.holdQ := by
  rw [show t = { s with mapMem := t.mapMem, corrected := t.corrected, causes := t.causes } from h]

theorem OnlyLooked.reads {s t : State} (h : OnlyLooked s t) : t.reads = s.reads := by
  rw [show t = { s with mapMem := t.mapMem, corrected := t.corrected, causes := t.causes } from h]

/-! ### The home reads of a resolved read -/

/-- The home read of piece `k`: its number, address and beats. -/
def homeReadOf (oi : PieceOutcome × Nat) : Option (Nat × Nat × Nat) :=
  match oi.1 with
  | .resolved known (some home) => some (oi.2, home, known.length / 32)
  | _ => none

/-- The transfer that the `j`th home read of request `id` is. -/
def homeXfer (id n step j : Nat) (x : Nat × Nat × Nat) : Xfer :=
  ⟨n + j, step, .homeRead id x.1, Config.freeTag (n + j), ⟨.read, BitVec.ofNat 40 x.2.1, x.2.2, [], []⟩, false, false⟩

theorem handHomeReads_eq (id : Nat) (os : List PieceOutcome) (k : Nat) (s : State) : s.handHomeReads id k os = { s with
    passClass := s.passClass ++ ((os.zipIdx k).filterMap homeReadOf).mapIdx (homeXfer id s.nextXfer s.stepNum)
    nextXfer := s.nextXfer + ((os.zipIdx k).filterMap homeReadOf).length } := by
  induction os generalizing k s with
  | nil => simp [State.handHomeReads]
  | cons o os ih =>
    unfold State.handHomeReads
    rw [List.zipIdx_cons, List.filterMap_cons]
    split
    · next known home =>
      have shift : homeXfer id (s.nextXfer + 1) s.stepNum = fun j => homeXfer id s.nextXfer s.stepNum (j + 1) := by
        funext j x
        simp only [homeXfer, Nat.add_assoc, Nat.add_comm 1]
      rw [ih]
      simp only [homeReadOf, List.mapIdx_cons, List.length_cons, State.handPass, numbered, shift, List.append_assoc,
        List.singleton_append, Nat.add_assoc, Nat.add_comm 1]
      rfl
    · next other =>
      have none_read : homeReadOf (o, k) = none := by
        unfold homeReadOf
        split
        · next known home h => exact absurd h (other known home)
        · rfl
      rw [ih, none_read]

theorem waiting_iff (os : List PieceOutcome) (resolved : ∀ o ∈ os, ∀ why, o ≠ .needsHold why)  (k : Nat) :
    (os.map readPieceOf).any ReadPiece.waiting = false ↔ (os.zipIdx k).filterMap homeReadOf = [] := by
  induction os generalizing k with
  | nil => simp
  | cons o os ih =>
    rw [List.map_cons, List.any_cons, List.zipIdx_cons, List.filterMap_cons, Bool.or_eq_false_iff,
      ih (fun o ho => resolved o (List.mem_cons_of_mem _ ho)) (k + 1)]
    cases o with
    | mapError => simp [readPieceOf, homeReadOf]
    | needsHold why => exact absurd rfl (resolved _ (List.mem_cons_self ..) why)
    | resolved known home => cases home <;> simp [readPieceOf, homeReadOf]

/-! ### Serving a read -/

theorem firstHold_of_resolved {os : List PieceOutcome} (resolved : ∀ o ∈ os, ∀ why, o ≠ .needsHold why) :
    firstHold os = none := by
  refine List.findSome?_eq_none_iff.mpr fun o ho => ?_
  cases o with
  | needsHold why => exact absurd rfl (resolved _ ho why)
  | mapError => rfl
  | resolved known home => rfl

theorem firstHold_of_split {before after : List PieceOutcome} {why : HoldReason}
    (resolved : ∀ o ∈ before, ∀ w, o ≠ .needsHold w) : firstHold (before ++ .needsHold why :: after) = some why := by
  have none_before : firstHold before = none := firstHold_of_resolved resolved
  rw [firstHold] at none_before ⊢
  rw [List.findSome?_append, none_before]
  rfl

section
variable {s : State} {id : Nat} {r : Request} {st : StreamId} {slot : Nat} {ps : List Piece}

theorem serveRead_held (sound : PieceOutcome.mapError ∉ (s.resolvePieces st slot ps).1) {why : HoldReason}
    (held : firstHold (s.resolvePieces st slot ps).1 = some why) : s.serveRead id r st slot ps =
      (s.resolvePieces st slot ps).2.hold ⟨id, r, why, some st, pieceTiles slot ps, false⟩ := by
  have no_error : ¬(s.resolvePieces st slot ps).1.contains .mapError = true := by simpa using sound
  simp only [State.serveRead, if_neg no_error, held]

theorem serveRead_issued (sound : PieceOutcome.mapError ∉ (s.resolvePieces st slot ps).1)
    (resolved : ∀ o ∈ (s.resolvePieces st slot ps).1, ∀ why, o ≠ .needsHold why) : s.serveRead id r st slot ps =
      (s.resolvePieces st slot ps).2.issueRead id (s.geometry st).vacant (s.resolvePieces st slot ps).1 := by
  have no_error : ¬(s.resolvePieces st slot ps).1.contains .mapError = true := by simpa using sound
  simp only [State.serveRead, if_neg no_error, firstHold_of_resolved resolved]

theorem serveRead_mapError (damaged : PieceOutcome.mapError ∈ (s.resolvePieces st slot ps).1) :
    s.serveRead id r st slot ps =
      (((s.resolvePieces st slot ps).2.faultStream .mapFault st).answer id (faultAnswer (s.geometry st).vacant r)).leave id :=
  if_pos (List.contains_iff_mem.mpr damaged)

end

/-- The record of a read that has just been resolved. -/
def resolvedReadOf (id : Nat) (vacant : Byte) (os : List PieceOutcome) : ResolvedRead :=
  ⟨id, vacant, os.map readPieceOf, false⟩

section
variable {s : State} {id : Nat} {vacant : Byte} {os : List PieceOutcome} (absent : ∀ q ∈ s.reads, q.id ≠ id)
include absent

theorem find_addRead (q : ResolvedRead) (hq : q.id = id) : (s.reads ++ [q]).find? (fun q => q.id == id) = some q := by
  rw [List.find?_append, List.find?_eq_none.mpr (by simpa using absent), Option.none_or, List.find?_singleton,
    if_pos (beq_iff_eq.mpr hq)]

variable (resolved : ∀ o ∈ os, ∀ why, o ≠ .needsHold why)
include resolved

/-- A resolved read with home reads hands them on and waits (R30 to R32). -/
theorem issueRead_handed (some_home : os.zipIdx.filterMap homeReadOf ≠ []) : s.issueRead id vacant os = { s.leave id with
    passClass := s.passClass ++ (os.zipIdx.filterMap homeReadOf).mapIdx (homeXfer id s.nextXfer s.stepNum)
    nextXfer := s.nextXfer + (os.zipIdx.filterMap homeReadOf).length
    reads := s.reads ++ [resolvedReadOf id vacant os] } := by
  have waits : (os.map readPieceOf).any ReadPiece.waiting = true := by
    rw [← Bool.not_eq_false, waiting_iff os resolved 0]
    exact some_home
  rw [State.issueRead, handHomeReads_eq, State.finishRead]
  have found := find_addRead absent (resolvedReadOf id vacant os) rfl
  split
  · next h => exact absurd (h.symm.trans found) (by simp)
  · next q h =>
    obtain rfl : q = resolvedReadOf id vacant os := Option.some.inj (h.symm.trans found)
    exact if_pos waits

/-- A resolved read with no home read is answered at once (R32). -/
theorem issueRead_atOnce (no_home : os.zipIdx.filterMap homeReadOf = []) : s.issueRead id vacant os =
    (s.leave id).answer id ⟨.okay, (resolvedReadOf id vacant os).bytes⟩ := by
  have in_all : ¬(os.map readPieceOf).any ReadPiece.waiting = true := by
    rw [Bool.not_eq_true, waiting_iff os resolved 0]
    exact no_home
  have dropped : (s.reads ++ [(⟨id, vacant, os.map readPieceOf, false⟩ : ResolvedRead)]).filter (fun q => q.id != id) = s.reads := by
    rw [List.filter_append, List.filter_eq_self.mpr (by simpa using absent)]
    simp
  rw [State.issueRead, handHomeReads_eq, State.finishRead, no_home]
  have found := find_addRead absent (resolvedReadOf id vacant os) rfl
  split
  · next h => exact absurd (h.symm.trans found) (by simp)
  · next q h =>
    obtain rfl : q = resolvedReadOf id vacant os := Option.some.inj (h.symm.trans found)
    refine (if_neg in_all).trans ?_
    simp only [State.dropRead, State.addRead, State.leave, State.dropHeld, dropped, List.mapIdx_nil, List.append_nil,
      List.length_nil, Nat.add_zero]
    rfl

end

/-! ### The first case that applies to a piece -/

theorem getElem?_slice {α : Type} (xs : List α) (off len k : Nat) (hk : k < len) : (slice xs off len)[k]? = xs[off + k]? := by
  rw [slice, List.getElem?_take_of_lt hk, List.getElem?_drop]

theorem length_slice {α : Type} (xs : List α) (off len : Nat) (h : off + len ≤ xs.length) : (slice xs off len).length = len := by
  rw [slice, List.length_take, List.length_drop]
  omega

section
variable {e : Entry} {t : PieceTile} {len : Nat} (data : e.data.length = 1024) (cov : e.cov.length = 1024)
  (inside : t.i * 64 + t.j + len ≤ 1024)
include data cov inside

theorem length_coveredAt : (e.coveredAt t len).length = len := by
  rw [Entry.coveredAt, List.length_zipWith, length_slice _ _ _ (data ▸ inside), length_slice _ _ _ (cov ▸ inside), Nat.min_self]

/-- A covered byte is the entry's; an uncovered one is not known. -/
theorem getElem?_coveredAt {k : Nat} (hk : k < len) : (e.coveredAt t len)[k]? =
    some (if e.cov[t.i * 64 + t.j + k]? = some true then e.data[t.i * 64 + t.j + k]? else none) := by
  have byte : (slice e.data (t.i * 64 + t.j) len)[k]? = e.data[t.i * 64 + t.j + k]? := getElem?_slice _ _ _ _ hk
  have mark : (slice e.cov (t.i * 64 + t.j) len)[k]? = e.cov[t.i * 64 + t.j + k]? := getElem?_slice _ _ _ _ hk
  have in_data : t.i * 64 + t.j + k < e.data.length := by omega
  have in_cov : t.i * 64 + t.j + k < e.cov.length := by omega
  rw [Entry.coveredAt, List.getElem?_zipWith, byte, mark, List.getElem?_eq_getElem in_data, List.getElem?_eq_getElem in_cov]
  cases e.cov[t.i * 64 + t.j + k] <;> simp

end

section
variable {s : State} {st : StreamId} {slot : Nat} {p : Piece} {t : PieceTile} (inPlane : p.tile = some t)
include inPlane

theorem resolvePiece_noEntry (bare : ∀ e, s.entryAt st t.pos = some e → e.slot ≠ slot) :
    s.resolvePiece st slot p = s.resolveMap st slot t (List.replicate p.len none) := by
  have none_here : (s.entryAt st t.pos).filter (fun e => e.slot == slot) = none := by
    simpa [Option.filter_eq_none_iff] using bare
  simp only [State.resolvePiece, inPlane, State.resolveTile, none_here]

theorem resolvePiece_entry {e : Entry} (found : s.entryAt st t.pos = some e) (same : e.slot = slot) :
    s.resolvePiece st slot p =
      if e.collecting then
        if (e.coveredAt t p.len).all Option.isSome then (.resolved (e.coveredAt t p.len) none, s)
        else s.resolveMap st slot t (e.coveredAt t p.len)
      else (.needsHold (.tileBusy st slot t.pos), s) := by
  have here : (s.entryAt st t.pos).filter (fun e => e.slot == slot) = some e := by
    rw [found, Option.filter_some, if_pos (beq_iff_eq.mpr same)]
  simp only [State.resolvePiece, inPlane, State.resolveTile, here]

end

theorem resolveMap_eq (s : State) (st : StreamId) (slot : Nat) (t : PieceTile) (covered : List (Option Byte)) :
    s.resolveMap st slot t covered =
      match (s.lookupCell st ((s.geometry st).entryCell slot t.pos)).1 with
      | none => (.mapError, (s.lookupCell st ((s.geometry st).entryCell slot t.pos)).2)
      | some v => ((s.lookupCell st ((s.geometry st).entryCell slot t.pos)).2.resolveEntry st slot t v covered,
          (s.lookupCell st ((s.geometry st).entryCell slot t.pos)).2) := by
  unfold State.resolveMap
  split <;> rename_i h <;> rw [h]

/-- A piece shows its map entry where no migration is moving what the entry names (R30). -/
theorem resolveEntry_clear {s : State} {st : StreamId} {slot : Nat} {t : PieceTile} {v : CellVal}
    {covered : List (Option Byte)}
    (clear : ∀ m, s.migrationAt st t.pos = some m → (cellEntry v).state ≠ .aliasOf m.slot) :
    s.resolveEntry st slot t v covered = overlayOn (s.geometry st) slot t (cellEntry v).state covered := by
  unfold State.resolveEntry
  dsimp only
  split
  · next m found => exact if_neg (clear m found)
  · rfl

/-- A piece waits for a migration that is moving what its map entry names (R29). -/
theorem resolveEntry_migrating {s : State} {st : StreamId} {slot : Nat} {t : PieceTile} {v : CellVal}
    {covered : List (Option Byte)} {m : Migration} (found : s.migrationAt st t.pos = some m)
    (moved : (cellEntry v).state = .aliasOf m.slot) :
    s.resolveEntry st slot t v covered = .needsHold (.migrating st t.pos) := by
  simp only [State.resolveEntry, found, if_pos moved]

/-! ### Pieces that show their plane's fill -/

/-- What a piece shows whose tile is BLANK with no entry, or that is vacant (R10, R30). -/
def Geom.fillFor (g : Geom) (p : Piece) : Byte := match p.tile with
  | some t => g.fillOf t.pos
  | none => g.vacant

section
variable {s : State} {st : StreamId} {slot : Nat}

/-- The position of an in-plane piece has no entry, and its map entry is BLANK and sound. -/
def State.Bare (s : State) (st : StreamId) (slot : Nat) (p : Piece) : Prop := ∀ t, p.tile = some t →
  (s.entries.all fun e => !(e.stream == st && e.pos == t.pos)) = true ∧
  (MapMemory.read s.mapMem (s.cellKey st ((s.geometry st).entryCell slot t.pos))).ecc = .good ∧
  (cellEntry (s.peekCell st ((s.geometry st).entryCell slot t.pos))).state = .blank

theorem resolveEntry_blank {t : PieceTile} {v : CellVal} {covered : List (Option Byte)} (blank : (cellEntry v).state = .blank) :
    s.resolveEntry st slot t v covered = .resolved (covered.map fun b => some (b.getD ((s.geometry st).fillOf t.pos))) none := by
  rw [resolveEntry_clear (by simp [blank]), blank]
  rfl

theorem resolvePiece_bare {p : Piece} (bare : s.Bare st slot p) :
    s.resolvePiece st slot p = (.resolved (List.replicate p.len (some ((s.geometry st).fillFor p))) none, s) := by
  cases hp : p.tile with
  | none => simp only [State.resolvePiece, hp, Geom.fillFor]
  | some t =>
    obtain ⟨no_entry, sound, blank⟩ := bare t hp
    have absent : s.entryAt st t.pos = none := by
      refine List.find?_eq_none.mpr fun e he => ?_
      exact ne_true_of_eq_false ((Bool.not_eq_true' _).mp (List.all_eq_true.mp no_entry e he))
    have looked : s.lookupCell st ((s.geometry st).entryCell slot t.pos) =
        (some (s.peekCell st ((s.geometry st).entryCell slot t.pos)), s) := by
      simp only [State.lookupCell, sound, State.peekCell]
    rw [resolvePiece_noEntry hp (by simp [absent]), State.resolveMap, looked]
    simp only [resolveEntry_blank blank, List.map_replicate, Option.getD_none, Geom.fillFor, hp]

theorem resolvePieces_bare {ps : List Piece} (bare : ∀ p ∈ ps, s.Bare st slot p) : s.resolvePieces st slot ps =
    (ps.map fun p => .resolved (List.replicate p.len (some ((s.geometry st).fillFor p))) none, s) := by
  induction ps with
  | nil => rfl
  | cons p ps ih =>
    simp only [State.resolvePieces, resolvePiece_bare (bare p (List.mem_cons_self ..)),
      ih fun q hq => bare q (List.mem_cons_of_mem _ hq), List.map_cons]

end

/-- The bytes of a read whose every byte is known as it is resolved. -/
theorem bytes_known (id : Nat) (v : Byte) (ps : List Piece) (fill : Piece → Byte) :
    (resolvedReadOf id v (ps.map fun p => .resolved (List.replicate p.len (some (fill p))) none)).bytes =
      ps.flatMap fun p => List.replicate p.len (fill p) := by
  simp [resolvedReadOf, ResolvedRead.bytes, readPieceOf, List.flatMap_map]

theorem homes_known (ps : List Piece) (fill : Piece → Byte) :
    ((ps.map fun p => PieceOutcome.resolved (List.replicate p.len (some (fill p))) none).zipIdx).filterMap homeReadOf = [] := by
  rw [← waiting_iff _ (by simp) 0]
  simp [readPieceOf]

/-! ### A new request that is served -/

section
variable {s : State} {r : Request} (ids : s.IdsOk) (room : s.holdQ.length < 16) (shape : r.shapeOk = true)
  (tags : ∀ h ∈ s.holdQ, h.req.tag ≠ r.tag) {st : StreamId} {slot : Nat} {ps : List Piece}
  (apart : ∀ h ∈ s.holdQ, h.overlaps r.block (some st) (pieceTiles slot ps) = false)
include ids room shape tags apart

theorem exec_reading (decoded : s.decodeRequest r = .reading st slot ps) :
    exec (.upstreamRequest r) s = .next ((s.joinTagOrder r).serveRead s.nextReq r st slot ps).finish := by
  rw [exec_upstreamRequest r s room shape, course_new r s ids tags, decoded]
  dsimp only
  rw [orderedServe_new r s _ ids _ _ apart]

theorem exec_placing {vacant : Bool} (decoded : s.decodeRequest r = .placing st slot ps vacant) :
    exec (.upstreamRequest r) s = .next ((s.joinTagOrder r).serveWrite s.nextReq r st slot ps vacant).finish := by
  rw [exec_upstreamRequest r s room shape, course_new r s ids tags, decoded]
  dsimp only
  rw [orderedServe_new r s _ ids _ _ apart]

end

end Sys2Proof.Machine

open Sys2Proof Sys2Proof.Machine

/-- Settles O28: the write is served by the first case that applies, at the back of the queue or with its answer in place. -/
theorem writeTakesTheFirstCaseThatApplies : Obligations.WriteTakesTheFirstCaseThatApplies := by
  intro r s st ids room shape write tags managed hit g slot pieces inPlane live tiles view enabled apart taken held needed
    vacant
  have served (running : (s.stream st).state = .opened ∨ (s.stream st).state = .closing) :=
    exec_placing ids room shape tags apart (((decode_hit r s st managed hit).trans (decodeHit_running _ st r running)).trans
      (decodeRunning_placing write view enabled))
  have taken_eq (a : Option Answer) : taken a = { s with
      nextReq := s.nextReq + 1
      tagOrder := s.tagOrder ++ [⟨s.nextReq, r.tag, r.kind, r.beats, a⟩] } := by rw [write]
  have held_eq (why : HoldReason) :
      (s.joinTagOrder r).hold ⟨s.nextReq, r, why, some st, tiles, false⟩ = held why := by
    rw [hold_new ids, write]
  have not_closing (h : (s.stream st).state = .opened) : (s.stream st).state ≠ .closing := by simp [h]
  refine ⟨fun closing => ?_, fun opened pos blocked => ?_, fun opened clear short => ?_, fun opened clear enough => ?_⟩
  · rw [served (.inr closing), serveWrite_closing (s := s.joinTagOrder r) _ closing, held_eq]
  · rw [served (.inl opened), serveWrite_blocked (s := s.joinTagOrder r) _ (not_closing opened) blocked, held_eq]
  · rw [served (.inl opened), serveWrite_noEntry (s := s.joinTagOrder r) _ (not_closing opened) clear short, victims_eq,
      held_eq]
    rfl
  · rw [served (.inl opened), serveWrite_placed (s := s.joinTagOrder r) _ (not_closing opened) clear enough, State.place,
      leave_new ids]
    have placed : ((s.joinTagOrder r).storePieces st r live).answer s.nextReq ⟨.okay, []⟩ =
        (taken (some ⟨.okay, []⟩)).storePieces st r live := by
      rw [answer_storePieces, answer_joined r s _ ids, taken_eq]
    refine congrArg (fun t => Host.Outcome.next (State.finish t)) (told_startCommits placed ?_)
    rw [storePieces_shape]
    rfl

/-- Settles O29: a read whose every piece shows fill has no home read; a map entry shows by its state and the migration. -/
theorem piecesShowTheirMapEntries : Obligations.PiecesShowTheirMapEntries := by
  refine ⟨fun r s st ids room shape read tags managed hit running => ?atOnce, fun s st slot t e covered => ?entry⟩
  case atOnce =>
    intro g slot pieces apart bare
    have resolved : (s.joinTagOrder r).resolvePieces st slot pieces =
        (pieces.map fun p => .resolved (List.replicate p.len (some (g.fillFor p))) none, s.joinTagOrder r) :=
      resolvePieces_bare (s := s.joinTagOrder r) bare
    have served := serveRead_issued (s := s.joinTagOrder r) (id := s.nextReq) (r := r) (st := st) (slot := slot)
      (ps := pieces) (by simp [resolved]) (by simp [resolved])
    rw [resolved] at served
    rw [exec_reading ids room shape tags apart (((decode_hit r s st managed hit).trans
      (decodeHit_running _ st r running)).trans (decodeRunning_read read)), served,
      issueRead_atOnce (s := s.joinTagOrder r) (fun q hq => fresh_read ids q hq) (by simp) (homes_known pieces g.fillFor),
      leave_new ids, bytes_known, answer_joined r s _ ids, read]
    rfl
  case entry =>
    intro g at'
    refine ⟨fun blank => resolveEntry_blank blank, fun owned => ?_, fun o other clear => ?_, fun o m other found moved => ?_⟩
    · rw [resolveEntry_clear (by simp [cellEntry, owned]), show (cellEntry (.entry e)).state = .owned from owned]
      rfl
    · have away (m : Migration) (found : s.migrationAt st t.pos = some m) :
          (cellEntry (.entry e)).state ≠ .aliasOf m.slot := by
        simpa [cellEntry, other] using fun h : o = m.slot => clear m found h.symm
      rw [resolveEntry_clear away, show (cellEntry (.entry e)).state = .aliasOf o from other]
      rfl
    · exact resolveEntry_migrating found (other.trans (by rw [moved]))

/-- Settles O30: the read is held by its first hold, or its home reads are handed on as `handHomeReads_eq` lists them. -/
theorem readsAreResolvedWholeOrHeldWhole : Obligations.ReadsAreResolvedWholeOrHeldWhole := by
  refine ⟨fun r s st slot ps ids room shape tags decoded apart => exec_reading ids room shape tags apart decoded,
    fun s id r st slot ps absent => ?served, fun s st slot => ⟨rfl, fun p ps => rfl⟩, fun s st slot p => ⟨fun vacant => ?vacant,
    fun t inPlane => ?tile⟩⟩
  case served =>
    intro os t vacant sound
    have looked : OnlyLooked s t := onlyLooked_resolvePieces st slot ps s
    refine ⟨fun not_held before why after split resolved => ?held, fun resolved => ?issued⟩
    case held =>
      have first : firstHold os = some why := split ▸ firstHold_of_split resolved
      rw [serveRead_held sound first, hold_absent]
      exact looked.holdQ ▸ not_held
    case issued =>
      intro homes read handed
      have absent' : ∀ q ∈ t.reads, q.id ≠ id := looked.reads ▸ absent
      rw [serveRead_issued sound resolved]
      refine ⟨fun some_home => ?_, fun no_home => ?_⟩
      · rw [issueRead_handed absent' resolved some_home]
        rfl
      · rw [issueRead_atOnce absent' resolved no_home]
        simp only [handed, no_home, List.mapIdx_nil, List.append_nil, List.length_nil, Nat.add_zero]
        rfl
  case vacant => simp only [State.resolvePiece, vacant]
  case tile =>
    intro looked
    refine ⟨fun bare => (resolvePiece_noEntry inPlane bare).trans (resolveMap_eq ..), fun e found same => ⟨fun why committing => ?_,
      fun age collecting data cov inside => ⟨e.coveredAt t p.len, length_coveredAt data cov inside,
        fun k hk => getElem?_coveredAt data cov inside hk, ?_⟩⟩⟩
    · rw [resolvePiece_entry inPlane found same, if_neg (by simp [Entry.collecting, committing])]
    · rw [resolvePiece_entry inPlane found same, if_pos (by simp [Entry.collecting, collecting])]
      exact ite_congr (propext List.all_eq_true) (fun _ => rfl) fun _ => resolveMap_eq ..

end

/-! ## The upstream port: retries (O32)

A retry is the course of a request that stands in the queue: the requests ahead of it are those that `aheadOf_split` names, and
a hold leaves it in its place (`hold_split`). -/
section
namespace Sys2Proof.Machine

section
variable {u : State} {ahead behind : List Held} {x : Held} (queue : u.holdQ = ahead ++ x :: behind)
  (once : (u.holdQ.map Held.id).Nodup) {r : Request}
include queue once

theorem course_tagOrder_split (same : ∃ a ∈ ahead, a.req.tag = r.tag) : u.course x.id r =
    { u with holdQ := ahead ++ ⟨x.id, r, .tagOrder, x.stream, x.tiles, false⟩ :: behind } := by
  have footprint : u.lastFootprint x.id = (x.stream, x.tiles) := by
    rw [State.lastFootprint, queue, find_split (queue ▸ once)]
  rw [State.course, aheadOf_split queue once, if_pos (by simpa using same), footprint]
  exact hold_split queue once _ rfl

theorem course_decoded_split (tags : ∀ a ∈ ahead, a.req.tag ≠ r.tag) : u.course x.id r =
    match u.decodeRequest r with
    | .answered a causes => ((u.raiseAll causes).answer x.id a).leave x.id
    | .passThrough => u.orderedServe x.id r none [] (u.servePass x.id r)
    | .placing st slot ps vacant =>
      u.orderedServe x.id r (some st) (pieceTiles slot ps) (u.serveWrite x.id r st slot ps vacant)
    | .reading st slot ps =>
      u.orderedServe x.id r (some st) (pieceTiles slot ps) (u.serveRead x.id r st slot ps) := by
  rw [State.course, aheadOf_split queue once]
  exact if_neg (by simpa using tags)

theorem orderedServe_split_overlapped {st : Option StreamId} {tiles : List (Nat × Nat)} (t : State)
    (overlapped : ∃ a ∈ ahead, a.overlaps r.block st tiles = true) : u.orderedServe x.id r st tiles t =
      { u with holdQ := ahead ++ ⟨x.id, r, .overlap, st, tiles, false⟩ :: behind } := by
  rw [State.orderedServe, aheadOf_split queue once, if_pos (List.any_eq_true.mpr overlapped)]
  exact hold_split queue once _ rfl

theorem orderedServe_split_apart {st : Option StreamId} {tiles : List (Nat × Nat)} (t : State)
    (apart : ¬∃ a ∈ ahead, a.overlaps r.block st tiles = true) : u.orderedServe x.id r st tiles t = t := by
  rw [State.orderedServe, aheadOf_split queue once, if_neg (mt List.any_eq_true.mp apart)]

end

theorem retryOne_unreleased {s : State} {id : Nat} (h : ∀ x ∈ s.holdQ, x.id = id → x.released = false) : s.retryOne id = s := by
  unfold State.retryOne
  split
  · rfl
  · next x found =>
    have same : x.id = id := by simpa using List.find?_some found
    rw [h x (List.mem_of_find?_eq_some found) same]
    rfl

theorem retryPass_unreleased {s : State} (h : ∀ x ∈ s.holdQ, x.released = false) (ids : List Nat) :
    ids.foldl State.retryOne s = s := by
  induction ids with
  | nil => rfl
  | cons id ids ih => rw [List.foldl_cons, retryOne_unreleased fun x hx _ => h x hx, ih]

end Sys2Proof.Machine

open Sys2Proof Sys2Proof.Machine

/-- Settles O32: a retry is the course of the request in its place, by the decode and the first case of its serving block. -/
theorem releasedRequestsAreRetriedInTheirPlaces : Obligations.ReleasedRequestsAreRetriedInTheirPlaces := by
  refine ⟨fun s => rfl, fun s id unreleased => retryOne_unreleased unreleased,
    fun s ahead behind h queue once released => ?retry, fun s unreleased => ?quiet⟩
  case quiet => exact congrArg (fun t => Host.Outcome.next (State.finish t)) (retryPass_unreleased unreleased _)
  case retry =>
    intro up again overlapped
    have retried := retryOne_split queue once released
    have queue' : up.holdQ = ahead ++ { h with released := false } :: behind := rfl
    have once' : (up.holdQ.map Held.id).Nodup := by simpa [queue', queue] using once
    have settled {t : State} (course : up.course h.id h.req = t) : s.retryOne h.id = t.settleCommits :=
      retried.trans (congrArg State.settleCommits course)
    have held_again (t : State) (why : HoldReason) (stream : Option StreamId) (tiles : List (Nat × Nat))
        (same : t.holdQ = up.holdQ) : t.hold ⟨h.id, h.req, why, stream, tiles, false⟩ = again why stream tiles t :=
      hold_split (same.trans queue') (same ▸ once') _ rfl
    refine ⟨fun same => settled (course_tagOrder_split queue' once' same), fun tags => ?_⟩
    have course := course_decoded_split queue' once' tags
    have overlaps {stream : Option StreamId} {tiles : List (Nat × Nat)} (t : State) (meets : overlapped stream tiles) :=
      orderedServe_split_overlapped queue' once' t meets
    have apart {stream : Option StreamId} {tiles : List (Nat × Nat)} (t : State) (clear : ¬overlapped stream tiles) :=
      orderedServe_split_apart queue' once' t clear
    refine ⟨fun a causes decoded => ?answered, fun decoded => ?passed, fun st slot ps decoded => ?read,
      fun st slot ps vacant decoded => ?write⟩
    all_goals rw [show up.decodeRequest h.req = _ from decoded] at course
    case answered => exact settled course
    case passed =>
      exact ⟨fun meets => settled (course.trans (overlaps _ meets)), fun clear => settled (course.trans (apart _ clear))⟩
    case read =>
      intro tiles os t
      have looked : OnlyLooked up t := onlyLooked_resolvePieces st slot ps up
      refine ⟨fun meets => settled (course.trans (overlaps _ meets)), fun clear =>
        ⟨fun before why after sound split resolved => ?_, fun sound resolved => settled (course.trans (apart _ clear)),
          fun damaged => settled ((course.trans (apart _ clear)).trans (serveRead_mapError damaged))⟩⟩
      have first : firstHold os = some why := split ▸ firstHold_of_split resolved
      exact settled ((course.trans (apart _ clear)).trans
        ((serveRead_held sound first).trans (held_again t why _ _ looked.holdQ)))
    case write =>
      intro tiles live needed
      refine ⟨fun meets => settled (course.trans (overlaps _ meets)), fun clear => ?_⟩
      have served := course.trans (apart _ clear)
      refine ⟨fun closing => settled (served.trans ((serveWrite_closing (s := up) _ closing).trans (held_again up _ _ _ rfl))),
        fun running pos blocked =>
          settled (served.trans ((serveWrite_blocked (s := up) _ running blocked).trans (held_again up _ _ _ rfl))),
        fun running free short => ?_, fun running free enough => ?_⟩
      · refine settled (served.trans ((serveWrite_noEntry (s := up) _ running free short).trans ?_))
        rw [held_again up _ _ _ rfl, victims_eq]
        rfl
      · refine settled (served.trans ((serveWrite_placed (s := up) _ running free enough).trans ?_))
        refine told_startCommits ?_ ?_
        all_goals
          rw [storePieces_shape]
          rfl

end

/-! ## The downstream port (O33 to O35) -/
section
namespace Sys2Proof.Machine

/-! ### The arbiter -/

section
variable {s : State} {x y : Xfer}

theorem arbitrate_pass (pass : s.passCandidate = some x) (internal : s.internalCandidate = none) :
    s.arbitrate = s.grantPass x := by
  rw [State.arbitrate, pass, internal]

theorem arbitrate_internal (pass : s.passCandidate = none) (internal : s.internalCandidate = some y) :
    s.arbitrate = s.grantInternal y := by
  rw [State.arbitrate, pass, internal]

theorem arbitrate_both_pass (pass : s.passCandidate = some x) (internal : s.internalCandidate = some y)
    (last : s.lastGranted = .internal) : s.arbitrate = s.grantPass x := by
  simp only [State.arbitrate, pass, internal, last]

theorem arbitrate_both_internal (pass : s.passCandidate = some x) (internal : s.internalCandidate = some y)
    (last : s.lastGranted = .passThrough) : s.arbitrate = s.grantInternal y := by
  simp only [State.arbitrate, pass, internal, last]

theorem arbitrate_neither (pass : s.passCandidate = none) (internal : s.internalCandidate = none) : s.arbitrate = s := by
  rw [State.arbitrate, pass, internal]

theorem passCandidate_eq_some_iff :
    s.passCandidate = some x ↔ s.passClass.find? (fun y => !y.issued) = some x ∧ s.homeWait x = false := by
  unfold State.passCandidate
  cases s.passClass.find? fun y => !y.issued with
  | none => simp
  | some z =>
    cases wait : s.homeWait z with
    | true =>
      simp only [wait, if_true, Option.some.injEq, reduceCtorEq, false_iff, not_and]
      rintro rfl
      simp [wait]
    | false =>
      simp only [wait, Bool.false_eq_true, if_false, Option.some.injEq]
      exact ⟨fun h => ⟨h, h ▸ wait⟩, fun h => h.1⟩

theorem internalCandidate_eq_some_iff : s.internalCandidate = some x ↔
    (s.internal.filter Xfer.issued).length < 8 ∧ ∃ older younger, s.internal = older ++ x :: younger ∧
      x.issued = false ∧ s.homeWait x = false ∧ ∀ y ∈ older, y.issued = true ∨ s.homeWait y = true := by
  unfold State.internalCandidate
  by_cases room : (s.internal.filter Xfer.issued).length < 8
  · rw [if_pos (show issuedCount s.internal < Config.internalIssued from room), List.find?_eq_some_iff_append]
    simp only [room, true_and, Bool.and_eq_true, Bool.not_eq_true', Bool.and_eq_false_iff,
      Bool.not_eq_false']
    constructor
    · rintro ⟨⟨fresh, clear⟩, older, younger, split, waiting⟩
      exact ⟨older, younger, split, fresh, clear, waiting⟩
    · rintro ⟨older, younger, split, fresh, clear, waiting⟩
      exact ⟨⟨fresh, clear⟩, older, younger, split, waiting⟩
  · rw [if_neg (show ¬issuedCount s.internal < Config.internalIssued from room)]
    exact ⟨(nomatch ·), fun h => absurd h.1 room⟩

end

theorem earlierGroup_iff (y x : Xfer) :
    y.earlierGroup x = true ↔ y.id < x.id ∧ ¬(y.step = x.step ∧ y.owner.block = x.owner.block) := by
  rw [Xfer.earlierGroup, Xfer.sameGroup, Bool.and_eq_true, decide_eq_true_eq, Bool.not_eq_true', ← Bool.not_eq_true,
    Bool.and_eq_true, beq_iff_eq, beq_iff_eq]

theorem homeWait_iff (s : State) (x : Xfer) : s.homeWait x = true ↔
    s.homeXfer x = true ∧ ∃ y, (y ∈ s.passClass ∨ y ∈ s.internal) ∧ s.homeXfer y = true ∧
      y.wire.addr.toNat / 1024 = x.wire.addr.toNat / 1024 ∧ y.id < x.id ∧
      ¬(y.step = x.step ∧ y.owner.block = x.owner.block) := by
  simp only [State.homeWait, Bool.and_eq_true, List.any_eq_true, List.mem_append, earlierGroup_iff, beq_iff_eq, Xfer.home,
    and_assoc]

theorem homeKind_iff (o : Owner) : o.homeKind = true ↔ (∃ req piece, o = .homeRead req piece) ∨ ∃ st pos,
    o ∈ [.verifyRead st pos, .mergeRead st pos, .commitWrite st pos, .copyRead st pos, .copyWrite st pos] := by
  cases o <;> simp [Owner.homeKind]

/-- The homes of a stream as a run of slots, and one by one (R17). -/
theorem inHomes_iff (g : Geom) (a : Nat) :
    (g.storage ≤ a ∧ a < g.storage + g.slots * g.slotStride ∧ (a - g.storage) % g.slotStride < g.tiles * 1024) ↔
      ∃ slot pos, slot < g.slots ∧ pos < g.tiles ∧ g.home slot pos ≤ a ∧ a < g.home slot pos + 1024 := by
  have stride : g.tiles * 1024 ≤ g.slotStride := by
    unfold Geom.slotStride
    omega
  constructor
  · rintro ⟨above, below, inTiles⟩
    have positive : 0 < g.slotStride := by omega
    have split := Nat.div_add_mod (a - g.storage) g.slotStride
    have slot : (a - g.storage) / g.slotStride < g.slots := (Nat.div_lt_iff_lt_mul positive).mpr (by omega)
    rw [Nat.mul_comm] at split
    refine ⟨(a - g.storage) / g.slotStride, (a - g.storage) % g.slotStride / 1024, slot, by omega, ?_⟩
    unfold Geom.home
    omega
  · rintro ⟨slot, pos, inSlots, inTiles, above, below⟩
    unfold Geom.home at above below
    have last : (slot + 1) * g.slotStride ≤ g.slots * g.slotStride := Nat.mul_le_mul_right _ inSlots
    rw [Nat.succ_mul] at last
    have offset : a - g.storage = g.slotStride * slot + (a - g.storage - slot * g.slotStride) := by
      rw [Nat.mul_comm g.slotStride]
      omega
    refine ⟨by omega, by omega, ?_⟩
    rw [offset, Nat.mul_add_mod, Nat.mod_eq_of_lt (by omega)]
    omega

theorem inLiveHome_iff (s : State) (a : Nat) : s.inLiveHome a = true ↔ ∃ st, (s.stream st).live = true ∧
    ∃ slot pos, slot < (s.geometry st).slots ∧ pos < (s.geometry st).tiles ∧
      (s.geometry st).home slot pos ≤ a ∧ a < (s.geometry st).home slot pos + 1024 := by
  simp only [← inHomes_iff, State.inLiveHome, List.any_eq_true, List.mem_finRange, true_and, Bool.and_eq_true,
    decide_eq_true_iff, and_assoc]

/-! ### Answers to the pass-through class -/

section
variable {s : State} {a : DramAnswer} {x : Xfer}
  (found : s.passClass.find? (fun y => y.id == a.xfer && y.tag == a.tag && y.issued) = some x)
include found

theorem passThroughAnswered_eq {req : Nat} (owner : x.owner = .passThrough req)
    (fits : x.wire.kind = .read → a.data.length = 32 * x.wire.beats) :
    s.passThroughAnswered a = (s.dropPass x.id).answer req (passAnswerOf x.wire a) := by
  have whole : passFits x.wire a = true := by
    cases kind : x.wire.kind with
    | read => simpa [passFits, kind] using fits kind
    | write => simp [passFits, kind]
  rw [State.passThroughAnswered, issuedXfer, found]
  simp only [owner, whole, if_true]

theorem homeReadAnswered_eq {req k : Nat} (owner : x.owner = .homeRead req k) (kept : x.abandoned = false)
    (fits : x.wire.fits a = true) :
    s.homeReadAnswered a = ((s.dropPass x.id).answerPiece req k a).finishRead req := by
  rw [State.homeReadAnswered, issuedXfer, found]
  simp only [owner, kept, fits, Bool.false_eq_true, if_false, if_true]

end

/-- A read whose piece has been answered stands in the place of the read. -/
theorem find_answerPiece {s : State} {req : Nat} {q : ResolvedRead} (k : Nat) (a : DramAnswer)
    (found : s.reads.find? (fun q => q.id == req) = some q) :
    (s.answerPiece req k a).reads.find? (fun q => q.id == req) = some (q.answered k a) := by
  have same (u : ResolvedRead) : (if u.id = req then u.answered k a else u).id = u.id := by
    split <;> rfl
  have named : q.id = req := by simpa using List.find?_some found
  rw [State.answerPiece, List.find?_map, show ((fun q : ResolvedRead => q.id == req) ∘
    fun u => if u.id = req then u.answered k a else u) = fun q => q.id == req from funext fun u => by simp [same], found,
    Option.map_some, if_pos named]

section
variable {s : State} {id : Nat} {q : ResolvedRead} (found : s.reads.find? (fun q => q.id == id) = some q)
include found

theorem finishRead_waiting (waits : q.pieces.any ReadPiece.waiting = true) : s.finishRead id = s := by
  rw [State.finishRead, found]
  exact if_pos waits

theorem finishRead_answered (done : q.pieces.any ReadPiece.waiting = false) : s.finishRead id =
    (s.dropRead id).answer id ⟨if q.failed then .dataError else .okay, q.bytes⟩ := by
  rw [State.finishRead, found]
  exact if_neg (by simp [done])

end

/-! ### Answers that only end their transfer -/

theorem next_finish_congr {s t : State} (h : s = t) : (Host.Outcome.next s.finish : Result State) = .next t.finish := by
  rw [h]

/-- No transfer of the class that the answer is not for has its identity. -/
theorem issuedXfer_apart {xs ys : List Xfer} {a : DramAnswer} {x : Xfer} (found : issuedXfer xs a = some x)
    (apart : ∀ n ∈ xs.map Xfer.id, n ∉ ys.map Xfer.id) : issuedXfer ys a = none := by
  have named : x.id = a.xfer := by
    have test := List.find?_some found
    simp only [Bool.and_eq_true, beq_iff_eq] at test
    exact test.1.1
  refine List.find?_eq_none.mpr fun y hy test => ?_
  simp only [Bool.and_eq_true, beq_iff_eq] at test
  refine apart x.id (List.mem_map_of_mem (List.mem_of_find?_eq_some found)) ?_
  rw [named, ← test.1.1]
  exact List.mem_map_of_mem hy

theorem discardPass_none {s : State} {a : DramAnswer} (h : issuedXfer s.passClass a = none) : s.discardPass a = s := by
  rw [State.discardPass, h]

theorem discardPass_abandoned {s : State} {a : DramAnswer} {x : Xfer} (found : issuedXfer s.passClass a = some x)
    (dropped : x.abandoned = true) : s.discardPass a = s.dropPass x.id := by
  rw [State.discardPass, found]
  exact if_pos dropped

theorem writeAnswered_okay {s : State} {st : StreamId} {a : DramAnswer} (okay : a.status = .okay) :
    s.writeAnswered st a = s := by
  rw [State.writeAnswered, okay]

end Sys2Proof.Machine

open Sys2Proof Sys2Proof.Machine

/-- Settles O33: the candidates of the classes decide the grant; the order of a home is its test read out. -/
theorem arbiterGrantsByTheClassesWaiting : Obligations.ArbiterGrantsByTheClassesWaiting := by
  refine ⟨fun s => ?grants, homeWait_iff, fun s x => ?homeTransfer, fun o => ?block⟩
  case grants =>
    have granted {t : State} (h : s.arbitrate = t) : exec .arbiterGrant s = .next t := congrArg Host.Outcome.next h
    refine ⟨fun x pass internal => granted (arbitrate_pass pass internal),
      fun y pass internal => granted (arbitrate_internal pass internal),
      fun x y pass internal last => granted (arbitrate_both_pass pass internal last),
      fun x y pass internal last => granted (arbitrate_both_internal pass internal last),
      fun pass internal => granted (arbitrate_neither pass internal), fun x => passCandidate_eq_some_iff,
      fun x => internalCandidate_eq_some_iff, fun strap => rfl, rfl⟩
  case homeTransfer =>
    rw [State.homeXfer, Bool.and_eq_true, homeKind_iff, inLiveHome_iff]
    simp only [live_iff]
  case block => cases o <;> rfl

/-- Settles O34: the answer reaches its owner, and the read is answered when no piece of it waits. -/
theorem passThroughClassAnswers : Obligations.PassThroughClassAnswers := by
  refine ⟨fun a s x req found owner fits => ?passThrough, fun a s x req k q found owner kept read fits held => ?homeRead⟩
  case passThrough =>
    exact next_finish_congr (passThroughAnswered_eq found owner fits)
  case homeRead =>
    intro piece q' left
    have answered := homeReadAnswered_eq found owner kept (fits_read read fits)
    have there : ((s.dropPass x.id).answerPiece req k a).reads.find? (fun q => q.id == req) = some (q.answered k a) :=
      find_answerPiece (s := s.dropPass x.id) k a held
    exact ⟨fun waits => next_finish_congr (answered.trans (finishRead_waiting there waits)),
      fun done => next_finish_congr (answered.trans (finishRead_answered there done))⟩

/-- Settles O35: the owner of an OKAY write, and of an abandoned transfer, does nothing more; no transfer of the other class
is the answer's. -/
theorem answersThatOnlyEndTheirTransfer : Obligations.AnswersThatOnlyEndTheirTransfer := by
  intro a s x ended
  refine ⟨fun found kept okay write => ⟨fun st pos owner => next_finish_congr ?_, fun st pos owner => next_finish_congr ?_⟩,
    fun found dropped ids => next_finish_congr ?_, fun found dropped ids => next_finish_congr ?_⟩
  · rw [internalAnswer_handed found kept (by rw [owner]; rfl) (fits_write write), owner]
    exact writeAnswered_okay okay
  · rw [internalAnswer_handed found kept (by rw [owner]; rfl) (fits_write write), owner]
    exact writeAnswered_okay okay
  · have no_pass : issuedXfer s.passClass a = none :=
      issuedXfer_apart found fun n internal pass => ids.classesApart n pass internal
    rw [internalAnswer_abandoned found dropped]
    exact discardPass_none no_pass
  · rw [internalAnswer_none (issuedXfer_apart found ids.classesApart)]
    exact discardPass_abandoned found dropped

end

/-! ## Places, homes and the assembly buffer (O36 to O38) -/
section
namespace Sys2Proof.Machine

/-! ### Pieces and places -/

theorem pieces_len (g : Geom) (o len : Nat) : (g.pieces o len).map Piece.len = (cutAt 64 o (o + len)).map partSize := by
  rw [Geom.pieces, List.map_map]
  rfl

/-- The offset lies in plane `n`, within its raster extent and its width (R9, R10). -/
def Geom.InPlane (g : Geom) (n o : Nat) : Prop :=
  (g.plane n).raster ≤ o ∧ o < (g.plane n).raster + (g.plane n).pitch * (g.plane n).height ∧
    (o - (g.plane n).raster) % (g.plane n).pitch < (g.plane n).width

/-- The place of an offset that lies in plane `n` (R9). -/
def Geom.placeIn (g : Geom) (n o : Nat) : PieceTile :=
  let d := o - (g.plane n).raster
  ⟨n, g.planeBase n + d / (g.plane n).pitch / 16 * (g.plane n).columns + d % (g.plane n).pitch / 64, d / (g.plane n).pitch,
    d % (g.plane n).pitch, d / (g.plane n).pitch % 16, d % (g.plane n).pitch % 64⟩

theorem locateIn_of_inPlane {g : Geom} {n o : Nat} (h : g.InPlane n o) : g.locateIn n o = some (g.placeIn n o) := by
  obtain ⟨low, high, width⟩ := h
  exact (if_pos ⟨low, high⟩).trans (if_pos width)

theorem locateIn_of_not_inPlane {g : Geom} {n o : Nat} (h : ¬g.InPlane n o) : g.locateIn n o = none := by
  unfold Geom.locateIn
  dsimp only
  split
  · next extent => exact if_neg fun width => h ⟨extent.1, extent.2, width⟩
  · rfl

theorem locateIn_isSome_iff (g : Geom) (n o : Nat) : (∃ t, g.locateIn n o = some t) ↔ g.InPlane n o := by
  by_cases h : g.InPlane n o
  · simp [locateIn_of_inPlane h, h]
  · simp [locateIn_of_not_inPlane h, h]

theorem locate_first {g : Geom} {o : Nat} (h : g.InPlane 0 o) : g.locate o = g.locateIn 0 o := by
  rw [Geom.locate, locateIn_of_inPlane h]

theorem locate_second {g : Geom} {o : Nat} (h : ¬g.InPlane 0 o) :
    g.locate o = if g.planeCount = 2 then g.locateIn 1 o else none := by
  rw [Geom.locate, locateIn_of_not_inPlane h]

theorem locate_isSome_iff (g : Geom) (o : Nat) :
    (∃ t, g.locate o = some t) ↔ g.InPlane 0 o ∨ (g.planeCount = 2 ∧ g.InPlane 1 o) := by
  by_cases first : g.InPlane 0 o
  · rw [locate_first first, locateIn_isSome_iff]
    simp [first]
  · by_cases two : g.planeCount = 2
    · rw [locate_second first, if_pos two, locateIn_isSome_iff]
      simp [first, two]
    · rw [locate_second first, if_neg two]
      simp [first, two]

/-! ### Homes -/

theorem tiles_le_slotStride (g : Geom) : g.tiles * 1024 ≤ g.slotStride := by
  unfold Geom.slotStride
  omega

theorem home_lt_of_slot_lt (g : Geom) {slot slot' pos : Nat} (pos' : Nat) (inTiles : pos < g.tiles) (h : slot < slot') :
    g.home slot pos + 1024 ≤ g.home slot' pos' := by
  have stride := tiles_le_slotStride g
  have next : (slot + 1) * g.slotStride ≤ slot' * g.slotStride := Nat.mul_le_mul_right _ h
  rw [Nat.succ_mul] at next
  unfold Geom.home
  omega

/-- Homes of different (slot, position) pairs share no byte (R17). -/
theorem homes_apart (g : Geom) {slot pos slot' pos' : Nat} (inTiles : pos < g.tiles) (inTiles' : pos' < g.tiles)
    (differ : slot ≠ slot' ∨ pos ≠ pos') :
    g.home slot pos + 1024 ≤ g.home slot' pos' ∨ g.home slot' pos' + 1024 ≤ g.home slot pos := by
  rcases Nat.lt_trichotomy slot slot' with below | same | above
  · exact .inl (home_lt_of_slot_lt g pos' inTiles below)
  · unfold Geom.home
    subst same
    omega
  · exact .inr (home_lt_of_slot_lt g pos inTiles' above)

theorem home_aligned (g : Geom) (slot pos : Nat) (h : g.storage % 4096 = 0) : g.home slot pos % 1024 = 0 := by
  have stride : slot * g.slotStride = slot * ((g.tiles * 1024 + 4095) / 4096) * 4096 := by
    rw [Geom.slotStride, Nat.mul_assoc]
  unfold Geom.home
  omega

/-! ### Tiles by plane, row and column -/

section
variable {g : Geom} {n row col : Nat} (plane : n < 2) (inCols : col < (g.plane n).columns) (inRows : row < (g.plane n).rows)
include plane inCols inRows

theorem planeOf_place : g.planeOf (g.planeBase n + row * (g.plane n).columns + col) = n := by
  obtain rfl | rfl : n = 0 ∨ n = 1 := by omega
  · have last : (row + 1) * (g.plane 0).columns ≤ (g.plane 0).rows * (g.plane 0).columns := Nat.mul_le_mul_right _ inRows
    rw [Nat.succ_mul, Nat.mul_comm (g.plane 0).rows] at last
    exact if_pos (by simp only [Geom.planeBase, Plane.tiles, if_true]; omega)
  · exact if_neg (by simp only [Geom.planeBase, Nat.one_ne_zero, if_false]; omega)

theorem tileRow_place : g.tileRow (g.planeBase n + row * (g.plane n).columns + col) = row := by
  rw [Geom.tileRow, planeOf_place plane inCols inRows, Nat.add_assoc, Nat.add_sub_cancel_left, Nat.mul_comm,
    Nat.mul_add_div (by omega), Nat.div_eq_of_lt inCols, Nat.add_zero]

theorem tileCol_place : g.tileCol (g.planeBase n + row * (g.plane n).columns + col) = col := by
  rw [Geom.tileCol, planeOf_place plane inCols inRows, Nat.add_assoc, Nat.add_sub_cancel_left, Nat.mul_comm,
    Nat.mul_add_mod, Nat.mod_eq_of_lt inCols]

theorem inPlaneLines_place : g.inPlaneLines (g.planeBase n + row * (g.plane n).columns + col) =
    if (g.plane n).height - row * 16 < 16 then (g.plane n).height - row * 16 else 16 := by
  rw [Geom.inPlaneLines, tileRow_place plane inCols inRows, planeOf_place plane inCols inRows]
  split <;> omega

end

theorem inPlaneLines_le (g : Geom) (pos : Nat) : g.inPlaneLines pos ≤ 16 := Nat.min_le_left ..

theorem complete_iff (g : Geom) (e : Entry) (full : e.cov.length = 1024) :
    e.complete g = true ↔ ∀ o, o < 64 * g.inPlaneLines e.pos → e.cov[o]? = some true := by
  have lines := inPlaneLines_le g e.pos
  rw [Entry.complete, List.all_eq_true]
  constructor
  · intro covered o ho
    have inside : o < (e.cov.take (64 * g.inPlaneLines e.pos)).length := by
      rw [List.length_take]
      omega
    have byte := covered _ (List.getElem_mem inside)
    rw [List.getElem_take] at byte
    exact (List.getElem?_eq_getElem _).trans (congrArg some byte)
  · intro covered b hb
    obtain ⟨o, inside, rfl⟩ := List.mem_iff_getElem.mp hb
    rw [List.length_take] at inside
    rw [List.getElem_take]
    have byte := covered o (by omega)
    rw [List.getElem?_eq_getElem (by omega)] at byte
    exact Option.some.inj byte

end Sys2Proof.Machine

open Sys2Proof Sys2Proof.Machine

/-- Settles O36: the pieces are the parts of `cutAt`; places, homes and tiles by their formulas. -/
theorem piecesPlacesAndHomesByTheFormulas : Obligations.PiecesPlacesAndHomesByTheFormulas := by
  refine ⟨fun g o len some_bytes => ?pieces, fun g o => ?planes, fun g n o t located => ?place,
    fun g slot pos slot' pos' inTiles inTiles' differ => ⟨homes_apart g inTiles inTiles' differ, home_aligned g slot pos⟩,
    fun g n row col => ?tiles, fun g cur view _ inSlots => viewOf_eq_emod g cur inSlots⟩
  case pieces =>
    obtain ⟨whole, parts⟩ := cutAt_spec (w := 64) (lo := o) (hi := o + len) (by decide) (by omega)
    refine ⟨by rw [pieces_len, whole]; omega, fun i p found => ?_⟩
    have before : (((g.pieces o len).take i).map Piece.len).sum = (((cutAt 64 o (o + len)).take i).map partSize).sum := by
      rw [List.map_take, pieces_len, List.map_take]
    rw [Geom.pieces, List.getElem?_map] at found
    obtain ⟨part, there, rfl⟩ := Option.map_eq_some_iff.mp found
    obtain ⟨start, nonempty, inside, boundary, segment, -⟩ := parts i part there
    rw [before]
    dsimp only
    have here : o + (part.1 - o) = part.1 := by omega
    have last : part.1 + (part.2 - part.1) = part.2 := by omega
    rw [here, last]
    exact ⟨by omega, by omega, boundary, segment, rfl⟩
  case planes =>
    intro inPlane
    exact ⟨locate_isSome_iff g o, fun n => locateIn_isSome_iff g n o, locate_first, fun first two =>
      (locate_second first).trans (if_pos two)⟩
  case place =>
    have inPlane : g.InPlane n o := (locateIn_isSome_iff g n o).mp ⟨t, located⟩
    obtain rfl : g.placeIn n o = t := Option.some.inj ((locateIn_of_inPlane inPlane).symm.trans located)
    exact ⟨rfl, rfl, rfl, rfl, rfl, rfl⟩
  case tiles =>
    intro p tiles0 pos lines plane inCols inRows
    have planeOf : g.planeOf pos = n := planeOf_place plane inCols inRows
    have inPlane : g.inPlaneLines pos = lines := inPlaneLines_place plane inCols inRows
    refine ⟨?_, by rw [Geom.fillOf, planeOf], inPlane, fun e at_pos full => ?_⟩
    · have tileRow : g.tileRow pos = row := tileRow_place plane inCols inRows
      have tileCol : g.tileCol pos = col := tileCol_place plane inCols inRows
      rw [Geom.anchor, planeOf, tileRow, tileCol]
    · rw [complete_iff g e full, at_pos, inPlane]

end

/-! ## The assembly buffer: placed bytes and ageing (O37, O38) -/
section
namespace Sys2Proof.Machine

/-! ### Placed bytes -/

theorem entryAt_eq_some {s : State} {st : StreamId} {pos : Nat} {e : Entry} (h : s.entryAt st pos = some e) :
    e ∈ s.entries ∧ e.stream = st ∧ e.pos = pos := by
  have test := List.find?_some h
  rw [Bool.and_eq_true, beq_iff_eq, beq_iff_eq] at test
  exact ⟨List.mem_of_find?_eq_some h, test⟩

/-- The entry that a piece is stored in is of the piece's position (R45). -/
theorem entryFor_place (s : State) (st : StreamId) (t : PieceTile) (num : Nat) (x : Stream) :
    ((s.entryAt st t.pos).getD (newEntry num st x t)).stream = st ∧ ((s.entryAt st t.pos).getD (newEntry num st x t)).pos = t.pos := by
  cases found : s.entryAt st t.pos with
  | none => exact ⟨rfl, rfl⟩
  | some e => exact (entryAt_eq_some found).2

theorem storePiece_eq (s : State) (st : StreamId) (r : Request) (p : Piece) (t : PieceTile) :
    let e := ((s.entryAt st t.pos).getD (newEntry s.newNumber st (s.stream st) t)).stored (s.stream st) r p t
    s.storePiece st r p t = { s with
      entries := (s.entries.filter fun d => !(d.stream == st && d.pos == t.pos)) ++ [e]
      lastWrite := (s.lastWrite.filter fun n => n != e.num) ++ [e.num] } := by
  intro e
  obtain ⟨stream, pos⟩ := entryFor_place s st t s.newNumber (s.stream st)
  have place : e.stream = st ∧ e.pos = t.pos := ⟨stream, pos⟩
  have put : s.storePiece st r p t = s.putEntry e := rfl
  rw [put, State.putEntry, place.1, place.2]

section
variable {e : Entry} {x : Stream} {r : Request} {p : Piece} {t : PieceTile} (inside : t.i * 64 + t.j + p.len ≤ 1024)
include inside

/-- The bytes of an entry after a piece is stored: within the piece the enabled ones, as fill where masked (R46, R47). -/
theorem getElem?_stored_data (data : e.data.length = 1024) (bytes : p.off + p.len ≤ r.data.length)
    (lanes : p.off + p.len ≤ r.enables.length) (o : Nat) : (e.stored x r p t).data[o]? =
    if t.i * 64 + t.j ≤ o ∧ o < t.i * 64 + t.j + p.len ∧ r.enables[p.off + (o - (t.i * 64 + t.j))]? = some true then
      if x.maskActive ((t.col + (o - (t.i * 64 + t.j))) / (x.geometry.plane t.plane).colBytes)
          (t.line * (x.geometry.plane t.plane).vfactor) then some (x.geometry.plane t.plane).fill
      else r.data[p.off + (o - (t.i * 64 + t.j))]?
    else e.data[o]? := by
  have old : (slice e.data (t.i * 64 + t.j) p.len).length = p.len := length_slice _ _ _ (by omega)
  have new : (slice r.data p.off p.len).length = p.len := length_slice _ _ _ bytes
  have enables : (slice r.enables p.off p.len).length = p.len := length_slice _ _ _ lanes
  unfold Entry.stored
  dsimp only
  rw [getElem?_splice _ _ _ _ (by rw [length_storeSegment, old]; omega), length_storeSegment, old]
  by_cases piece : t.i * 64 + t.j ≤ o ∧ o < t.i * 64 + t.j + p.len
  · have lane : o - (t.i * 64 + t.j) < p.len := by omega
    rw [if_pos piece, getElem?_storeSegment _ _ _ _ _ _ _ (new.trans old.symm) (enables.trans old.symm),
      getElem?_slice _ _ _ _ lane, getElem?_slice _ _ _ _ lane, getElem?_slice _ _ _ _ lane, Nat.zero_add,
      Nat.add_sub_cancel' piece.1]
    simp only [piece.1, piece.2, true_and]
  · rw [if_neg piece, if_neg fun h => piece ⟨h.1, h.2.1⟩]

theorem getElem?_stored_cov (cov : e.cov.length = 1024) (lanes : p.off + p.len ≤ r.enables.length) (o : Nat) : (e.stored x r p t).cov[o]? =
    if t.i * 64 + t.j ≤ o ∧ o < t.i * 64 + t.j + p.len ∧ r.enables[p.off + (o - (t.i * 64 + t.j))]? = some true then some true
    else e.cov[o]? := by
  have old : (slice e.cov (t.i * 64 + t.j) p.len).length = p.len := length_slice _ _ _ (by omega)
  have enables : (slice r.enables p.off p.len).length = p.len := length_slice _ _ _ lanes
  unfold Entry.stored
  dsimp only
  rw [getElem?_splice _ _ _ _ (by rw [length_coverSegment, old]; omega), length_coverSegment, old]
  by_cases piece : t.i * 64 + t.j ≤ o ∧ o < t.i * 64 + t.j + p.len
  · have lane : o - (t.i * 64 + t.j) < p.len := by omega
    rw [if_pos piece, getElem?_coverSegment _ _ _ (enables.trans old.symm), getElem?_slice _ _ _ _ lane,
      getElem?_slice _ _ _ _ lane, Nat.add_sub_cancel' piece.1]
    simp only [piece.1, piece.2, true_and]
  · rw [if_neg piece, if_neg fun h => piece ⟨h.1, h.2.1⟩]

theorem length_stored (data : e.data.length = 1024) (cov : e.cov.length = 1024) :
    (e.stored x r p t).data.length = 1024 ∧ (e.stored x r p t).cov.length = 1024 := by
  have olds : (slice e.data (t.i * 64 + t.j) p.len).length = p.len ∧ (slice e.cov (t.i * 64 + t.j) p.len).length = p.len :=
    ⟨length_slice _ _ _ (by omega), length_slice _ _ _ (by omega)⟩
  unfold Entry.stored
  dsimp only
  rw [length_splice _ _ _ (by rw [length_storeSegment, olds.1]; omega),
    length_splice _ _ _ (by rw [length_coverSegment, olds.2]; omega)]
  exact ⟨data, cov⟩

end

/-! ### Ageing -/

theorem step_of_idle {s : State} (idle : s.pending = []) : step s = .next s.referencePeriod := by
  unfold step
  split
  · rfl
  · next c rest waiting => exact absurd (idle.symm.trans waiting) (List.cons_ne_nil c rest).symm

theorem mem_expired (s : State) (n : Nat) : n ∈ s.expired ↔ n ∈ s.lastWrite ∧ ∃ e age, s.entryNum n = some e ∧
    e.state = .collecting age ∧ 1 ≤ s.ageLimit ∧ s.ageLimit ≤ age := by
  rw [State.expired, List.mem_filter]
  refine and_congr_right fun _ => ?_
  cases s.entryNum n with
  | none => simp
  | some e => cases state : e.state <;> simp [state]

theorem expired_nodup {s : State} (once : s.lastWrite.Nodup) : s.expired.Nodup := once.filter _

/-- The number of the entry of a tile, if it is due. -/
theorem expiredAt_eq {s : State} {st : StreamId} {pos : Nat} {e : Entry} (once : s.lastWrite.Nodup)
    (found : s.entryAt st pos = some e) : s.expiredAt st pos = if e.num ∈ s.expired then [e.num] else [] := by
  have test : (fun n => (s.entryAt st pos).any fun e => e.num == n) = fun n => n == e.num := by
    funext n
    rw [found, Option.any_some, Bool.beq_comm]
  rw [State.expiredAt, test, List.filter_beq]
  split
  · next due => rw [(expired_nodup once).count, if_pos due, List.replicate_one]
  · next fresh => rw [List.count_eq_zero_of_not_mem fresh, List.replicate_zero]

section
variable {s : State} (laws : s.BufferLaws) {st : StreamId} {pos : Nat} {e : Entry} (found : s.entryAt st pos = some e)
include laws found

theorem entryNum_of_entryAt : s.entryNum e.num = some e := by
  have here := (entryAt_eq_some found).1
  cases named : s.entryNum e.num with
  | none => exact absurd (List.find?_eq_none.mp named e here) (by simp)
  | some d =>
    have same : d.num = e.num := by simpa using List.find?_some named
    rw [entry_eq_of_num laws.numbersOnce (List.mem_of_find?_eq_some named) here same]

theorem mem_expired_iff {age : Nat} (collecting : e.state = .collecting age) :
    e.num ∈ s.expired ↔ 1 ≤ s.ageLimit ∧ s.ageLimit ≤ age := by
  have ordered : e.num ∈ s.lastWrite :=
    (laws.orderHolds e.num).mpr ⟨e, (entryAt_eq_some found).1, rfl, by simp [Entry.collecting, collecting]⟩
  rw [mem_expired, entryNum_of_entryAt laws found]
  simp [ordered, collecting]

end

end Sys2Proof.Machine

open Sys2Proof Sys2Proof.Machine

/-- Settles O37: the stored entry byte by byte; a new number is the lowest that is free. -/
theorem placedBytesAreMaskedAndCovered : Obligations.PlacedBytesAreMaskedAndCovered := by
  refine ⟨fun s st r p t => storePiece_eq s st r p t, fun s _ room => newNumber_spec room, fun e x r p t => ?stored⟩
  case stored =>
    intro plane off data cov inside bytes lanes e' stores
    obtain ⟨data', cov'⟩ := length_stored (x := x) (r := r) inside data cov
    refine ⟨rfl, rfl, rfl, rfl, rfl, rfl, data', cov', fun o _ => ?_⟩
    have stores_iff : stores o ↔ off ≤ o ∧ o < off + p.len ∧ r.enables[p.off + (o - off)]? = some true := by
      refine and_congr_right fun low => and_congr_right fun high => ?_
      have lane : p.off + (o - off) < r.enables.length := by omega
      rw [List.getD_eq_getElem?_getD, List.getElem?_eq_getElem lane, Option.getD_some, Option.some.injEq]
    have byte : e'.data[o]? = _ := getElem?_stored_data inside data bytes lanes o
    have mark : e'.cov[o]? = _ := getElem?_stored_cov inside cov lanes o
    refine ⟨fun stored => ?_, fun kept => ?_⟩
    · have here := stores_iff.mp stored
      have lane : p.off + (o - off) < r.data.length := by omega
      rw [mark, byte, if_pos here, if_pos here, List.getD_eq_getElem?_getD, List.getElem?_eq_getElem lane, Option.getD_some]
      refine ⟨rfl, ?_⟩
      split <;> rfl
    · have elsewhere := mt stores_iff.mpr kept
      rw [mark, byte, if_neg elsewhere, if_neg elsewhere]
      exact ⟨rfl, rfl⟩

/-- Settles O38: the period, the tick and the due entries by their definitions; at most one entry is of a tile. -/
theorem referencePeriodsAgeTicksAndExpiry : Obligations.ReferencePeriodsAgeTicksAndExpiry := by
  refine ⟨fun s idle => step_of_idle idle, fun s => ⟨fun us => ?tick, mem_expired s, fun st pos e laws found => ?expiry⟩⟩
  case tick => rfl
  case expiry =>
    have started := expiredAt_eq laws.orderOnce found
    refine ⟨fun age collecting some_limit due => next_finish_congr ?_, fun age collecting fresh => next_finish_congr ?_⟩
    · rw [started, if_pos ((mem_expired_iff laws found collecting).mpr ⟨some_limit, due⟩)]
      rfl
    · rw [started, if_neg fun due => ?_]
      · rfl
      · have := (mem_expired_iff laws found collecting).mp due
        omega

end

/-! ## Lookups (O39)

What several lookups leave (`Looked`) is built up cell by cell: a cell with a single-bit error is corrected, any other changes
nothing. -/
section
namespace Sys2Proof.Machine

section
variable {s : State} {st : StreamId} {c : Nat}

/-- The check bits of a stream's cell. -/
def State.ecc (s : State) (st : StreamId) (c : Nat) : Ecc := (MapMemory.read s.mapMem (s.cellKey st c)).ecc

/-- The cells of a list that have a single-bit error. -/
def State.singles (s : State) (st : StreamId) (cells : List Nat) : List Nat := cells.filter fun c => s.ecc st c == .single

theorem lookupCell_good (h : s.ecc st c = .good) : s.lookupCell st c = (some (s.peekCell st c), s) := by
  have sound : (MapMemory.read s.mapMem (s.cellKey st c)).ecc = .good := h
  simp only [State.lookupCell, sound, State.peekCell]

theorem lookupCell_single (h : s.ecc st c = .single) :
    s.lookupCell st c = (some (s.peekCell st c), s.correctCell st c (s.peekCell st c)) := by
  have flawed : (MapMemory.read s.mapMem (s.cellKey st c)).ecc = .single := h
  simp only [State.lookupCell, flawed, State.peekCell]

theorem lookupCell_double (h : s.ecc st c = .double) : s.lookupCell st c = (none, s) := by
  have lost : (MapMemory.read s.mapMem (s.cellKey st c)).ecc = .double := h
  simp only [State.lookupCell, lost]

/-- A lookup fails exactly at a double-bit error. -/
theorem lookupCell_eq_none_iff : (s.lookupCell st c).1 = none ↔ s.ecc st c = .double := by
  cases h : s.ecc st c with
  | good => simp [lookupCell_good h]
  | single => simp [lookupCell_single h]
  | double => simp [lookupCell_double h]

theorem lookupCell_after_of_ne (h : s.ecc st c ≠ .single) : (s.lookupCell st c).2 = s := by
  cases he : s.ecc st c with
  | good => rw [lookupCell_good he]
  | single => exact absurd he h
  | double => rw [lookupCell_double he]

/-- A correction leaves every other cell. -/
theorem read_correctCell_ne {v : CellVal} {k : Nat} (h : k ≠ s.cellKey st c) :
    MapMemory.read (s.correctCell st c v).mapMem k = MapMemory.read s.mapMem k :=
  MapMemory.read_write_ne _ _ _ _ h

theorem read_correctCell_self {v : CellVal} (wf : MapMemory.wf s.mapMem = true) :
    MapMemory.read (s.correctCell st c v).mapMem (s.cellKey st c) = ⟨v, .good⟩ :=
  MapMemory.read_write_self _ _ _ wf

theorem wf_correctCell {v : CellVal} (wf : MapMemory.wf s.mapMem = true) :
    MapMemory.wf (s.correctCell st c v).mapMem = true :=
  MapMemory.wf_write _ _ _ wf

/-- A lookup leaves the check bits and the contents of the cells of other keys. -/
theorem read_lookupCell_ne {k : Nat} (h : k ≠ s.cellKey st c) :
    MapMemory.read (s.lookupCell st c).2.mapMem k = MapMemory.read s.mapMem k := by
  by_cases single : s.ecc st c = .single
  · rw [lookupCell_single single]
    exact read_correctCell_ne h
  · rw [lookupCell_after_of_ne single]

theorem cellKey_lookupCell : (s.lookupCell st c).2.cellKey st = s.cellKey st := by
  rw [lookupCell_shape]
  rfl

theorem wf_lookupCell (wf : MapMemory.wf s.mapMem = true) : MapMemory.wf (s.lookupCell st c).2.mapMem = true := by
  by_cases single : s.ecc st c = .single
  · rw [lookupCell_single single]
    exact wf_correctCell wf
  · rw [lookupCell_after_of_ne single]
    exact wf

theorem ecc_lookupCell_ne {d : Nat} (h : s.cellKey st d ≠ s.cellKey st c) :
    (s.lookupCell st c).2.ecc st d = s.ecc st d := by
  rw [State.ecc, cellKey_lookupCell, read_lookupCell_ne h]
  rfl

end

/-- `t` is what lookups of cells leave of `s` whose single-bit errors are those of `singles` (R28, R175). -/
structure Looked (s t : State) (st : StreamId) (singles : List Nat) : Prop where
  /-- the cells with an error hold their contents, error-free -/
  corrected : ∀ c ∈ singles, MapMemory.read t.mapMem (s.cellKey st c) = ⟨s.peekCell st c, .good⟩
  /-- every other cell is as it was -/
  kept : ∀ k, k ∉ singles.map (s.cellKey st) → MapMemory.read t.mapMem k = MapMemory.read s.mapMem k
  /-- the count rises by one for each, up to its stop -/
  shape : t = { s with
    mapMem := t.mapMem, corrected := min (s.corrected + singles.length) 65535, causes := t.causes }
  /-- MAP-CORRECTED is raised for the stream if there is one -/
  told : singles ≠ [] → t.cause 11 = (s.cause 11).raised st
  quiet : singles = [] → t = s
  others : ∀ i, i ≠ 11 → t.cause i = s.cause i

theorem Looked.refl {s : State} {st : StreamId} (stop : s.corrected ≤ 65535) : Looked s s st [] where
  corrected := fun _ h => absurd h List.not_mem_nil
  kept := fun _ _ => rfl
  shape := by rw [List.length_nil, Nat.add_zero, Nat.min_eq_left stop]
  told := fun h => absurd rfl h
  quiet := fun _ => rfl
  others := fun _ _ => rfl

/-- A correction, then lookups of cells of other keys. -/
theorem Looked.cons {s t : State} {st : StreamId} {c : Nat} {singles : List Nat} (wf : MapMemory.wf s.mapMem = true)
    (fresh : s.cellKey st c ∉ singles.map (s.cellKey st))
    (rest : Looked (s.correctCell st c (s.peekCell st c)) t st singles) : Looked s t st (c :: singles) where
  corrected := by
    intro d hd
    rcases List.mem_cons.mp hd with rfl | hd
    · exact (rest.kept _ fresh).trans (read_correctCell_self wf)
    · have other : s.cellKey st d ≠ s.cellKey st c := fun same => fresh (same ▸ List.mem_map_of_mem hd)
      refine (rest.corrected d hd).trans ?_
      rw [State.peekCell, show (s.correctCell st c (s.peekCell st c)).cellKey st d = s.cellKey st d from rfl,
        read_correctCell_ne other]
      rfl
  kept := by
    intro k hk
    rw [List.map_cons, List.mem_cons, not_or] at hk
    exact (rest.kept k hk.2).trans (read_correctCell_ne hk.1)
  shape := by
    have count : (s.correctCell st c (s.peekCell st c)).corrected = min (s.corrected + 1) 65535 := rfl
    have total : min (min (s.corrected + 1) 65535 + singles.length) 65535 = min (s.corrected + (c :: singles).length) 65535 := by
      rw [List.length_cons]
      omega
    have shape := rest.shape
    rw [count, total] at shape
    exact shape
  told := by
    intro _
    have once : (s.correctCell st c (s.peekCell st c)).cause 11 = (s.cause 11).raised st := cause_raise_self _ .mapCorrected st
    by_cases last : singles = []
    · rw [rest.quiet last, once]
    · rw [rest.told last, once, raised_raised]
  quiet := fun h => absurd h (List.cons_ne_nil _ _)
  others := fun i hi => (rest.others i hi).trans (cause_raise_ne (c := .mapCorrected) hi)

/-- Lookups of cells of different keys, and what they leave. -/
theorem lookupCells_looked (st : StreamId) (cells : List Nat) (s : State) (once : (cells.map (s.cellKey st)).Nodup)
    (wf : MapMemory.wf s.mapMem = true) (stop : s.corrected ≤ 65535) :
    Looked s (s.lookupCells st cells).2 st (s.singles st cells) := by
  induction cells generalizing s with
  | nil => exact .refl stop
  | cons c cells ih =>
    rw [List.map_cons, List.nodup_cons] at once
    obtain ⟨fresh, once⟩ := once
    show Looked s ((s.lookupCell st c).2.lookupCells st cells).2 st _
    by_cases single : s.ecc st c = .single
    · have same (d : Nat) (hd : d ∈ cells) : (s.lookupCell st c).2.ecc st d = s.ecc st d :=
        ecc_lookupCell_ne fun e => fresh (e ▸ List.mem_map_of_mem hd)
      have rest := ih (s.lookupCell st c).2 (by rw [cellKey_lookupCell]; exact once) (wf_lookupCell wf)
        (by rw [lookupCell_single single]; exact Nat.min_le_right ..)
      have singles_eq : s.singles st (c :: cells) = c :: (s.lookupCell st c).2.singles st cells := by
        rw [State.singles, List.filter_cons, if_pos (beq_iff_eq.mpr single)]
        exact congrArg (c :: ·) (List.filter_congr fun d hd => by rw [same d hd])
      rw [lookupCell_single single] at rest singles_eq ⊢
      rw [singles_eq]
      refine rest.cons wf fun h => fresh ?_
      exact List.map_subset _ List.filter_sublist.subset h
    · rw [lookupCell_after_of_ne single, State.singles, List.filter_cons, if_neg (by simpa using single)]
      exact ih s once wf stop

/-- Lookups fail exactly where one of the cells has a double-bit error. -/
theorem lookupCells_eq_none_iff (st : StreamId) (cells : List Nat) (s : State) (once : (cells.map (s.cellKey st)).Nodup) :
    (s.lookupCells st cells).1 = none ↔ ∃ c ∈ cells, s.ecc st c = .double := by
  induction cells generalizing s with
  | nil => simp [State.lookupCells]
  | cons c cells ih =>
    rw [List.map_cons, List.nodup_cons] at once
    obtain ⟨fresh, once⟩ := once
    have same (d : Nat) (hd : d ∈ cells) : (s.lookupCell st c).2.ecc st d = s.ecc st d :=
      ecc_lookupCell_ne fun e => fresh (e ▸ List.mem_map_of_mem hd)
    have rest := ih (s.lookupCell st c).2 (by rw [cellKey_lookupCell]; exact once)
    simp only [List.mem_cons, exists_eq_or_imp, ← lookupCell_eq_none_iff (c := c)]
    have later : (∃ d ∈ cells, (s.lookupCell st c).2.ecc st d = .double) ↔ ∃ d ∈ cells, s.ecc st d = .double :=
      exists_congr fun d => and_congr_right fun hd => by rw [same d hd]
    rw [← later, ← rest, State.lookupCells]
    cases (s.lookupCell st c).1 <;> simp

/-! ### The start of a commit, by its lookups -/

section
variable {s : State} {reason : Reason} {num : Nat} {e : Entry} (found : s.entryNum num = some e)
include found

theorem startCommit_lost (collecting : e.collecting = true)
    (lost : ((s.commitEntry num reason).lookupCells e.stream (commitCells (s.geometry e.stream) e.slot e.pos)).1 = none) :
    s.startCommit reason num = ((s.commitEntry num reason).lookupCells e.stream
      (commitCells (s.geometry e.stream) e.slot e.pos)).2.faultStream .mapFault e.stream := by
  rw [State.startCommit, found]
  dsimp only
  rw [if_pos collecting]
  split
  · next t looked => rw [looked]
  · next vals t looked => exact absurd (lost.symm.trans (congrArg Prod.fst looked)) (Option.some_ne_none vals).symm

theorem startCommit_committing (committing : e.collecting = false) : s.startCommit reason num = s := by
  rw [State.startCommit, found]
  exact if_neg (by simp [committing])

end

/-! ### What a fault leaves (R178) -/

section
variable {s : State} {c : Cause} {st : StreamId}

theorem commits_faultStream (running : (s.stream st).running = true) :
    (s.faultStream c st).commits = s.commits.filter fun c => c.stream != st := by
  rw [State.faultStream, if_pos running]
  rfl

theorem entries_faultStream_eq (running : (s.stream st).running = true) :
    (s.faultStream c st).entries = s.entries.filter fun e => !(e.stream == st &&
      (e.collecting || !(abandonXfers st s.internal).any fun x => x.owner.tile == some (st, e.pos))) := by
  rw [State.faultStream, if_pos running]
  rfl

/-- No transfer of a tile comes from abandoning. -/
theorem owner_abandonXfers {xs : List Xfer} {P : Owner → Prop} (h : ∀ x ∈ xs, P x.owner) :
    ∀ x ∈ abandonXfers st xs, P x.owner := by
  intro x hx
  obtain ⟨y, hy, rfl⟩ := List.mem_map.mp hx
  have kept := h y (List.mem_filter.mp hy).1
  split <;> exact kept

/-- A fault frees the entry of a tile that no transfer is outstanding for (R56). -/
theorem not_mem_entries_faultStream (running : (s.stream st).running = true) {pos : Nat}
    (idle : ∀ x ∈ s.internal, x.owner.tile ≠ some (st, pos)) :
    ∀ d ∈ (s.faultStream c st).entries, ¬(d.stream = st ∧ d.pos = pos) := by
  rintro d hd ⟨rfl, rfl⟩
  rw [entries_faultStream_eq running, List.mem_filter] at hd
  have none_busy : ((abandonXfers d.stream s.internal).any fun x => x.owner.tile == some (d.stream, d.pos)) = false :=
    (any_false _ _).mpr fun x hx => beq_eq_false_iff_ne.mpr
      (owner_abandonXfers (P := fun o => o.tile ≠ some (d.stream, d.pos)) idle x hx)
  simp [none_busy] at hd

end

theorem ids_releaseWhere (clears : HoldReason → Bool) (q : List Held) : (releaseWhere clears q).map Held.id = q.map Held.id := by
  rw [releaseWhere, List.map_map]
  refine List.map_congr_left fun h _ => ?_
  dsimp only [Function.comp]
  split <;> rfl

theorem ids_abandonWork (s : State) (st : StreamId) : (s.abandonWork st).holdQ.map Held.id = s.holdQ.map Held.id := by
  rw [State.abandonWork, State.freeEntriesWhere, State.release, ids_releaseWhere]
  rfl

theorem ids_answerHeld (s : State) (st : StreamId) (ans : Request → Answer) :
    ((s.answerHeld st ans).holdQ.map Held.id).Sublist (s.holdQ.map Held.id) :=
  Steps.sublist_sweepQueue ..

/-- A fault brings no held request. -/
theorem ids_faultStream (s : State) (c : Cause) (st : StreamId) :
    ((s.faultStream c st).holdQ.map Held.id).Sublist (s.holdQ.map Held.id) := by
  unfold State.faultStream
  split
  · refine (ids_answerHeld _ _ _).trans ?_
    rw [ids_abandonWork]
    exact .refl _
  · exact .refl _

theorem OnlyLooked.stream {s t : State} (h : OnlyLooked s t) (st : StreamId) : t.stream st = s.stream st := by
  rw [show t = { s with mapMem := t.mapMem, corrected := t.corrected, causes := t.causes } from h]
  rfl

theorem OnlyLooked.internal {s t : State} (h : OnlyLooked s t) : t.internal = s.internal := by
  rw [show t = { s with mapMem := t.mapMem, corrected := t.corrected, causes := t.causes } from h]

theorem onlyLooked_lookupCells (st : StreamId) (cells : List Nat) (s : State) : OnlyLooked s (s.lookupCells st cells).2 :=
  lookupCells_shape st cells s

theorem closeDue_of {s : State} {st : StreamId} (closing : (s.stream st).state = .closing)
    (first : (s.stream st).phase = some .first) (empty : ∀ e ∈ s.entries, e.stream ≠ st) : s.closeDue st = true := by
  have no_entry : s.hasEntries st = false := (any_false _ _).mpr fun e he => beq_eq_false_iff_ne.mpr (empty e he)
  simp [State.closeDue, closing, first, no_entry]

theorem beginSecondPhase_lost {s : State} {st : StreamId}
    (lost : (s.lookupCells st (slotCells (s.geometry st) (s.stream st).slot)).1 = none) : s.beginSecondPhase st =
      (s.lookupCells st (slotCells (s.geometry st) (s.stream st).slot)).2.faultStream .mapFault st := by
  unfold State.beginSecondPhase
  dsimp only
  split
  · next t looked => rw [show s.lookupCells st (slotCells (s.geometry st) (s.stream st).slot) = (none, t) from looked]
  · next vals t looked => exact absurd (lost.symm.trans (congrArg Prod.fst looked)) (Option.some_ne_none vals).symm

end Sys2Proof.Machine

open Sys2Proof Sys2Proof.Machine

/-- Settles O39: one lookup by its check bits, several by `Looked`, and what each caller does where one of them fails. -/
theorem lookupsCheckEveryCell : Obligations.LookupsCheckEveryCell := by
  refine ⟨fun s st c => ⟨lookupCell_good, lookupCell_single, lookupCell_double⟩, fun s st cells once wf stop => ?several,
    fun s reason num e age found collecting running idle => ?commit, fun s id r st slot ps read absent damaged => ?read,
    fun s st closing first empty => ?close⟩
  case several =>
    intro ecc singles vals t
    have looked : Looked s t st singles := lookupCells_looked st cells s once wf stop
    exact ⟨lookupCells_eq_none_iff st cells s once, lookupCells_values st cells s wf, looked.corrected, looked.kept,
      looked.shape, looked.told, looked.quiet, looked.others⟩
  case commit =>
    intro g cells taken lost
    have looked : OnlyLooked taken (taken.lookupCells e.stream cells).2 := onlyLooked_lookupCells e.stream cells taken
    have faulted : s.startCommit reason num = (taken.lookupCells e.stream cells).2.faultStream .mapFault e.stream :=
      startCommit_lost found (by simp [Entry.collecting, collecting]) lost
    have runs : ((taken.lookupCells e.stream cells).2.stream e.stream).running = true := by
      rw [looked.stream]
      exact (running_iff _).mpr running
    refine ⟨faulted, ?_, ?_, ?_⟩
    all_goals rw [faulted]
    · exact (stream_faultStream _ _ _ _ runs).symm ▸ by rw [if_pos rfl]
    · exact not_mem_entries_faultStream runs (looked.internal ▸ idle)
    · intro c hc
      rw [commits_faultStream runs, List.mem_filter] at hc
      exact bne_iff_ne.mp hc.2
  case read =>
    intro t
    have looked := onlyLooked_resolvePieces st slot ps s
    rw [serveRead_mapError damaged, leave_absent]
    · rw [faultAnswer_read read]
      rfl
    · intro h hh same
      have id_mem : id ∈ s.holdQ.map Held.id :=
        looked.holdQ ▸ (ids_faultStream _ _ _).subset (List.mem_map.mpr ⟨h, hh, same⟩)
      obtain ⟨h', hh', same'⟩ := List.mem_map.mp id_mem
      exact absent h' hh' same'
  case close =>
    intro g looked lost
    refine next_finish_congr ?_
    rw [State.closeIfDue, if_pos (closeDue_of closing first empty)]
    exact beginSecondPhase_lost lost

end

/-! ## The laws of the map (O40)

Different cells of a stream, and cells of different streams, stand at different keys (`cellKey_ne`); so a map change is known
place by place, and the laws are about the states and the record of one position (`MapLawsOf`). -/
section
namespace Sys2Proof.Machine

/-! ### The keys of cells -/

theorem recordCell_eq (g : Geom) (pos : Nat) : g.recordCell pos = g.entryCell g.slots pos := rfl

/-- A row and a column of it are known from the place. -/
theorem row_col_inj {k b b' r r' : Nat} (h : r < k) (h' : r' < k) (same : b * k + r = b' * k + r') : b = b' ∧ r = r' := by
  have row (n c : Nat) (hc : c < k) : (n * k + c) / k = n := by
    rw [Nat.mul_comm, Nat.mul_add_div (by omega), Nat.div_eq_of_lt hc, Nat.add_zero]
  have rows : b = b' := (row b r h).symm.trans ((congrArg (· / k) same).trans (row b' r' h'))
  subst rows
  exact ⟨rfl, by omega⟩

theorem entryCell_inj {g : Geom} {q q' pos pos' : Nat} (h : pos < g.tiles) (h' : pos' < g.tiles)
    (same : g.entryCell q pos = g.entryCell q' pos') : q = q' ∧ pos = pos' :=
  row_col_inj h h' same

/-- The bank of a cell is among those that a stream needs (R20, R23). -/
theorem entryCell_bank {g : Geom} {q pos : Nat} (slot : q ≤ g.slots) (inTiles : pos < g.tiles) :
    g.entryCell q pos / Config.cellsPerBank < g.banksNeeded := by
  have last : (q + 1) * g.tiles ≤ (g.slots + 1) * g.tiles := Nat.mul_le_mul_right _ (by omega)
  rw [Nat.succ_mul, Nat.mul_comm (g.slots + 1)] at last
  show (q * g.tiles + pos) / 1024 < (g.tiles * (g.slots + 1) + 1023) / 1024
  omega

theorem cellsPerBank_pos : 0 < Config.cellsPerBank := by decide

section
variable {s : State} {st u : StreamId}

/-- The bank that holds a cell of a stream. -/
theorem bank_mem (held : s.CellsHeld st) {c : Nat} (h : c / Config.cellsPerBank < (s.geometry st).banksNeeded) :
    (s.stream st).banks.getD (c / Config.cellsPerBank) 0 ∈ (s.stream st).banks := by
  have inside := Nat.lt_of_lt_of_le h held.2
  rw [← List.getElem_eq_getD (h := inside)]
  exact List.getElem_mem inside

/-- Different cells of a stream stand at different keys. -/
theorem cellKey_inj (held : s.CellsHeld st) {c d : Nat} (hc : c / Config.cellsPerBank < (s.geometry st).banksNeeded)
    (hd : d / Config.cellsPerBank < (s.geometry st).banksNeeded) (same : s.cellKey st c = s.cellKey st d) : c = d := by
  obtain ⟨once, enough⟩ := held
  have insideC := Nat.lt_of_lt_of_le hc enough
  have insideD := Nat.lt_of_lt_of_le hd enough
  obtain ⟨banks, column⟩ := row_col_inj (Nat.mod_lt c cellsPerBank_pos) (Nat.mod_lt d cellsPerBank_pos) same
  have row := (List.getD_inj insideC insideD once).mp banks
  rw [← Nat.div_add_mod c Config.cellsPerBank, ← Nat.div_add_mod d Config.cellsPerBank, row, column]

/-- Cells of different streams stand at different keys (R20). -/
theorem cellKey_ne_of_streams (apart : s.BanksApart) (differ : st ≠ u) (held : s.CellsHeld st) (heldU : s.CellsHeld u)
    {c d : Nat} (hc : c / Config.cellsPerBank < (s.geometry st).banksNeeded)
    (hd : d / Config.cellsPerBank < (s.geometry u).banksNeeded) : s.cellKey st c ≠ s.cellKey u d := by
  intro same
  obtain ⟨banks, -⟩ := row_col_inj (Nat.mod_lt c cellsPerBank_pos) (Nat.mod_lt d cellsPerBank_pos) same
  exact apart.streamsApart st u differ _ (bank_mem held hc) (banks ▸ bank_mem heldU hd)

/-- Cells of different (stream, slot, position), records as slot S, stand at different keys. -/
theorem cellKey_ne {q q' pos pos' : Nat} (held : s.CellsHeld st) (slot : q ≤ (s.geometry st).slots)
    (inTiles : pos < (s.geometry st).tiles) (slot' : q' ≤ (s.geometry st).slots) (inTiles' : pos' < (s.geometry st).tiles)
    (differ : q ≠ q' ∨ pos ≠ pos') :
    s.cellKey st ((s.geometry st).entryCell q pos) ≠ s.cellKey st ((s.geometry st).entryCell q' pos') := by
  intro same
  obtain ⟨slots, positions⟩ := entryCell_inj inTiles inTiles'
    (cellKey_inj held (entryCell_bank slot inTiles) (entryCell_bank slot' inTiles') same)
  exact differ.elim (absurd slots) (absurd positions)

/-! ### Writes -/

theorem peekCell_writeCell_self (wf : MapMemory.wf s.mapMem = true) (c : Nat) (v : CellVal) :
    (s.writeCell st c v).peekCell st c = v :=
  congrArg Cell.val (MapMemory.read_write_self _ _ _ wf)

theorem peekCell_writeCell_ne {c d : Nat} {v : CellVal} (h : s.cellKey u d ≠ s.cellKey st c) :
    (s.writeCell st c v).peekCell u d = s.peekCell u d :=
  congrArg Cell.val (MapMemory.read_write_ne _ _ _ _ h)

theorem wf_writeCell (wf : MapMemory.wf s.mapMem = true) (c : Nat) (v : CellVal) :
    MapMemory.wf (s.writeCell st c v).mapMem = true :=
  MapMemory.wf_write _ _ _ wf

end

/-! ### The laws at one position -/

/-- The laws of a position whose slots have these states and whose record is this one (R25, R26). -/
def MapLawsOf (slots : Nat) (tile : Nat → TileState) (record : PosRecord) : Prop :=
  (∀ q o, q < slots → tile q = .aliasOf o → o < slots ∧ o ≠ q ∧ tile o = .owned) ∧
  ∀ sig, record.sig = some sig → record.owner < slots ∧ tile record.owner = .owned

theorem mapLaws_iff (s : State) (st : StreamId) (pos : Nat) :
    s.MapLaws st pos ↔ MapLawsOf (s.geometry st).slots (fun q => s.tileState st q pos) (s.posRecord st pos) :=
  ⟨fun h => ⟨h.1, h.2⟩, fun h => ⟨h.1, h.2⟩⟩

theorem MapLawsOf.congr {slots : Nat} {tile tile' : Nat → TileState} {record : PosRecord}
    (same : ∀ q < slots, tile' q = tile q) (laws : MapLawsOf slots tile record) : MapLawsOf slots tile' record := by
  refine ⟨fun q o hq names => ?_, fun sig holds => ?_⟩
  · obtain ⟨inSlots, other, owned⟩ := laws.1 q o hq ((same q hq).symm.trans names)
    exact ⟨inSlots, other, (same o inSlots).trans owned⟩
  · obtain ⟨inSlots, owned⟩ := laws.2 sig holds
    exact ⟨inSlots, (same _ inSlots).trans owned⟩

/-- The states of a position with one of them replaced. -/
def tileSet (tile : Nat → TileState) (slot : Nat) (v : TileState) (q : Nat) : TileState := if q = slot then v else tile q

theorem tileSet_owned {tile : Nat → TileState} {slot o : Nat} (h : tile o = .owned) : tileSet tile slot .owned o = .owned := by
  unfold tileSet
  split
  · rfl
  · exact h

/-- A slot becomes OWNED; the record stays, holds no signature, or names the slot. -/
theorem MapLawsOf.set_owned {slots slot : Nat} {tile : Nat → TileState} {record record' : PosRecord} (inSlots : slot < slots)
    (laws : MapLawsOf slots tile record) (kept : record' = record ∨ record'.owner = slot) :
    MapLawsOf slots (tileSet tile slot .owned) record' := by
  refine ⟨fun q o hq names => ?_, fun sig holds => ?_⟩
  · by_cases here : q = slot
    · rw [tileSet, if_pos here] at names
      exact TileState.noConfusion names
    · rw [tileSet, if_neg here] at names
      obtain ⟨below, other, owned⟩ := laws.1 q o hq names
      exact ⟨below, other, tileSet_owned owned⟩
  · rcases kept with rfl | named
    · obtain ⟨below, owned⟩ := laws.2 sig holds
      exact ⟨below, tileSet_owned owned⟩
    · exact ⟨named ▸ inSlots, if_pos named⟩

/-- A slot that no other names becomes an ALIAS of the slot that the record names. -/
theorem MapLawsOf.set_alias {slots slot o : Nat} {tile : Nat → TileState} {sig : BitVec 32} (other : o ≠ slot)
    (laws : MapLawsOf slots tile ⟨some sig, o⟩) (unnamed : ∀ q < slots, tile q ≠ .aliasOf slot) :
    MapLawsOf slots (tileSet tile slot (.aliasOf o)) ⟨some sig, o⟩ := by
  obtain ⟨inSlots, owned⟩ := laws.2 sig rfl
  have keeps (p : Nat) (differ : p ≠ slot) : tileSet tile slot (.aliasOf o) p = tile p := if_neg differ
  refine ⟨fun q p hq names => ?_, fun _ _ => ⟨inSlots, (keeps o other).trans owned⟩⟩
  by_cases here : q = slot
  · obtain rfl : o = p := TileState.aliasOf.inj ((if_pos here).symm.trans names)
    exact ⟨inSlots, here ▸ other, (keeps o other).trans owned⟩
  · rw [keeps q here] at names
    have differ : p ≠ slot := fun e => unnamed q hq (e ▸ names)
    obtain ⟨below, apart, ownedP⟩ := laws.1 q p hq names
    exact ⟨below, apart, (keeps p differ).trans ownedP⟩

/-- The states of a position after a migration from the owner to the new one (R89). -/
def tileMoved (tile : Nat → TileState) (owner newOwner q : Nat) : TileState :=
  if tile q = .aliasOf owner then (if q = newOwner then .owned else .aliasOf newOwner) else tile q

theorem tileMoved_owned {tile : Nat → TileState} {owner newOwner q : Nat} (h : tile q = .owned) :
    tileMoved tile owner newOwner q = .owned := by
  rw [tileMoved, if_neg (by simp [h]), h]

theorem tileMoved_newOwner {tile : Nat → TileState} {owner newOwner : Nat} (named : tile newOwner = .aliasOf owner) :
    tileMoved tile owner newOwner newOwner = .owned := by
  rw [tileMoved, if_pos named, if_pos rfl]

section
variable {slots owner newOwner : Nat} {tile : Nat → TileState} {record : PosRecord} (laws : MapLawsOf slots tile record)
  (inSlots : newOwner < slots) (named : tile newOwner = .aliasOf owner)
include laws inSlots named

theorem MapLawsOf.moved : MapLawsOf slots (tileMoved tile owner newOwner) record := by
  refine ⟨fun q o hq names => ?_, fun sig holds => ?_⟩
  · by_cases aliaser : tile q = .aliasOf owner
    · rw [tileMoved, if_pos aliaser] at names
      by_cases new : q = newOwner
      · rw [if_pos new] at names
        exact TileState.noConfusion names
      · rw [if_neg new] at names
        obtain rfl : newOwner = o := TileState.aliasOf.inj names
        exact ⟨inSlots, Ne.symm new, tileMoved_newOwner named⟩
    · rw [tileMoved, if_neg aliaser] at names
      obtain ⟨below, other, owned⟩ := laws.1 q o hq names
      exact ⟨below, other, tileMoved_owned owned⟩
  · obtain ⟨below, owned⟩ := laws.2 sig holds
    exact ⟨below, tileMoved_owned owned⟩

theorem tileMoved_ne (q : Nat) : tileMoved tile owner newOwner q ≠ .aliasOf owner := by
  have differ : newOwner ≠ owner := Ne.symm (laws.1 newOwner owner inSlots named).2.1
  unfold tileMoved
  split
  · split
    · exact TileState.noConfusion
    · exact fun h => differ (TileState.aliasOf.inj h)
  · assumption

end

/-! ### States with the same cells -/

/-- Map memory, and the banks and descriptors of the streams, are the same. -/
structure SameCells (s t : State) : Prop where
  mapMem : t.mapMem = s.mapMem
  banks : ∀ u, (t.stream u).banks = (s.stream u).banks
  geom : ∀ u, (t.stream u).geom = (s.stream u).geom

section
variable {s t : State} (h : SameCells s t)
include h

theorem SameCells.geometry (u : StreamId) : t.geometry u = s.geometry u := by
  rw [State.geometry, Stream.geometry, h.geom]
  rfl

theorem SameCells.peekCell (u : StreamId) (c : Nat) : t.peekCell u c = s.peekCell u c := by
  rw [State.peekCell, State.cellKey, h.mapMem, h.banks]
  rfl

theorem SameCells.tileState (u : StreamId) (q pos : Nat) : t.tileState u q pos = s.tileState u q pos := by
  rw [State.tileState, h.geometry, h.peekCell]
  rfl

theorem SameCells.posRecord (u : StreamId) (pos : Nat) : t.posRecord u pos = s.posRecord u pos := by
  rw [State.posRecord, h.geometry, h.peekCell]
  rfl

end

end Sys2Proof.Machine
end

/-! ## The map changes keep the laws (O40) -/
section
namespace Sys2Proof.Machine

/-! ### An allotment -/

theorem stream_beginLoad_self (s : State) (st : StreamId) (addr : Nat) :
    (s.beginLoad st addr).stream st = { s.stream st with loadingWin := some addr } :=
  stream_setStream_self ..

theorem mapMem_beginLoad (s : State) (st : StreamId) (addr : Nat) : (s.beginLoad st addr).mapMem = s.mapMem := rfl

theorem passValidation_cells (s : State) (st : StreamId) (g : Geom) :
    (s.passValidation st g).mapMem = MapMemory.clearBanks s.mapMem (s.lowestFree g.banksNeeded) ∧
    ((s.passValidation st g).stream st).banks = s.lowestFree g.banksNeeded ∧
    ((s.passValidation st g).stream st).geom = some g := by
  unfold State.passValidation
  dsimp only
  split
  · simp [State.openStream, State.allot, State.takeBanks, stream_raise]
  · simp [stream_beginLoad_self, mapMem_beginLoad, State.allot, State.takeBanks]

/-- Every cell of a stream that has just been allotted its banks is cleared (R21). -/
theorem peekCell_passValidation {s : State} {st : StreamId} {g : Geom} (enough : g.banksNeeded ≤ s.freeBanks.length) {c : Nat}
    (h : c / Config.cellsPerBank < g.banksNeeded) : (s.passValidation st g).peekCell st c = .cleared := by
  obtain ⟨mapMem, banks, -⟩ := passValidation_cells s st g
  have inside : c / Config.cellsPerBank < (s.lowestFree g.banksNeeded).length := by
    rw [State.lowestFree, List.length_take]
    omega
  have cleared : (s.passValidation st g).cellKey st c / Config.cellsPerBank ∈ s.lowestFree g.banksNeeded := by
    rw [State.cellKey, banks, ← List.getElem_eq_getD (h := inside), Nat.mul_comm, Nat.mul_add_div cellsPerBank_pos,
      Nat.div_eq_of_lt (Nat.mod_lt c cellsPerBank_pos), Nat.add_zero]
    exact List.getElem_mem inside
  rw [State.peekCell, mapMem, MapMemory.read_clearBanks_in _ _ _ cleared]
  rfl

theorem geometry_passValidation (s : State) (st : StreamId) (g : Geom) : (s.passValidation st g).geometry st = g := by
  obtain ⟨-, -, geom⟩ := passValidation_cells s st g
  rw [State.geometry, Stream.geometry, geom]
  rfl

section
variable {s : State} {st : StreamId} {g : Geom} {pos : Nat} (enough : g.banksNeeded ≤ s.freeBanks.length)
  (inTiles : pos < g.tiles)
include enough inTiles

theorem tileState_passValidation {q : Nat} (slot : q ≤ g.slots) : (s.passValidation st g).tileState st q pos = .blank := by
  rw [State.tileState, geometry_passValidation, peekCell_passValidation enough (entryCell_bank slot inTiles)]
  rfl

theorem posRecord_passValidation : (s.passValidation st g).posRecord st pos = ⟨none, 0⟩ := by
  rw [State.posRecord, geometry_passValidation, recordCell_eq,
    peekCell_passValidation enough (entryCell_bank (Nat.le_refl _) inTiles)]
  rfl

theorem mapLaws_passValidation : (s.passValidation st g).MapLaws st pos := by
  rw [mapLaws_iff, posRecord_passValidation enough inTiles, geometry_passValidation]
  refine ⟨fun q o hq names => ?_, fun sig holds => absurd holds (Option.some_ne_none sig).symm⟩
  have blank := tileState_passValidation (st := st) enough inTiles (Nat.le_of_lt hq)
  exact TileState.noConfusion (blank.symm.trans names)

end

/-! ### Places of other positions and streams -/

/-- A cell of another position, or of another stream, stands at another key. -/
theorem cellKey_ne_elsewhere {s : State} {st u : StreamId} {q q' pos pos' : Nat} (elsewhere : u = st → pos' ≠ pos)
    (apart : s.BanksApart) (held : s.CellsHeld st) (heldU : s.CellsHeld u) (slot : q ≤ (s.geometry st).slots)
    (inTiles : pos < (s.geometry st).tiles) (slot' : q' ≤ (s.geometry u).slots) (inTiles' : pos' < (s.geometry u).tiles) :
    s.cellKey u ((s.geometry u).entryCell q' pos') ≠ s.cellKey st ((s.geometry st).entryCell q pos) := by
  by_cases same : u = st
  · subst same
    exact cellKey_ne held slot' inTiles' slot inTiles (.inr (elsewhere rfl))
  · exact cellKey_ne_of_streams apart same heldU held (entryCell_bank slot' inTiles') (entryCell_bank slot inTiles)

/-- What the map holds at a position is the same in two states. -/
def SamePlace (s t : State) (u : StreamId) (pos : Nat) : Prop :=
  t.posRecord u pos = s.posRecord u pos ∧ ∀ q, q < (s.geometry u).slots → t.tileState u q pos = s.tileState u q pos

theorem samePlace_of_peekCell {s t : State} {u : StreamId} {pos : Nat} (geom : t.geometry u = s.geometry u)
    (same : ∀ q, q ≤ (s.geometry u).slots →
      t.peekCell u ((s.geometry u).entryCell q pos) = s.peekCell u ((s.geometry u).entryCell q pos)) : SamePlace s t u pos := by
  refine ⟨?_, fun q hq => ?_⟩
  · rw [State.posRecord, geom, recordCell_eq, same _ (Nat.le_refl _)]
    rfl
  · rw [State.tileState, geom, same q (Nat.le_of_lt hq)]
    rfl

theorem SamePlace.sameCells {s t t' : State} {u : StreamId} {pos : Nat} (h : SamePlace s t u pos) (k : SameCells t t') :
    SamePlace s t' u pos :=
  ⟨(k.posRecord u pos).trans h.1, fun q hq => (k.tileState u q pos).trans (h.2 q hq)⟩

/-! ### The completion of a commit -/

theorem peekCell_applyCommit_ne {s : State} {c : Commit} {k : CommitKind} {u : StreamId} {d : Nat}
    (entry : s.cellKey u d ≠ s.cellKey c.stream ((s.geometry c.stream).entryCell c.slot c.pos))
    (record : s.cellKey u d ≠ s.cellKey c.stream ((s.geometry c.stream).recordCell c.pos)) :
    (s.applyCommit c k).peekCell u d = s.peekCell u d := by
  unfold State.applyCommit
  dsimp only
  split
  · exact (peekCell_writeCell_ne (s := s.writeCell _ _ _) record).trans (peekCell_writeCell_ne entry)
  · exact peekCell_writeCell_ne entry

section
variable {s : State} {c : Commit} {k : CommitKind} (held : s.CellsHeld c.stream)
  (slot : c.slot < (s.geometry c.stream).slots) (inTiles : c.pos < (s.geometry c.stream).tiles)

section
include held slot inTiles

theorem cellKey_entry_ne_record : s.cellKey c.stream ((s.geometry c.stream).entryCell c.slot c.pos) ≠
    s.cellKey c.stream ((s.geometry c.stream).recordCell c.pos) :=
  cellKey_ne held (Nat.le_of_lt slot) inTiles (Nat.le_refl _) inTiles (.inl (Nat.ne_of_lt slot))

variable (wf : MapMemory.wf s.mapMem = true)
include wf

theorem tileState_applyCommit {q : Nat} (hq : q < (s.geometry c.stream).slots) : (s.applyCommit c k).tileState c.stream q c.pos =
    tileSet (fun q => s.tileState c.stream q c.pos) c.slot (c.newState k) q := by
  have geom : (s.applyCommit c k).geometry c.stream = s.geometry c.stream := by rw [applyCommit_shape]; rfl
  rw [State.tileState, geom]
  by_cases here : q = c.slot
  · subst here
    rw [tileSet, if_pos rfl]
    have written : (s.applyCommit c k).peekCell c.stream ((s.geometry c.stream).entryCell c.slot c.pos) =
        .entry ⟨c.newState k, some (k, (s.stream c.stream).frame)⟩ := by
      unfold State.applyCommit
      dsimp only
      split
      · exact (peekCell_writeCell_ne (s := s.writeCell _ _ _) (cellKey_entry_ne_record held slot inTiles)).trans
          (peekCell_writeCell_self wf _ _)
      · exact peekCell_writeCell_self wf _ _
    rw [written]
    rfl
  · rw [tileSet, if_neg here, peekCell_applyCommit_ne]
    · rfl
    · exact cellKey_ne held (Nat.le_of_lt hq) inTiles (Nat.le_of_lt slot) inTiles (.inl here)
    · exact cellKey_ne held (Nat.le_of_lt hq) inTiles (Nat.le_refl _) inTiles (.inl (Nat.ne_of_lt hq))

theorem posRecord_applyCommit : (s.applyCommit c k).posRecord c.stream c.pos =
    (c.newRecord k).getD (s.posRecord c.stream c.pos) := by
  have geom : (s.applyCommit c k).geometry c.stream = s.geometry c.stream := by rw [applyCommit_shape]; rfl
  rw [State.posRecord, geom]
  unfold State.applyCommit
  dsimp only
  split
  · next r written =>
    rw [peekCell_writeCell_self (wf_writeCell wf _ _), written]
    rfl
  · next kept =>
    rw [peekCell_writeCell_ne (Ne.symm (cellKey_entry_ne_record held slot inTiles)), kept]
    rfl

end

include slot in
/-- The change of a commit keeps the laws at its position (R25, R26, R78). -/
theorem mapLawsOf_applyCommit (laws : s.MapLaws c.stream c.pos)
    (lookups : k = .aliased → (∃ o sig, c.matched = some o ∧ o ≠ c.slot ∧ s.posRecord c.stream c.pos = ⟨some sig, o⟩) ∧
      ∀ q, q < (s.geometry c.stream).slots → s.tileState c.stream q c.pos ≠ .aliasOf c.slot) :
    MapLawsOf (s.geometry c.stream).slots (tileSet (fun q => s.tileState c.stream q c.pos) c.slot (c.newState k))
      ((c.newRecord k).getD (s.posRecord c.stream c.pos)) := by
  have before := (mapLaws_iff _ _ _).mp laws
  cases k with
  | aliased =>
    obtain ⟨⟨o, sig, matched, other, record⟩, unnamed⟩ := lookups rfl
    have alias_state : c.newState .aliased = .aliasOf o := by rw [Commit.newState, matched]; rfl
    rw [alias_state, Commit.newRecord, Option.getD_none, record]
    rw [record] at before
    exact before.set_alias other unnamed
  | retained => exact before.set_owned slot (.inl rfl)
  | changed | collided | exempt | partialTile => exact before.set_owned slot (.inr rfl)

end

/-- A count of partial commits leaves a stream's cells. -/
theorem countPartial_cells (x : Stream) (r : Reason) :
    (x.countPartial r).banks = x.banks ∧ (x.countPartial r).geom = x.geom := by
  cases r <;> exact ⟨rfl, rfl⟩

theorem stream_completeCommit (s : State) (c : Commit) (k : CommitKind) (u : StreamId) : (s.completeCommit c k).stream u =
    if k = .partialTile ∧ u = c.stream then (s.stream u).countPartial c.reason else s.stream u := by
  have streams : (s.completeCommit c k).streams = (if k = .partialTile then
      s.setStream c.stream ((s.stream c.stream).countPartial c.reason) else s).streams := by rw [completeCommit_shape]
  rw [stream_of_streams_eq streams]
  by_cases counted : k = .partialTile
  · rw [if_pos counted, stream_setStream]
    by_cases same : u = c.stream
    · rw [if_pos same, if_pos ⟨counted, same⟩, same]
    · rw [if_neg same, if_neg fun h => same h.2]
  · rw [if_neg counted, if_neg fun h => counted h.1]

/-- The end of a commit changes the cells as its map change does. -/
theorem sameCells_completeCommit (s : State) (c : Commit) (k : CommitKind) :
    SameCells (s.applyCommit c k) (s.completeCommit c k) := by
  have before (u : StreamId) : (s.applyCommit c k).stream u = s.stream u := by
    rw [applyCommit_shape]
    rfl
  refine ⟨by rw [completeCommit_shape], fun u => ?_, fun u => ?_⟩
  all_goals
    rw [stream_completeCommit, before]
    split
  · exact (countPartial_cells _ _).1
  · rfl
  · exact (countPartial_cells _ _).2
  · rfl

/-! ### The completion of a migration -/

/-- The key of the entry of a slot at the position that a migration moves. -/
def State.aliaserKey (s : State) (m : Migration) (q : Nat) : Nat :=
  s.cellKey m.stream ((s.geometry m.stream).entryCell q m.pos)

/-- The write of one aliaser's entry (R89). -/
def State.repoint (s : State) (m : Migration) (q : Nat) : State :=
  s.writeCell m.stream ((s.geometry m.stream).entryCell q m.pos)
    (.entry (repointed (cellEntry (s.peekCell m.stream ((s.geometry m.stream).entryCell q m.pos))) q m.newOwner))

theorem applyMigration_eq (s : State) (m : Migration) :
    s.applyMigration m = (m.aliasers.map Prod.fst).foldl (fun s q => s.repoint m q) s := by
  rw [List.foldl_map]
  rfl

section
variable {m : Migration} {qs : List Nat} {s : State}

theorem repoint_fold_shape (m : Migration) (qs : List Nat) (s : State) : qs.foldl (fun s q => s.repoint m q) s =
    { s with mapMem := (qs.foldl (fun s q => s.repoint m q) s).mapMem } := by
  induction qs generalizing s with
  | nil => rfl
  | cons q qs ih => exact ih (s.repoint m q)

theorem read_repoint_fold_ne {k : Nat} (other : ∀ q ∈ qs, k ≠ s.aliaserKey m q) :
    MapMemory.read (qs.foldl (fun s q => s.repoint m q) s).mapMem k = MapMemory.read s.mapMem k := by
  induction qs generalizing s with
  | nil => rfl
  | cons q qs ih =>
    rw [List.foldl_cons]
    refine (ih (s := s.repoint m q) fun p hp => other p (List.mem_cons_of_mem _ hp)).trans ?_
    exact MapMemory.read_write_ne _ _ _ _ (other q (List.mem_cons_self ..))

/-- Each aliaser's entry is written once, from what it held before (R89). -/
theorem read_repoint_fold (once : (qs.map (s.aliaserKey m)).Nodup) (wf : MapMemory.wf s.mapMem = true) {q : Nat} (hq : q ∈ qs) :
    MapMemory.read (qs.foldl (fun s q => s.repoint m q) s).mapMem (s.aliaserKey m q) =
      ⟨.entry (repointed (cellEntry (MapMemory.read s.mapMem (s.aliaserKey m q)).val) q m.newOwner), .good⟩ := by
  induction qs generalizing s with
  | nil => exact absurd hq List.not_mem_nil
  | cons p qs ih =>
    rw [List.map_cons, List.nodup_cons] at once
    obtain ⟨fresh, once⟩ := once
    rw [List.foldl_cons]
    rcases List.mem_cons.mp hq with rfl | later
    · refine (read_repoint_fold_ne (s := s.repoint m q) fun x hx same => fresh ?_).trans (MapMemory.read_write_self _ _ _ wf)
      exact List.mem_map.mpr ⟨x, hx, same.symm⟩
    · have apart : s.aliaserKey m q ≠ s.aliaserKey m p := fun e => fresh (e ▸ List.mem_map_of_mem later)
      have kept : MapMemory.read (s.repoint m p).mapMem (s.aliaserKey m q) = MapMemory.read s.mapMem (s.aliaserKey m q) :=
        MapMemory.read_write_ne _ _ _ _ apart
      refine (ih (s := s.repoint m p) once (wf_writeCell wf _ _) later).trans ?_
      exact congrArg (fun c : Cell => (⟨.entry (repointed (cellEntry c.val) q m.newOwner), .good⟩ : Cell)) kept

theorem cellKey_repoint_fold (m : Migration) (qs : List Nat) (s : State) (u : StreamId) :
    (qs.foldl (fun s q => s.repoint m q) s).cellKey u = s.cellKey u := by
  rw [repoint_fold_shape]
  rfl

theorem peekCell_repoint_fold_ne {u : StreamId} {d : Nat} (other : ∀ q ∈ qs, s.cellKey u d ≠ s.aliaserKey m q) :
    (qs.foldl (fun s q => s.repoint m q) s).peekCell u d = s.peekCell u d := by
  rw [State.peekCell, cellKey_repoint_fold m qs s u]
  exact congrArg Cell.val (read_repoint_fold_ne other)

/-- The aliasers' entries of a stream that holds its cells stand at different keys. -/
theorem nodup_aliaserKeys (once : qs.Nodup) (held : s.CellsHeld m.stream) (inTiles : m.pos < (s.geometry m.stream).tiles)
    (slots : ∀ q ∈ qs, q ≤ (s.geometry m.stream).slots) : (qs.map (s.aliaserKey m)).Nodup := by
  refine List.pairwise_map.mpr (once.imp_of_mem fun {x y} hx hy differ => ?_)
  exact cellKey_ne held (slots x hx) inTiles (slots y hy) inTiles (.inl differ)

theorem peekCell_repoint_fold (once : (qs.map (s.aliaserKey m)).Nodup) (wf : MapMemory.wf s.mapMem = true) {q : Nat}
    (hq : q ∈ qs) : (qs.foldl (fun s q => s.repoint m q) s).peekCell m.stream ((s.geometry m.stream).entryCell q m.pos) =
      .entry (repointed (cellEntry (s.peekCell m.stream ((s.geometry m.stream).entryCell q m.pos))) q m.newOwner) := by
  rw [State.peekCell, cellKey_repoint_fold m qs s]
  exact congrArg Cell.val (read_repoint_fold once wf hq)

end

section
variable {s : State} {m : Migration} (wf : MapMemory.wf s.mapMem = true) (held : s.CellsHeld m.stream)
  (inTiles : m.pos < (s.geometry m.stream).tiles) (once : (m.aliasers.map Prod.fst).Nodup)
  (aliasers : ∀ q, (∃ v, (q, v) ∈ m.aliasers) ↔
    q < (s.geometry m.stream).slots ∧ s.tileState m.stream q m.pos = .aliasOf m.slot)
include wf held inTiles once aliasers

theorem tileState_applyMigration {q : Nat} (hq : q < (s.geometry m.stream).slots) :
    (s.applyMigration m).tileState m.stream q m.pos =
      tileMoved (fun q => s.tileState m.stream q m.pos) m.slot m.newOwner q := by
  have geom : (s.applyMigration m).geometry m.stream = s.geometry m.stream := by
    rw [applyMigration_shape]
    rfl
  have mem_iff (p : Nat) : p ∈ m.aliasers.map Prod.fst ↔
      p < (s.geometry m.stream).slots ∧ s.tileState m.stream p m.pos = .aliasOf m.slot := by
    rw [← aliasers p]
    simp
  have slots (p : Nat) (hp : p ∈ m.aliasers.map Prod.fst) := Nat.le_of_lt ((mem_iff p).mp hp).1
  rw [State.tileState, geom, applyMigration_eq]
  by_cases moved : q ∈ m.aliasers.map Prod.fst
  · rw [peekCell_repoint_fold (nodup_aliaserKeys once held inTiles slots) wf moved, tileMoved, if_pos ((mem_iff q).mp moved).2]
    rfl
  · rw [peekCell_repoint_fold_ne, tileMoved, if_neg fun h => moved ((mem_iff q).mpr ⟨hq, h⟩)]
    · rfl
    · exact fun p hp => cellKey_ne held (Nat.le_of_lt hq) inTiles (slots p hp) inTiles (.inl fun e => moved (e ▸ hp))

omit wf once in
theorem posRecord_applyMigration : (s.applyMigration m).posRecord m.stream m.pos = s.posRecord m.stream m.pos := by
  have geom : (s.applyMigration m).geometry m.stream = s.geometry m.stream := by
    rw [applyMigration_shape]
    rfl
  rw [State.posRecord, geom, applyMigration_eq, peekCell_repoint_fold_ne]
  · rfl
  · intro p hp
    obtain ⟨a, ha, rfl⟩ := List.mem_map.mp hp
    have slot := ((aliasers a.1).mp ⟨a.2, ha⟩).1
    exact cellKey_ne held (Nat.le_refl _) inTiles (Nat.le_of_lt slot) inTiles (.inl (Nat.ne_of_gt slot))

end

/-- The end of a migration changes the cells as its map change does. -/
theorem sameCells_completeMigration (s : State) (m : Migration) : SameCells (s.applyMigration m) (s.completeMigration m) := by
  have before (u : StreamId) : (s.applyMigration m).stream u = s.stream u := by
    rw [applyMigration_shape]
    rfl
  have streams : (s.completeMigration m).streams = (s.setStream m.stream { s.stream m.stream with
      migrated := min ((s.stream m.stream).migrated + 1) 65535 }).streams := by rw [completeMigration_shape]
  refine ⟨by rw [completeMigration_shape], fun u => ?_, fun u => ?_⟩
  all_goals
    rw [stream_of_streams_eq streams, stream_setStream, before]
    split
  · next same => rw [same]
  · rfl
  · next same => rw [same]
  · rfl

end Sys2Proof.Machine

open Sys2Proof Sys2Proof.Machine

/-- Settles O40: the laws of the one position that a change touches, and the keys of every other place. -/
theorem mapChangesKeepTheMapLaws : Obligations.MapChangesKeepTheMapLaws := by
  refine ⟨fun s st g pos enough inTiles => ⟨mapLaws_passValidation enough inTiles, fun slot hs =>
    tileState_passValidation enough inTiles (Nat.le_of_lt hs)⟩, fun s c k wf held => ?commit,
    fun s m wf held => ?migration⟩
  case commit =>
    intro g slot inTiles laws lookups
    have same := sameCells_completeCommit s c k
    have geom : (s.completeCommit c k).geometry c.stream = g := (same.geometry _).trans (by rw [applyCommit_shape]; rfl)
    refine ⟨(mapLaws_iff _ _ _).mpr ?_, fun u pos elsewhere apart heldU inTilesU => ?_⟩
    · rw [geom, same.posRecord, posRecord_applyCommit held slot inTiles wf]
      refine (mapLawsOf_applyCommit slot laws lookups).congr fun q hq => ?_
      exact (same.tileState _ _ _).trans (tileState_applyCommit held slot inTiles wf hq)
    · refine SamePlace.sameCells (samePlace_of_peekCell (by rw [applyCommit_shape]; rfl) fun q hq => ?_) same
      refine peekCell_applyCommit_ne ?_ ?_
      · exact cellKey_ne_elsewhere elsewhere apart held heldU (Nat.le_of_lt slot) inTiles hq inTilesU
      · exact cellKey_ne_elsewhere elsewhere apart held heldU (Nat.le_refl _) inTiles hq inTilesU
  case migration =>
    intro g slot inTiles laws once new aliasers
    have same := sameCells_completeMigration s m
    have geom : (s.completeMigration m).geometry m.stream = g := (same.geometry _).trans (by rw [applyMigration_shape]; rfl)
    have moved (q : Nat) (hq : q < g.slots) : (s.completeMigration m).tileState m.stream q m.pos =
        tileMoved (fun q => s.tileState m.stream q m.pos) m.slot m.newOwner q :=
      (same.tileState _ _ _).trans (tileState_applyMigration wf held inTiles once aliasers hq)
    have before := (mapLaws_iff _ _ _).mp laws
    obtain ⟨inSlots, named⟩ := (aliasers m.newOwner).mp new
    refine ⟨(mapLaws_iff _ _ _).mpr ?_, fun q hq => ?_, ?_, fun u pos elsewhere apart heldU inTilesU => ?_⟩
    · rw [geom, same.posRecord, posRecord_applyMigration held inTiles aliasers]
      exact (before.moved inSlots named).congr moved
    · rw [moved q hq]
      exact tileMoved_ne before inSlots named q
    · rw [moved _ inSlots]
      exact tileMoved_newOwner named
    · refine SamePlace.sameCells (samePlace_of_peekCell (by rw [applyMigration_shape]; rfl) fun q hq => ?_) same
      rw [applyMigration_eq]
      refine peekCell_repoint_fold_ne fun p hp => ?_
      obtain ⟨a, ha, rfl⟩ := List.mem_map.mp hp
      have below := ((aliasers a.1).mp ⟨a.2, ha⟩).1
      exact cellKey_ne_elsewhere elsewhere apart held heldU (Nat.le_of_lt below) inTiles hq inTilesU

end

/-! ## The start of a commit and its kind (O41 to O43) -/
section
namespace Sys2Proof.Machine

/-! ### The lookups of a commit -/

/-- Lookups of error-free cells give their contents and change nothing (R28). -/
theorem lookupCells_good {s : State} {st : StreamId} {cells : List Nat} (good : ∀ c ∈ cells, s.ecc st c = .good) :
    s.lookupCells st cells = (some (cells.map (s.peekCell st)), s) := by
  induction cells with
  | nil => rfl
  | cons c cells ih =>
    rw [State.lookupCells, lookupCell_good (good c (List.mem_cons_self ..)),
      ih fun d hd => good d (List.mem_cons_of_mem _ hd)]
    rfl

/-- The slots of a list whose looked-up entries are as wanted, each with its view index. -/
theorem zip_map_filterMap {α : Type} (xs : List Nat) (f : Nat → α) (P : α → Prop) [DecidablePred P] (view : Nat → Nat) :
    (xs.zip (xs.map f)).filterMap (fun qv => if P qv.2 then some (qv.1, view qv.1) else none) =
      (xs.filter fun q => decide (P (f q))).map fun q => (q, view q) := by
  induction xs with
  | nil => rfl
  | cons x xs ih =>
    rw [List.map_cons, List.zip_cons_cons, List.filterMap_cons, List.filter_cons, ih]
    by_cases h : P (f x) <;> simp [h]

/-- The commit that starts with an entry, from its lookups (R36, R62). -/
def State.newCommit (s : State) (reason : Reason) (num : Nat) (e : Entry) (vals : List CellVal) : Commit where
  stream := e.stream
  slot := e.slot
  pos := e.pos
  entry := num
  reason := reason
  path := reason.path
  sig := none
  matched := none
  prev := (cellEntry (vals.getD 0 .cleared)).state
  aliasers := aliasersOf (s.geometry e.stream) (s.stream e.stream).slot e.slot (vals.drop 2)
  kind := none
  phase := none
  got := []
  readFailed := false

theorem startCommit_looked {s t : State} {reason : Reason} {num : Nat} {e : Entry} {vals : List CellVal}
    (found : s.entryNum num = some e) (collecting : e.collecting = true) (looked : (s.commitEntry num reason).lookupCells
      e.stream (commitCells (s.geometry e.stream) e.slot e.pos) = (some vals, t)) :
    s.startCommit reason num = (t.addCommit (s.newCommit reason num e vals)).decideCommit (s.newCommit reason num e vals) e
      (cellRecord (vals.getD 1 .cleared)) := by
  rw [State.startCommit, found]
  dsimp only
  rw [if_pos collecting, looked]
  rfl

/-- The commit that a statement of R62 writes out is the one that starts, from the contents of the cells. -/
theorem newCommit_peeked (s : State) (reason : Reason) (num : Nat) (e : Entry) :
    s.newCommit reason num e ((commitCells (s.geometry e.stream) e.slot e.pos).map (s.peekCell e.stream)) = {
      stream := e.stream, slot := e.slot, pos := e.pos, entry := num, reason := reason
      path := if reason = .complete then .completePath else .partialPath
      sig := none, matched := none
      prev := (cellEntry (s.peekCell e.stream ((s.geometry e.stream).entryCell e.slot e.pos))).state
      aliasers := ((otherSlots (s.geometry e.stream) e.slot).filter fun q => decide
        ((cellEntry (s.peekCell e.stream ((s.geometry e.stream).entryCell q e.pos))).state = .aliasOf e.slot)).map fun q =>
          (q, (s.geometry e.stream).viewOf (s.stream e.stream).slot q)
      kind := none, phase := none, got := [], readFailed := false } := by
  have path : reason.path = if reason = .complete then .completePath else .partialPath := by cases reason <;> rfl
  rw [State.newCommit, path, aliasersOf]
  congr 1
  rw [commitCells, List.map_cons, List.map_cons, List.map_map, List.drop_succ_cons, List.drop_succ_cons, List.drop_zero]
  exact zip_map_filterMap (otherSlots (s.geometry e.stream) e.slot) _ (fun v => (cellEntry v).state = .aliasOf e.slot) _

theorem OnlyLooked.addCommit {s t : State} (h : OnlyLooked s t) (c : Commit) :
    t.addCommit c = { t with commits := s.commits ++ [c] } := by
  rw [State.addCommit, show t.commits = s.commits by
    rw [show t = { s with mapMem := t.mapMem, corrected := t.corrected, causes := t.causes } from h]]

/-! ### The commit of a tile replaced -/

/-- A commit that has just been put in its tile's place is the one that is changed next. -/
theorem updateCommit_replaced (s : State) (c : Commit) (f : Commit → Commit) :
    (s.updateCommit c.stream c.pos fun _ => c).updateCommit c.stream c.pos f =
      s.updateCommit c.stream c.pos fun _ => f c := by
  have once (d : Commit) : (fun d => if d.stream = c.stream ∧ d.pos = c.pos then f d else d)
      (if d.stream = c.stream ∧ d.pos = c.pos then c else d) = if d.stream = c.stream ∧ d.pos = c.pos then f c else d := by
    by_cases here : d.stream = c.stream ∧ d.pos = c.pos
    · simp [here]
    · simp [here]
  simp only [State.updateCommit, List.map_map]
  exact congrArg (fun cs => { s with commits := cs }) (List.map_congr_left fun d _ => once d)

/-- The kind of a commit does not depend on what stood in its place. -/
theorem takeKind_replaced (s : State) (c : Commit) (e : Entry) (k : CommitKind) :
    (s.updateCommit c.stream c.pos fun _ => c).takeKind c e k = s.takeKind c e k := by
  have replaced := updateCommit_replaced s c fun _ => { c with kind := some k, phase := none, got := [] }
  unfold State.takeKind
  dsimp only
  rw [replaced]
  rfl

/-! ### The kind of a commit (R61 to R66) -/

section
variable {s : State} {c : Commit} {e : Entry} {r : PosRecord}

theorem decideCommit_partial (path : c.path = .partialPath) : s.decideCommit c e r = s.takeKind c e .partialTile := by
  simp only [State.decideCommit, path]

/-- The commit of a tile whose signature is that of the record (R65). -/
def Commit.matchedBy (c : Commit) (e : Entry) (r : PosRecord) : Commit :=
  { c with sig := some (signature e.data), matched := some r.owner }

variable (path : c.path = .completePath)
include path

theorem decideCommit_complete : s.decideCommit c e r =
    if (s.stream c.stream).exemptActive ((s.stream c.stream).geometry.anchor c.pos).1
        ((s.stream c.stream).geometry.anchor c.pos).2 then s.takeKind c e .exempt
    else if r.sig = some (signature e.data) then
      if (s.stream c.stream).geometry.verify then
        (s.updateCommit c.stream c.pos fun _ => c.matchedBy e r).enterVerify (c.matchedBy e r) r.owner
      else (s.updateCommit c.stream c.pos fun _ => c.matchedBy e r).takeKind (c.matchedBy e r) e (c.matchKind r.owner)
    else s.takeKind { c with sig := some (signature e.data) } e .changed := by
  unfold State.decideCommit
  dsimp only
  split
  · next other => exact absurd (path.symm.trans other) (by simp)
  · rfl

theorem decideCommit_exempt (active : (s.stream c.stream).exemptActive ((s.stream c.stream).geometry.anchor c.pos).1
    ((s.stream c.stream).geometry.anchor c.pos).2 = true) : s.decideCommit c e r = s.takeKind c e .exempt := by
  rw [decideCommit_complete path, if_pos active]

variable (outside : (s.stream c.stream).exemptActive ((s.stream c.stream).geometry.anchor c.pos).1
    ((s.stream c.stream).geometry.anchor c.pos).2 = false)
include outside

theorem decideCommit_changed (differs : r.sig ≠ some (signature e.data)) :
    s.decideCommit c e r = s.takeKind { c with sig := some (signature e.data) } e .changed := by
  rw [decideCommit_complete path, if_neg (by simp [outside]), if_neg differs]

variable (equal : r.sig = some (signature e.data))
include equal

theorem decideCommit_matched (trusted : (s.stream c.stream).geometry.verify = false) :
    s.decideCommit c e r = s.takeKind (c.matchedBy e r) e (if r.owner = c.slot then .retained else .aliased) := by
  rw [decideCommit_complete path, if_neg (by simp [outside]), if_pos equal, if_neg (by simp [trusted])]
  exact takeKind_replaced s (c.matchedBy e r) e _

theorem decideCommit_verify (checked : (s.stream c.stream).geometry.verify = true) : s.decideCommit c e r =
    (s.updateCommit c.stream c.pos fun _ => { c.matchedBy e r with phase := some .verify }).handInternal
      (.verifyRead c.stream c.pos) (wholeRead ((s.stream c.stream).geometry.home r.owner c.pos)) := by
  rw [decideCommit_complete path, if_neg (by simp [outside]), if_pos equal, if_pos checked]
  exact congrArg (fun t => State.handInternal t (.verifyRead c.stream c.pos)
      (wholeRead ((s.stream c.stream).geometry.home r.owner c.pos)))
    (updateCommit_replaced s (c.matchedBy e r) fun d => { d with phase := some .verify })

end

theorem signature_append (bytes : List Byte) (b : Byte) : signature (bytes ++ [b]) = sigByte (signature bytes) b := by
  rw [signature, List.foldl_append]
  rfl

theorem sigShift_eq (r : BitVec 32) : sigShift r = if r.getLsbD 31 then (r <<< 1) ^^^ 0x04C11DB7#32 else r <<< 1 := by
  rw [sigShift, BitVec.msb_eq_getLsbD_last]

end Sys2Proof.Machine

open Sys2Proof Sys2Proof.Machine

/-- Settles O41: the entry becomes COMMITTING, its cells are looked up, and the commit is formed from their contents. -/
theorem commitStartTakesItsLookups : Obligations.CommitStartTakesItsLookups := by
  intro s reason num e found g cell others cells ecc
  refine ⟨fun age state => ?_, fun r committing => startCommit_committing found (by simp [Entry.collecting, committing])⟩
  intro t c decided
  have collecting : e.collecting = true := by simp [Entry.collecting, state]
  have commit : s.newCommit reason num e (cells.map (s.peekCell e.stream)) = c := newCommit_peeked s reason num e
  have started {u : State} (looked : t.lookupCells e.stream cells = (some (cells.map (t.peekCell e.stream)), u)) :
      s.startCommit reason num = decided u := by
    have only : OnlyLooked t u := by
      have shape := onlyLooked_lookupCells e.stream cells t
      rwa [looked] at shape
    have start := startCommit_looked found collecting looked
    rw [show cells.map (t.peekCell e.stream) = cells.map (s.peekCell e.stream) from rfl, commit, only.addCommit] at start
    exact start
  refine ⟨fun good => started (lookupCells_good good), fun wf sound => started ?_⟩
  exact Prod.ext (lookupCells_values e.stream cells t wf sound) rfl

/-- Settles O42: one case of the decision for each kind; the signature's fold at its last byte. -/
theorem commitKindByPathAndRecord : Obligations.CommitKindByPathAndRecord := by
  refine ⟨fun s c e r => ⟨decideCommit_partial, decideCommit_exempt, decideCommit_changed, decideCommit_matched,
    decideCommit_verify⟩, rfl, fun bytes b => ?_⟩
  rw [signature_append, sigByte]
  simp only [sigShift_eq]

end

/-! ## What a commit does by its kind (O43) -/
section
namespace Sys2Proof.Machine

/-- The commit with its kind decided, in a phase. -/
def Commit.decided (c : Commit) (k : CommitKind) (p : Option CommitPhase) : Commit :=
  { c with kind := some k, phase := p, got := [] }

theorem mustMigrate_iff (c : Commit) : c.mustMigrate = true ↔ c.prev = .owned ∧ c.aliasers ≠ [] := by
  simp [Commit.mustMigrate]

/-- The commit of a tile takes its kind, in a phase. -/
def State.decide (s : State) (c : Commit) (k : CommitKind) (p : Option CommitPhase) : State :=
  s.updateCommit c.stream c.pos fun _ => c.decided k p

theorem decide_phase (s : State) (c : Commit) (k : CommitKind) (p : Option CommitPhase) :
    (s.decide c k none).updateCommit c.stream c.pos (fun d => { d with phase := p }) = s.decide c k p :=
  updateCommit_replaced s (c.decided k none) fun d => { d with phase := p }

/-- A decided commit that must migrate (R77, R85 to R87). -/
theorem startMigration_decide (s : State) (c : Commit) (k : CommitKind) : (s.decide c k none).startMigration (c.decided k none) =
    State.handInternal { s.decide c k (some .migrate) with
      migrations := s.migrations ++ [⟨c.stream, c.slot, c.pos, c.aliasers, youngest c.aliasers, .copyRead, []⟩] }
      (.copyRead c.stream c.pos) (wholeRead ((s.geometry c.stream).home c.slot c.pos)) := by
  have phase := decide_phase s c k (some .migrate)
  unfold State.startMigration
  dsimp only [Commit.decided] at phase ⊢
  rw [phase]
  rfl

/-- A decided commit that writes its home (R76). -/
theorem enterWrite_decide (s : State) (c : Commit) (k : CommitKind) (tile : List Byte) (cov : List Bool) :
    (s.decide c k none).enterWrite (c.decided k none) tile cov = (s.decide c k (some .write)).handInternal
      (.commitWrite c.stream c.pos) ((c.decided k none).writeWires (s.geometry c.stream) tile cov) := by
  have phase : (s.decide c k none).updateCommit c.stream c.pos (fun d => { d with phase := some .write, got := [] }) =
      s.decide c k (some .write) :=
    updateCommit_replaced s (c.decided k none) fun d => { d with phase := some .write, got := [] }
  unfold State.enterWrite
  dsimp only [Commit.decided] at phase ⊢
  rw [phase]
  rfl

theorem writeWires_whole {c : Commit} {k : CommitKind} (g : Geom) (tile : List Byte) (cov : List Bool)
    (h : k ≠ .partialTile ∨ c.prev ≠ .owned) : (c.decided k none).writeWires g tile cov = wholeWrite (g.home c.slot c.pos) tile := by
  refine if_neg fun both => ?_
  exact h.elim (absurd (Option.some.inj both.1)) (absurd both.2)

theorem writeWires_covered {c : Commit} (g : Geom) (tile : List Byte) (cov : List Bool) (owned : c.prev = .owned) :
    (c.decided .partialTile none).writeWires g tile cov = coveredWrite (g.home c.slot c.pos) tile cov :=
  if_pos ⟨rfl, owned⟩

section
variable (s : State) {c : Commit} (e : Entry)

theorem takeKind_aliased_still (still : ¬(c.prev = .owned ∧ c.aliasers ≠ [])) :
    s.takeKind c e .aliased = s.decide c .aliased none :=
  if_neg (mt (mustMigrate_iff c).mp still)

theorem takeKind_aliased_moving (must : c.prev = .owned ∧ c.aliasers ≠ []) :
    s.takeKind c e .aliased = (s.decide c .aliased none).startMigration (c.decided .aliased none) :=
  if_pos ((mustMigrate_iff c).mpr must)

theorem takeKind_writing {k : CommitKind} (kind : k = .changed ∨ k = .collided ∨ k = .exempt) : s.takeKind c e k =
    if c.mustMigrate then (s.decide c k none).startMigration (c.decided k none)
    else (s.decide c k none).enterWrite (c.decided k none) e.data e.cov := by
  rcases kind with rfl | rfl | rfl <;> rfl

theorem takeKind_partial_home (home : ∀ o, c.prev ≠ .aliasOf o) : s.takeKind c e .partialTile =
    if c.mustMigrate then (s.decide c .partialTile none).startMigration (c.decided .partialTile none)
    else (s.decide c .partialTile none).enterWrite (c.decided .partialTile none) e.data e.cov := by
  unfold State.takeKind
  dsimp only
  split
  · next o prev => exact absurd prev (home o)
  · rfl
  · rfl

theorem takeKind_partial_alias {o : Nat} (prev : c.prev = .aliasOf o) : s.takeKind c e .partialTile =
    (s.decide c .partialTile (some .merge)).handInternal (.mergeRead c.stream c.pos)
      (wholeRead ((s.geometry c.stream).home o c.pos)) := by
  have phase := decide_phase s c .partialTile (some .merge)
  unfold State.takeKind
  dsimp only
  split
  · next p other =>
    obtain rfl : o = p := TileState.aliasOf.inj (prev.symm.trans other)
    exact congrArg (fun t => State.handInternal t (.mergeRead c.stream c.pos)
      (wholeRead ((s.geometry c.stream).home o c.pos))) phase
  · next other => exact absurd (prev.symm.trans other) TileState.noConfusion
  · next other => exact absurd (prev.symm.trans other) TileState.noConfusion

end

/-! ### The transfers of a tile (R75, R76) -/

theorem mem_tileBlocks (o : Nat) : o ∈ tileBlocks ↔ ∃ k < 4, o = 256 * k := by
  constructor
  · intro h
    refine ⟨o / 256, ?_⟩
    simp only [tileBlocks, List.mem_cons, List.not_mem_nil, or_false] at h
    omega
  · rintro ⟨k, hk, rfl⟩
    have : k = 0 ∨ k = 1 ∨ k = 2 ∨ k = 3 := by omega
    rcases this with rfl | rfl | rfl | rfl <;> decide

section
variable {home : Nat} {data : List Byte} {cov : List Bool}

theorem writeWire_block (full : data.length = 1024) {k : Nat} (hk : k < 4) : writeWire (home + 256 * k) (slice data (256 * k) 256) =
    ⟨.write, BitVec.ofNat 40 (home + 256 * k), 8, (data.drop (256 * k)).take 256, List.replicate 256 true⟩ := by
  rw [writeWire, length_slice _ _ _ (by omega)]
  rfl

theorem mem_wholeWrite (full : data.length = 1024) (w : Wire) : w ∈ wholeWrite home data ↔ ∃ k < 4, w =
    ⟨.write, BitVec.ofNat 40 (home + 256 * k), 8, (data.drop (256 * k)).take 256, List.replicate 256 true⟩ := by
  rw [wholeWrite, List.mem_map]
  constructor
  · rintro ⟨o, ho, rfl⟩
    obtain ⟨k, hk, rfl⟩ := (mem_tileBlocks o).mp ho
    exact ⟨k, hk, writeWire_block full hk⟩
  · rintro ⟨k, hk, rfl⟩
    exact ⟨256 * k, (mem_tileBlocks _).mpr ⟨k, hk, rfl⟩, writeWire_block full hk⟩

/-- A block has a covered offset (R75). -/
theorem any_block_iff (k : Nat) : (slice cov (256 * k) 256).any id = true ↔ ∃ o, o < 256 ∧ cov[256 * k + o]? = some true := by
  simp only [List.any_eq_true, id, List.mem_iff_getElem?]
  constructor
  · rintro ⟨b, ⟨o, there⟩, rfl⟩
    have inside : o < 256 := by
      have := (List.getElem?_eq_some_iff.mp there).1
      rw [slice, List.length_take] at this
      omega
    exact ⟨o, inside, (getElem?_slice _ _ _ _ inside).symm.trans there⟩
  · rintro ⟨o, inside, covered⟩
    exact ⟨true, ⟨o, (getElem?_slice _ _ _ _ inside).trans covered⟩, rfl⟩

theorem mem_coveredWrite (w : Wire) : w ∈ coveredWrite home data cov ↔
    ∃ k < 4, (∃ o, o < 256 ∧ cov[256 * k + o]? = some true) ∧
      w = ⟨.write, BitVec.ofNat 40 (home + 256 * k), 8, (data.drop (256 * k)).take 256, (cov.drop (256 * k)).take 256⟩ := by
  rw [coveredWrite, List.mem_map]
  constructor
  · rintro ⟨o, ho, rfl⟩
    obtain ⟨block, covered⟩ := List.mem_filter.mp ho
    obtain ⟨k, hk, rfl⟩ := (mem_tileBlocks o).mp block
    exact ⟨k, hk, (any_block_iff k).mp covered, rfl⟩
  · rintro ⟨k, hk, covered, rfl⟩
    exact ⟨256 * k, List.mem_filter.mpr ⟨(mem_tileBlocks _).mpr ⟨k, hk, rfl⟩, (any_block_iff k).mpr covered⟩, rfl⟩

end

end Sys2Proof.Machine

open Sys2Proof Sys2Proof.Machine

/-- Settles O43: a kind by whether it must migrate and what it writes; a write's transfers block by block. -/
theorem commitGoesOnAsItsKindGives : Obligations.CommitGoesOnAsItsKindGives := by
  refine ⟨fun s c e => ?kinds, fun home data cov full _ => ⟨mem_wholeWrite full, mem_coveredWrite⟩⟩
  intro g home now whole moving migrate must
  have migrates (k : CommitKind) : (s.decide c k none).startMigration (c.decided k none) = migrate k :=
    startMigration_decide s c k
  have writes {k : CommitKind} (h : k ≠ .partialTile ∨ c.prev ≠ .owned) :
      (s.decide c k none).enterWrite (c.decided k none) e.data e.cov = whole k := by
    rw [enterWrite_decide, writeWires_whole _ _ _ h]
    rfl
  have still {h : ¬must} : ¬c.mustMigrate = true := mt (mustMigrate_iff c).mp h
  have moves (h : must) : c.mustMigrate = true := (mustMigrate_iff c).mpr h
  refine ⟨rfl, takeKind_aliased_still s e, fun h => (takeKind_aliased_moving s e h).trans (migrates _),
    fun k kind => ⟨fun h => ?_, fun h => ?_⟩, fun blank => ?_, fun owned none_aliases => ?_, fun h => ?_,
    fun o prev => takeKind_partial_alias s e prev⟩
  · have writing : k ≠ .partialTile := by rcases kind with rfl | rfl | rfl <;> decide
    rw [takeKind_writing s e kind, if_neg (still (h := h)), writes (.inl writing)]
  · rw [takeKind_writing s e kind, if_pos (moves h), migrates]
  · rw [takeKind_partial_home s e (by simp [blank]), if_neg (still (h := by simp [must, blank])), writes (.inr (by simp [blank]))]
  · rw [takeKind_partial_home s e (by simp [owned]), if_neg (still (h := by simp [must, none_aliases])), enterWrite_decide,
      writeWires_covered _ _ _ owned]
    rfl
  · rw [takeKind_partial_home s e (by simp [h.1]), if_pos (moves h), migrates]

end

/-! ## The answers of a commit's and a migration's reads (O44, O47) -/
section
namespace Sys2Proof.Machine

/-! ### The commit and the migration of a tile, changed -/

section
variable {s : State} {st : StreamId} {pos : Nat}

theorem find_map_if {α : Type} {xs : List α} {p : α → Bool} {x : α} (f : α → α) (here : α → Prop) [DecidablePred here]
    (test : ∀ y, p y = true ↔ here y) (kept : ∀ y, p (f y) = p y) (found : xs.find? p = some x) :
    (xs.map fun y => if here y then f y else y).find? p = some (f x) := by
  have same (y : α) : p (if here y then f y else y) = p y := by
    split
    · exact kept y
    · rfl
  have this : here x := (test x).mp (List.find?_some found)
  rw [List.find?_map, show (p ∘ fun y => if here y then f y else y) = p from funext same, found, Option.map_some, if_pos this]

theorem commitAt_updateCommit {c : Commit} (f : Commit → Commit) (kept : ∀ d, (f d).stream = d.stream ∧ (f d).pos = d.pos)
    (found : s.commitAt st pos = some c) : (s.updateCommit st pos f).commitAt st pos = some (f c) :=
  find_map_if f _ (fun d => by simp) (fun d => by rw [(kept d).1, (kept d).2]) found

theorem migrationAt_updateMigration {m : Migration} (f : Migration → Migration)
    (kept : ∀ d, (f d).stream = d.stream ∧ (f d).pos = d.pos) (found : s.migrationAt st pos = some m) :
    (s.updateMigration st pos f).migrationAt st pos = some (f m) :=
  find_map_if f _ (fun d => by simp) (fun d => by rw [(kept d).1, (kept d).2]) found

theorem commitAt_eq_some {c : Commit} (h : s.commitAt st pos = some c) : c.stream = st ∧ c.pos = pos := by
  simpa using List.find?_some h

theorem migrationAt_eq_some {m : Migration} (h : s.migrationAt st pos = some m) : m.stream = st ∧ m.pos = pos := by
  simpa using List.find?_some h

/-- Two changes of a migration in its place. -/
theorem updateMigration_twice (f g : Migration → Migration) (kept : ∀ d, (f d).stream = d.stream ∧ (f d).pos = d.pos) :
    (s.updateMigration st pos f).updateMigration st pos g = s.updateMigration st pos fun d => g (f d) := by
  have once (d : Migration) : (fun d => if d.stream = st ∧ d.pos = pos then g d else d)
      (if d.stream = st ∧ d.pos = pos then f d else d) = if d.stream = st ∧ d.pos = pos then g (f d) else d := by
    by_cases here : d.stream = st ∧ d.pos = pos
    · simp [here, kept]
    · simp [here]
  simp only [State.updateMigration, List.map_map]
  exact congrArg (fun ms => { s with migrations := ms }) (List.map_congr_left fun d _ => once d)

end

/-! ### VERIFY (R66) -/

/-- A commit with a verify read answered. -/
def Commit.verifyGot (w : Wire) (a : DramAnswer) (c : Commit) : Commit :=
  match a.status with
  | .okay => { c with got := c.got ++ [tilePart w a] }
  | .dataError => { c with readFailed := true }

theorem verifyGot_keeps (w : Wire) (a : DramAnswer) (c : Commit) : (c.verifyGot w a).stream = c.stream ∧
    (c.verifyGot w a).pos = c.pos ∧ (c.verifyGot w a).entry = c.entry ∧ (c.verifyGot w a).matched = c.matched ∧
    (c.verifyGot w a).slot = c.slot := by
  unfold Commit.verifyGot
  split <;> exact ⟨rfl, rfl, rfl, rfl, rfl⟩

section
variable {s : State} {st : StreamId} {pos : Nat} {w : Wire} {a : DramAnswer} {c : Commit} {e : Entry}

theorem verifyAnswered_waiting (busy : ∃ y ∈ s.internal, y.owner = .verifyRead st pos) :
    s.verifyAnswered st pos w a = s.updateCommit st pos (Commit.verifyGot w a) :=
  if_pos ((outstanding_owner _ _).mpr busy)

variable (last : ∀ y ∈ s.internal, y.owner ≠ .verifyRead st pos) (found : s.commitAt st pos = some c)
  (held : s.entryNum c.entry = some e)
include last found held

theorem verifyAnswered_last : s.verifyAnswered st pos w a =
    if !(c.verifyGot w a).readFailed && gather (c.verifyGot w a).got tileBlocks == e.data then
      (s.updateCommit st pos (Commit.verifyGot w a)).takeKind (c.verifyGot w a) e
        (if c.matched.getD 0 = c.slot then .retained else .aliased)
    else ((s.updateCommit st pos (Commit.verifyGot w a)).raise .collision st).takeKind (c.verifyGot w a) e .collided := by
  have keeps := verifyGot_keeps w a c
  have there : (s.updateCommit st pos (Commit.verifyGot w a)).commitAt st pos = some (c.verifyGot w a) :=
    commitAt_updateCommit _ (fun d => ⟨(verifyGot_keeps w a d).1, (verifyGot_keeps w a d).2.1⟩) found
  have entry : (s.updateCommit st pos (Commit.verifyGot w a)).entryNum (c.verifyGot w a).entry = some e :=
    keeps.2.2.1 ▸ held
  have kind : (c.verifyGot w a).matchKind ((c.verifyGot w a).matched.getD 0) =
      if c.matched.getD 0 = c.slot then .retained else .aliased := by
    rw [Commit.matchKind, keeps.2.2.2.1, keeps.2.2.2.2]
  refine (if_neg (Bool.not_eq_true _ ▸ outstanding_owner_false _ _ last)).trans ?_
  split
  · next lost => exact absurd (there.symm.trans lost) (Option.some_ne_none _)
  · next d here =>
    obtain rfl : c.verifyGot w a = d := Option.some.inj (there.symm.trans here)
    split
    · next lost => exact absurd (entry.symm.trans lost) (Option.some_ne_none _)
    · next f same =>
      obtain rfl : e = f := Option.some.inj (entry.symm.trans same)
      rw [kind]
      rfl

end

/-! ### MERGE (R74) -/

section
variable {s : State} {st : StreamId} {pos : Nat} {w : Wire} {a : DramAnswer} {c : Commit} {e : Entry}
  (okay : a.status = .okay)
include okay

theorem mergeAnswered_waiting (busy : ∃ y ∈ s.internal, y.owner = .mergeRead st pos) :
    s.mergeAnswered st pos w a = s.updateCommit st pos fun c => { c with got := c.got ++ [tilePart w a] } := by
  rw [State.mergeAnswered, okay]
  exact if_pos ((outstanding_owner _ _).mpr busy)

theorem mergeAnswered_last (last : ∀ y ∈ s.internal, y.owner ≠ .mergeRead st pos) (found : s.commitAt st pos = some c)
    (held : s.entryNum c.entry = some e) : s.mergeAnswered st pos w a =
      (s.updateCommit st pos fun c => { c with got := c.got ++ [tilePart w a] }).enterWrite
        { c with got := c.got ++ [tilePart w a] } (mergedTile e (gather (c.got ++ [tilePart w a]) tileBlocks)) e.cov := by
  have there := commitAt_updateCommit (fun c => { c with got := c.got ++ [tilePart w a] }) (fun d => ⟨rfl, rfl⟩) found
  rw [State.mergeAnswered, okay]
  refine (if_neg (Bool.not_eq_true _ ▸ outstanding_owner_false _ _ last)).trans ?_
  split
  · next lost => exact absurd (there.symm.trans lost) (Option.some_ne_none _)
  · next d here =>
    obtain rfl : { c with got := c.got ++ [tilePart w a] } = d := Option.some.inj (there.symm.trans here)
    split
    · next lost => exact absurd (held.symm.trans lost) (Option.some_ne_none _)
    · next f same =>
      obtain rfl : e = f := Option.some.inj (held.symm.trans same)
      rfl

end

theorem length_mergedTile {e : Entry} {read : List Byte} (data : e.data.length = 1024) (cov : e.cov.length = 1024)
    (whole : read.length = 1024) : (mergedTile e read).length = 1024 := by
  rw [mergedTile, List.length_zipWith, List.length_zip, data, cov, whole]
  rfl

/-- A merged byte is the entry's where covered, else the one read (R74). -/
theorem getElem?_mergedTile {e : Entry} {read : List Byte} (data : e.data.length = 1024) (cov : e.cov.length = 1024)
    (whole : read.length = 1024) {o : Nat} (ho : o < 1024) :
    (mergedTile e read)[o]? = if e.cov[o]? = some true then e.data[o]? else read[o]? := by
  have inData : o < e.data.length := data ▸ ho
  have inRead : o < read.length := whole ▸ ho
  have inCov : o < e.cov.length := cov ▸ ho
  have pair : (e.data.zip read)[o]? = some (e.data[o], read[o]) :=
    List.getElem?_zip_eq_some.mpr ⟨List.getElem?_eq_getElem inData, List.getElem?_eq_getElem inRead⟩
  rw [mergedTile, List.getElem?_zipWith, pair, List.getElem?_eq_getElem inCov, List.getElem?_eq_getElem inData,
    List.getElem?_eq_getElem inRead]
  cases e.cov[o] <;> simp

/-! ### COPY-READ (R87) -/

section
variable {s : State} {st : StreamId} {pos : Nat} {w : Wire} {a : DramAnswer} {m : Migration} {c : Commit} {e : Entry}

theorem copyReadReport_aliased (found : s.commitAt st pos = some c) (kind : c.kind = some .aliased) :
    s.copyReadReport st pos = s := by
  rw [State.copyReadReport, found]
  exact if_pos kind

theorem copyReadReport_writing (found : s.commitAt st pos = some c) (held : s.entryNum c.entry = some e)
    (kind : c.kind ≠ some .aliased) : s.copyReadReport st pos = s.enterWrite c e.data e.cov := by
  rw [State.copyReadReport, found]
  dsimp only
  rw [if_neg kind, held]

variable (okay : a.status = .okay)
include okay

theorem copyReadAnswered_waiting (busy : ∃ y ∈ s.internal, y.owner = .copyRead st pos) :
    s.copyReadAnswered st pos w a = s.updateMigration st pos fun m => { m with got := m.got ++ [tilePart w a] } := by
  rw [State.copyReadAnswered, okay]
  exact if_pos ((outstanding_owner _ _).mpr busy)

theorem copyReadAnswered_last (last : ∀ y ∈ s.internal, y.owner ≠ .copyRead st pos) (found : s.migrationAt st pos = some m) :
    s.copyReadAnswered st pos w a =
      (((s.updateMigration st pos fun m => { m with step := .copyWrite, got := [] }).handInternal (.copyWrite st pos)
        (wholeWrite ((s.geometry st).home m.newOwner pos) (gather (m.got ++ [tilePart w a]) tileBlocks))).copyReadReport
          st pos) := by
  have there := migrationAt_updateMigration (fun m => { m with got := m.got ++ [tilePart w a] }) (fun d => ⟨rfl, rfl⟩) found
  have twice := updateMigration_twice (s := s) (st := st) (pos := pos) (fun m => { m with got := m.got ++ [tilePart w a] })
    (fun m => { m with step := .copyWrite, got := [] }) fun d => ⟨rfl, rfl⟩
  rw [State.copyReadAnswered, okay]
  refine (if_neg (Bool.not_eq_true _ ▸ outstanding_owner_false _ _ last)).trans ?_
  split
  · next lost => exact absurd (there.symm.trans lost) (Option.some_ne_none _)
  · next d here =>
    obtain rfl : { m with got := m.got ++ [tilePart w a] } = d := Option.some.inj (there.symm.trans here)
    dsimp only
    rw [twice]

end

end Sys2Proof.Machine

open Sys2Proof Sys2Proof.Machine

/-- Settles O44: the answer reaches the commit of the tile; the last one decides the match, or hands on the merged tile. -/
theorem verifyAndMergeOutcomes : Obligations.VerifyAndMergeOutcomes := by
  refine ⟨fun a s x st pos c e issued kept owner read fits found held => ?verify,
    fun a s x st pos c e issued kept owner read okay fits found held => ?merge, fun e read data cov whole =>
      ⟨length_mergedTile data cov whole, fun o ho => getElem?_mergedTile data cov whole ho⟩⟩
  case verify =>
    intro c' left t
    have handed : s.internalAnswer Owner.isVerify a (deliverInternal a) =
        State.verifyAnswered { s with internal := left } st pos x.wire a := by
      rw [internalAnswer_handed issued kept (by rw [owner]; rfl) (fits_read read fits), owner]
      rfl
    have answered {u : State} (h : State.verifyAnswered { s with internal := left } st pos x.wire a = u) :
        exec (.verifyReadAnswer a) s = .next u.finish := next_finish_congr (handed.trans h)
    refine ⟨fun busy => answered (verifyAnswered_waiting busy), fun last => ?_⟩
    have outcome := verifyAnswered_last (w := x.wire) (a := a) (s := { s with internal := left }) last found held
    refine ⟨fun sound equal => answered (outcome.trans (if_pos ?_)), fun differs => answered (outcome.trans (if_neg ?_))⟩
    · exact Bool.and_eq_true_iff.mpr ⟨Bool.not_eq_true' _ ▸ sound, beq_iff_eq.mpr equal⟩
    · rw [Bool.and_eq_true, Bool.not_eq_true', beq_iff_eq]
      rintro ⟨sound, equal⟩
      exact differs.elim (fun failed => Bool.noConfusion (failed.symm.trans sound)) (absurd equal)
  case merge =>
    intro c' left t
    have handed : s.internalAnswer Owner.isMerge a (deliverInternal a) =
        State.mergeAnswered { s with internal := left } st pos x.wire a := by
      rw [internalAnswer_handed issued kept (by rw [owner]; rfl) (fits_read read fun _ => fits), owner]
      rfl
    have answered {u : State} (h : State.mergeAnswered { s with internal := left } st pos x.wire a = u) :
        exec (.mergeReadAnswer a) s = .next u.finish := next_finish_congr (handed.trans h)
    refine ⟨fun busy => answered (mergeAnswered_waiting okay busy), fun last o prev => answered ?_⟩
    obtain ⟨stream, position⟩ := commitAt_eq_some found
    subst stream position
    have whole : Commit.writeWires c' (s.geometry c.stream) (mergedTile e (gather c'.got tileBlocks)) e.cov =
        wholeWrite ((s.geometry c.stream).home c.slot c.pos) (mergedTile e (gather c'.got tileBlocks)) :=
      if_neg fun both => TileState.noConfusion (prev.symm.trans both.2)
    refine (mergeAnswered_last (s := { s with internal := left }) okay last found held).trans ?_
    exact congrArg (fun ws => State.handInternal (t.updateCommit c.stream c.pos fun d => { d with
      phase := some .write, got := [] }) (.commitWrite c.stream c.pos) ws) whole

/-- Settles O47: the answer reaches the migration of the position; at the last the copy write, then the commit's, follow. -/
theorem copyReadsLeadToTheCopyWrite : Obligations.CopyReadsLeadToTheCopyWrite := by
  intro a s x st pos m c e issued kept owner read okay fits moving found held part left
  have handed : s.internalAnswer Owner.isCopyRead a (deliverInternal a) =
      State.copyReadAnswered { s with internal := left } st pos x.wire a := by
    rw [internalAnswer_handed issued kept (by rw [owner]; rfl) (fits_read read fun _ => fits), owner]
    rfl
  have answered {u : State} (h : State.copyReadAnswered { s with internal := left } st pos x.wire a = u) :
      exec (.copyReadAnswer a) s = .next u.finish := next_finish_congr (handed.trans h)
  refine ⟨fun busy => answered (copyReadAnswered_waiting okay busy), fun last => ?_⟩
  intro copied t
  have outcome : State.copyReadAnswered { s with internal := left } st pos x.wire a = t.copyReadReport st pos :=
    copyReadAnswered_last (s := { s with internal := left }) okay last moving
  obtain ⟨stream, position⟩ := commitAt_eq_some found
  subst stream position
  exact ⟨fun aliased => answered (outcome.trans (copyReadReport_aliased (s := t) found aliased)),
    fun writing => answered (outcome.trans (copyReadReport_writing (s := t) found held writing))⟩

end

/-! ## Completions (O45, O48) -/
section
namespace Sys2Proof.Machine

/-! ### The completion of a commit (R78) -/

section
variable {s : State} {st : StreamId} {pos : Nat} {c : Commit} {k : CommitKind} (found : s.commitAt st pos = some c)
  (kind : c.kind = some k)
include found kind

theorem completeIfDue_waiting (waits : s.commitDue c = false) : s.completeIfDue st pos = s := by
  simp only [State.completeIfDue, found, kind, waits, Bool.false_eq_true, if_false]

theorem completeIfDue_due (due : s.commitDue c = true) : s.completeIfDue st pos = s.completeCommit c k := by
  simp only [State.completeIfDue, found, kind, due, if_true]

end

theorem newState_eq (c : Commit) (k : CommitKind) :
    c.newState k = if k = .aliased then .aliasOf (c.matched.getD 0) else .owned := by
  cases k <;> rfl

theorem newRecord_eq (c : Commit) (k : CommitKind) : c.newRecord k = if k = .aliased ∨ k = .retained then none
    else some ⟨if k = .changed ∨ k = .collided then c.sig else none, c.slot⟩ := by
  cases k <;> rfl

/-- The map change of a commit, cell by cell (R78). -/
theorem mapMem_applyCommit (s : State) (c : Commit) (k : CommitKind) : (s.applyCommit c k).mapMem =
    (let written := MapMemory.write s.mapMem (s.cellKey c.stream ((s.geometry c.stream).entryCell c.slot c.pos))
      ⟨.entry ⟨if k = .aliased then .aliasOf (c.matched.getD 0) else .owned, some (k, (s.stream c.stream).frame)⟩, .good⟩
    if k = .aliased ∨ k = .retained then written
    else MapMemory.write written (s.cellKey c.stream ((s.geometry c.stream).recordCell c.pos))
      ⟨.record ⟨if k = .changed ∨ k = .collided then c.sig else none, c.slot⟩, .good⟩) := by
  unfold State.applyCommit
  rw [newState_eq, newRecord_eq]
  dsimp only
  by_cases kept : k = .aliased ∨ k = .retained
  · rw [if_pos kept, if_pos kept]
    rfl
  · rw [if_neg kept, if_neg kept]
    rfl

/-- A count that rises where the commit is PARTIAL of its reason (R127). -/
def countOf (c : Commit) (k : CommitKind) (r : Reason) (n : Nat) : Nat :=
  if k = .partialTile ∧ c.reason = r then min (n + 1) 65535 else n

theorem countPartial_eq (x : Stream) {c : Commit} {k : CommitKind} (h : k = .partialTile) : x.countPartial c.reason = { x with
    evicted := countOf c k .evicted x.evicted
    aged := countOf c k .aged x.aged
    closed := countOf c k .close x.closed } := by
  subst h
  cases hr : c.reason <;> simp [Stream.countPartial, countOf, hr, bump, Config.countStop]

theorem stream_completeCommit_self (s : State) (c : Commit) (k : CommitKind) :
    (s.completeCommit c k).stream c.stream = { s.stream c.stream with
      evicted := countOf c k .evicted (s.stream c.stream).evicted
      aged := countOf c k .aged (s.stream c.stream).aged
      closed := countOf c k .close (s.stream c.stream).closed } := by
  rw [stream_completeCommit]
  by_cases counted : k = .partialTile
  · rw [if_pos ⟨counted, rfl⟩, countPartial_eq _ counted]
  · have same (r : Reason) (n : Nat) : countOf c k r n = n := if_neg fun h => counted h.1
    rw [if_neg fun h => counted h.1, same, same, same]

theorem stream_completeCommit_ne {s : State} {c : Commit} {k : CommitKind} {u : StreamId} (h : u ≠ c.stream) :
    (s.completeCommit c k).stream u = s.stream u := by
  rw [stream_completeCommit, if_neg fun both => h both.2]

theorem releaseWhere_eq (clears : HoldReason → Bool) (P : HoldReason → Prop) [DecidablePred P]
    (same : ∀ r, clears r = true ↔ P r) (q : List Held) :
    releaseWhere clears q = q.map fun h => if P h.reason then { h with released := true } else h :=
  List.map_congr_left fun h _ => ite_congr (propext (same h.reason)) (fun _ => rfl) fun _ => rfl

/-- Two releases are one, by either. -/
theorem releaseWhere_twice (f g : HoldReason → Bool) (q : List Held) :
    releaseWhere f (releaseWhere g q) = releaseWhere (fun r => f r || g r) q := by
  rw [releaseWhere, releaseWhere, releaseWhere, List.map_map]
  refine List.map_congr_left fun h _ => ?_
  dsimp only [Function.comp]
  by_cases hg : g h.reason = true
  · simp [hg]
  · simp [hg]

theorem entriesMeet_iff (free : Nat) (r : HoldReason) : entriesMeet free r = true ↔ ∃ n, n ≤ free ∧ r = .noEntry n := by
  cases r <;> simp [entriesMeet]

/-- The holds that the end of a commit releases (R43, R54). -/
theorem holdQ_completeCommit (s : State) (c : Commit) (k : CommitKind) : (s.completeCommit c k).holdQ = s.holdQ.map fun h =>
    if h.reason = .tileBusy c.stream c.slot c.pos ∨
        (∃ n, n ≤ 64 - (s.entries.filter fun e => e.num != c.entry).length ∧ h.reason = .noEntry n) then
      { h with released := true }
    else h := by
  rw [completeCommit_shape]
  dsimp only
  rw [releaseWhere_twice]
  refine List.map_congr_left fun h _ => ite_congr (propext ?_) (fun _ => rfl) fun _ => rfl
  rw [Bool.or_eq_true, entriesMeet_iff, busyOn, beq_iff_eq]
  rfl

/-! ### The completion of a migration (R89) -/

section
variable {s : State} {st : StreamId} {pos : Nat} {m : Migration} (found : s.migrationAt st pos = some m)
include found

theorem migrateIfDue_waiting (waits : m.step = .copyRead ∨ ∃ y ∈ s.internal, y.owner = .copyWrite st pos) :
    s.migrateIfDue st pos = s := by
  obtain ⟨stream, position⟩ := migrationAt_eq_some found
  subst stream position
  have not_due : s.migrationDue m = false := by
    rcases waits with reading | busy
    · simp [State.migrationDue, reading]
    · simp [State.migrationDue, (outstanding_owner _ _).mpr busy]
  simp only [State.migrateIfDue, found, not_due, Bool.false_eq_true, if_false]

theorem migrateIfDue_due (writing : m.step = .copyWrite) (answered : ∀ y ∈ s.internal, y.owner ≠ .copyWrite st pos) :
    s.migrateIfDue st pos = s.completeMigration m := by
  obtain ⟨stream, position⟩ := migrationAt_eq_some found
  subst stream position
  have due : s.migrationDue m = true := by
    simp [State.migrationDue, writing, outstanding_owner_false _ _ answered]
  simp only [State.migrateIfDue, found, due, if_true]

end

/-- All that the end of a migration does, written out from its map change (R89, R92). -/
theorem completeMigration_eq (s : State) (m : Migration) : s.completeMigration m =
    { (s.applyMigration m).setStream m.stream { s.stream m.stream with
        migrated := min ((s.stream m.stream).migrated + 1) 65535 } with
      migrations := s.migrations.filter fun n => !(n.stream == m.stream && n.pos == m.pos)
      holdQ := s.holdQ.map fun h => if h.reason = .migrating m.stream m.pos then { h with released := true } else h } := by
  have released := releaseWhere_eq (migratingOn m.stream m.pos) (fun r => r = .migrating m.stream m.pos)
    (fun r => by rw [migratingOn, beq_iff_eq]) s.holdQ
  rw [completeMigration_shape, applyMigration_shape, released]
  rfl

end Sys2Proof.Machine

open Sys2Proof Sys2Proof.Machine

/-- Settles O45: the end of a commit, part by part of the state, by `completeCommit_shape`. -/
theorem commitCompletionChangesTheMap : Obligations.CommitCompletionChangesTheMap := by
  intro s st pos c k found kind
  obtain ⟨stream, position⟩ := commitAt_eq_some found
  subst stream position
  have shape := completeCommit_shape s c k
  refine ⟨fun waits => next_finish_congr (completeIfDue_waiting found kind waits), fun due =>
    ⟨s.completeCommit c k, rfl, next_finish_congr (completeIfDue_due found kind due), ?_, stream_completeCommit_self s c k,
      fun u => stream_completeCommit_ne, congrArg State.commits shape, congrArg State.entries shape,
      congrArg State.lastWrite shape, holdQ_completeCommit s c k, ?_⟩⟩
  · rw [completeCommit_shape]
    exact mapMem_applyCommit s c k
  · rw [completeCommit_shape]

/-- Settles O48: the end of a migration by `completeMigration_shape`; its map change writes each aliaser's cell once. -/
theorem migrationCompletionRepointsTheAliasers : Obligations.MigrationCompletionRepointsTheAliasers := by
  refine ⟨fun s st pos m found => ⟨fun waits => next_finish_congr (migrateIfDue_waiting found waits), fun writing answered =>
    ⟨next_finish_congr (migrateIfDue_due found writing answered), ?whole⟩⟩, fun s m wf => ?cells⟩
  case whole =>
    obtain ⟨stream, position⟩ := migrationAt_eq_some found
    subst stream position
    exact completeMigration_eq s m
  case cells =>
    intro key once
    have keys : (m.aliasers.map Prod.fst).map (s.aliaserKey m) = m.aliasers.map fun a => key a.1 := List.map_map ..
    refine ⟨(s.applyMigration m).mapMem, applyMigration_shape s m, fun a ha => ?_, fun k hk => ?_⟩
    · rw [applyMigration_eq]
      exact read_repoint_fold (keys ▸ once) wf (List.mem_map_of_mem ha)
    · rw [applyMigration_eq]
      refine read_repoint_fold_ne fun q hq same => hk ?_
      rw [← keys, same]
      exact List.mem_map_of_mem hq

end

/-! ## Window loads (O50, O51) -/
section
namespace Sys2Proof.Machine

/-! ### The end of a load -/

/-- A stream record as a setup's success leaves it (R163). -/
def Stream.justOpened (x : Stream) : Stream :=
  { x with state := .opened, frame := 0, slot := 0, phase := none, evicted := 0, aged := 0, closed := 0, migrated := 0
           reason := .noReason }

section
variable {s : State} {st : StreamId} {x : Stream}

theorem loadSettled_running (running : x.state ≠ .loading) : (s.setStream st x).loadSettled st = s.setStream st x := by
  rw [State.loadSettled, stream_setStream_self, if_neg running]

theorem loadSettled_setup (loading : x.state = .loading) :
    (s.setStream st x).loadSettled st = (s.setStream st x.justOpened).raise .setupDone st := by
  rw [State.loadSettled, stream_setStream_self, if_pos loading, State.openStream, stream_setStream_self, setStream_setStream]
  rfl

end

/-- The checks of the window descriptor (R109). -/
theorem windowDescOk_iff (bytes : List Byte) : windowDescOk bytes = true ↔ recField bytes 16 8 % 2 ^ 40 % 4 = 0 ∧
    recField bytes 24 2 ≤ 1088 ∧
    (1 ≤ recField bytes 24 2 → recField bytes 16 8 % 2 ^ 40 + 4 * recField bytes 24 2 - 1 < 2 ^ 40) := by
  have table : lineTableAddr bytes = recField bytes 16 8 % 2 ^ 40 := rfl
  have lines : Config.storeLines = 1088 := rfl
  have addresses : Config.addressEnd = 2 ^ 40 := rfl
  simp only [windowDescOk, table, lines, addresses, Bool.and_eq_true, Bool.or_eq_true, beq_iff_eq, decide_eq_true_eq, and_assoc]
  omega

section
variable {s : State} {st : StreamId} {bytes : List Byte}

theorem windowDescRead_rejected (bad : ¬windowDescOk bytes = true) : s.windowDescRead st bytes = s.rejectSet st :=
  if_pos (by simp [bad])

variable (ok : windowDescOk bytes = true)
include ok

theorem windowDescRead_empty (none_lines : (windowSetOf bytes).n = 0) :
    s.windowDescRead st bytes = s.switchIn st (windowSetOf bytes) [] :=
  (if_neg (by simp [ok])).trans (if_pos none_lines)

theorem windowDescRead_table (lines : 1 ≤ (windowSetOf bytes).n) : s.windowDescRead st bytes =
    (s.setStream st { s.stream st with load := some ⟨windowSetOf bytes, lineTableAddr bytes, [], false⟩ }).handInternal
      (.lineTable st) (lineTableReads (lineTableAddr bytes) (windowSetOf bytes).n) :=
  (if_neg (by simp [ok])).trans (if_neg (by omega))

end

section
variable {s : State} {st : StreamId} {a : DramAnswer}

theorem windowDescAnswered_okay (okay : a.status = .okay) : s.windowDescAnswered st a = s.windowDescRead st a.data := by
  rw [State.windowDescAnswered, okay]

theorem windowDescAnswered_setupFailed (failed : a.status = .dataError) (loading : (s.stream st).state = .loading) :
    s.windowDescAnswered st a = s.refuseSetup st .fetchError := by
  rw [State.windowDescAnswered, failed]
  exact if_pos loading

end

/-! ### Line tables -/

/-- A load with a line-table read answered (R106, R110). -/
def WinLoad.answered (load : WinLoad) (w : Wire) (a : DramAnswer) : WinLoad :=
  { load with
    failed := load.failed || a.status == .dataError
    got := if a.status = .okay then load.got ++ [(w.addr.toNat, a.data)] else load.got }

theorem answered_okay (load : WinLoad) (w : Wire) {a : DramAnswer} (okay : a.status = .okay) :
    load.answered w a = { load with got := load.got ++ [(w.addr.toNat, a.data)] } := by
  simp [WinLoad.answered, okay]

theorem answered_dataError (load : WinLoad) (w : Wire) {a : DramAnswer} (failed : a.status = .dataError) :
    load.answered w a = { load with failed := true } := by
  simp [WinLoad.answered, failed]

section
variable {s : State} {st : StreamId} {w : Wire} {a : DramAnswer} {load : WinLoad} (found : (s.stream st).load = some load)
  (goes : (load.answered w a).failed = false ∨ (s.stream st).state = .loading)
include found goes

theorem lineTableAnswered_eq : s.lineTableAnswered st w a =
    if (s.setStream st { s.stream st with load := some (load.answered w a) }).outstanding (fun o => o == .lineTable st) then
      s.setStream st { s.stream st with load := some (load.answered w a) }
    else (s.setStream st { s.stream st with load := some (load.answered w a) }).lineTableRead st (load.answered w a) := by
  have no_fault : ¬((load.answered w a).failed && (s.stream st).state != .loading) = true := by
    rcases goes with sound | loading
    · simp [sound]
    · simp [loading]
  rw [State.lineTableAnswered, found]
  exact if_neg no_fault

theorem lineTableAnswered_waiting (busy : ∃ y ∈ s.internal, y.owner = .lineTable st) : s.lineTableAnswered st w a =
    s.setStream st { s.stream st with load := some (load.answered w a) } := by
  rw [lineTableAnswered_eq found goes]
  exact if_pos ((outstanding_owner _ _).mpr busy)

theorem lineTableAnswered_last (last : ∀ y ∈ s.internal, y.owner ≠ .lineTable st) : s.lineTableAnswered st w a =
    (s.setStream st { s.stream st with load := some (load.answered w a) }).lineTableRead st (load.answered w a) := by
  rw [lineTableAnswered_eq found goes]
  exact if_neg (Bool.not_eq_true _ ▸ outstanding_owner_false _ _ last)

end

/-- A whole line table is switched in over the load it came by (R110, R111). -/
theorem lineTableRead_switched {s : State} {st : StreamId} {x : Stream} {load : WinLoad} (sound : load.failed = false) :
    (s.setStream st x).lineTableRead st load = (s.setStream st { x with
      active := load.set, store := lineStoreOf load, loadingWin := none, load := none, switched := true }).loadSettled st := by
  rw [State.lineTableRead, if_neg (by simp [sound]), State.switchIn, stream_setStream_self, setStream_setStream]

theorem lineTableRead_failed {s : State} {st : StreamId} {load : WinLoad} (failed : load.failed = true) :
    s.lineTableRead st load = s.refuseSetup st .fetchError :=
  if_pos failed

theorem getElem?_lineStoreOf {load : WinLoad} {y : Nat} (h : y < load.set.n) : (lineStoreOf load)[y]? =
    some (spanOf
      (recField ((gather load.got ((lineTableParts load.table load.set.n).map Prod.fst)).drop (load.table % 32)) (4 * y) 2)
      (recField ((gather load.got ((lineTableParts load.table load.set.n).map Prod.fst)).drop (load.table % 32))
        (4 * y + 2) 2)) := by
  have start : load.table - load.table / 32 * 32 = load.table % 32 := by omega
  rw [lineStoreOf, start]
  rw [List.getElem?_map, List.getElem?_range h]
  rfl

/-- The parts of a line table's extent (R110). -/
theorem lineTableParts_spec {table n : Nat} (lines : 1 ≤ n) :
    ((lineTableParts table n).map partSize).sum = (table + 4 * n + 31) / 32 * 32 - table / 32 * 32 ∧
    ∀ i p, (lineTableParts table n)[i]? = some p →
      p.1 = table / 32 * 32 + (((lineTableParts table n).take i).map partSize).sum ∧ p.1 < p.2 ∧ (0 < i → p.1 % 256 = 0) ∧
      p.1 / 256 = (p.2 - 1) / 256 ∧ 32 ≤ p.2 - p.1 ∧ p.2 - p.1 ≤ 256 ∧ (p.2 - p.1) % 32 = 0 := by
  obtain ⟨whole, parts⟩ := cutAt_spec (w := 256) (lo := table / 32 * 32) (hi := (table + 4 * n + 31) / 32 * 32) (by decide)
    (by omega)
  refine ⟨whole, fun i p there => ?_⟩
  obtain ⟨start, nonempty, -, boundary, block, stop⟩ := parts i p there
  have aligned : p.1 % 32 = 0 := by
    rcases Nat.eq_zero_or_pos i with rfl | later
    · rw [start, List.take_zero, List.map_nil, List.sum_nil]
      omega
    · have := boundary later
      omega
  exact ⟨start, nonempty, boundary, block, by omega, by omega, by omega⟩

end Sys2Proof.Machine

open Sys2Proof Sys2Proof.Machine

/-- Settles O50: the descriptor is read as its checks and its N say, and the stream's state settles the load. -/
theorem windowDescriptorAnswer : Obligations.WindowDescriptorAnswer := by
  refine ⟨fun a s x st issued kept owner read okay fits closing => ?frame, fun a s x st issued kept owner read loading => ?setup,
    fun bytes => rfl⟩
  case frame =>
    intro table n ok left
    have handed : s.internalAnswer Owner.isWinDesc a (deliverInternal a) =
        State.windowDescAnswered { s with internal := left } st a := by
      rw [internalAnswer_handed issued kept (by rw [owner]; rfl) (fits_read read fun _ => fits), owner]
      rfl
    have answered {u : State} (h : State.windowDescRead { s with internal := left } st a.data = u) :
        exec (.windowDescriptorReadAnswer a) s = .next u.finish :=
      next_finish_congr (handed.trans ((windowDescAnswered_okay okay).trans h))
    have running : (s.stream st).state ≠ .loading := by simp [closing]
    have check := windowDescOk_iff a.data
    refine ⟨fun bad => answered ?_, fun good none_lines => answered ?_, fun good lines =>
      answered (windowDescRead_table (check.mpr good) lines)⟩
    · rw [windowDescRead_rejected (mt check.mp bad), State.rejectSet]
      exact loadSettled_running (s := { s with internal := left }) running
    · rw [windowDescRead_empty (check.mpr good) none_lines, State.switchIn]
      exact loadSettled_running (s := { s with internal := left }) running
  case setup =>
    intro left table n ok
    have check := windowDescOk_iff a.data
    have handed (fits : a.status = .okay → a.data.length = 32 * x.wire.beats) :
        s.internalAnswer Owner.isWinDesc a (deliverInternal a) = left.windowDescAnswered st a := by
      rw [internalAnswer_handed issued kept (by rw [owner]; rfl) (fits_read read fits), owner]
      rfl
    refine ⟨fun okay fits => ?_, fun failed => next_finish_congr ?_⟩
    · have answered {u : State} (h : left.windowDescRead st a.data = u) :
          exec (.windowDescriptorReadAnswer a) s = .next u.finish :=
        next_finish_congr ((handed fun _ => fits).trans ((windowDescAnswered_okay okay).trans h))
      refine ⟨fun bad => answered ?_, fun good none_lines => answered ?_, fun good lines =>
        answered (windowDescRead_table (check.mpr good) lines)⟩
      · rw [windowDescRead_rejected (mt check.mp bad), State.rejectSet]
        exact loadSettled_setup (s := left) loading
      · rw [windowDescRead_empty (check.mpr good) none_lines, State.switchIn]
        exact loadSettled_setup (s := left) loading
    · exact (handed fun okay => absurd (okay.symm.trans failed) (by simp)).trans (windowDescAnswered_setupFailed failed loading)

/-- Settles O51: the answer reaches the load; at the last it ends, by its failures and the stream's state. -/
theorem lineTableReadsAndTheirAnswers : Obligations.LineTableReadsAndTheirAnswers := by
  refine ⟨fun a s x st load issued kept owner read fits found => ?answers, fun load y inside =>
    ⟨by simp [lineStoreOf], getElem?_lineStoreOf inside⟩, fun table n lines => ⟨rfl, lineTableParts_spec lines⟩⟩
  case answers =>
    intro left load' kept' switched
    have load_eq : load.answered x.wire a = load' := by
      cases status : a.status with
      | okay => simp only [load', status, answered_okay load x.wire status]
      | dataError => simp only [load', status, answered_dataError load x.wire status]
    have handed : s.internalAnswer Owner.isLineTable a (deliverInternal a) =
        State.lineTableAnswered { s with internal := left } st x.wire a := by
      rw [internalAnswer_handed issued kept (by rw [owner]; rfl) (fits_read read fits), owner]
      rfl
    have answered {u : State} (h : State.lineTableAnswered { s with internal := left } st x.wire a = u) :
        exec (.lineTableReadAnswer a) s = .next u.finish := next_finish_congr (handed.trans h)
    have kept_eq : State.setStream { s with internal := left } st { s.stream st with load := some (load.answered x.wire a) } =
        kept' := by
      rw [load_eq]
      rfl
    have set_eq : load'.set = load.set := load_eq ▸ rfl
    have waiting (goes : (load.answered x.wire a).failed = false ∨ (s.stream st).state = .loading)
        (busy : ∃ y ∈ left, y.owner = .lineTable st) :
        State.lineTableAnswered { s with internal := left } st x.wire a = kept' :=
      (lineTableAnswered_waiting (s := { s with internal := left }) found goes busy).trans kept_eq
    have last (goes : (load.answered x.wire a).failed = false ∨ (s.stream st).state = .loading)
        (done : ∀ y ∈ left, y.owner ≠ .lineTable st) :
        State.lineTableAnswered { s with internal := left } st x.wire a = kept'.lineTableRead st load' := by
      rw [lineTableAnswered_last (s := { s with internal := left }) found goes done, ← kept_eq, load_eq]
      rfl
    have switches (sound : load'.failed = false) : kept'.lineTableRead st load' =
        (State.setStream { s with internal := left } st switched).loadSettled st := by
      refine (lineTableRead_switched (s := { s with internal := left }) sound).trans ?_
      rw [set_eq]
    refine ⟨fun closing sound okay => ?_, fun loading => ⟨fun busy => answered (waiting (.inr loading) busy), fun done =>
      ⟨fun failed => answered ((last (.inr loading) done).trans (lineTableRead_failed failed)), fun sound =>
        answered ((last (.inr loading) done).trans ((switches sound).trans (loadSettled_setup loading)))⟩⟩⟩
    have goes : (load.answered x.wire a).failed = false := by simp [WinLoad.answered, sound, okay]
    have running : switched.state ≠ .loading := by simp [switched, closing]
    exact ⟨fun busy => answered (waiting (.inl goes) busy), fun done => answered ((last (.inl goes) done).trans
      ((switches (load_eq ▸ goes)).trans (loadSettled_running running)))⟩

end

/-! ## Faults by a transfer, and the end of a drain (O59, O60) -/
section
namespace Sys2Proof.Machine

/-! ### DATA-ERROR (R177) -/

section
variable {s : State} {st : StreamId} {pos : Nat} {w : Wire} {a : DramAnswer} (failed : a.status = .dataError)
include failed

theorem mergeAnswered_failed : s.mergeAnswered st pos w a = s.faultStream .transferFault st := by
  rw [State.mergeAnswered, failed]

theorem writeAnswered_failed : s.writeAnswered st a = s.faultStream .transferFault st := by
  rw [State.writeAnswered, failed]

theorem copyReadAnswered_failed : s.copyReadAnswered st pos w a = s.faultStream .transferFault st := by
  rw [State.copyReadAnswered, failed]

theorem statusMapAnswered_failed : s.statusMapAnswered st a = s.faultStream .transferFault st := by
  rw [State.statusMapAnswered, failed]

theorem frameRecordAnswered_failed : s.frameRecordAnswered st a = s.faultStream .transferFault st := by
  rw [State.frameRecordAnswered, failed]

theorem windowDescAnswered_failed (running : (s.stream st).state ≠ .loading) :
    s.windowDescAnswered st a = s.faultStream .transferFault st := by
  rw [State.windowDescAnswered, failed]
  exact if_neg running

theorem lineTableAnswered_failed {load : WinLoad} (found : (s.stream st).load = some load)
    (running : (s.stream st).state ≠ .loading) : s.lineTableAnswered st w a = s.faultStream .transferFault st := by
  rw [State.lineTableAnswered, found]
  exact if_pos (by simp [failed, running])

end

/-! ### The end of a drain (R166) -/

theorem drainIfDue_waiting {s : State} {st : StreamId} (waits : s.drainDue st = false) : s.drainIfDue st = s :=
  if_neg (by simp [waits])

theorem drainIfDue_due {s : State} {st : StreamId} (due : s.drainDue st = true) : s.drainIfDue st = s.endDrain st :=
  if_pos due

/-- A stream's record replaced as its banks return to the pool. -/
theorem returnBanks_setStream (s : State) (st : StreamId) (x : Stream) :
    (s.returnBanks st).setStream st x = (s.putBanks (s.stream st).banks).setStream st x :=
  setStream_setStream _ st _ x

theorem drainDue_true {s : State} {st : StreamId} (draining : (s.stream st).state = .draining)
    (quiet : ∀ x ∈ s.internal, x.owner.stream ≠ some st) : s.drainDue st = true := by
  refine Classical.byContradiction fun waits => ?_
  obtain ⟨x, there, owner⟩ := (drainDue_false s st).mp (Bool.not_eq_true _ ▸ waits) draining
  exact quiet x there owner

end Sys2Proof.Machine

open Sys2Proof Sys2Proof.Machine

/-- Settles O59: the answer reaches its owner, and each owner's answer function faults the stream. -/
theorem dataErrorsThatFaultTheStream : Obligations.DataErrorsThatFaultTheStream := by
  intro a s x st issued kept failed faulted
  have answered {mine : Owner → Bool} {deliver : State → Owner → Wire → State} (owned : mine x.owner = true)
      (h : deliver { s with internal := s.internal.filter fun y => y.id != x.id } x.owner x.wire = faulted) :
      (.next (s.internalAnswer mine a deliver).finish : Result State) = .next faulted.finish :=
    next_finish_congr ((internalAnswer_handed issued kept owned (fits_dataError failed)).trans h)
  have running (closing : (s.stream st).state = .closing) : (s.stream st).state ≠ .loading := by simp [closing]
  refine ⟨fun pos owner => answered (by rw [owner]; rfl) ?_, fun pos owner => answered (by rw [owner]; rfl) ?_,
    fun pos owner => answered (by rw [owner]; rfl) ?_, fun pos owner => answered (by rw [owner]; rfl) ?_,
    fun owner => answered (by rw [owner]; rfl) ?_, fun owner => answered (by rw [owner]; rfl) ?_,
    fun owner closing => answered (by rw [owner]; rfl) ?_, fun load owner closing found => answered (by rw [owner]; rfl) ?_⟩
  all_goals rw [owner]
  · exact mergeAnswered_failed failed
  · exact writeAnswered_failed failed
  · exact copyReadAnswered_failed failed
  · exact writeAnswered_failed failed
  · exact statusMapAnswered_failed failed
  · exact frameRecordAnswered_failed failed
  · exact windowDescAnswered_failed failed (running closing)
  · exact lineTableAnswered_failed failed found (running closing)

/-- Settles O60: a drain that is due ends, and one that is not does nothing. -/
theorem drainEndFreesTheStream : Obligations.DrainEndFreesTheStream := by
  refine fun s st => ⟨fun waits => next_finish_congr (drainIfDue_waiting ((drainDue_false s st).mpr fun draining => ?_)),
    fun draining quiet => next_finish_congr ((drainIfDue_due (drainDue_true draining quiet)).trans ?_)⟩
  · exact waits.resolve_left (not_not_intro draining)
  · rw [State.endDrain, returnBanks_setStream]
    rfl

end

/-! ## The phases of a close (O55) -/
section
namespace Sys2Proof.Machine

section
variable {s : State} {st : StreamId} {a : DramAnswer} (okay : a.status = .okay)
include okay

theorem statusMapAnswered_waiting (busy : ∃ y ∈ s.internal, y.owner = .statusMap st) : s.statusMapAnswered st a = s := by
  rw [State.statusMapAnswered, okay]
  exact if_pos ((outstanding_owner _ _).mpr busy)

theorem statusMapAnswered_last (last : ∀ y ∈ s.internal, y.owner ≠ .statusMap st) :
    s.statusMapAnswered st a = s.beginThirdPhase st := by
  rw [State.statusMapAnswered, okay]
  exact if_neg (Bool.not_eq_true _ ▸ outstanding_owner_false _ _ last)

theorem frameRecordAnswered_okay : s.frameRecordAnswered st a = s.beginFourthPhase st := by
  rw [State.frameRecordAnswered, okay]

end

section
variable {s : State} {st : StreamId}

theorem beginThirdPhase_eq {r : FrameRecord} (formed : (s.stream st).record = some r) : s.beginThirdPhase st =
    (s.setStream st { s.stream st with phase := some .third }).handInternal (.frameRecord st)
      [recordWrite (s.geometry st) r] := by
  rw [State.beginThirdPhase]
  dsimp only
  rw [formed]
  rfl

theorem beginFourthPhase_still (still : (s.stream st).pendingWin = none) : s.beginFourthPhase st =
    s.setStream st { s.stream st with phase := some .fourth, switched := false, rejected := false } := by
  rw [State.beginFourthPhase]
  dsimp only
  rw [still]

theorem beginFourthPhase_loading {addr : Nat} (pending : (s.stream st).pendingWin = some addr) : s.beginFourthPhase st =
    (s.setStream st { s.stream st with phase := some .fourth, switched := false, rejected := false, pendingWin := none
                                       loadingWin := some addr }).handInternal (.winDesc st) [readWire addr 2] := by
  rw [State.beginFourthPhase]
  dsimp only
  rw [pending]
  dsimp only
  rw [State.beginLoad, stream_setStream_self, setStream_setStream]

/-! ### The next frame (R125) -/

theorem openIfDue_waiting (waits : s.openDue st = false) : s.openIfDue st = s := if_neg (by simp [waits])

theorem openIfDue_due (due : s.openDue st = true) : s.openIfDue st = s.openFrame st := if_pos due

theorem openDue_true (closing : (s.stream st).state = .closing) (fourth : (s.stream st).phase = some .fourth)
    (loaded : (s.stream st).loadingWin = none) : s.openDue st = true := by
  simp [State.openDue, closing, fourth, loaded]

theorem slideFlagged_iff (x : Stream) : x.slideFlagged = true ↔ ∃ r, x.record = some r ∧ r.slide = true :=
  Option.any_eq_true ..

theorem openFrame_plain (plain : ¬(s.stream st).slideFlagged = true) : s.openFrame st =
    ((s.setStream st (s.stream st).advanced).release (closingOf st)).raise .frameDone st :=
  if_neg plain

theorem openFrame_flagged (flagged : (s.stream st).slideFlagged = true) : s.openFrame st =
    (((s.setStream st (s.stream st).advanced).release (closingOf st)).raise .frameDone st).raise .slideChange st :=
  if_pos flagged

theorem release_closingOf (s : State) (st : StreamId) : s.release (closingOf st) = { s with
    holdQ := s.holdQ.map fun h => if h.reason = .closing st then { h with released := true } else h } :=
  congrArg (fun q => { s with holdQ := q })
    (releaseWhere_eq (closingOf st) (fun r => r = .closing st) (fun _ => beq_iff_eq) s.holdQ)

end

end Sys2Proof.Machine

open Sys2Proof Sys2Proof.Machine

/-- Settles O55: the last answer of each phase begins the next one; the frame opens when the fourth has ended. -/
theorem closePhasesEndInTheNextFrame : Obligations.ClosePhasesEndInTheNextFrame := by
  refine ⟨fun a s x st issued kept write okay => ?answers, fun s st =>
    ⟨fun waits => ?waiting, fun closing fourth loaded => ?opens⟩⟩
  case answers =>
    intro left g
    have answered {mine : Owner → Bool} {deliver : State → Owner → Wire → State} {u : State} (owned : mine x.owner = true)
        (h : deliver left x.owner x.wire = u) :
        (.next (s.internalAnswer mine a deliver).finish : Result State) = .next u.finish :=
      next_finish_congr ((internalAnswer_handed issued kept owned (fits_write write)).trans h)
    refine ⟨fun owner busy => answered (by rw [owner]; rfl) ?_, fun r owner last formed => answered (by rw [owner]; rfl) ?_,
      fun owner still => answered (by rw [owner]; rfl) ?_, fun addr owner pending => answered (by rw [owner]; rfl) ?_⟩
    all_goals rw [owner]
    · exact statusMapAnswered_waiting okay busy
    · exact (statusMapAnswered_last okay last).trans (beginThirdPhase_eq (s := left) formed)
    · exact (frameRecordAnswered_okay okay).trans (beginFourthPhase_still (s := left) still)
    · exact (frameRecordAnswered_okay okay).trans (beginFourthPhase_loading (s := left) pending)
  case waiting =>
    refine next_finish_congr (openIfDue_waiting ((openDue_false s st).mpr fun closing fourth => ?_))
    exact (waits.resolve_left (not_not_intro closing)).resolve_left (not_not_intro fourth)
  case opens =>
    intro opened
    have due := openIfDue_due (openDue_true closing fourth loaded)
    have advanced : (s.setStream st (s.stream st).advanced).release (closingOf st) = opened := release_closingOf _ st
    refine ⟨fun plain => next_finish_congr (due.trans ((openFrame_plain fun flagged => ?_).trans ?_)),
      fun r there slides => next_finish_congr
        (due.trans ((openFrame_flagged ((slideFlagged_iff _).mpr ⟨r, there, slides⟩)).trans ?_))⟩
    · obtain ⟨r, there, slides⟩ := (slideFlagged_iff _).mp flagged
      exact Bool.noConfusion (slides.symm.trans (plain r there))
    · rw [advanced]
    · rw [advanced]

end

/-! ## The end of a first phase (O53) -/
section
namespace Sys2Proof.Machine

/-- The status of each position, over contents listed by position (R118, R119). -/
theorem statusOf_range (x : Stream) (n : Nat) (val : Nat → CellVal) : statusOf x ((List.range n).map val) =
    (List.range n).map fun p => (statusKindOf (cellEntry (val p)) x.frame,
      x.changeActive (x.geometry.anchor p).1 (x.geometry.anchor p).2) := by
  rw [statusOf, List.length_map, List.length_range, ← List.map_prod_right_eq_zip, List.map_map]
  rfl

theorem closeIfDue_waiting {s : State} {st : StreamId} (waits : s.closeDue st = false) : s.closeIfDue st = s :=
  if_neg (by simp [waits])

theorem closeIfDue_due {s : State} {st : StreamId} (due : s.closeDue st = true) : s.closeIfDue st = s.beginSecondPhase st :=
  if_pos due

/-- The second phase, from what the lookups of the closing slot's entries give and leave (R118 to R121). -/
theorem beginSecondPhase_found {s t : State} {st : StreamId} {vals : List CellVal}
    (looked : s.lookupCells st (slotCells (s.geometry st) (s.stream st).slot) = (some vals, t)) : s.beginSecondPhase st =
      (t.setStream st { s.stream st with
        phase := some .second, record := some (recordOf (s.stream st) st (statusOf (s.stream st) vals)) }).handInternal
          (.statusMap st) (statusMapWrites (s.geometry st) (s.stream st).slot
            (statusMapBytes (s.geometry st) (statusOf (s.stream st) vals))) := by
  have same : t.stream st = s.stream st := by
    have only : OnlyLooked s (s.lookupCells st (slotCells (s.geometry st) (s.stream st).slot)).2 := onlyLooked_lookupCells ..
    rw [looked] at only
    exact only.stream st
  unfold State.beginSecondPhase
  dsimp only
  split
  · next u lost => exact absurd (congrArg Prod.fst (looked.symm.trans lost)) (Option.some_ne_none vals)
  · next vals' u found =>
    obtain ⟨rfl, rfl⟩ : vals = vals' ∧ t = u := by simpa using looked.symm.trans found
    rw [same]
    rfl

/-! ### The status kinds (R118) -/

theorem statusKindOf_blank {e : MapEntry} (never : e.last = none) (f : Nat) : statusKindOf e f = .blank := by
  rw [statusKindOf, never]

theorem statusKindOf_last {e : MapEntry} {k : CommitKind} {n : Nat} (last : e.last = some (k, n)) (f : Nat) :
    statusKindOf e f = if n = f then .committed k else .carried := by
  rw [statusKindOf, last]

end Sys2Proof.Machine

open Sys2Proof Sys2Proof.Machine

/-- Settles O53: a first phase that is due ends with what the lookups give, and the status is read position by position. -/
theorem firstPhaseEndFormsTheRecord : Obligations.FirstPhaseEndFormsTheRecord := by
  refine ⟨fun s st => ⟨fun waits => ?waiting, fun closing first empty => ?ends⟩, fun e f => ⟨fun k last => ?here,
    fun k n last older => ?before, fun never => statusKindOf_blank never f⟩⟩
  case waiting =>
    refine next_finish_congr (closeIfDue_waiting ((closeDue_false s st).mpr fun closing first => ?_))
    exact (waits.resolve_left (not_not_intro closing)).resolve_left (not_not_intro first)
  case ends =>
    intro x g cells ecc status formed
    have status_eq : statusOf x (cells.map (s.peekCell st)) = status := by
      rw [List.map_map]
      exact statusOf_range x g.tiles fun p => s.peekCell st (g.entryCell x.slot p)
    have ended {t : State} (looked : s.lookupCells st cells = (some (cells.map (s.peekCell st)), t)) :
        exec (.closeFirstPhaseEnd st) s = .next (formed t).finish := by
      refine next_finish_congr ((closeIfDue_due (closeDue_of closing first empty)).trans
        ((beginSecondPhase_found looked).trans ?_))
      rw [status_eq]
      rfl
    exact ⟨fun good => ended (lookupCells_good good),
      fun wf sound => ended (Prod.ext (lookupCells_values st cells s wf sound) rfl)⟩
  case here => rw [statusKindOf_last last, if_pos rfl]
  case before => rw [statusKindOf_last last, if_neg older]

end

/-! ## The status map, the frame record and the codes (O54) -/
section
namespace Sys2Proof.Machine

/-! ### The status map (R120) -/

theorem tiles_le_statusStride (g : Geom) : g.tiles ≤ g.statusStride := by
  unfold Geom.statusStride
  omega

section
variable {g : Geom} {status : List (StatusKind × Bool)} (whole : status.length = g.tiles)
include whole

theorem length_statusMapBytes : (statusMapBytes g status).length = g.statusStride := by
  have fits := tiles_le_statusStride g
  rw [statusMapBytes, List.length_append, List.length_map, List.length_replicate, whole]
  omega

omit whole in
theorem getElem?_statusMapBytes {i : Nat} {k : StatusKind × Bool} (there : status[i]? = some k) :
    (statusMapBytes g status)[i]? = some (statusByte k.1 k.2) := by
  obtain ⟨inside, -⟩ := List.getElem?_eq_some_iff.mp there
  rw [statusMapBytes, List.getElem?_append_left (by rwa [List.length_map]), List.getElem?_map, there, Option.map_some]

theorem getElem?_statusMapBytes_past {i : Nat} (past : g.tiles ≤ i) (inside : i < g.statusStride) :
    (statusMapBytes g status)[i]? = some 0 := by
  rw [statusMapBytes, List.getElem?_append_right (by rwa [List.length_map, whole]), List.getElem?_replicate_of_lt]
  rw [List.length_map, whole]
  omega

end

/-- The bytes of a part of a run, as its WRITE carries them. -/
theorem writeWire_part {bytes : List Byte} {base : Nat} {p : Nat × Nat} (start : base ≤ p.1)
    (inside : p.2 ≤ base + bytes.length) (nonempty : p.1 < p.2) :
    writeWire p.1 (slice bytes (p.1 - base) (p.2 - p.1)) = ⟨.write, BitVec.ofNat 40 p.1, (p.2 - p.1) / 32,
      (bytes.drop (p.1 - base)).take (p.2 - p.1), List.replicate (p.2 - p.1) true⟩ := by
  have size : (slice bytes (p.1 - base) (p.2 - p.1)).length = p.2 - p.1 := length_slice _ _ _ (by omega)
  rw [writeWire, size]
  rfl

theorem statusMap_aligned {g : Geom} (aligned : g.statusBase % 64 = 0) (slot : Nat) :
    (g.statusBase + slot * g.statusStride) % 64 = 0 ∧ g.statusStride % 64 = 0 := by
  unfold Geom.statusStride
  rw [← Nat.mul_assoc]
  omega

/-- The parts of a slot's status map (R120). -/
theorem statusMapParts_spec {g : Geom} (some_tile : 1 ≤ g.tiles) (aligned : g.statusBase % 64 = 0) (slot : Nat) :
    let base := g.statusBase + slot * g.statusStride
    let parts := cutAt 256 base (base + g.statusStride)
    (parts.map partSize).sum = g.statusStride ∧
    ∀ i p, parts[i]? = some p → p.1 = base + ((parts.take i).map partSize).sum ∧ p.1 < p.2 ∧ p.2 ≤ base + g.statusStride ∧
      (0 < i → p.1 % 256 = 0) ∧ p.1 / 256 = (p.2 - 1) / 256 ∧ (p.2 - p.1) / 32 ∈ [2, 4, 6, 8] := by
  intro base parts
  have fits := tiles_le_statusStride g
  obtain ⟨base_aligned, stride_aligned⟩ : base % 64 = 0 ∧ g.statusStride % 64 = 0 := statusMap_aligned aligned slot
  obtain ⟨total, each⟩ := cutAt_spec (w := 256) (lo := base) (hi := base + g.statusStride) (by decide) (by omega)
  refine ⟨total.trans (Nat.add_sub_cancel_left ..), fun i p there => ?_⟩
  obtain ⟨start, nonempty, inside, boundary, block, stop⟩ := each i p there
  refine ⟨start, nonempty, inside, boundary, block, ?_⟩
  have start_aligned : p.1 % 64 = 0 := by
    rcases Nat.eq_zero_or_pos i with rfl | later
    · rw [start, List.take_zero, List.map_nil, List.sum_nil]
      exact base_aligned
    · have := boundary later
      omega
  simp only [List.mem_cons, List.not_mem_nil, or_false]
  omega

/-! ### Fields (R184) -/

theorem recField_zero (bytes : List Byte) (off : Nat) : recField bytes off 0 = 0 := by
  rw [recField, List.take_zero]
  rfl

theorem recField_succ (bytes : List Byte) (off size : Nat) :
    recField bytes off (size + 1) = (bytes.getD off 0).toNat + 256 * recField bytes (off + 1) size := by
  by_cases inside : off < bytes.length
  · rw [recField, List.drop_eq_getElem_cons inside, List.take_succ_cons, leNat, ← List.getElem_eq_getD (h := inside)]
    rfl
  · have past : bytes.length ≤ off := Nat.le_of_not_lt inside
    have absent : bytes.getD off 0 = 0 := by rw [List.getD_eq_getElem?_getD, List.getElem?_eq_none past, Option.getD_none]
    rw [recField, recField, List.drop_eq_nil_of_le past, List.drop_eq_nil_of_le (by omega), absent, List.take_nil, List.take_nil]
    rfl

/-- The bytes of fields that follow one another, each its size and its value. -/
def fieldBytes (fs : List (Nat × Nat)) : List Byte := fs.flatMap fun f => leBytes f.1 f.2

theorem length_fieldBytes (fs : List (Nat × Nat)) : (fieldBytes fs).length = (fs.map Prod.fst).sum := by
  rw [fieldBytes, List.length_flatMap]
  exact congrArg List.sum (List.map_congr_left fun f _ => length_leBytes ..)

/-- A field stands behind those ahead of it. -/
theorem recField_fieldBytes {fs : List (Nat × Nat)} {i size v off : Nat} (there : fs[i]? = some (size, v))
    (small : v < 256 ^ size) (offset : ((fs.take i).map Prod.fst).sum = off) (rest : List Byte) :
    recField (fieldBytes fs ++ rest) off size = v := by
  obtain ⟨inside, here⟩ := List.getElem?_eq_some_iff.mp there
  have split : fs = fs.take i ++ (size, v) :: fs.drop (i + 1) := by
    rw [← here, ← List.drop_eq_getElem_cons inside, List.take_append_drop]
  have bytes : fieldBytes fs ++ rest = fieldBytes (fs.take i) ++ (leBytes size v ++ (fieldBytes (fs.drop (i + 1)) ++ rest)) := by
    conv => lhs; rw [split]
    simp [fieldBytes]
  rw [bytes]
  exact recField_at _ _ _ _ _ ((length_fieldBytes _).trans offset) small

/-! ### The frame record (R187) -/

/-- The fields of a frame record ahead of its kind counts, each with its size. -/
def FrameRecord.headFields (r : FrameRecord) : List (Nat × Nat) := [(1, r.stream.val), (1, r.slot), (2, r.tiles), (4, r.frame)]

/-- The fields of a frame record behind its kind counts, each with its size. -/
def FrameRecord.tailFields (r : FrameRecord) : List (Nat × Nat) :=
  [(2, r.changedIn), (2, r.evicted), (2, r.aged), (2, r.closed), (2, r.migrated), (1, r.flags)]

/-- The fields of a frame record in their order, each with its size. -/
def FrameRecord.fields (r : FrameRecord) : List (Nat × Nat) := r.headFields ++ r.kinds.map (Prod.mk 2) ++ r.tailFields

theorem bytes_eq_fields (r : FrameRecord) : r.bytes = fieldBytes r.fields ++ List.replicate 29 0 := by
  simp [FrameRecord.bytes, FrameRecord.fields, FrameRecord.headFields, FrameRecord.tailFields, fieldBytes, List.flatMap_map,
    List.append_assoc]

theorem size_kinds (ns : List Nat) : ((ns.map (Prod.mk 2)).map Prod.fst).sum = 2 * ns.length := by
  induction ns with
  | nil => rfl
  | cons n ns ih =>
    rw [List.map_cons, List.map_cons, List.sum_cons, ih, List.length_cons]
    omega

theorem size_take_tailFields (r : FrameRecord) {i : Nat} (inside : i < 6) : ((r.tailFields.take i).map Prod.fst).sum = 2 * i :=
  match i, inside with
  | 0, _ | 1, _ | 2, _ | 3, _ | 4, _ | 5, _ => rfl

section
variable {r : FrameRecord} (eight : r.kinds.length = 8)
include eight

theorem length_fields : (fieldBytes r.fields).length = 35 := by
  rw [length_fieldBytes, FrameRecord.fields, List.map_append, List.map_append, List.sum_append, List.sum_append, size_kinds,
    eight]
  rfl

theorem getElem?_bytes_past {i : Nat} (past : 35 ≤ i) (inside : i < 64) : r.bytes[i]? = some 0 := by
  have fields := length_fields eight
  rw [bytes_eq_fields, List.getElem?_append_right (by omega), List.getElem?_replicate_of_lt (by omega)]

omit eight in
theorem recField_kind {c n : Nat} (there : r.kinds[c]? = some n) (small : n < 65536) :
    recField r.bytes (8 + 2 * c) 2 = n := by
  obtain ⟨inside, here⟩ := List.getElem?_eq_some_iff.mp there
  rw [bytes_eq_fields]
  refine recField_fieldBytes (i := r.headFields.length + c) ?_ small ?_ _
  · have ahead : r.headFields.length + c < (r.headFields ++ r.kinds.map (Prod.mk 2)).length := by
      rw [List.length_append, List.length_map]
      omega
    rw [FrameRecord.fields, List.getElem?_append_left ahead, List.getElem?_append_right (Nat.le_add_right ..),
      Nat.add_sub_cancel_left, List.getElem?_map, there]
    rfl
  · rw [FrameRecord.fields, List.append_assoc, List.take_length_add_append,
      List.take_append_of_le_length (by rw [List.length_map]; exact Nat.le_of_lt inside), ← List.map_take, List.map_append,
      List.sum_append, size_kinds, List.length_take, Nat.min_eq_left (Nat.le_of_lt inside)]
    rfl

/-- A field behind the kind counts. -/
theorem recField_tail {i size v off : Nat} (there : r.tailFields[i]? = some (size, v)) (small : v < 256 ^ size)
    (offset : 24 + 2 * i = off) : recField r.bytes off size = v := by
  rw [bytes_eq_fields]
  refine recField_fieldBytes (i := (r.headFields ++ r.kinds.map (Prod.mk 2)).length + i) ?_ small ?_ _
  · rw [FrameRecord.fields, List.getElem?_append_right (Nat.le_add_right ..), Nat.add_sub_cancel_left]
    exact there
  · have inside : i < 6 := (List.getElem?_eq_some_iff.mp there).1
    rw [FrameRecord.fields, List.take_length_add_append, List.map_append, List.map_append, List.sum_append, List.sum_append,
      size_kinds, size_take_tailFields r inside, eight]
    exact offset

end

theorem flags_lt (r : FrameRecord) : r.flags < 256 := by
  unfold FrameRecord.flags
  split <;> split <;> split <;> omega

/-- The flags stand in bits 0 to 2 (R187). -/
theorem getLsbD_flags (r : FrameRecord) (b : Nat) : (BitVec.ofNat 8 r.flags).getLsbD b =
    ((decide (b = 0) && r.slide) || (decide (b = 1) && r.switched) || (decide (b = 2) && r.rejected)) := by
  have small : ∀ (x y z : Bool) (b : Fin 8),
      (BitVec.ofNat 8 ((if x then 1 else 0) + (if y then 2 else 0) + (if z then 4 else 0))).getLsbD b =
        ((decide (b.val = 0) && x) || (decide (b.val = 1) && y) || (decide (b.val = 2) && z)) := by decide
  by_cases inside : b < 8
  · exact small r.slide r.switched r.rejected ⟨b, inside⟩
  · rw [BitVec.getLsbD_of_ge _ _ (Nat.le_of_not_lt inside)]
    have h0 : b ≠ 0 := by omega
    have h1 : b ≠ 1 := by omega
    have h2 : b ≠ 2 := by omega
    simp [h0, h1, h2]

theorem flagsByte {r : FrameRecord} (eight : r.kinds.length = 8) : r.bytes.getD 34 0 = BitVec.ofNat 8 r.flags := by
  have field : recField r.bytes 34 1 = r.flags := recField_tail (i := 5) eight rfl (flags_lt r) rfl
  rw [recField_succ, recField_zero] at field
  refine BitVec.eq_of_toNat_eq ?_
  rw [BitVec.toNat_ofNat, Nat.mod_eq_of_lt (flags_lt r)]
  omega

/-! ### Status bytes (R187) -/

theorem statusByte_spec (k : StatusKind) (mark : Bool) :
    (k, (statusByte k mark).toNat % 8) ∈ [(StatusKind.blank, 0), (.carried, 1), (.committed .changed, 2),
      (.committed .aliased, 3), (.committed .retained, 4), (.committed .partialTile, 5), (.committed .exempt, 6),
      (.committed .collided, 7)] ∧
    (statusByte k mark).toNat / 8 % 16 = 0 ∧ (statusByte k mark).getLsbD 7 = mark := by
  cases k with
  | blank => cases mark <;> decide
  | carried => cases mark <;> decide
  | committed c => cases c <;> cases mark <;> decide

end Sys2Proof.Machine

open Sys2Proof Sys2Proof.Machine

/-- Settles O54: the map is its status bytes cut at block boundaries; a record is its fields, written one behind another. -/
theorem statusMapRecordAndCodeFormats : Obligations.StatusMapRecordAndCodeFormats := by
  refine ⟨fun g slot status whole some_tile aligned => ?statusMap, statusByte_spec,
    fun r eight slot tiles frame kinds changedIn evicted aged closed migrated => ?record,
    fun bytes off size => ⟨recField_zero bytes off, recField_succ bytes off size⟩, rfl, rfl, rfl, rfl, rfl⟩
  case statusMap =>
    intro bytes stride base
    have length : bytes.length = stride := length_statusMapBytes whole
    obtain ⟨total, each⟩ := statusMapParts_spec some_tile aligned slot
    refine ⟨length, fun i k there => getElem?_statusMapBytes there,
      fun i past inside => getElem?_statusMapBytes_past whole past inside, cutAt 256 base (base + stride),
      List.map_congr_left fun p hp => ?_, total, fun i p there => ?_⟩
    · obtain ⟨i, there⟩ := List.mem_iff_getElem?.mp hp
      obtain ⟨start, nonempty, inside, -⟩ := each i p there
      exact writeWire_part (start ▸ Nat.le_add_right ..) (length ▸ inside) nonempty
    · obtain ⟨start, nonempty, -, boundary, block, beats⟩ := each i p there
      exact ⟨start, nonempty, boundary, block, beats⟩
  case record =>
    have head {i size v off : Nat} (there : r.fields[i]? = some (size, v)) (small : v < 256 ^ size)
        (offset : ((r.fields.take i).map Prod.fst).sum = off) : recField r.bytes off size = v := by
      rw [bytes_eq_fields]
      exact recField_fieldBytes there small offset _
    refine ⟨r.length_bytes eight, head (i := 0) rfl (by omega) rfl, head (i := 1) rfl slot rfl, head (i := 2) rfl tiles rfl,
      head (i := 3) rfl frame rfl, fun c n there => recField_kind there (kinds n (List.mem_of_getElem? there)),
      recField_tail (i := 0) eight rfl changedIn rfl, recField_tail (i := 1) eight rfl evicted rfl,
      recField_tail (i := 2) eight rfl aged rfl, recField_tail (i := 3) eight rfl closed rfl,
      recField_tail (i := 4) eight rfl migrated rfl, fun b => ?_, fun i past inside => getElem?_bytes_past eight past inside⟩
    rw [flagsByte eight]
    exact getLsbD_flags r b

end

/-! ## Stream descriptors (O56) -/
section
namespace Sys2Proof.Machine

/-! ### The planes of a descriptor -/

/-- The descriptor has the planes that its plane count says. -/
def Geom.PlanesCounted (g : Geom) : Prop := g.planes.length = if g.planeCount = 2 then 2 else 1

section
variable {g : Geom} (counted : g.PlanesCounted)
include counted

theorem planes_two (two : g.planeCount = 2) : g.planes = [g.plane 0, g.plane 1] := by
  have length : g.planes.length = 2 := counted.trans (if_pos two)
  unfold Geom.plane
  match g.planes, length with
  | [p, q], _ => rfl

theorem planes_one (one : g.planeCount ≠ 2) : g.planes = [g.plane 0] := by
  have length : g.planes.length = 1 := counted.trans (if_neg one)
  unfold Geom.plane
  match g.planes, length with
  | [p], _ => rfl

theorem forall_planes (P : Plane → Prop) : (∀ p ∈ g.planes, P p) ↔ P (g.plane 0) ∧ (g.planeCount = 2 → P (g.plane 1)) := by
  by_cases two : g.planeCount = 2
  · simp [planes_two counted two, two]
  · simp [planes_one counted two, two]

theorem tiles_planes : g.tiles =
    if g.planeCount = 2 then (g.plane 0).tiles + (g.plane 1).tiles else (g.plane 0).tiles := by
  by_cases two : g.planeCount = 2
  · simp [Geom.tiles, planes_two counted two, two]
  · simp [Geom.tiles, planes_one counted two, two]

end

/-! ### The checks of GEOMETRY (R161) -/

theorem plane_ok_iff (p : Plane) : p.ok = true ↔
    64 ≤ p.width ∧ p.width ≤ 4096 ∧ p.width % 64 = 0 ∧ p.pitch % 256 = 0 ∧ p.width ≤ p.pitch ∧ p.pitch ≤ 8192 ∧
    16 ≤ p.height ∧ p.height ≤ 1088 ∧ (p.vfactor = 1 ∨ p.vfactor = 2) ∧ p.height * p.vfactor ≤ 1088 ∧
    (p.colBytes = 1 ∨ p.colBytes = 2 ∨ p.colBytes = 4) ∧ p.raster % 4096 = 0 := by
  have page : Config.page = 4096 := rfl
  simp only [Plane.ok, page, Bool.and_eq_true, Bool.or_eq_true, beq_iff_eq, decide_eq_true_eq, and_assoc, or_assoc]

theorem runsMeet_iff (a b : Nat × Nat) : runsMeet a b = true ↔ a.1 < b.2 ∧ b.1 < a.2 := by simp [runsMeet]

theorem planesApart_iff (g : Geom) : g.planesApart = true ↔
    (g.planeCount = 2 → (g.plane 0).rasterEnd ≤ (g.plane 1).raster ∨ (g.plane 1).rasterEnd ≤ (g.plane 0).raster) := by
  rw [Geom.planesApart, Bool.or_eq_true, bne_iff_ne, Bool.not_eq_true', ← Bool.not_eq_true, runsMeet_iff]
  dsimp only
  omega

theorem geom_ok_iff (g : Geom) : g.ok = true ↔
    2 ≤ g.slots ∧ g.slots ≤ 16 ∧ (g.planeCount = 1 ∨ g.planeCount = 2) ∧ (∀ p ∈ g.planes, p.ok = true) ∧
    g.planesApart = true ∧ g.tiles ≤ 6528 ∧ g.aperture % 4096 = 0 ∧ g.viewStride % 4096 = 0 ∧ g.storage % 4096 = 0 ∧
    (∀ p ∈ g.planes, p.rasterEnd ≤ g.viewStride) ∧ g.statusBase % 64 = 0 ∧ g.ringBase % 64 = 0 ∧ 4 ≤ g.ringEntries ∧
    g.ringEntries ≤ 256 ∧ g.threshold ≤ g.tiles ∧ g.initialWin % 64 = 0 ∧ g.initialWin < 2 ^ 40 ∧
    g.apertureEnd ≤ 2 ^ 40 ∧ g.storage + g.slots * g.slotStride ≤ 2 ^ 40 ∧
    g.statusBase + g.slots * g.statusStride ≤ 2 ^ 40 ∧ g.ringBase + g.ringEntries * 64 ≤ 2 ^ 40 := by
  have page : Config.page = 4096 := rfl
  have tiles : Config.maxTiles = 6528 := rfl
  have addresses : Config.addressEnd = 2 ^ 40 := rfl
  simp only [Geom.ok, Geom.initialWinOk, Geom.apertureRun, Geom.guardRuns, page, tiles, addresses, List.all_cons, List.all_nil,
    List.all_eq_true, Bool.and_eq_true, Bool.or_eq_true, beq_iff_eq, decide_eq_true_eq, and_assoc, and_true]

/-! ### Ranges (R162) -/

theorem selfOverlap_iff (g : Geom) : g.selfOverlap = true ↔ ∃ (i j : Nat) (a b : Nat × Nat), i < j ∧ g.runs[i]? = some a ∧
    g.runs[j]? = some b ∧ a.1 < b.2 ∧ b.1 < a.2 := by
  rw [Geom.selfOverlap, Bool.not_eq_true', decide_eq_false_iff_not, List.pairwise_iff_getElem]
  simp only [Bool.not_eq_true', ← Bool.not_eq_true, runsMeet_iff, Classical.not_forall, Classical.not_not]
  constructor
  · rintro ⟨i, j, inI, inJ, before, overlap⟩
    exact ⟨i, j, _, _, before, List.getElem?_eq_getElem inI, List.getElem?_eq_getElem inJ, overlap⟩
  · rintro ⟨i, j, a, b, before, atI, atJ, overlap⟩
    obtain ⟨inI, rfl⟩ := List.getElem?_eq_some_iff.mp atI
    obtain ⟨inJ, rfl⟩ := List.getElem?_eq_some_iff.mp atJ
    exact ⟨i, j, inI, inJ, before, overlap⟩

theorem meets_iff (g h : Geom) : g.meets h = true ↔ ∃ a ∈ g.runs, ∃ b ∈ h.runs, a.1 < b.2 ∧ b.1 < a.2 := by
  simp only [Geom.meets, List.any_eq_true, runsMeet_iff]

theorem rangeOverlap_iff (s : State) (st : StreamId) (g : Geom) : s.rangeOverlap st g = true ↔
    g.selfOverlap = true ∨ ∃ u h, u ≠ st ∧ (s.stream u).geom = some h ∧ g.meets h = true := by
  rw [State.rangeOverlap, Bool.or_eq_true, List.any_eq_true]
  refine or_congr_right (exists_congr fun u => ?_)
  rw [and_iff_right (List.mem_finRange u), Bool.and_eq_true, bne_iff_ne]
  cases (s.stream u).geom <;> simp

end Sys2Proof.Machine

open Sys2Proof Sys2Proof.Machine

/-- Settles O56: the fields are the reader's own; each check is its test read out. -/
theorem descriptorFieldsAndChecks : Obligations.DescriptorFieldsAndChecks := by
  refine ⟨fun bytes => ?fields, fun lo hi first second before => ⟨if_pos before, if_neg (Nat.lt_asymm before)⟩,
    fun g counted => ?checks, fun s st g => ?ranges⟩
  case fields =>
    exact ⟨rfl, rfl, rfl, rfl, rfl, rfl, rfl, rfl, rfl, rfl, rfl, rfl, fun two => if_pos two, fun one => if_neg one⟩
  case checks =>
    intro p0 p1 planeOk tilesOf t
    have tiles : g.tiles = t := tiles_planes counted
    have stride : g.slotStride = (t * 1024 + 4095) / 4096 * 4096 := by rw [Geom.slotStride, tiles]
    have status : g.statusStride = (t + 63) / 64 * 64 := by rw [Geom.statusStride, tiles]
    have plane_iff (p : Plane) : planeOk p ↔ p.ok = true ∧ p.rasterEnd ≤ g.viewStride := by
      rw [plane_ok_iff]
      simp only [planeOk, and_assoc]
      rfl
    refine ⟨tiles, ?_⟩
    rw [geom_ok_iff, forall_planes counted, forall_planes counted, planesApart_iff, tiles, stride, status, plane_iff, plane_iff]
    constructor
    · rintro ⟨slots, slots', count, ⟨ok0, ok1⟩, apart, most, aperture, view, storage, ⟨fits0, fits1⟩, rest⟩
      exact ⟨slots, slots', count, ⟨ok0, fits0⟩, fun two => ⟨⟨ok1 two, fits1 two⟩, apart two⟩, most, aperture, view,
        storage, rest⟩
    · rintro ⟨slots, slots', count, ⟨ok0, fits0⟩, second, most, aperture, view, storage, rest⟩
      exact ⟨slots, slots', count, ⟨ok0, fun two => (second two).1.1⟩, fun two => (second two).2, most, aperture, view,
        storage, ⟨fits0, fun two => (second two).1.2⟩, rest⟩
  case ranges =>
    intro runs overlap
    rw [rangeOverlap_iff, selfOverlap_iff]
    simp only [meets_iff]
    rfl

end

/-! ## The end of a descriptor fetch (O57) -/
section
namespace Sys2Proof.Machine

/-! ### Validation (R162) -/

section
variable {s : State} {st : StreamId} {g : Geom}

theorem validate_geometry (bad : g.ok = false) : s.validate st g = some .geometry := if_pos (by simp [bad])

variable (ok : g.ok = true)
include ok

theorem validate_rangeOverlap (overlap : s.rangeOverlap st g = true) : s.validate st g = some .rangeOverlap :=
  (if_neg (by simp [ok])).trans (if_pos overlap)

variable (apart : s.rangeOverlap st g = false)
include apart

theorem validate_noRoom (full : s.freeBanks.length < g.banksNeeded) : s.validate st g = some .noRoom :=
  (if_neg (by simp [ok])).trans ((if_neg (by simp [apart])).trans (if_pos full))

theorem validate_passed (enough : g.banksNeeded ≤ s.freeBanks.length) : s.validate st g = none :=
  (if_neg (by simp [ok])).trans ((if_neg (by simp [apart])).trans (if_neg (Nat.not_lt.mpr enough)))

end

/-- A descriptor is tested against the other streams alone. -/
theorem rangeOverlap_congr {s t : State} {st : StreamId} (same : ∀ u, u ≠ st → t.stream u = s.stream u) (g : Geom) :
    t.rangeOverlap st g = s.rangeOverlap st g := by
  rw [Bool.eq_iff_iff, rangeOverlap_iff, rangeOverlap_iff]
  refine or_congr_right (exists_congr fun u => exists_congr fun h => and_congr_right fun other => ?_)
  rw [same u other]

/-! ### The answers of the fetch (R160) -/

/-- A stream record with a descriptor read answered. -/
def Stream.fetched (x : Stream) (w : Wire) (a : DramAnswer) : Stream :=
  match a.status with
  | .okay => { x with fetch := x.fetch ++ [(w.addr.toNat, a.data)] }
  | .dataError => { x with fetchFailed := true }

theorem state_fetched (x : Stream) (w : Wire) (a : DramAnswer) : (x.fetched w a).state = x.state := by
  unfold Stream.fetched
  split <;> rfl

section
variable {s : State} {st : StreamId} {w : Wire} {a : DramAnswer}

theorem fetchAnswered_waiting (busy : ∃ y ∈ s.internal, y.owner = .descFetch st) :
    s.fetchAnswered st w a = s.setStream st ((s.stream st).fetched w a) :=
  if_pos ((outstanding_owner _ _).mpr busy)

theorem fetchAnswered_last (last : ∀ y ∈ s.internal, y.owner ≠ .descFetch st) :
    s.fetchAnswered st w a = (s.setStream st ((s.stream st).fetched w a)).fetchEnd st :=
  if_neg (Bool.not_eq_true _ ▸ outstanding_owner_false _ _ last)

end

section
variable {s : State} {st : StreamId} {x : Stream} (here : s.stream st = x) (loading : x.state = .loading)
include here loading

theorem fetchEnd_failed (failed : x.fetchFailed = true) : s.fetchEnd st = s.refuseSetup st .fetchError := by
  subst here
  exact (if_neg (not_not_intro loading)).trans (if_pos failed)

variable (sound : x.fetchFailed = false)
include sound

theorem fetchEnd_refused {why : SetupReason} (refused : s.validate st (geomOfBytes (descriptorBytes x.fetch)) = some why) :
    s.fetchEnd st = s.refuseSetup st why := by
  subst here
  rw [State.fetchEnd]
  dsimp only
  rw [if_neg (not_not_intro loading), if_neg (by simp [sound]), refused]

theorem fetchEnd_passed (passed : s.validate st (geomOfBytes (descriptorBytes x.fetch)) = none) :
    s.fetchEnd st = s.passValidation st (geomOfBytes (descriptorBytes x.fetch)) := by
  subst here
  rw [State.fetchEnd]
  dsimp only
  rw [if_neg (not_not_intro loading), if_neg (by simp [sound]), passed]

end

/-! ### The ends of a setup (R163) -/

theorem refuseSetup_eq (s : State) (st : StreamId) (why : SetupReason) : s.refuseSetup st why =
    ((s.putBanks (s.stream st).banks).setStream st { Stream.reset with reason := why }).raise .setupRefused st := by
  rw [State.refuseSetup, returnBanks_setStream]

theorem mem_putBanks (s : State) (bs : List Nat) (b : Nat) :
    b ∈ (s.putBanks bs).freeBanks ↔ b < 160 ∧ (b ∈ s.freeBanks ∨ b ∈ bs) := by
  simp [State.putBanks, Config.banks]

/-- A stream record with its descriptor validated (R163). -/
def Stream.validated (x : Stream) (g : Geom) (banks : List Nat) : Stream :=
  { x with banks := banks, geom := some g, active := .null, store := [], switched := false, rejected := false, fetch := []
           fetchFailed := false }

section
variable {s : State} {st : StreamId} {g : Geom}

theorem passValidation_opened (at_once : g.initialWin = 0) : s.passValidation st g =
    ((s.takeBanks g.banksNeeded).setStream st
      ((s.stream st).validated g (s.lowestFree g.banksNeeded)).justOpened).raise .setupDone st := by
  rw [State.passValidation]
  dsimp only
  rw [if_pos at_once, State.openStream, State.allot, stream_setStream_self, setStream_setStream, stream_setStream_self,
    setStream_setStream]
  rfl

theorem passValidation_loading (loads : g.initialWin ≠ 0) : s.passValidation st g =
    ((s.takeBanks g.banksNeeded).setStream st
      { (s.stream st).validated g (s.lowestFree g.banksNeeded) with loadingWin := some g.initialWin }).handInternal
        (.winDesc st) [readWire g.initialWin 2] := by
  rw [State.passValidation]
  dsimp only
  rw [if_neg loads, State.beginLoad, State.allot, stream_setStream_self, setStream_setStream, stream_setStream_self,
    setStream_setStream]
  rfl

end

theorem freeBanks_passValidation (s : State) (st : StreamId) (g : Geom) :
    (s.passValidation st g).freeBanks = s.freeBanks.drop g.banksNeeded := by
  by_cases at_once : g.initialWin = 0
  · rw [passValidation_opened at_once]
    rfl
  · rw [passValidation_loading at_once]
    rfl

theorem window_passValidation (s : State) (st : StreamId) (g : Geom) :
    ((s.passValidation st g).stream st).active = .null ∧ ((s.passValidation st g).stream st).store = [] := by
  by_cases at_once : g.initialWin = 0
  · rw [passValidation_opened at_once, stream_raise, stream_setStream_self]
    exact ⟨rfl, rfl⟩
  · rw [passValidation_loading at_once]
    have here := stream_setStream_self (s.takeBanks g.banksNeeded) st
      { (s.stream st).validated g (s.lowestFree g.banksNeeded) with loadingWin := some g.initialWin }
    exact ⟨congrArg Stream.active here, congrArg Stream.store here⟩

theorem stream_passValidation_ne {s : State} {st u : StreamId} (other : u ≠ st) (g : Geom) :
    (s.passValidation st g).stream u = s.stream u := by
  by_cases at_once : g.initialWin = 0
  · rw [passValidation_opened at_once, stream_raise, stream_setStream, if_neg other]
    rfl
  · rw [passValidation_loading at_once]
    exact (stream_setStream _ _ _ _).trans (if_neg other)

/-- The front of an ascending pool is below the rest of it. -/
theorem take_lt_drop {bs : List Nat} (ascending : bs.Pairwise (· < ·)) (n : Nat) : ∀ a ∈ bs.take n, ∀ b ∈ bs.drop n, a < b := by
  rw [← List.take_append_drop n bs, List.pairwise_append] at ascending
  exact ascending.2.2

end Sys2Proof.Machine

open Sys2Proof Sys2Proof.Machine

/-- Settles O57: the answer reaches the fetch, the last one ends it by the first reason that applies; what each end leaves. -/
theorem descriptorFetchEndsTheSetupOrValidates : Obligations.DescriptorFetchEndsTheSetupOrValidates := by
  refine ⟨⟨fun a s x st issued kept owner read fits loading => ?answer, fun s st why => ⟨_, rfl, ?refused⟩⟩,
    fun s st g => ⟨_, rfl, ?passed⟩⟩
  case answer =>
    intro left y t g
    have y_eq : (s.stream st).fetched x.wire a = y := rfl
    have here : t.stream st = y := stream_setStream_self ..
    have still : y.state = .loading := (state_fetched ..).trans loading
    have handed : s.internalAnswer Owner.isDescFetch a (deliverInternal a) =
        State.fetchAnswered { s with internal := left } st x.wire a := by
      rw [internalAnswer_handed issued kept (by rw [owner]; rfl) (fits_read read fits), owner]
      rfl
    have answered {u : State} (h : State.fetchAnswered { s with internal := left } st x.wire a = u) :
        exec (.descriptorFetchAnswer a) s = .next u.finish := next_finish_congr (handed.trans h)
    refine ⟨fun busy => answered (fetchAnswered_waiting busy), fun last => ?_⟩
    have ends {u : State} (h : t.fetchEnd st = u) : exec (.descriptorFetchAnswer a) s = .next u.finish :=
      answered ((fetchAnswered_last last).trans h)
    have overlap_eq : t.rangeOverlap st g = s.rangeOverlap st g :=
      rangeOverlap_congr (fun u other => (stream_setStream s st u y).trans (if_neg other)) g
    refine ⟨fun failed => ends (fetchEnd_failed here still failed),
      fun sound bad => ends (fetchEnd_refused here still sound (validate_geometry bad)),
      fun sound ok overlap => ends (fetchEnd_refused here still sound (validate_rangeOverlap ok (overlap_eq.trans overlap))),
      fun sound ok apart full => ends (fetchEnd_refused here still sound (validate_noRoom ok (overlap_eq.trans apart) full)),
      fun sound ok apart enough => ends (fetchEnd_passed here still sound (validate_passed ok (overlap_eq.trans apart) enough))⟩
  case refused =>
    rw [refuseSetup_eq]
    refine ⟨?_, fun u other => ?_, mem_putBanks s _, cause_raise_self _ .setupRefused st, fun i other => ?_, rfl⟩
    · rw [stream_raise, stream_setStream_self]
    · rw [stream_raise, stream_setStream, if_neg other]
      rfl
    · exact cause_raise_ne (c := .setupRefused) other
  case passed =>
    obtain ⟨mapMem, banks, geom⟩ := passValidation_cells s st g
    obtain ⟨active, store⟩ := window_passValidation s st g
    refine ⟨freeBanks_passValidation s st g, banks, fun k inside => ?_, fun k outside => ?_,
      fun ascending => take_lt_drop ascending _, geom, active, store, fun u other => stream_passValidation_ne other g,
      fun at_once => ?_, fun loads => ?_⟩
    · rw [mapMem]
      exact MapMemory.read_clearBanks_in _ _ k inside
    · rw [mapMem]
      exact MapMemory.read_clearBanks_out _ _ k outside
    · rw [passValidation_opened at_once, stream_raise, stream_setStream_self]
      exact ⟨rfl, rfl, rfl, rfl, rfl, rfl, rfl, rfl, rfl, rfl, rfl, cause_raise_self _ .setupDone st, rfl⟩
    · rw [passValidation_loading loads]
      have here := stream_setStream_self (s.takeBanks g.banksNeeded) st
        { (s.stream st).validated g (s.lowestFree g.banksNeeded) with loadingWin := some g.initialWin }
      exact ⟨(congrArg Stream.state here :), congrArg Stream.loadingWin here, rfl, rfl⟩

end

/-! ## The work of one stream abandoned (O58) -/
section
namespace Sys2Proof.Machine

/-! ### Transfers and entries (R56, R146) -/

theorem stream_of_tile {o : Owner} {st : StreamId} {pos : Nat} (tile : o.tile = some (st, pos)) : o.stream = some st := by
  cases o <;> simp_all [Owner.tile, Owner.stream]

theorem owner_abandoned (st : StreamId) (x : Xfer) :
    (if x.owner.stream = some st then { x with abandoned := true } else x).owner = x.owner := by
  split <;> rfl

/-- Of a tile's transfers, those already issued stay outstanding (R146). -/
theorem tile_abandonXfers_iff (st : StreamId) (pos : Nat) (xs : List Xfer) :
    ((abandonXfers st xs).any fun x => x.owner.tile == some (st, pos)) = true ↔
      ∃ x ∈ xs, x.issued = true ∧ x.owner.tile = some (st, pos) := by
  rw [abandonXfers, List.any_map, List.any_filter, List.any_eq_true]
  refine exists_congr fun x => and_congr_right fun _ => ?_
  simp only [Function.comp, owner_abandoned, Bool.and_eq_true, Bool.or_eq_true, bne_iff_ne, beq_iff_eq]
  exact and_congr_left fun tile => or_iff_left (not_not_intro (stream_of_tile tile))

theorem entries_abandonWork_eq (s : State) (st : StreamId) :
    (s.abandonWork st).entries = s.entries.filter fun e => !(e.stream == st &&
      (e.collecting || !(abandonXfers st s.internal).any fun x => x.owner.tile == some (st, e.pos))) :=
  rfl

/-- The entries that abandoned work leaves (R56). -/
theorem mem_entries_abandonWork_iff (s : State) (st : StreamId) (e : Entry) : e ∈ (s.abandonWork st).entries ↔
    e ∈ s.entries ∧ (e.stream = st → e.collecting = false ∧
      ∃ x ∈ s.internal, x.issued = true ∧ x.owner.tile = some (st, e.pos)) := by
  rw [entries_abandonWork_eq, List.mem_filter, ← tile_abandonXfers_iff]
  refine and_congr_right fun _ => ?_
  by_cases own : e.stream = st
  · simp [own]
  · simp [own]

/-- The freed entries leave the last-write order (R41). -/
theorem lastWrite_abandonWork (s : State) (st : StreamId) : (s.abandonWork st).lastWrite =
    s.lastWrite.filter fun n => (s.abandonWork st).entries.any fun e => e.num == n :=
  rfl

/-! ### Held requests (R54, R138, R141) -/

/-- The holds that the entries freed by abandoned work release (R54). -/
theorem holdQ_abandonWork (s : State) (st : StreamId) : (s.abandonWork st).holdQ = s.holdQ.map fun h =>
    if ∃ n, n ≤ 64 - (s.abandonWork st).entries.length ∧ h.reason = .noEntry n then { h with released := true } else h :=
  List.map_congr_left fun h _ => ite_congr (propext (entriesMeet_iff _ h.reason)) (fun _ => rfl) fun _ => rfl

theorem ids_sweepQueue (p : Held → Bool) (ahead : List Held) (gone : Bool) (q : List Held) :
    (sweepQueue p ahead gone q).map Held.id = (q.filter fun h => !p h).map Held.id := by
  induction q generalizing ahead gone with
  | nil => rfl
  | cons h q ih =>
    rw [sweepQueue]
    by_cases leaves : p h = true
    · rw [if_pos leaves, ih, List.filter_cons_of_neg (by simp [leaves])]
    · rw [if_neg leaves, List.filter_cons_of_pos (by simpa using leaves), List.map_cons, List.map_cons, ih]
      congr 1
      split <;> rfl

/-- A held request released is found, or left out, where it was. -/
theorem filter_releaseWhere_ids (clears : HoldReason → Bool) {p : Held → Bool}
    (blind : ∀ h : Held, p { h with released := true } = p h) (q : List Held) :
    ((releaseWhere clears q).filter p).map Held.id = (q.filter p).map Held.id := by
  have same (h : Held) : p (if clears h.reason then { h with released := true } else h) = p h := by
    split
    · exact blind h
    · rfl
  rw [releaseWhere, List.filter_map, List.map_map]
  refine (List.map_congr_left fun h _ => ?_).trans (congrArg _ (List.filter_congr fun h _ => same h))
  dsimp only [Function.comp]
  split <;> rfl

theorem find?_releaseWhere (clears : HoldReason → Bool) {p : Held → Bool}
    (blind : ∀ h : Held, p { h with released := true } = p h) (q : List Held) :
    (releaseWhere clears q).find? p =
      (q.find? p).map fun h => if clears h.reason then { h with released := true } else h := by
  have same (h : Held) : p (if clears h.reason then { h with released := true } else h) = p h := by
    split
    · exact blind h
    · rfl
  rw [releaseWhere, List.find?_map]
  exact congrArg (Option.map _) (congrArg (fun p => q.find? p) (funext same))

/-- What becomes of a request in the tag order when a stream's held requests are answered (R141). -/
def Taken.answeredHeld (q : List Held) (st : StreamId) (ans : Request → Answer) (u : Taken) : Taken :=
  match q.find? fun h => h.id == u.id && h.stream == some st with
  | some h => { u with answer := some (ans h.req) }
  | none => u

theorem answeredHeld_releaseWhere (clears : HoldReason → Bool) (q : List Held) (st : StreamId) (ans : Request → Answer)
    (u : Taken) : u.answeredHeld (releaseWhere clears q) st ans = u.answeredHeld q st ans := by
  rw [Taken.answeredHeld, Taken.answeredHeld, find?_releaseWhere clears (fun _ => rfl)]
  cases q.find? fun h => h.id == u.id && h.stream == some st with
  | none => rfl
  | some h =>
    dsimp only [Option.map_some]
    split <;> rfl

section
variable (s : State) (st : StreamId) (ans : Request → Answer)

theorem tagOrder_abandoned : ((s.abandonWork st).answerHeld st ans).tagOrder = s.tagOrder.map (Taken.answeredHeld s.holdQ st ans) :=
  List.map_congr_left fun u _ => answeredHeld_releaseWhere (entriesMeet _) s.holdQ st ans u

theorem ids_abandoned : ((s.abandonWork st).answerHeld st ans).holdQ.map Held.id =
    (s.holdQ.filter fun h => h.stream != some st).map Held.id :=
  (ids_sweepQueue ..).trans (filter_releaseWhere_ids (entriesMeet _) (fun _ => rfl) s.holdQ)

/-- Where a held request of another stream, or of none, stands after a stream's were answered (R138, R140). -/
theorem holdQ_abandoned_split {ahead behind : List Held} {h : Held} (queue : (s.abandonWork st).holdQ = ahead ++ h :: behind)
    (stays : h.stream ≠ some st) : ∃ before after,
      before.map Held.id = (ahead.filter fun a => a.stream != some st).map Held.id ∧
      ((s.abandonWork st).answerHeld st ans).holdQ = before ++
        (if (∃ a ∈ ahead, a.stream = some st) ∧ h.orderClear before = true then { h with released := true } else h) ::
          after := by
  obtain ⟨before, after, ids, swept⟩ := sweepQueue_split (fun h => h.stream == some st) _ [] false ahead behind h queue
    (beq_eq_false_iff_ne.mpr stays)
  refine ⟨before, after, ids, swept.trans ?_⟩
  simp only [Bool.false_eq_true, false_or, beq_iff_eq, List.nil_append]

theorem stream_abandoned (u : StreamId) : ((s.abandonWork st).answerHeld st ans).stream u =
    if u = st then (s.stream st).idle else s.stream u :=
  stream_abandonWork s st u

end

/-! ### Everything else -/

/-- The two states agree but for what belongs to the work of streams. -/
def OnlyWork (s t : State) : Prop :=
  t = { s with
    streams := t.streams, entries := t.entries, lastWrite := t.lastWrite, commits := t.commits, migrations := t.migrations
    internal := t.internal, holdQ := t.holdQ, tagOrder := t.tagOrder, causes := t.causes }

theorem OnlyWork.trans {s t u : State} (h : OnlyWork s t) (k : OnlyWork t u) : OnlyWork s u := by
  have hk : u = { t with
    streams := u.streams, entries := u.entries, lastWrite := u.lastWrite, commits := u.commits, migrations := u.migrations
    internal := u.internal, holdQ := u.holdQ, tagOrder := u.tagOrder, causes := u.causes } := k
  have ht : t = { s with
    streams := t.streams, entries := t.entries, lastWrite := t.lastWrite, commits := t.commits, migrations := t.migrations
    internal := t.internal, holdQ := t.holdQ, tagOrder := t.tagOrder, causes := t.causes } := h
  refine hk.trans ?_
  rw [ht]

theorem onlyWork_with (s : State) {streams entries lastWrite commits migrations internal holdQ tagOrder causes} :
    OnlyWork s { s with
      streams := streams, entries := entries, lastWrite := lastWrite, commits := commits, migrations := migrations
      internal := internal, holdQ := holdQ, tagOrder := tagOrder, causes := causes } :=
  rfl

theorem answerHeld_shape (s : State) (st : StreamId) (ans : Request → Answer) : s.answerHeld st ans =
    { s with holdQ := (s.answerHeld st ans).holdQ, tagOrder := (s.answerHeld st ans).tagOrder } :=
  rfl

theorem abandonWork_shape (s : State) (st : StreamId) : s.abandonWork st = { s with
    streams := (s.abandonWork st).streams, entries := (s.abandonWork st).entries, lastWrite := (s.abandonWork st).lastWrite
    commits := (s.abandonWork st).commits, migrations := (s.abandonWork st).migrations
    internal := (s.abandonWork st).internal, holdQ := (s.abandonWork st).holdQ } :=
  rfl

theorem onlyWork_abandoned (s : State) (st : StreamId) (ans : Request → Answer) :
    OnlyWork s ((s.abandonWork st).answerHeld st ans) :=
  have abandons : OnlyWork s (s.abandonWork st) := (congrArg (OnlyWork s) (abandonWork_shape s st)).mpr (onlyWork_with s)
  have answers : OnlyWork (s.abandonWork st) ((s.abandonWork st).answerHeld st ans) :=
    (congrArg (OnlyWork (s.abandonWork st)) (answerHeld_shape (s.abandonWork st) st ans)).mpr (onlyWork_with _)
  abandons.trans answers

/-! ### The fault and the teardown (R165, R178) -/

/-- A stream's state changed, and some causes raised. -/
def State.entered (s : State) (st : StreamId) (state : StreamState) (causes : Vector CauseRec 12) : State :=
  { s.setStream st { s.stream st with state := state } with causes := causes }

theorem onlyWork_entered (s : State) (st : StreamId) (state : StreamState) (causes : Vector CauseRec 12) :
    OnlyWork s (s.entered st state causes) :=
  onlyWork_with s

theorem faultStream_running {s : State} {c : Cause} {st : StreamId} (running : (s.stream st).running = true) :
    s.faultStream c st = ((s.entered st .faulted (s.raise c st).causes).abandonWork st).answerHeld st
      (faultAnswer (s.geometry st).vacant) :=
  if_pos running

theorem faultStream_still {s : State} {c : Cause} {st : StreamId} (still : ¬(s.stream st).running = true) :
    s.faultStream c st = s :=
  if_neg still

theorem enterDraining_eq (s : State) (st : StreamId) : s.enterDraining st =
    ((s.entered st .draining s.causes).abandonWork st).answerHeld st fun r => abortAnswer r.kind r.beats :=
  rfl

theorem causes_faultStream {s : State} {c : Cause} {st : StreamId} (running : (s.stream st).running = true) :
    (s.faultStream c st).causes = (s.raise c st).causes := by
  rw [faultStream_running running, causes_answerHeld, causes_abandonWork]
  rfl

theorem cause_faultStream {s : State} {c : Cause} {st : StreamId} (running : (s.stream st).running = true) (i : Fin 12) :
    (s.faultStream c st).cause i = (s.raise c st).cause i := by
  rw [State.cause, causes_faultStream running]
  rfl

theorem causes_enterDraining (s : State) (st : StreamId) : (s.enterDraining st).causes = s.causes := by
  rw [enterDraining_eq, causes_answerHeld, causes_abandonWork]
  rfl

end Sys2Proof.Machine

open Sys2Proof Sys2Proof.Machine

/-- Settles O58: the fault and the teardown abandon the stream's work alike, but for its new state and the answers. -/
theorem faultAndTeardownAbandonOneStreamsWork : Obligations.FaultAndTeardownAbandonOneStreamsWork := by
  intro s st left
  have abandoned (state : StreamState) (causes : Vector CauseRec 12) (answer : Request → Answer) :
      left (((s.entered st state causes).abandonWork st).answerHeld st answer) state answer := by
    have own : (s.entered st state causes).stream st = { s.stream st with state := state } := stream_setStream_self ..
    have other (u : StreamId) (hu : u ≠ st) : (s.entered st state causes).stream u = s.stream u :=
      (stream_setStream ..).trans (if_neg hu)
    refine ⟨?stream, fun u hu => ?others, fun e => ?entries, ?commits, ?migrations, ?internal, ?lastWrite, ?ids, ?places,
      ?answers, ?rest⟩
    case stream =>
      rw [stream_abandoned, if_pos rfl, own]
      rfl
    case others => rw [stream_abandoned, if_neg hu, other u hu]
    case entries => exact mem_entries_abandonWork_iff (s.entered st state causes) st e
    case commits => rfl
    case migrations => rfl
    case internal => rfl
    case lastWrite => exact lastWrite_abandonWork (s.entered st state causes) st
    case ids => exact ids_abandoned (s.entered st state causes) st answer
    case places =>
      intro freed ahead h behind queue stays
      exact holdQ_abandoned_split (s.entered st state causes) st answer
        ((holdQ_abandonWork (s.entered st state causes) st).trans queue) stays
    case answers => exact tagOrder_abandoned (s.entered st state causes) st answer
    case rest => exact (onlyWork_entered s st state causes).trans (onlyWork_abandoned (s.entered st state causes) st answer)
  refine ⟨fun c running => ?fault, fun c opened closing => faultStream_still fun running => ?still, ?drain,
    causes_enterDraining s st⟩
  case fault =>
    have answers : faultAnswer (s.geometry st).vacant = fun r => match r.kind with
        | .read => ⟨.dataError, List.replicate (32 * r.beats) (s.geometry st).vacant⟩
        | .write => ⟨.declined, []⟩ := by
      funext r
      cases kind : r.kind with
      | read => exact faultAnswer_read kind
      | write => exact faultAnswer_write kind
    have runs := (running_iff (s.stream st)).mpr running
    refine ⟨?_, (cause_faultStream runs _).trans (cause_raise_self s c st),
      fun i hi => (cause_faultStream runs i).trans (cause_raise_ne hi)⟩
    rw [faultStream_running runs, answers]
    exact abandoned .faulted (s.raise c st).causes _
  case still => exact ((running_iff _).mp running).elim opened closing
  case drain =>
    have answers : (fun r : Request => abortAnswer r.kind r.beats) = fun r => ⟨.aborted, match r.kind with
        | .read => List.replicate (32 * r.beats) 0
        | .write => []⟩ := by
      funext r
      exact congrArg (Answer.mk .aborted) (by cases r.kind <;> rfl)
    rw [enterDraining_eq, answers]
    exact abandoned .draining s.causes _

end
